-- ==== Sys2Proof/Word.lean ====
section
/-! DEFINITION. The plainest word types of the model (00_scope.md, "Numbers and units"). Every helper that could
be wrong (bit fields, sparse maps, byte order) stands in Sys2Proof/Machine/Bits.lean, where it can be mended. -/

namespace Sys2Proof

/-- One byte. -/
abbrev Byte := BitVec 8

/-- A 64-bit word: a device register, a general register, a header word, a table word. -/
abbrev Word := BitVec 64

/-- A sparse table: key and value, keys strictly rising, and no entry equal to the value an unlisted key reads as. -/
abbrev SMap (α : Type) := List (Nat × α)

/-- A logical port number: the lowest lane it uses (R198). -/
abbrev PortNo := Fin 512

/-- A control core (R277). -/
abbrev CoreNo := Fin 8

/-- A physical Serac slice (R20). -/
abbrev SliceNo := Fin 18

end Sys2Proof
end

