-- ==== Sys2Proof/Machine/Bits.lean ====
section
/-! DEFINITION. Bit fields, sparse tables and byte order: the helpers every other file of the machine uses. -/

namespace Sys2Proof.Machine

/-- The value of field [lo+len-1:lo] of a word, as a number. -/
def fld {n : Nat} (w : BitVec n) (lo len : Nat) : Nat := (w.toNat >>> lo) % 2 ^ len

/-- One bit of a word. -/
def bitOf {n : Nat} (w : BitVec n) (i : Nat) : Bool := fld w i 1 == 1

/-- A Bool as a number. -/
def b2n (b : Bool) : Nat := if b then 1 else 0

/-- The 64-bit word that holds each listed value (low bit, width, value) in its field, and 0 elsewhere. -/
def packFields : List (Nat × Nat × Nat) → Word
  | [] => 0
  | (lo, len, v) :: rest => BitVec.ofNat 64 ((v % 2 ^ len) <<< lo) ||| packFields rest

/-- A word of ones in [lo+len-1:lo]. -/
def maskOf (lo len : Nat) : Word := BitVec.ofNat 64 ((2 ^ len - 1) <<< lo)

/-- A write that reaches only the bits of `mask` (R8: RO and reserved bits keep their value). -/
def writeMasked (mask old v : Word) : Word := (old &&& ~~~mask) ||| (v &&& mask)

/-- `w` with field [lo+len-1:lo] replaced. -/
def setFld (w : Word) (lo len v : Nat) : Word :=
  writeMasked (maskOf lo len) w (BitVec.ofNat 64 ((v % 2 ^ len) <<< lo))

/-- What a sparse table holds at a key: the listed value, or `d`. -/
def tget {α : Type} (d : α) : SMap α → Nat → α
  | [], _ => d
  | (k, v) :: rest, key => if key = k then v else if key < k then d else tget d rest key

/-- A sparse table with the entry of one key removed. -/
def terase {α : Type} : SMap α → Nat → SMap α
  | [], _ => []
  | (k, v) :: rest, key =>
    if key = k then rest else if key < k then (k, v) :: rest else (k, v) :: terase rest key

/-- A sparse table with one key's entry replaced or put in its place in the order. -/
def tinsert {α : Type} : SMap α → Nat → α → SMap α
  | [], key, x => [(key, x)]
  | (k, v) :: rest, key, x =>
    if key = k then (key, x) :: rest
    else if key < k then (key, x) :: (k, v) :: rest else (k, v) :: tinsert rest key x

/-- A write to a sparse table: the value an unlisted key reads as removes the entry. -/
def tput {α : Type} [DecidableEq α] (d : α) (m : SMap α) (key : Nat) (x : α) : SMap α :=
  if x = d then terase m key else tinsert m key x

/-- The keys rise strictly, all above `lo`. -/
def tsorted {α : Type} : Option Nat → SMap α → Bool
  | _, [] => true
  | none, (k, _) :: rest => tsorted (some k) rest
  | some lo, (k, _) :: rest => decide (lo < k) && tsorted (some k) rest

/-- The canonical form of a sparse table: keys strictly rising, no entry equal to the unlisted value. -/
def twf {α : Type} [DecidableEq α] (d : α) (m : SMap α) : Bool :=
  tsorted none m && m.all (fun kv => decide (kv.2 ≠ d))

/-- Applies a function to the entry of a key. -/
def tmod {α : Type} [DecidableEq α] (d : α) (m : SMap α) (key : Nat) (f : α → α) : SMap α :=
  tput d m key (f (tget d m key))

/-- Every entry of a sparse table changed; one that comes to the unlisted value goes. -/
def tmap {α : Type} [DecidableEq α] (d : α) (f : Nat → α → α) (m : SMap α) : SMap α :=
  (m.map (fun (kv : Nat × α) => (kv.1, f kv.1 kv.2))).filter (fun (kv : Nat × α) => decide (kv.2 ≠ d))

/-- A memory: bytes by address; an unlisted byte reads as 0. -/
abbrev Memory := SMap Byte

/-- One byte of a memory. -/
def memGet (m : Memory) (a : Nat) : Byte := tget 0 m a

/-- One byte written. -/
def memPut (m : Memory) (a : Nat) (b : Byte) : Memory := tput 0 m a b

/-- The canonical form of a memory. -/
def Memory.wf (m : Memory) : Bool := twf (0 : Byte) m

/-- `n` bytes from `a` on, lowest address first. -/
def memBytes (m : Memory) (a : Nat) : Nat → List Byte
  | 0 => []
  | n + 1 => memGet m a :: memBytes m (a + 1) n

/-- Bytes written from `a` on. -/
def memPutBytes (m : Memory) (a : Nat) : List Byte → Memory
  | [] => m
  | b :: rest => memPutBytes (memPut m a b) (a + 1) rest

/-- The number a little-endian byte list stands for. -/
def leNat : List Byte → Nat
  | [] => 0
  | b :: rest => b.toNat + 256 * leNat rest

/-- The number a byte list with the most significant byte first stands for. -/
def beNat (bs : List Byte) : Nat := bs.foldl (fun acc b => acc * 256 + b.toNat) 0

/-- `n` bytes of a number, least significant first. -/
def leBytes : Nat → Nat → List Byte
  | 0, _ => []
  | n + 1, v => BitVec.ofNat 8 v :: leBytes n (v / 256)

/-- `n` bytes of a number, most significant first. -/
def beBytes (n v : Nat) : List Byte := (leBytes n v).reverse

/-- The bytes of a word as it lies in memory (little-endian). -/
def wordLE (w : Word) : List Byte := leBytes 8 w.toNat

/-- The bytes of a header word on the wire (most significant byte first, R151). -/
def wordBE (w : Word) : List Byte := beBytes 8 w.toNat

/-- Rounded-up division. -/
def ceilDiv (a b : Nat) : Nat := (a + b - 1) / b

/-- The first entry of a list that fits, with the others in order. -/
def takeFirst {α : Type} (p : α → Bool) : List α → Option (α × List α)
  | [] => none
  | x :: rest =>
    if p x then some (x, rest) else
    match takeFirst p rest with
    | none => none
    | some (y, r) => some (y, x :: r)

/-- The number of ones among bits `0` to `n - 1`. -/
def popCount (v : Nat) : Nat → Nat
  | 0 => 0
  | n + 1 => (v >>> n) % 2 + popCount v n

/-- The index of the top set bit of a nonzero number; 0 for 0. -/
def msb (m : Nat) : Nat := m.log2

/-- Two's complement value of the low `n` bits of a number. -/
def sintOf (n v : Nat) : Int :=
  let w := v % 2 ^ n
  if 2 * w < 2 ^ n then (w : Int) else (w : Int) - (2 ^ n : Nat)

/-- The low `n` bits of an integer in two's complement, as a number. -/
def uintOf (n : Nat) (v : Int) : Nat := (v % ((2 ^ n : Nat) : Int)).toNat

/-- ceil(log2 n), with 0 for 0 and 1. -/
def clog2 (n : Nat) : Nat := if n ≤ 1 then 0 else msb (n - 1) + 1

/-- One byte into a reflected CRC-32C register (polynomial 0x1EDC_6F41 reflected is 0x82F6_3B78; R119). -/
def crcByte (c : BitVec 32) (b : Byte) : BitVec 32 :=
  let one := fun (x : BitVec 32) => if bitOf x 0 then (x >>> 1) ^^^ 0x82F63B78#32 else x >>> 1
  let x := c ^^^ (b.setWidth 32)
  one (one (one (one (one (one (one (one x)))))))

/-- CRC-32C of a byte list: initial value and final XOR 0xFFFF_FFFF (R119). -/
def crc32c (bs : List Byte) : BitVec 32 := (bs.foldl crcByte 0xFFFFFFFF#32) ^^^ 0xFFFFFFFF#32

/-- A byte list cut into pieces of `n` bytes, the last as long as what is left; at most `k` pieces. -/
def chunksOf (n : Nat) (bs : List Byte) : Nat → List (List Byte)
  | 0 => []
  | k + 1 => if bs.isEmpty then [] else bs.take n :: chunksOf n (bs.drop n) k

/-- The elements of width `w` packed in a little-endian bit string (R89, R328): the `n` first ones. -/
def unpackBits (w n : Nat) (bs : List Byte) : List Nat :=
  let v := leNat bs
  (List.range n).map (fun i => (v >>> (w * i)) % 2 ^ w)

/-- Elements of width `w` packed into a little-endian bit string, as bytes. -/
def packBits (w : Nat) (xs : List Nat) : List Byte :=
  leBytes (ceilDiv (w * xs.length) 8) (xs.foldr (fun x acc => acc * 2 ^ w + x % 2 ^ w) 0)

end Sys2Proof.Machine
end

