-- ==== Sys2Proof/Machine/Crypto.lean ====
section
/-! DEFINITION. The public functions that the signature engine computes: SHAKE256 (FIPS 202) and SLH-DSA-SHAKE-256s (FIPS 205).
R471, R472, R477, R478 and R480 name them and the spec does not write them out: they are taken from those two standards (PRESUMED,
log 123). -/

namespace Sys2Proof.Machine

/-! ## SHAKE256 (FIPS 202) -/

/-- The round constants of Keccak-f[1600]. -/
def keccakConsts : List Word :=
  [0x0000000000000001, 0x0000000000008082, 0x800000000000808A, 0x8000000080008000, 0x000000000000808B, 0x0000000080000001,
   0x8000000080008081, 0x8000000000008009, 0x000000000000008A, 0x0000000000000088, 0x0000000080008009, 0x000000008000000A,
   0x000000008000808B, 0x800000000000008B, 0x8000000000008089, 0x8000000000008003, 0x8000000000008002, 0x8000000000000080,
   0x000000000000800A, 0x800000008000000A, 0x8000000080008081, 0x8000000000008080, 0x0000000080000001, 0x8000000080008008]

/-- The walk of rho and pi: the place that each lane goes to, and the rotation it takes. -/
def keccakWalk : List (Nat × Nat) :=
  [(10, 1), (7, 3), (11, 6), (17, 10), (18, 15), (3, 21), (5, 28), (16, 36), (8, 45), (21, 55), (24, 2), (4, 14), (15, 27), (23, 41),
   (19, 56), (13, 8), (12, 25), (2, 43), (20, 62), (14, 18), (22, 39), (9, 61), (6, 20), (1, 44)]

/-- One round: theta, rho and pi, chi, iota, on 25 lanes, lane (x, y) at x + 5y. -/
def keccakRound (a : Array Word) (rc : Word) : Array Word :=
  let col := fun (x : Nat) => (List.range 5).foldl (fun (w : Word) y => w ^^^ a.getD (x % 5 + 5 * y) 0) 0
  let b := Array.ofFn (fun (i : Fin 25) => a.getD i 0 ^^^ col (i.val + 4) ^^^ (col (i.val + 1)).rotateLeft 1)
  let (c, _) := keccakWalk.foldl (fun (acc : Array Word × Word) (st : Nat × Nat) =>
    (acc.1.setIfInBounds st.1 (acc.2.rotateLeft st.2), acc.1.getD st.1 0)) (b, b.getD 1 0)
  let d := Array.ofFn (fun (i : Fin 25) =>
    let y := i.val / 5 * 5
    c.getD i 0 ^^^ (~~~ c.getD (y + (i.val + 1) % 5) 0 &&& c.getD (y + (i.val + 2) % 5) 0))
  d.setIfInBounds 0 (d.getD 0 0 ^^^ rc)

/-- Keccak-f[1600]. -/
def keccakF (a : Array Word) : Array Word := keccakConsts.foldl keccakRound a

/-- The rate of SHAKE256 in bytes. -/
def shakeRate : Nat := 136

/-- A message with the bits 1111 of SHAKE and the padding to whole blocks. -/
def shakePad (m : List Byte) : List Byte :=
  let n := shakeRate - m.length % shakeRate
  if n == 1 then m ++ [0x9F] else m ++ 0x1F :: List.replicate (n - 2) 0 ++ [0x80]

/-- The blocks of a padded message absorbed. -/
def shakeAbsorb (a : Array Word) (m : List Byte) : Nat → Array Word
  | 0 => a
  | n + 1 =>
    let x := Array.ofFn (fun (i : Fin 25) =>
      if i.val < 17 then a.getD i 0 ^^^ BitVec.ofNat 64 (leNat ((m.drop (8 * i.val)).take 8)) else a.getD i 0)
    shakeAbsorb (keccakF x) (m.drop shakeRate) n

/-- The output squeezed, block by block. -/
def shakeSqueeze (a : Array Word) : Nat → List Byte
  | 0 => []
  | n + 1 => (List.range 17).flatMap (fun i => wordLE (a.getD i 0)) ++ shakeSqueeze (keccakF a) n

/-- `n` bytes of the SHAKE256 output over a message. -/
def shake256 (m : List Byte) (n : Nat) : List Byte :=
  let p := shakePad m
  (shakeSqueeze (shakeAbsorb (Array.replicate 25 0) p (p.length / shakeRate)) (n / shakeRate + 1)).take n

/-! ## SLH-DSA-SHAKE-256s (FIPS 205): n 32, h 64, d 8, h' 8, a 14, k 22, lg_w 4, m 47 -/

/-- An address: layer, tree, type, and the three words that the type gives a meaning. -/
structure SlhAdrs where
  layer : Nat := 0
  tree : Nat := 0
  typ : Nat := 0
  kp : Nat := 0
  mid : Nat := 0
  low : Nat := 0

/-- The 32 bytes of an address. -/
def SlhAdrs.bytes (x : SlhAdrs) : List Byte :=
  beBytes 4 x.layer ++ beBytes 12 x.tree ++ beBytes 4 x.typ ++ beBytes 4 x.kp ++ beBytes 4 x.mid ++ beBytes 4 x.low

/-- F, H, T and PRF: a tweaked hash of 32 bytes under the public seed. -/
def slhHash (seed : List Byte) (x : SlhAdrs) (m : List Byte) : List Byte := shake256 (seed ++ x.bytes ++ m) 32

/-- Digits of `b` bits from a byte list, the most significant first. -/
def slhDigits (bs : List Byte) (b n : Nat) : List Nat :=
  let v := beNat bs
  (List.range n).map (fun i => (v >>> (8 * bs.length - b * (i + 1))) % 2 ^ b)

/-- The 67 digits that WOTS signs of a 32-byte message: the message's and the checksum's. -/
def wotsDigits (m : List Byte) : List Nat :=
  let d := slhDigits m 4 64
  d ++ slhDigits (beBytes 2 (((d.map (15 - ·)).sum) <<< 4)) 4 3

/-- `n` steps of a chain from step `i` on. -/
def wotsChain (seed : List Byte) (x : SlhAdrs) (v : List Byte) (i : Nat) : Nat → List Byte
  | 0 => v
  | n + 1 => wotsChain seed x (slhHash seed { x with low := i } v) (i + 1) n

/-- The start of a chain. -/
def wotsSecret (sk seed : List Byte) (x : SlhAdrs) (i : Nat) : List Byte := slhHash seed { x with typ := 5, mid := i, low := 0 } sk

/-- The public key that the ends of the 67 chains make. -/
def wotsRoot (seed : List Byte) (x : SlhAdrs) (ends : List (List Byte)) : List Byte :=
  slhHash seed { x with typ := 1, mid := 0, low := 0 } ends.flatten

/-- A WOTS public key generated, at an address of type 0. -/
def wotsPk (sk seed : List Byte) (x : SlhAdrs) : List Byte :=
  wotsRoot seed x ((List.range 67).map (fun i => wotsChain seed { x with mid := i } (wotsSecret sk seed x i) 0 15))

/-- A WOTS signature. -/
def wotsSign (sk seed : List Byte) (x : SlhAdrs) (m : List Byte) : List Byte :=
  ((wotsDigits m).zipIdx.map (fun di => wotsChain seed { x with mid := di.2 } (wotsSecret sk seed x di.2) 0 di.1)).flatten

/-- The WOTS public key that a signature and its message make. -/
def wotsFromSig (seed : List Byte) (x : SlhAdrs) (sig m : List Byte) : List Byte :=
  wotsRoot seed x ((wotsDigits m).zipIdx.map (fun di =>
    wotsChain seed { x with mid := di.2 } ((sig.drop (32 * di.2)).take 32) di.1 (15 - di.1)))

/-- A node of height `z` of an XMSS tree. -/
def xmssNode (sk seed : List Byte) (x : SlhAdrs) (i : Nat) : Nat → List Byte
  | 0 => wotsPk sk seed { x with typ := 0, kp := i, mid := 0, low := 0 }
  | z + 1 => slhHash seed { x with typ := 2, kp := 0, mid := z + 1, low := i }
      (xmssNode sk seed x (2 * i) z ++ xmssNode sk seed x (2 * i + 1) z)

/-- The root that an authentication path leads to from node `i` of height `z`, at an address whose type is set. -/
def slhClimb (seed : List Byte) (x : SlhAdrs) (v : List Byte) (i z : Nat) (path : List Byte) : Nat → List Byte
  | 0 => v
  | n + 1 =>
    let w := path.take 32
    let u := slhHash seed { x with mid := z + 1, low := i / 2 } (if i % 2 == 0 then v ++ w else w ++ v)
    slhClimb seed x u (i / 2) (z + 1) (path.drop 32) n

/-- An XMSS signature: WOTS, then the path of 8 nodes. -/
def xmssSign (sk seed : List Byte) (x : SlhAdrs) (idx : Nat) (m : List Byte) : List Byte :=
  wotsSign sk seed { x with typ := 0, kp := idx, mid := 0, low := 0 } m ++
  (List.range 8).flatMap (fun j => xmssNode sk seed x ((idx >>> j) ^^^ 1) j)

/-- The root that an XMSS signature leads to. -/
def xmssFromSig (seed : List Byte) (x : SlhAdrs) (idx : Nat) (sig m : List Byte) : List Byte :=
  slhClimb seed { x with typ := 2, kp := 0, mid := 0, low := 0 }
    (wotsFromSig seed { x with typ := 0, kp := idx, mid := 0, low := 0 } sig m) idx 0 (sig.drop (67 * 32)) 8

/-- The bytes of an XMSS signature. -/
def xmssLen : Nat := (67 + 8) * 32

/-- The hypertree's signature of a message from layer `j` on, `n` layers. -/
def htSign (sk seed m : List Byte) (tree leaf j : Nat) : Nat → List Byte
  | 0 => []
  | n + 1 =>
    let x : SlhAdrs := { layer := j, tree }
    let sig := xmssSign sk seed x leaf m
    sig ++ htSign sk seed (xmssFromSig seed x leaf sig m) (tree >>> 8) (tree % 256) (j + 1) n

/-- The root that the hypertree's signature leads to. -/
def htRoot (seed m sig : List Byte) (tree leaf j : Nat) : Nat → List Byte
  | 0 => m
  | n + 1 => htRoot seed (xmssFromSig seed { layer := j, tree } leaf sig m) (sig.drop xmssLen) (tree >>> 8) (tree % 256) (j + 1) n

/-- The secret of a FORS leaf. -/
def forsSecret (sk seed : List Byte) (x : SlhAdrs) (i : Nat) : List Byte := slhHash seed { x with typ := 6, mid := 0, low := i } sk

/-- A node of height `z` of the FORS trees, at an address of type 3. -/
def forsNode (sk seed : List Byte) (x : SlhAdrs) (i : Nat) : Nat → List Byte
  | 0 => slhHash seed { x with mid := 0, low := i } (forsSecret sk seed x i)
  | z + 1 => slhHash seed { x with mid := z + 1, low := i } (forsNode sk seed x (2 * i) z ++ forsNode sk seed x (2 * i + 1) z)

/-- The FORS signature of a digest: 22 secrets, each with its path of 14 nodes. -/
def forsSign (sk seed : List Byte) (x : SlhAdrs) (md : List Byte) : List Byte :=
  (slhDigits md 14 22).zipIdx.flatMap (fun di =>
    forsSecret sk seed x (di.2 * 2 ^ 14 + di.1) ++
    (List.range 14).flatMap (fun j => forsNode sk seed x (di.2 * 2 ^ (14 - j) + ((di.1 >>> j) ^^^ 1)) j))

/-- The public key that a FORS signature leads to. -/
def forsFromSig (seed : List Byte) (x : SlhAdrs) (sig md : List Byte) : List Byte :=
  let root := fun (di : Nat × Nat) =>
    let i := di.2 * 2 ^ 14 + di.1
    let part := sig.drop (480 * di.2)
    slhClimb seed x (slhHash seed { x with mid := 0, low := i } (part.take 32)) i 0 (part.drop 32) 14
  slhHash seed { x with typ := 4, mid := 0, low := 0 } ((slhDigits md 14 22).zipIdx.flatMap root)

/-- The parts of the 47-byte message digest: the FORS digest, the tree and the leaf. -/
def slhParts (r pk m : List Byte) : List Byte × Nat × Nat :=
  let d := shake256 (r ++ pk ++ m) 47
  (d.take 39, beNat ((d.drop 39).take 7), beNat (d.drop 46))

/-- The message of the pure form with an empty context. -/
def slhPure (m : List Byte) : List Byte := 0 :: 0 :: m

/-- The public key, PK.seed and PK.root, from the 96 bytes SK.seed, SK.prf and PK.seed (R478). -/
def slhPublicKey (seeds : List Byte) : List Byte :=
  let sk := seeds.take 32
  let seed := (seeds.drop 64).take 32
  seed ++ xmssNode sk seed { layer := 7 } 0 8

/-- The 29,792-byte signature of a message in the pure form with an empty context (R471, R480); `rnd` is the 32-byte value that the
standard lets a signer choose. -/
def slhSign (seeds rnd msg : List Byte) : List Byte :=
  let m := slhPure msg
  let sk := seeds.take 32
  let pk := slhPublicKey seeds
  let seed := pk.take 32
  let r := shake256 ((seeds.drop 32).take 32 ++ rnd ++ m) 32
  let (md, tree, leaf) := slhParts r pk m
  let x : SlhAdrs := { tree, typ := 3, kp := leaf }
  let fors := forsSign sk seed x md
  r ++ fors ++ htSign sk seed (forsFromSig seed x fors md) tree leaf 0 8

/-- Whether a signature in that form verifies under a public key. -/
def slhVerify (pk msg sig : List Byte) : Bool :=
  let m := slhPure msg
  let r := sig.take 32
  let seed := pk.take 32
  let (md, tree, leaf) := slhParts r pk m
  let fors := sig.drop 32
  sig.length == 29792 && pk.length == 64 &&
  htRoot seed (forsFromSig seed { tree, typ := 3, kp := leaf } fors md) (fors.drop (22 * 480)) tree leaf 0 8 == pk.drop 32

end Sys2Proof.Machine
end

