-- ==== Sys2Proof/Config.lean ====
section
/-! DEFINITION. What the spec leaves to an implementation or does not state: constants without a body, so that no
proof can see what they are. -/

namespace Sys2Proof.Config

/-- A fresh free value for each number of the counter `freeCtr` of the state. -/
opaque freeWord : Nat → Word

/-- The first of the 3,328 Firn extents that hold the regions reserved at boot (R40, R168, R173, R187: 208 MiB); the
spec gives their sizes and no addresses. -/
opaque firnReservedFirst : Nat

/-- Whether a VFMA of an infinity and a zero with a quiet NaN as its third operand sets IE_INVALID: IEEE 754 leaves it
to the implementation, and R334 says no more. -/
opaque fmaInfZeroNan : Bool

/-- The 4-byte words of a configuration header as far as R454 does not state them. -/
opaque cfgRest : Nat → BitVec 32

/-- The 32-byte seed that the PUF of this switch gives with helper data (R477). -/
opaque pufSeed : List Byte → List Byte

/-- The 32 bytes the boot ROM holds for Mipevel's public key (R471). -/
opaque vendorHash : List Byte

/-- The Firn address of an accumulator or a Moraine entry that lies in Firn: the switch's own choice (R28, free). -/
opaque accAddr : Nat → Word

/-- The table entries that a burst of a region reserved at boot holds, as table number × 2^32 + index: the layout is not given
(free, log 110). -/
opaque reservedEntries : Nat → List Nat

end Sys2Proof.Config
end

