-- ==== Sys2Proof/Machine/Flags.lean ====
section
/-! DEFINITION. The flags of a chunk: CR3 [63:53] of a completion record (R73), in that order. -/

namespace Sys2Proof.Machine

/-- The flags of a chunk, CR3 [63:53]. -/
abbrev Flags := BitVec 11

/-- IE_INVALID. -/
def ieInvalid : Flags := 0x400
/-- IE_DIVZERO. -/
def ieDivzero : Flags := 0x200
/-- IE_OVERFLOW. -/
def ieOverflow : Flags := 0x100
/-- IE_UNDERFLOW. -/
def ieUnderflow : Flags := 0x080
/-- IE_INEXACT. -/
def ieInexact : Flags := 0x040
/-- SCALE_RAISED. -/
def scaleRaised : Flags := 0x020
/-- SATURATED. -/
def saturated : Flags := 0x010
/-- FORMAT_REJECT. -/
def formatReject : Flags := 0x008
/-- CAUSE_DEADLINE. -/
def causeDeadline : Flags := 0x004
/-- CAUSE_MIN_PRESENT. -/
def causeMinPresent : Flags := 0x002
/-- CAUSE_SCALE. -/
def causeScale : Flags := 0x001

/-- The flags of a list of flag sets together. -/
def flagsOr (fs : List Flags) : Flags := fs.foldl (· ||| ·) 0

/-- A flag when a condition holds. -/
def flagIf (c : Bool) (f : Flags) : Flags := if c then f else 0

/-- The status of a completion record (R74). -/
inductive RecStatus where
  | ok | partialRes | retry | empty | arithCheck | aborted
  deriving DecidableEq, Repr

/-- The status code of R74. -/
def RecStatus.code : RecStatus → Nat
  | .ok => 0 | .partialRes => 1 | .retry => 2 | .empty => 3 | .arithCheck => 4 | .aborted => 5

/-- Whether the status delivers results (R74). -/
def RecStatus.delivers : RecStatus → Bool
  | .ok => true | .partialRes => true | _ => false

/-- A 32-bit count that saturates (R105). -/
def satAdd32 (a b : Nat) : Nat := min (a + b) 0xFFFFFFFF

end Sys2Proof.Machine
end

