-- ==== Sys2Proof/Syntax.lean ====
section
/-! DEFINITION. The commands: one constructor of `Instr` for each row of spec/opcode_table.json, with the operands
the row needs. What the outside world decides (the bytes that arrive, a physical fault, a reading of a sensor, the
value of a write) is an operand; what the switch holds is looked up in the state by the meaning. -/

namespace Sys2Proof

/-- A Span frame as it stands between the start and end symbols (R150): header words W0 to W7, payload bytes, tile
checksums, and the trailer's HOP_CRC and END_CODE (R158). -/
structure Frame where
  w0 : Word := 0
  w1 : Word := 0
  w2 : Word := 0
  w3 : Word := 0
  w4 : Word := 0
  w5 : Word := 0
  w6 : Word := 0
  w7 : Word := 0
  payload : List Byte := []
  tiles   : List (BitVec 32) := []
  hopCrc  : BitVec 32 := 0
  endCode : Byte := 1
  deriving DecidableEq, Repr, Inhabited

/-- A 10-bit code as it stands on a lane, its bits in the order of R394, the first in bit [9]. -/
abbrev Code := BitVec 10

/-- What a lookup of an on-die table meets in the entry that it reads: the table's number, the entry's index, and whether its code
corrects the word or finds it uncorrectable (R308, R423, R424, R426). -/
structure TblFault where
  tbl : BitVec 6
  idx : Nat
  lost : Bool
  deriving DecidableEq, Repr

/-- How a frame ended on the lanes. -/
inductive WireFault where
  /-- every character arrived well (R397) -/
  | clean
  /-- the frame ended in K30.7 (R398) -/
  | aborted
  /-- code errors at these characters of the frame, counted from its K27.7 (R396) -/
  | codeErr (pos : List (BitVec 13))
  /-- a K27.7 arrived while the frame was open: it is the first character of the next frame (R397) -/
  | startInside
  /-- the number of bytes on the wire was not that of R150 -/
  | badLength
  /-- the link was lost before the frame's end had come (R408) -/
  | cut
  deriving DecidableEq, Repr

/-- How a frame came in on the lanes: how it ended, the credit symbols received inside it, each with the number of the frame's own
characters that came before it (R397), and what the frame's lookups in the route, set, quota and policer tables meet (R426). -/
structure WireIn where
  fault : WireFault := .clean
  inside : List (BitVec 13 × Code × Code × Code) := []
  lookups : List TblFault := []
  deriving DecidableEq, Repr

/-- A physical fault that a Serac slice may meet while it works on an operation (R117, R423, R372). -/
inductive SeracFault where
  | none
  /-- an error in an adder: the exact sum of this element comes out larger by delta * 2^shift, in units of the least quantum of the
  accumulation format, delta being signed (R117) -/
  | adder (elem : BitVec 16) (delta : BitVec 64) (shift : BitVec 12)
  /-- a parity error in V0-V31, P0-P7 or the intake (R423) -/
  | regParity
  /-- an uncorrectable word of the accumulator store holding the chunk's accumulator or Moraine entry (R424);
  the byte address of the failing 128-byte word -/
  | accUncorr (addr : BitVec 28)
  /-- the same, corrected (R424) -/
  | accCorr (addr : BitVec 28)
  /-- an uncorrectable instruction word of the program store (R424); its byte address -/
  | storeUncorr (addr : BitVec 26)
  /-- the same, corrected (R424) -/
  | storeCorr (addr : BitVec 26)
  /-- the run's lookup of its program directory entry meets an error (R426) -/
  | progEntry (lost : Bool)
  /-- an uncorrectable burst, at this Firn address, of an accumulator, a Moraine entry or an arena load (R372) -/
  | firnUncorr (addr : BitVec 38)
  deriving DecidableEq, Repr

/-- A physical fault at an egress port as a frame is about to leave (R121, R424). -/
inductive EgressFault where
  | none
  /-- the 128-byte word of the copy with this number is uncorrectable (NEV CELL_UNCORR) -/
  | cellUncorr (word : BitVec 7)
  /-- the queued descriptor is uncorrectable (SWQ DESC_UNCORR) -/
  | descUncorr
  /-- the 128-byte word of the copy with this number was corrected (NEV CELL_CORR) -/
  | cellCorr (word : BitVec 7)
  /-- the descriptor was corrected (SWQ DESC_CORR) -/
  | descCorr
  /-- tile `t` of the copy, as read from Neve, does not match its checksum -/
  | tile (t : Fin 16)
  /-- a gate entry of the port that is brought into force meets an error (R426) -/
  | gate (entry : Fin 64) (lost : Bool)
  deriving DecidableEq, Repr

/-- What the code of a memory word says of it as it is read (R423, the SRAM code; R371 for a burst of Firn; R376 for a
line of the Firn cache). A fault of Firn's channel is met only where a burst is fetched, one of the cache only on a hit. -/
inductive MemFault where
  | none
  | corrected
  | uncorrectable
  /-- the cache's SRAM corrected a bit (R376) -/
  | cacheCorr
  /-- a word of the cached line in this beat is uncorrectable (R376) -/
  | cacheUncorr (beat : Fin 8)
  deriving DecidableEq, Repr

/-- The row copy that a remap entry asked for, and the bursts of the row that the channel gave uncorrectable, or corrected (R371,
R372, R385). -/
structure RowCopy where
  entry : Nat
  bad : BitVec 8 := 0
  corr : BitVec 8 := 0
  deriving DecidableEq, Repr

/-- The group whose arena a copy command names, and the bursts of the copy's source that the channel will give uncorrectable
(R363, R372). -/
structure ArenaCopy where
  slot : Fin 16384
  bad : BitVec 256 := 0
  deriving DecidableEq, Repr

/-- The OFFSET that a VLD.S reads at, and what the read meets there (R341, R372). -/
structure ArenaRead where
  off : BitVec 30
  fault : MemFault := .none
  deriving DecidableEq, Repr

/-- A line of the Firn cache, by an address in it, and what its read meets (R375, R376). -/
structure LineRead where
  addr : BitVec 38
  fault : MemFault := .none
  deriving DecidableEq, Repr

/-- Whether a fault has changed the link word at the head of the free list concerned (R242), and what it reads as then. -/
inductive LinkFault where
  | none
  | changed (w : Word)
  deriving DecidableEq, Repr

/-- One bound chunk: descriptor slot, step, bucket, chunk index (R50). -/
structure ChunkId where
  slot   : Fin 16384
  step   : BitVec 16
  bucket : BitVec 16
  chunk  : BitVec 20
  deriving DecidableEq, Repr, Inhabited

/-- Who writes or reads a device register (R256, R490). -/
inductive Party where
  | mgmt (m : Fin 2)
  | core (c : CoreNo)
  deriving DecidableEq, Repr

/-- What of a register a BAR0 access covers: the whole, or half of it in 4 bytes; or an access of 1, 2 or 16 bytes, which R455
turns away. -/
inductive Width where
  | whole
  | low
  | high
  | one
  | two
  | sixteen
  deriving DecidableEq, Repr

/-- The key of a hold entry (R219). -/
structure HoldKey where
  src   : BitVec 20
  dest  : BitVec 20
  msgId : BitVec 32
  retx  : Bool
  deriving DecidableEq, Repr, Inhabited

/-- Operand type of a vector instruction (R326). -/
inductive VTy where
  | f32 | f64 | i32 | i64
  deriving DecidableEq, Repr

/-- The context sources (R293). -/
inductive CtxSrc where
  | presentF | present | rank | step | bucket | chunk | element | home
  deriving DecidableEq, Repr

/-- A vector source: V0-V31 or a context source (R288). -/
inductive VSrc where
  | v (n : Fin 32)
  | ctx (c : CtxSrc)
  deriving DecidableEq, Repr

/-- Rounding field of a vector instruction (R327); 0b110 is reserved and never loaded. -/
inductive VRnd where
  | rne | rz | rup | rdn | rna | sr | dyn
  deriving DecidableEq, Repr

/-- Conditions of VCMP (R336). -/
inductive VCond where
  | eq | ne | lt | le | gt | ge | un
  deriving DecidableEq, Repr

/-- Arena access modes (R341). -/
inductive VMode where
  | w32 | w64 | p16 | p8 | b32
  deriving DecidableEq, Repr

/-- Cache hints (R374). -/
inductive Hint where
  | keep | stream | last
  deriving DecidableEq, Repr

/-- Storage formats and block fields of VQNT, VDQT and a WEIGHTS emission (R339, R343): the codes as the word
carries them. -/
structure VFmt where
  fmt : BitVec 6
  blk : BitVec 3
  ovf : BitVec 2
  deriving DecidableEq, Repr

/-- The stream of a VEMIT (R343). -/
inductive VStream where
  | result
  | weights (f : VFmt) (r : VRnd)
  deriving DecidableEq, Repr

/-- One vector instruction with its governing predicate (R333). -/
inductive VOp where
  | add  (g : Fin 8) (t : VTy) (d : Fin 32) (a b : VSrc) (r : VRnd)
  | sub  (g : Fin 8) (t : VTy) (d : Fin 32) (a b : VSrc) (r : VRnd)
  | mul  (g : Fin 8) (t : VTy) (d : Fin 32) (a b : VSrc) (r : VRnd)
  | fma  (g : Fin 8) (t : VTy) (d : Fin 32) (a b : VSrc) (r : VRnd)
  | div  (g : Fin 8) (t : VTy) (d : Fin 32) (a b : VSrc) (r : VRnd)
  | sqrt (g : Fin 8) (t : VTy) (d : Fin 32) (a : VSrc) (r : VRnd)
  | max  (g : Fin 8) (t : VTy) (d : Fin 32) (a b : VSrc)
  | min  (g : Fin 8) (t : VTy) (d : Fin 32) (a b : VSrc)
  | cmp  (g : Fin 8) (t : VTy) (d : Fin 8) (a b : VSrc) (c : VCond)
  | sel  (g : Fin 8) (t : VTy) (d : Fin 32) (a : VSrc) (p : Fin 8) (imm : BitVec 32)
  | cvt  (g : Fin 8) (t t' : VTy) (d : Fin 32) (a : VSrc) (r : VRnd)
  | qnt  (g : Fin 8) (t : VTy) (d : Fin 32) (a : VSrc) (f : VFmt) (r : VRnd)
  | dqt  (g : Fin 8) (t : VTy) (d : Fin 32) (a : VSrc) (f : VFmt)
  | ld   (g : Fin 8) (m : VMode) (d : Fin 32) (h : Hint) (off : BitVec 30)
  | st   (g : Fin 8) (m : VMode) (a : VSrc) (h : Hint) (off : BitVec 30)
  | emit (g : Fin 8) (t : VTy) (a : VSrc) (s : VStream)
  deriving DecidableEq, Repr

/-- What a host does in the configuration space and the MSI-X structures of a port (R454, R460): it writes the mask bit of one
table entry, or the message control word's MSI-X Enable and Function Mask; or it reads or writes a 4-byte word of the
configuration header. -/
inductive MsixWrite where
  | entry (v : Fin 2048) (masked : Bool)
  | control (enable functionMask : Bool)
  | cfgRead (dword : Fin 16)
  | cfgWrite (dword : Fin 16) (v : BitVec 32)
  deriving DecidableEq, Repr

/-- What the boot flash holds, as the ROM sees it when it starts (R467, R473): no answer, or the header bytes of the
two slots (empty where a slot holds nothing). -/
inductive FlashAnswer where
  | silent
  | slots (a b : List Byte)
  deriving DecidableEq, Repr

/-- What the PUF and its record in the flash give (R477). -/
inductive PufAnswer where
  /-- the 1,056 bytes at the record's place in the flash, the helper data that an enrolment measures, and whether a new record can be
  written -/
  | read (rec measured : List Byte) (written : Bool)
  /-- an uncorrectable error in the PUF (R486) -/
  | fault
  /-- an uncorrectable error in the boot ROM itself, which comes no further (R486) -/
  | romFault
  deriving DecidableEq, Repr

/-- Where a candidate image came from (R475 SOURCE), or that the signature engine failed. -/
inductive ImgSource where
  | slotA (img : List Byte)
  | slotB (img : List Byte)
  /-- the staging area; the length is that of BOOT_MBX -/
  | mailbox
  /-- no image: the signature engine met an uncorrectable error in what it was doing (R486) -/
  | engineFault
  deriving DecidableEq, Repr

/-- A contribution's turn at the dispatcher: the port group, and what the lookups of its group index, descriptor and homes entries
meet (R426). -/
structure DispatchIn where
  pg : Fin 128
  lookups : List TblFault := []
  deriving DecidableEq, Repr

/-- A read of the read-back aperture: the word, and the width of the access (R456, R458). -/
structure ReadbackAt where
  word : BitVec 22
  w : Width := .whole
  deriving DecidableEq, Repr

/-- An SMBus block read that is not one of R484's: the command byte, and the PEC byte sent with it, where one was. -/
structure SmbusIn where
  cmd : Byte
  pec : Option Byte := none
  deriving DecidableEq, Repr

/-- A supply rail, by its code in CLK_ERR_INFO.RAIL (R452). -/
inductive Rail where
  | vddCore | vddSram | vddSd | vddDram | vpp | vddh | vddIo
  deriving DecidableEq, Repr

/-- What a SUPPLY command is about: a rail, or a reference clock, which stops or runs again (R517). -/
inductive SupplyPin where
  | rail (r : Rail)
  | refclkCore
  | pref (pier : Fin 8) (r : Fin 4)
  deriving DecidableEq, Repr

/-- What a POWER_ON_RESET command does on PWR_OK (R446): it falls (or the first power-up), or it rises again with
the straps as the substrate closes them. -/
inductive PwrOk where
  | falls
  | rises (grade : BitVec 3)
  deriving DecidableEq, Repr

/-- The commands. -/
inductive Instr where
  -- the datapath
  | frameReceive (p : PortNo) (f : Frame) (wire : WireIn) (age : Nat) (started : Bool)
  | contribDispatch (at_ : DispatchIn)
  | intakeAccept (sl : SliceNo) (pg : Fin 128)
  | seracContribProcess (sl : SliceNo) (fault : SeracFault)
  | finRun (c : ChunkId) (fault : SeracFault)
  | resultBuild (c : ChunkId) (fault : SeracFault)
  | recordSend (slot : Fin 16384) (step : BitVec 16) (rank : BitVec 16)
  | messageSend (dest : BitVec 20)
  | deadlineExpiry (slot : Fin 16384) (step : BitVec 16)
  | chunkCloseAtExpiry (c : ChunkId) (fault : SeracFault)
  | grpAbort (slot : Fin 16384)
  | ackReceive
  | nackReceive (copyFault : Option (Fin 16))
  | busyReceive
  | lateReceive
  | noticeReceive
  | resendTimeout (dest : BitVec 20) (msg : BitVec 32) (copyFault : Option (Fin 16))
  | barrierArrival
  | cqCredit
  | groupctlProgramOp
  | groupctlReservedOp
  | dataToSwitch
  | resultToSwitch
  | transitPartialFrame (sl : SliceNo) (fault : SeracFault)
  | partialSilenceTimeout (src : BitVec 20) (msg : BitVec 32)
  | combineContrib (sl : SliceNo) (fault : SeracFault)
  | combWindowSeal (c : ChunkId)
  | combBusyRetry (dest : BitVec 20) (msg : BitVec 32) (copyFault : Option (Fin 16))
  | combCtlWrite (v : Word)
  | frameStart (p : PortNo) (fault : EgressFault)
  | frameDepart (p : PortNo) (cellLost : Option (BitVec 7))
  | creditSymbolReceive (p : PortNo) (c1 c2 c3 : Code)
  | creditRefresh (p : PortNo)
  | initRepeat (p : PortNo)
  | initReservationFit (p : PortNo)
  | ksTimeout (k : HoldKey)
  | keystoneQuietRelease (k : HoldKey)
  | gateEntryAdvance (p : PortNo)
  | gateGo (p : PortNo) (v : Word)
  | gateSwitchover (p : PortNo)
  -- ports, lanes, links
  | portEnable (p : PortNo) (v : Word)
  | portDisable (p : PortNo) (v : Word)
  | signalDetect (lane : Fin 512)
  | trainingSetReceive (lane : Fin 512) (first : Code) (rest : List Code)
  | alignmentMarkerReceive (lane : Fin 512) (c0 c1 c2 c3 : Code) (delay : Nat)
  | fillerPairReceive (p : PortNo) (level : Nat) (bad : Option (Fin 512))
  | trainingTimeout (p : PortNo)
  | retryWaitExpiry (p : PortNo)
  | linkLoss (p : PortNo) (cause : BitVec 3)
  | fastRetrainTimeout (p : PortNo)
  | holdTimeout (p : PortNo)
  | retrain (p : PortNo)
  | lnkGrpSplitWrite (g : Fin 128) (v : Word)
  | portCredWrite (p : PortNo) (vc : Fin 8) (v : Word)
  | swEpWrite (v : Word)
  | eyeScanGo (lane : Fin 512) (v : Word)
  | eyeScanDone (lane : Fin 512) (mismatches : BitVec 40)
  | viaductCellReceive (v : Fin 8) (toPier : Bool) (ok : Bool)
  | vdctRetrain (v : Fin 8)
  | vdctRetrainDone (v : Fin 8) (ok : Bool)
  | timeLoadCell (pier : Fin 8)
  -- the buffer pool manager
  | bpmAllocGrant (req : Fin 8192) (link : LinkFault)
  | allocExt (link : LinkFault)
  | freeExt (ext : BitVec 22)
  | retireExt (ext : BitVec 22)
  | bpmCmdReserved (op : BitVec 3)
  | neveThreadDone
  | firnTrainDone (failed : Option (Fin 4))
  | firnThreadDone
  -- slices and tables
  | sliceSetWrite (v : Word)
  | chunkMove (c : ChunkId)
  | sliceFatal (sl : SliceNo) (busy : List ChunkId)
  | tableCommitCycle (c : CoreNo)
  | remapCopyDone (row : RowCopy)
  -- scalar instructions
  | add (c : CoreNo) (d a b : BitVec 6)
  | sub (c : CoreNo) (d a b : BitVec 6)
  | mul (c : CoreNo) (d a b : BitVec 6)
  | mulhu (c : CoreNo) (d a b : BitVec 6)
  | divu (c : CoreNo) (d a b : BitVec 6)
  | remu (c : CoreNo) (d a b : BitVec 6)
  | and (c : CoreNo) (d a b : BitVec 6)
  | or (c : CoreNo) (d a b : BitVec 6)
  | xor (c : CoreNo) (d a b : BitVec 6)
  | shl (c : CoreNo) (d a b : BitVec 6)
  | shr (c : CoreNo) (d a b : BitVec 6)
  | sar (c : CoreNo) (d a b : BitVec 6)
  | slt (c : CoreNo) (d a b : BitVec 6)
  | sltu (c : CoreNo) (d a b : BitVec 6)
  | addi (c : CoreNo) (d a : BitVec 6) (imm : BitVec 32)
  | andi (c : CoreNo) (d a : BitVec 6) (imm : BitVec 32)
  | ori (c : CoreNo) (d a : BitVec 6) (imm : BitVec 32)
  | xori (c : CoreNo) (d a : BitVec 6) (imm : BitVec 32)
  | shli (c : CoreNo) (d a : BitVec 6) (imm : BitVec 32)
  | shri (c : CoreNo) (d a : BitVec 6) (imm : BitVec 32)
  | sari (c : CoreNo) (d a : BitVec 6) (imm : BitVec 32)
  | slti (c : CoreNo) (d a : BitVec 6) (imm : BitVec 32)
  | sltiu (c : CoreNo) (d a : BitVec 6) (imm : BitVec 32)
  | movhi (c : CoreNo) (d a : BitVec 6) (imm : BitVec 32)
  | ld (c : CoreNo) (d a : BitVec 6) (func : BitVec 6) (imm : BitVec 32) (fault : MemFault)
  | st (c : CoreNo) (a b : BitVec 6) (func : BitVec 6) (imm : BitVec 32)
  | beq (c : CoreNo) (a b : BitVec 6) (imm : BitVec 32)
  | bne (c : CoreNo) (a b : BitVec 6) (imm : BitVec 32)
  | blt (c : CoreNo) (a b : BitVec 6) (imm : BitVec 32)
  | bge (c : CoreNo) (a b : BitVec 6) (imm : BitVec 32)
  | bltu (c : CoreNo) (a b : BitVec 6) (imm : BitVec 32)
  | bgeu (c : CoreNo) (a b : BitVec 6) (imm : BitVec 32)
  | jal (c : CoreNo) (d : BitVec 6) (imm : BitVec 32)
  | jalr (c : CoreNo) (d a : BitVec 6) (imm : BitVec 32)
  -- system and fence instructions
  | dregR (c : CoreNo) (d a : BitVec 6) (imm : BitVec 32)
  | dregW (c : CoreNo) (a b : BitVec 6) (imm : BitVec 32)
  | tblW (c : CoreNo) (a b : BitVec 6) (func : BitVec 6) (imm : BitVec 32)
  | tblR (c : CoreNo) (d a : BitVec 6) (func : BitVec 6) (imm : BitVec 32) (fault : MemFault)
  | tblCommit (c : CoreNo) (d : BitVec 6)
  | mbxRecv (c : CoreNo) (d : BitVec 6)
  | mbxSend (c : CoreNo) (d a b : BitVec 6)
  | mbxRelease (c : CoreNo) (a : BitVec 6)
  | mbxCount (c : CoreNo) (d : BitVec 6)
  | wait (c : CoreNo) (d : BitVec 6) (imm : BitVec 32)
  | waitResume (c : CoreNo)
  | timeRead (c : CoreNo) (d : BitVec 6)
  | timeArm (c : CoreNo) (a : BitVec 6)
  | timeDisarm (c : CoreNo)
  | timerDue (c : CoreNo)
  | fenceSt (c : CoreNo)
  | fenceAll (c : CoreNo)
  | fenceDev (c : CoreNo)
  -- vector instructions
  | vadd (sl : SliceNo) (g : Fin 8) (t : VTy) (d : Fin 32) (a b : VSrc) (r : VRnd)
  | vsub (sl : SliceNo) (g : Fin 8) (t : VTy) (d : Fin 32) (a b : VSrc) (r : VRnd)
  | vmul (sl : SliceNo) (g : Fin 8) (t : VTy) (d : Fin 32) (a b : VSrc) (r : VRnd)
  | vfma (sl : SliceNo) (g : Fin 8) (t : VTy) (d : Fin 32) (a b : VSrc) (r : VRnd)
  | vdiv (sl : SliceNo) (g : Fin 8) (t : VTy) (d : Fin 32) (a b : VSrc) (r : VRnd)
  | vsqrt (sl : SliceNo) (g : Fin 8) (t : VTy) (d : Fin 32) (a : VSrc) (r : VRnd)
  | vmax (sl : SliceNo) (g : Fin 8) (t : VTy) (d : Fin 32) (a b : VSrc)
  | vmin (sl : SliceNo) (g : Fin 8) (t : VTy) (d : Fin 32) (a b : VSrc)
  | vcmp (sl : SliceNo) (g : Fin 8) (t : VTy) (d : Fin 8) (a b : VSrc) (c : VCond)
  | vsel (sl : SliceNo) (g : Fin 8) (t : VTy) (d : Fin 32) (a : VSrc) (p : Fin 8) (imm : BitVec 32)
  | vcvt (sl : SliceNo) (g : Fin 8) (t t' : VTy) (d : Fin 32) (a : VSrc) (r : VRnd)
  | vqnt (sl : SliceNo) (g : Fin 8) (t : VTy) (d : Fin 32) (a : VSrc) (f : VFmt) (r : VRnd)
  | vdqt (sl : SliceNo) (g : Fin 8) (t : VTy) (d : Fin 32) (a : VSrc) (f : VFmt)
  | vldS (sl : SliceNo) (g : Fin 8) (m : VMode) (d : Fin 32) (h : Hint) (at_ : ArenaRead)
  | vstS (sl : SliceNo) (g : Fin 8) (m : VMode) (a : VSrc) (h : Hint) (off : BitVec 30)
  | vemit (sl : SliceNo) (g : Fin 8) (t : VTy) (a : VSrc) (s : VStream)
  -- cores, time and device commands
  | coreStart (c : CoreNo) (v : Word)
  | coreStop (c : CoreNo) (v : Word)
  | devTimeOfsWrite (v : Word)
  | devTimeLowRead (m : Fin 2)
  | e2eWinClr (ep : BitVec 20)
  | fenceAdd (ep : BitVec 20)
  | fenceRemove (ep : BitVec 20)
  | arenaCopyIn (k : ArenaCopy)
  | arenaCopyOut (k : ArenaCopy)
  | arenaPut (slot : Fin 16384)
  | arenaBadOp (op : BitVec 3) (slot : Fin 16384)
  | arenaCmdDone
  -- host, flash, boot, attestation
  | hmbxInGo (m : Fin 2) (core : CoreNo)
  | hmbxOutPop (m : Fin 2)
  | flashRead (v : Word)
  | flashWrite (v : Word)
  | flashCmdDone (data : List Byte)
  | bootMbxGo (v : Word)
  | attGo
  | attDone
  | frnMarginGo (st : Fin 4) (v : Word)
  | frnMarginDone (st : Fin 4) (fails : BitVec 32)
  | frnThermWrite (st : Fin 4) (v : Word)
  | dieThermWrite (v : Word)
  | errStatusClear (vec : Fin 49) (v : Word)
  | errMaskWrite (vec : Fin 49) (v : Word)
  | rcRead (by_ : Party) (off : BitVec 26) (w : Width)
  | registerWrite (by_ : Party) (off : BitVec 26) (w : Width) (v : Word)
  | readbackRead (m : Fin 2) (at_ : ReadbackAt)
  | bar2Read (m : Fin 2) (off : BitVec 30) (n : Nat) (fault : MemFault)
  | bar2Write (m : Fin 2) (off : BitVec 30) (bytes : List Byte)
  -- power, reset, boot
  | pwrCtlWrite (by_ : Party) (v : Word)
  | powerDomainReady (bit : Fin 30)
  | pdFault (bit : Fin 30)
  | powerOnReset (e : PwrOk)
  | perst0Assert
  | perst1Assert
  | warmReset (by_ : Party)
  | thaw
  | bootRomStart (flash : FlashAnswer) (puf : PufAnswer)
  | bootImageChecked (src : ImgSource)
  | pllUnlock
  | supply (pin : SupplyPin) (low : Bool)
  | dieThermalReading (t : Vector Byte 32)
  | frnThermalReading (st : Fin 4) (t : Vector Byte 4)
  | refresh (ch : Fin 256)
  | idcPoll (st : Fin 4) (counts : Vector Nat 12)
  | aliveOutToggle
  | firnBurstRead (addr : BitVec 38) (raw : Vector (Vector Byte 36) 8) (req : Fin 30)
  | firnWriteback (line : LineRead)
  -- SMBus and JTAG
  | smbusStatusRead
  | smbusTempRead
  | smbusPowerRead
  | smbusResetCauseRead
  | smbusIdRead
  | smbusDeviceIdRead
  | smbusBadCommand (x : SmbusIn)
  | idcode
  | samplePreload (pins : List Bool)
  | extest
  | extestPulse
  | extestTrain
  | highz
  | clamp
  | bypass (code : BitVec 5)
  | tapReset
  -- events added at the table's end
  | perstRelease (m : Fin 2)
  | msixUnmask (m : Fin 2) (w : MsixWrite)
  | idleCharacterReceive (lane : Fin 512) (code : Code)
  | illegalOpcode (c : CoreNo) (word : Word)
  | fetchFault (c : CoreNo) (fault : MemFault)
  deriving DecidableEq, Repr

end Sys2Proof
end

