-- ==== Sys2Proof/Machine/Operands.lean ====
section
/-! DEFINITION. Number formats (R77-R92), decoding and encoding to the bit (R79-R81, R98-R105), and the arithmetic
of the accumulation formats (R82-R85, R116, R334). Values are exact: (-1)^s * m * 2^e. -/

namespace Sys2Proof.Machine

/-- The formats of R77. -/
inductive Fmt where
  | fp64 | fp32 | fp16 | bf16 | e4m3 | e5m2 | e3m2 | e2m3 | e2m1 | mxint8 | int32 | int64 | transit
  deriving DecidableEq, Repr

/-- The format of a code; none for a reserved code (R77). -/
def fmtOfCode (c : Nat) : Option Fmt :=
  match c with
  | 0x00 => some .fp64 | 0x01 => some .fp32 | 0x02 => some .fp16 | 0x03 => some .bf16
  | 0x08 => some .e4m3 | 0x09 => some .e5m2 | 0x0A => some .e3m2 | 0x0B => some .e2m3
  | 0x0C => some .e2m1 | 0x0D => some .mxint8 | 0x10 => some .int32 | 0x11 => some .int64
  | 0x18 => some .transit | _ => none

/-- The code of a format. -/
def Fmt.code : Fmt → Nat
  | .fp64 => 0x00 | .fp32 => 0x01 | .fp16 => 0x02 | .bf16 => 0x03 | .e4m3 => 0x08 | .e5m2 => 0x09
  | .e3m2 => 0x0A | .e2m3 => 0x0B | .e2m1 => 0x0C | .mxint8 => 0x0D | .int32 => 0x10 | .int64 => 0x11
  | .transit => 0x18

/-- Element bits (R77). -/
def Fmt.width : Fmt → Nat
  | .fp64 => 64 | .fp32 => 32 | .fp16 => 16 | .bf16 => 16 | .e4m3 => 8 | .e5m2 => 8 | .e3m2 => 6
  | .e2m3 => 6 | .e2m1 => 4 | .mxint8 => 8 | .int32 => 32 | .int64 => 64 | .transit => 32

/-- Exponent bits (R79). -/
def Fmt.ebits : Fmt → Nat
  | .fp64 => 11 | .fp32 => 8 | .fp16 => 5 | .bf16 => 8 | .e4m3 => 4 | .e5m2 => 5 | .e3m2 => 3
  | .e2m3 => 2 | .e2m1 => 2 | _ => 0

/-- Fraction bits (R79); MXINT8 takes 6 (R99). -/
def Fmt.mbits : Fmt → Nat
  | .fp64 => 52 | .fp32 => 23 | .fp16 => 10 | .bf16 => 7 | .e4m3 => 3 | .e5m2 => 2 | .e3m2 => 2
  | .e2m3 => 3 | .e2m1 => 1 | .mxint8 => 6 | _ => 0

/-- Bias (R79). MXINT8 has emin 0 (R99), which is 1 - bias at bias 1. -/
def Fmt.bias : Fmt → Nat
  | .fp64 => 1023 | .fp32 => 127 | .fp16 => 15 | .bf16 => 127 | .e4m3 => 7 | .e5m2 => 15 | .e3m2 => 3
  | .e2m3 => 1 | .e2m1 => 1 | .mxint8 => 1 | _ => 0

/-- Block-scaled formats (R77). -/
def Fmt.isBlock : Fmt → Bool
  | .e4m3 | .e5m2 | .e3m2 | .e2m3 | .e2m1 | .mxint8 => true
  | _ => false

/-- The IEEE formats. -/
def Fmt.isIeee : Fmt → Bool
  | .fp64 | .fp32 | .fp16 | .bf16 => true
  | _ => false

/-- The largest finite value, as m and e (R79). -/
def Fmt.maxFin : Fmt → Nat × Int
  | .fp64 => (2 ^ 53 - 1, 971) | .fp32 => (2 ^ 24 - 1, 104) | .fp16 => (2047, 5) | .bf16 => (255, 120)
  | .e4m3 => (14, 5) | .e5m2 => (7, 13) | .e3m2 => (7, 2) | .e2m3 => (15, -1) | .e2m1 => (3, 1)
  | .mxint8 => (127, -6) | _ => (0, 0)

/-- emax of R102. -/
def Fmt.emax : Fmt → Int
  | .e4m3 => 8 | .e5m2 => 15 | .e3m2 => 4 | .e2m3 => 2 | .e2m1 => 2 | _ => 0

/-- A rounding attribute (R39 ROUND, R327). -/
inductive Rnd where
  | rne | rz | rup | rdn | rna | sr
  deriving DecidableEq, Repr

/-- ROUND of GD0 (R39); none for a reserved code. -/
def rndOfCode (c : Nat) : Option Rnd :=
  match c with
  | 0 => some .rne | 1 => some .rz | 2 => some .rup | 3 => some .rdn | 4 => some .rna | 5 => some .sr
  | _ => none

/-- Stochastic rounding replaced by round to nearest, ties to even, as adds and divisions do (R97, R327). -/
def Rnd.det : Rnd → Rnd
  | .sr => .rne
  | r => r

/-- A value: a NaN with its sign, whether it signals, and its payload bits below the quiet bit aligned to a 51-bit
field; an infinity; or (-1)^neg * m * 2^e. -/
inductive FV where
  | nan (neg sig : Bool) (pay : Nat)
  | inf (neg : Bool)
  | fin (neg : Bool) (m : Nat) (e : Int)
  deriving DecidableEq, Repr

/-- `a * 2^ea >= b * 2^eb`. -/
def geScaled (a : Nat) (ea : Int) (b : Nat) (eb : Int) : Bool :=
  if eb ≤ ea then b ≤ a <<< (ea - eb).toNat else b <<< (eb - ea).toNat ≤ a

/-- Decodes an IEEE-style code: sign, exponent, fraction; `special` says whether the all-ones exponent is special. -/
def decodeIeee (f : Fmt) (special : Bool) (code : Nat) : FV :=
  let neg := (code >>> (f.ebits + f.mbits)) % 2 == 1
  let ex := (code >>> f.mbits) % 2 ^ f.ebits
  let fr := code % 2 ^ f.mbits
  if special && ex == 2 ^ f.ebits - 1 then
    if fr == 0 then .inf neg
    else .nan neg (fr >>> (f.mbits - 1) == 0) ((fr % 2 ^ (f.mbits - 1)) <<< (52 - f.mbits))
  else if ex == 0 then .fin neg fr (1 - (f.bias : Int) - f.mbits)
  else .fin neg (2 ^ f.mbits + fr) ((ex : Int) - f.bias - f.mbits)

/-- The value of an element code (R79, R80, R81), before any block scale. -/
def decodeElt (f : Fmt) (code : Nat) : FV :=
  match f with
  | .fp64 | .fp32 | .fp16 | .bf16 => decodeIeee f true code
  | .e5m2 => decodeIeee f true code
  | .e4m3 => if code % 128 == 0x7F then .nan (code / 128 % 2 == 1) false 0 else decodeIeee f false code
  | .e3m2 | .e2m3 | .e2m1 => decodeIeee f false code
  | .mxint8 => let j := sintOf 8 code; .fin (j < 0) j.natAbs (-6)
  | .int32 | .transit => let j := sintOf 32 code; .fin (j < 0) j.natAbs 0
  | .int64 => let j := sintOf 64 code; .fin (j < 0) j.natAbs 0

/-- The default NaN: positive, quiet, payload zero (R83). -/
def defaultNan : FV := .nan false false 0

/-- A block-scaled element at its block's scale byte (R81). -/
def decodeScaled (f : Fmt) (scale code : Nat) : FV :=
  if scale == 0xFF then defaultNan else
  match decodeElt f code with
  | .fin s m e => .fin s m (e + (scale : Int) - 127)
  | v => v

/-- A quiet copy of a NaN (R83). -/
def FV.quiet : FV → FV
  | .nan s _ p => .nan s false p
  | v => v

/-- Whether a value is a signalling NaN. -/
def FV.isSnan : FV → Bool
  | .nan _ sig _ => sig
  | _ => false

/-- Whether a value is a NaN. -/
def FV.isNan : FV → Bool
  | .nan .. => true
  | _ => false

/-- The code of an infinity in a format that has one (R79). -/
def infCode (f : Fmt) (neg : Bool) : Nat :=
  (b2n neg) <<< (f.ebits + f.mbits) ||| (2 ^ f.ebits - 1) <<< f.mbits

/-- The code of a NaN: narrowing keeps the sign and the top payload bits (R83). E4M3 has one NaN per sign. -/
def nanCode (f : Fmt) (neg sig : Bool) (pay : Nat) : Nat :=
  if f == .e4m3 then (b2n neg) * 128 + 0x7F else
  infCode f neg ||| (if sig then 0 else 2 ^ (f.mbits - 1)) ||| ((pay % 2 ^ 51) >>> (52 - f.mbits))

/-- zero_code of R99. -/
def zeroCode (f : Fmt) (neg : Bool) : Nat :=
  if f == .mxint8 then 0 else (b2n neg) <<< (f.ebits + f.mbits)

/-- pack of R99: `n < 2^mbits` packs as a subnormal; MXINT8 packs `n` in two's complement. -/
def packCode (f : Fmt) (neg : Bool) (n : Nat) (q : Int) : Nat :=
  if f == .mxint8 then uintOf 8 (if neg then -(n : Int) else n)
  else if n < 2 ^ f.mbits then zeroCode f neg ||| n
  else zeroCode f neg ||| ((q + f.mbits + f.bias).toNat <<< f.mbits) ||| (n - 2 ^ f.mbits)

/-- max_code of R99. -/
def maxCode (f : Fmt) (neg : Bool) : Nat := packCode f neg f.maxFin.1 f.maxFin.2

/-- The rounding decision of R99 on a remainder below `2^d`. -/
def roundUp (rnd : Rnd) (neg : Bool) (n rem d r : Nat) : Bool :=
  match rnd with
  | .rne => decide (2 * rem > 2 ^ d) || (decide (2 * rem = 2 ^ d) && n % 2 == 1)
  | .rna => decide (2 * rem ≥ 2 ^ d)
  | .rup => rem != 0 && !neg
  | .rdn => rem != 0 && neg
  | .rz  => false
  | .sr  => decide ((rem * 2 ^ 32) / 2 ^ d + r ≥ 2 ^ 32)

/-- `m * 2^e` rounded to a multiple of `2^q`, in units of `2^q`, and whether bits were lost. -/
def roundTo (rnd : Rnd) (neg : Bool) (m : Nat) (e q : Int) (r : Nat) : Nat × Bool :=
  if q ≤ e then (m <<< (e - q).toNat, false)
  else
    let d := (q - e).toNat
    let n := m >>> d
    let rem := m - (n <<< d)
    (n + b2n (roundUp rnd neg n rem d r), rem != 0)

/-- tiny_after of R99: the value rounded with an unbounded exponent range lies below the smallest normal. -/
def tinyAfter (f : Fmt) (rnd : Rnd) (neg : Bool) (m : Nat) (e : Int) (r : Nat) : Bool :=
  if f == .mxint8 then false else
  let emin : Int := 1 - f.bias
  let q : Int := e + msb m - f.mbits
  let n := (roundTo rnd neg m e q r).1
  !(geScaled n q 1 emin)

/-- The classes of over() (R100): 0 none, 1 non-finite, 2 largest finite. `arith` is true for the IEEE operations
of R82 and R334, where a value between max and the next power of two that rounds back to max does not overflow; false for
every conversion, VCVT among them (R99, R338). -/
def overClass (f : Fmt) (ovf : Nat) (arith : Bool) (neg : Bool) (m : Nat) (e : Int) (rnd : Rnd) : Nat :=
  let (mm, me) := f.maxFin
  let geT := geScaled m e (2 * mm + 1) (me - 1)
  let gtMax := !(geScaled mm me m e)
  let c1 : Nat :=
    match f with
    | .fp64 | .fp32 | .fp16 | .bf16 => 1
    | .e4m3 => if ovf == 2 then 1 else 2
    | .e5m2 => if ovf == 1 then 2 else 1
    | _ => 2
  let away := match rnd with
    | .rup => !neg
    | .rdn => neg
    | _ => false
  match rnd with
  | .rne | .rna | .sr => if geT then c1 else 0
  | _ =>
    if away then (if gtMax then c1 else 0)
    else if arith then (if geScaled m e (mm + 1) me then 2 else 0)
    else (if gtMax then 2 else 0)

/-- encode of R99 for `m > 0`: the code and the flags it raises. -/
def encodeFin (f : Fmt) (ovf : Nat) (arith : Bool) (neg : Bool) (m : Nat) (e : Int) (rnd : Rnd) (r : Nat) :
    Nat × Flags :=
  let x : Int := e + msb m
  let emin : Int := 1 - f.bias
  let q : Int := max x emin - f.mbits
  match overClass f ovf arith neg m e rnd with
  | 1 => (if f == .e4m3 then nanCode f neg false 0 else infCode f neg, ieOverflow ||| ieInexact)
  | 2 => (maxCode f neg, ieOverflow ||| ieInexact ||| flagIf (!arith) saturated)
  | _ =>
    let (n, lost) := roundTo rnd neg m e q r
    let fl := flagIf lost (ieInexact ||| flagIf (tinyAfter f rnd neg m e r) ieUnderflow)
    if n == 0 then (zeroCode f neg, fl)
    else
      let (n, q) := if n == 2 * 2 ^ f.mbits then (n >>> 1, q + 1) else (n, q)
      if !(geScaled f.maxFin.1 f.maxFin.2 n q) then (maxCode f neg, fl) else (packCode f neg n q, fl)

/-- A value encoded in an IEEE format: a signalling NaN is quieted with IE_INVALID (R83). -/
def encodeFV (f : Fmt) (ovf : Nat) (arith : Bool) (v : FV) (rnd : Rnd) (r : Nat) : Nat × Flags :=
  match v with
  | .nan s sig p => (nanCode f s false p, flagIf sig ieInvalid)
  | .inf s => (infCode f s, 0)
  | .fin s m e => if m == 0 then (zeroCode f s, 0) else encodeFin f ovf arith s m e rnd r

/-- The exact sum of two finite values, with the zero rule of R84. -/
def addFin (rnd : Rnd) (s1 : Bool) (m1 : Nat) (e1 : Int) (s2 : Bool) (m2 : Nat) (e2 : Int) : FV :=
  if m1 == 0 && m2 == 0 then .fin (if s1 == s2 then s1 else rnd == .rdn) 0 0
  else
    let e := min e1 e2
    let a : Int := (m1 <<< (e1 - e).toNat : Nat)
    let b : Int := (m2 <<< (e2 - e).toNat : Nat)
    let t := (if s1 then -a else a) + (if s2 then -b else b)
    if t == 0 then .fin (rnd == .rdn) 0 0 else .fin (t < 0) t.natAbs e

/-- The NaN result of an operation with a NaN operand: the first NaN, quieted; IE_INVALID for a signalling one
(R83). -/
def nanOf (a b : FV) : FV × Flags :=
  ((if a.isNan then a.quiet else b.quiet), flagIf (a.isSnan || b.isSnan) ieInvalid)

/-- The sum before rounding (R82-R84). -/
def addFV (rnd : Rnd) (a b : FV) : FV × Flags :=
  if a.isNan || b.isNan then nanOf a b else
  match a, b with
  | .inf s, .inf t => if s == t then (.inf s, 0) else (defaultNan, ieInvalid)
  | .inf s, _ => (.inf s, 0)
  | _, .inf t => (.inf t, 0)
  | .fin s1 m1 e1, .fin s2 m2 e2 => (addFin rnd s1 m1 e1 s2 m2 e2, 0)
  | _, _ => (defaultNan, 0)

/-- The negated value (a NaN keeps its sign: it is only passed on). -/
def FV.negate : FV → FV
  | .fin s m e => .fin (!s) m e
  | .inf s => .inf (!s)
  | v => v

/-- The product before rounding. -/
def mulFV (a b : FV) : FV × Flags :=
  if a.isNan || b.isNan then nanOf a b else
  match a, b with
  | .inf s, .inf t => (.inf (s != t), 0)
  | .inf s, .fin t m _ => if m == 0 then (defaultNan, ieInvalid) else (.inf (s != t), 0)
  | .fin s m _, .inf t => if m == 0 then (defaultNan, ieInvalid) else (.inf (s != t), 0)
  | .fin s m e, .fin t n g => (.fin (s != t) (m * n) (e + g), 0)
  | _, _ => (defaultNan, 0)

/-- Bits kept below the last place of a quotient or a root; a sticky bit follows them. -/
def guardBits : Nat := 96

/-- The quotient before rounding, to enough bits that one rounding of it rounds the exact quotient. -/
def divFV (a b : FV) : FV × Flags :=
  if a.isNan || b.isNan then nanOf a b else
  match a, b with
  | .inf _, .inf _ => (defaultNan, ieInvalid)
  | .inf s, .fin t _ _ => (.inf (s != t), 0)
  | .fin s _ _, .inf t => (.fin (s != t) 0 0, 0)
  | .fin s m e, .fin t n g =>
    if n == 0 then (if m == 0 then (defaultNan, ieInvalid) else (.inf (s != t), ieDivzero))
    else if m == 0 then (.fin (s != t) 0 0, 0)
    else
      let k := (msb n - msb m) + guardBits
      let q := (m <<< k) / n
      (.fin (s != t) (2 * q + b2n ((m <<< k) % n != 0)) (e - g - k - 1), 0)
  | _, _ => (defaultNan, 0)

/-- The integer square root of a number below `4^bits`. -/
def isqrt (n : Nat) : Nat → Nat → Nat
  | 0, acc => acc
  | b + 1, acc => let c := acc + 2 ^ b; isqrt n b (if c * c ≤ n then c else acc)

/-- The square root before rounding. -/
def sqrtFV (a : FV) : FV × Flags :=
  match a with
  | .nan .. => (a.quiet, flagIf a.isSnan ieInvalid)
  | .inf s => if s then (defaultNan, ieInvalid) else (.inf false, 0)
  | .fin s m e =>
    if m == 0 then (.fin s 0 0, 0)
    else if s then (defaultNan, ieInvalid)
    else
      let k : Nat := 2 * guardBits + (if (e % 2 == 0) then 0 else 1)
      let n := m <<< k
      let q := isqrt n (msb n / 2 + 1) 0
      (.fin false (2 * q + b2n (q * q != n)) ((e - k) / 2 - 1), 0)

/-- One operation rounded once in an IEEE format (R82, R334): never SATURATED. -/
def roundOp (f : Fmt) (rnd : Rnd) (vf : FV × Flags) : Nat × Flags :=
  let (c, g) := encodeFV f 0 true vf.1 rnd 0
  (c, vf.2 ||| g)

/-- The order of two values that are not NaN: -1, 0 or 1, with -0 equal to +0. -/
def cmpFV (a b : FV) : Int :=
  let key := fun (v : FV) => match v with
    | .inf s => (if s then (-1 : Int) else 1, true)
    | _ => (0, false)
  match a, b with
  | .fin s m e, .fin t n g =>
    let lo := min e g
    let x : Int := (m <<< (e - lo).toNat : Nat)
    let y : Int := (n <<< (g - lo).toNat : Nat)
    let d := (if s then -x else x) - (if t then -y else y)
    if d < 0 then -1 else if d == 0 then 0 else 1
  | _, _ =>
    let (ka, _) := key a
    let (kb, _) := key b
    if ka < kb then -1 else if ka == kb then 0 else 1

/-- Whether a value carries a minus sign. -/
def FV.isNeg : FV → Bool
  | .nan s _ _ => s
  | .inf s => s
  | .fin s _ _ => s

/-- MAX and MIN of R85 on codes of one IEEE format. -/
def maxMin (f : Fmt) (isMax : Bool) (a b : Nat) : Nat × Flags :=
  let x := decodeElt f a
  let y := decodeElt f b
  if x.isNan || y.isNan then
    let (v, g) := nanOf x y
    ((encodeFV f 0 true v .rne 0).1, g)
  else
    let c := cmpFV x y
    let aLess := decide (c < 0) || (c == 0 && x.isNeg && !y.isNeg)
    (if aLess == isMax then b else a, 0)

/-- An integer clamped to `n` bits of two's complement, with SATURATED (R116). -/
def satInt (n : Nat) (v : Int) : Int × Flags :=
  let hi : Int := (2 ^ (n - 1) : Nat) - 1
  let lo : Int := -((2 ^ (n - 1) : Nat) : Int)
  if v > hi then (hi, saturated) else if v < lo then (lo, saturated) else (v, 0)

/-- The operation that combines two operands of a chunk (R123). -/
inductive RedOp where
  | sum | max | min
  deriving DecidableEq, Repr

/-- op() of R123 on two codes of the accumulation format: lower ranks on the left. -/
def accOp (op : RedOp) (acc : Fmt) (rnd : Rnd) (a b : Nat) : Nat × Flags :=
  match acc with
  | .int64 | .int32 | .transit =>
    let x := sintOf 64 a
    let y := sintOf 64 b
    match op with
    | .sum => let (v, g) := satInt 64 (x + y); (uintOf 64 v, g)
    | .max => (uintOf 64 (max x y), 0)
    | .min => (uintOf 64 (min x y), 0)
  | f =>
    match op with
    | .sum => roundOp f rnd.det (addFV rnd.det (decodeElt f a) (decodeElt f b))
    | .max => maxMin f true a b
    | .min => maxMin f false a b

/-- sr_bits of R98. -/
def srBits (seed : Word) (group step bucket : Nat) (i : Nat) : Nat :=
  let x0 : Word := BitVec.ofNat 64 ((bucket % 2 ^ 16) * 2 ^ 32 + i % 2 ^ 32)
  let k0 : Word := seed ^^^ (BitVec.ofNat 64 ((group % 2 ^ 16) <<< 48)) ^^^ (BitVec.ofNat 64 ((step % 2 ^ 16) <<< 32))
  let rd := fun (xk : Word × Word) =>
    let x := (xk.1 ^^^ xk.2) * 0xB7E35A19C4D26E8B#64
    (x ^^^ (x >>> 29), xk.2 + 0x8F1C2D47E6A93B55#64)
  let (x, _) := rd (rd (rd (x0, k0)))
  (x ^^^ (x >>> 32)).toNat % 2 ^ 32

/-- A contribution's element decoded into an IEEE accumulation format: exact, except that a value above the range
becomes infinity with IE_OVERFLOW (R81); a signalling NaN is quieted (R83). -/
def decodeToAcc (acc : Fmt) (v : FV) : Nat × Flags :=
  match v with
  | .fin s m e =>
    if m == 0 then (zeroCode acc s, 0)
    else
      let (c, g) := encodeFin acc 0 true s m e .rne 0
      if g &&& ieOverflow != 0 then (infCode acc s, ieOverflow) else (c, 0)
  | v => encodeFV acc 0 true v .rne 0

/-- The block sizes of R86. -/
def blkSize (c : Nat) : Option Nat := if c ≤ 5 then some (8 <<< c) else none

/-- The result of encoding one block: its scale byte, its element codes, flags, VANISHED and ZERO_BLOCKS. -/
structure BlockOut where
  scale : Nat
  codes : List Nat
  flags : Flags
  vanished : Nat
  zeros : Nat
  deriving DecidableEq, Repr

/-- An element of a block at a scale: code, flags, whether it vanished, whether it encoded as NaN. -/
def encodeAt (f : Fmt) (ovf : Nat) (rnd : Rnd) (scale : Nat) (v : FV) (r : Nat) : Nat × Flags × Bool × Bool :=
  match v with
  | .nan .. => (0, 0, false, false)
  | .inf s => (if f == .e5m2 then infCode f s else 0, 0, false, false)
  | .fin s m e =>
    if m == 0 then (zeroCode f s, 0, false, false)
    else
      let (c, g) := encodeFin f ovf false s m (e - ((scale : Int) - 127)) rnd r
      (c, g, c == 0 || (f != .mxint8 && c == zeroCode f true), f == .e4m3 && c % 128 == 0x7F)

/-- Whether a value is a zero. -/
def FV.isZero : FV → Bool
  | .fin _ m _ => m == 0
  | _ => false

/-- Whether a value is an infinity. -/
def FV.isInf : FV → Bool
  | .inf _ => true
  | _ => false

/-- floor(log2) of the largest finite nonzero magnitude; none when there is none. -/
def amaxLog (vs : List FV) : Option Int :=
  vs.foldl (fun acc v => match v with
    | .fin _ m e => if m == 0 then acc else
        let x : Int := e + msb m
        some (match acc with | none => x | some y => max x y)
    | _ => acc) none

/-- The scale of R102. -/
def blockScale (f : Fmt) (vs : List FV) : Nat :=
  match amaxLog vs with
  | none => 0
  | some x => (min (max (x - f.emax + 127) 0) 254).toNat

/-- An element of a block to encode: its value, its random bits, and whether its flags count (R281). -/
structure BElem where
  val : FV
  rbits : Nat := 0
  cnt : Bool := true
  deriving DecidableEq, Repr

/-- One block encoded at a given scale, with R103: a NaN, or an infinity the format cannot hold, or an element that
encodes as NaN, gives scale 0xFF and codes 0. A signalling NaN among the elements of such a block sets IE_INVALID by R83,
though R103 names only IE_OVERFLOW and IE_INEXACT (DESIGN CHOICE, log 97). -/
def encodeBlockAt (f : Fmt) (ovf : Nat) (rnd : Rnd) (scale : Nat) (vs : List BElem) : BlockOut :=
  let es := vs.map (fun b => (b.cnt, encodeAt f ovf rnd scale b.val b.rbits))
  let inv := flagIf (vs.any (fun b => b.cnt && b.val.isSnan)) ieInvalid
  let nans := es.filter (fun x => x.2.2.2.2)
  let counted := es.filter (fun x => x.1)
  if vs.any (fun b => b.val.isNan || (b.val.isInf && f != .e5m2)) || !nans.isEmpty then
    { scale := 0xFF, codes := vs.map (fun _ => 0),
      flags := inv ||| flagsOr ((nans.filter (fun x => x.1)).map (fun x => x.2.2.1 &&& (ieOverflow ||| ieInexact))),
      vanished := 0, zeros := 0 }
  else
    { scale, codes := es.map (fun x => x.2.1), flags := inv ||| flagsOr (counted.map (fun x => x.2.2.1)),
      vanished := (es.filter (fun x => x.2.2.2.1)).length, zeros := 0 }

/-- One block of an ORDERED or ARRIVAL result, or of a VQNT (R102-R104). -/
def encodeBlock (f : Fmt) (ovf : Nat) (rnd : Rnd) (vs : List BElem) : BlockOut :=
  if vs.all (fun b => b.val.isZero) then
    { scale := 0, codes := vs.map (fun _ => 0), flags := 0, vanished := 0, zeros := 1 }
  else encodeBlockAt f ovf rnd (blockScale f (vs.map (·.val))) vs

end Sys2Proof.Machine
end

