-- ==== Sys2Proof/Machine/Reduce.lean ====
section
/-! DEFINITION. The group descriptor's fields (R39) and the arithmetic of a chunk: layout (R86-R91), permitted
combinations (R93, R107), leaves, grid conversion (R106-R111), transit sums (R112, R113), the final conversion
(R97, R69, R114, R115) and SLOT_BYTES (R128). -/

namespace Sys2Proof.Machine

/-- The eight words GD0-GD7 of a group descriptor (R39). -/
abbrev Desc := Vector Word 8

/-- A cleared descriptor. -/
def descZero : Desc := Vector.replicate 8 0

/-- GD0.VALID. -/
def gdValid (d : Desc) : Bool := bitOf d[0] 63
/-- GD0.CLASS: express. -/
def gdExpress (d : Desc) : Bool := bitOf d[0] 62
/-- GD0.MODE: 0 ORDERED, 1 EXACT, 2 ARRIVAL. -/
def gdMode (d : Desc) : Nat := fld d[0] 60 2
/-- GD0.OP: 0 SUM, 1 MEAN, 2 MAX, 3 MIN, 4 FUSED. -/
def gdOp (d : Desc) : Nat := fld d[0] 56 4
/-- GD0.IN_FMT. -/
def gdIn (d : Desc) : Option Fmt := fmtOfCode (fld d[0] 50 6)
/-- GD0.ACC_FMT. -/
def gdAcc (d : Desc) : Option Fmt := fmtOfCode (fld d[0] 44 6)
/-- GD0.OUT_FMT. -/
def gdOut (d : Desc) : Option Fmt := fmtOfCode (fld d[0] 38 6)
/-- GD0.IN_BLK. -/
def gdInBlk (d : Desc) : Nat := fld d[0] 35 3
/-- GD0.IN_DIR. -/
def gdInDir (d : Desc) : Bool := bitOf d[0] 34
/-- GD0.OUT_BLK. -/
def gdOutBlk (d : Desc) : Nat := fld d[0] 31 3
/-- GD0.OUT_DIR. -/
def gdOutDir (d : Desc) : Bool := bitOf d[0] 30
/-- GD0.ROUND. -/
def gdRound (d : Desc) : Nat := fld d[0] 27 3
/-- GD0.OVF_POL. -/
def gdOvf (d : Desc) : Nat := fld d[0] 25 2
/-- GD0.OUT_POL. -/
def gdOutPol (d : Desc) : Nat := fld d[0] 23 2
/-- GD0.AGREED_SCALE. -/
def gdScale (d : Desc) : Nat := fld d[0] 15 8
/-- GD0.RES_TC. -/
def gdResTc (d : Desc) : Nat := fld d[0] 12 3
/-- GD1.MEMBER_COUNT. -/
def gdN (d : Desc) : Nat := fld d[1] 47 17
/-- GD1.MEMBER_BASE. -/
def gdMemberBase (d : Desc) : Nat := fld d[1] 25 22
/-- GD1.MIN_PRESENT. -/
def gdMinPresent (d : Desc) : Nat := fld d[1] 8 17
/-- GD2.BUCKET_BASE. -/
def gdBucketBase (d : Desc) : Nat := fld d[2] 44 20
/-- GD2.BUCKET_COUNT. -/
def gdBuckets (d : Desc) : Nat := fld d[2] 27 17
/-- GD2.SLOT_BYTES. -/
def gdSlotBytes (d : Desc) : Nat := fld d[2] 3 24
/-- GD3.HOME_BASE. -/
def gdHomeBase (d : Desc) : Nat := fld d[3] 48 16
/-- GD3.HOME_COUNT. -/
def gdHomes (d : Desc) : Nat := fld d[3] 41 7
/-- GD3.IS_HOME. -/
def gdIsHome (d : Desc) : Bool := bitOf d[3] 40
/-- GD3.SELF_INDEX. -/
def gdSelf (d : Desc) : Nat := fld d[3] 34 6
/-- GD3.QUOTA_CHUNKS. -/
def gdQuota (d : Desc) : Nat := fld d[3] 16 18
/-- GD4.DEADLINE, in units of 16 cycles. -/
def gdDeadline (d : Desc) : Nat := fld d[4] 32 32
/-- GD4.LATE_POL: 0 PARTIAL, 1 REPEAT. -/
def gdLatePol (d : Desc) : Nat := fld d[4] 30 2
/-- GD4.HOME_CHUNKS. -/
def gdHomeChunks (d : Desc) : Nat := fld d[4] 0 21
/-- GD5.STEP_PROG. -/
def gdStepProg (d : Desc) : Nat := fld d[5] 54 10
/-- GD5.STEP_EN. -/
def gdStepEn (d : Desc) : Bool := bitOf d[5] 53
/-- GD5.FIN_PROG. -/
def gdFinProg (d : Desc) : Nat := fld d[5] 43 10
/-- GD5.ARENA_EXTENTS. -/
def gdArena (d : Desc) : Nat := fld d[5] 21 22
/-- GD6.TILE_COLS. -/
def gdTileCols (d : Desc) : Nat := fld d[6] 48 16
/-- GD6.STATUS. -/
def gdStatus (d : Desc) : Nat := fld d[6] 40 8
/-- GD7.SEED. -/
def gdSeed (d : Desc) : Word := d[7]

/-- A descriptor that takes part in steps: valid with STATUS OK (R37), or IN_USE, under which the old definition stays
(R37, R44). -/
def gdLive (d : Desc) : Bool := gdValid d && (gdStatus d == 0 || gdStatus d == 0x0A)

/-- The rounding attribute of a group (a reserved code never passes the commit; R42). -/
def gdRnd (d : Desc) : Rnd := (rndOfCode (gdRound d)).getD .rne

/-- The combining operation (R123): SUM, MEAN and FUSED add. -/
def gdRed (d : Desc) : RedOp := if gdOp d == 2 then .max else if gdOp d == 3 then .min else .sum

/-- MODE is EXACT. -/
def gdExact (d : Desc) : Bool := gdMode d == 1

/-- K of R88 for row sharing; none for a reserved block size code. -/
def rowK (f : Fmt) (blk : Nat) : Option Nat :=
  if f.isBlock then
    match blkSize blk with
    | none => none
    | some b =>
      match f.width with
      | 8 => some (if b == 8 then 3584 else 3840)
      | 6 => some (if b == 8 then 4608 else if b == 16 then 4864 else if b ≤ 64 then 5120 else 5376)
      | _ => some (if b == 8 then 6400 else if b == 16 then 7168 else if b == 32 then 7680 else 7936)
  else some (32768 / f.width)

/-- The block unit of R90: 1 for formats that are not block-scaled. -/
def blockUnit (f : Fmt) (blk : Nat) (dir : Bool) (tc : Nat) : Nat :=
  if f.isBlock then (8 <<< blk) * (if dir then tc else 1) else 1

/-- K of R88; none when the definition has no K. -/
def fullK (f : Fmt) (blk : Nat) (dir : Bool) (tc : Nat) : Option Nat :=
  match rowK f blk with
  | none => none
  | some k =>
    if f.isBlock && dir then
      let u := blockUnit f blk dir tc
      if u == 0 || u > k then none else some (k / u * u)
    else some k

/-- K of a group. -/
def gdK (d : Desc) : Nat :=
  match gdIn d with
  | none => 0
  | some f => (fullK f (gdInBlk d) (gdInDir d) (gdTileCols d)).getD 0

/-- The elements of a chunk of `bytes` payload bytes (R88, R90); none when it is not whole elements and blocks. A short last
chunk may hold more elements than K, as 4,041 bytes of E4M3 in blocks of 8 do: the spec is silent and the model accepts it
(DESIGN CHOICE, log 98). -/
def chunkElems (d : Desc) (bytes : Nat) : Option Nat :=
  match gdIn d, gdOut d with
  | some f, some g =>
    if bytes == 4096 then some (gdK d) else
    let u := blockUnit f (gdInBlk d) (gdInDir d) (gdTileCols d)
    let v := blockUnit g (gdOutBlk d) (gdOutDir d) (gdTileCols d)
    let k := if f.isBlock then bytes * 8 * (8 <<< gdInBlk d) / (f.width * (8 <<< gdInBlk d) + 8)
             else bytes * 8 / f.width
    let back := if f.isBlock then k * f.width / 8 + k / (8 <<< gdInBlk d) else k * f.width / 8
    if k != 0 && back == bytes && u != 0 && v != 0 && k % u == 0 && k % v == 0 && (k * f.width) % 8 == 0
      then some k else none
  | _, _ => none

/-- Payload bytes of chunk `c` of a bucket of `len` bytes (R50). -/
def chunkBytes (len c : Nat) : Nat := min 4096 (len - 4096 * c)

/-- Chunks of a bucket (R50). -/
def bucketChunks (len : Nat) : Nat := ceilDiv len 4096

/-- The block that element `e` belongs to (R87). -/
def blockOf (b : Nat) (dir : Bool) (tc e : Nat) : Nat :=
  if dir then (e / tc / b) * tc + e % tc else e / b

/-- The place of element `e` in its block (R87). -/
def placeIn (b : Nat) (dir : Bool) (tc e : Nat) : Nat := if dir then (e / tc) % b else e % b

/-- The element at place `i` of block `j` (R87). -/
def elemAt (b : Nat) (dir : Bool) (tc j i : Nat) : Nat :=
  if dir then ((j / tc) * b + i) * tc + j % tc else j * b + i

/-- The codes and scale bytes of a payload of `k` elements (R89); no scales for formats without blocks. -/
def splitPayload (f : Fmt) (blk k : Nat) (bytes : List Byte) : List Nat × List Nat :=
  let codes := unpackBits f.width k bytes
  if f.isBlock then (codes, ((bytes.drop (k * f.width / 8)).take (k / (8 <<< blk))).map (·.toNat))
  else (codes, [])

/-- Payload bytes of `k` elements of a format without padding (R90, R91). -/
def payloadLen (f : Fmt) (blk k : Nat) : Nat :=
  ceilDiv (k * f.width) 8 + (if f.isBlock then k / (8 <<< blk) else 0)

/-- The values of a contribution's elements (R81). -/
def leafValues (d : Desc) (k : Nat) (payload : List Byte) : List FV :=
  match gdIn d with
  | none => []
  | some f =>
    let (codes, scales) := splitPayload f (gdInBlk d) k payload
    if f.isBlock then
      let sc := scales.toArray
      codes.zipIdx.map (fun ce =>
        decodeScaled f (sc.getD (blockOf (8 <<< gdInBlk d) (gdInDir d) (gdTileCols d) ce.2) 0xFF) ce.1)
    else codes.map (decodeElt f)

/-- A leaf in the accumulation format, with the flags its decoding raises (R97, R83, R116). -/
def leafAcc (d : Desc) (k : Nat) (payload : List Byte) : List Nat × Flags :=
  match gdIn d, gdAcc d with
  | some f, some a =>
    if a == .int64 then
      ((splitPayload f 0 k payload).1.map (fun c => uintOf 64 (sintOf f.width c)), 0)
    else
      let r := (leafValues d k payload).map (decodeToAcc a)
      (r.map (·.1), flagsOr (r.map (·.2)))
  | _, _ => ([], 0)

/-- One operation on whole operands (R123). -/
def accOps (d : Desc) (a b : List Nat) : List Nat × Flags :=
  match gdAcc d with
  | none => ([], 0)
  | some f =>
    let r := (a.zip b).map (fun xy => accOp (gdRed d) f (gdRnd d) xy.1 xy.2)
    (r.map (·.1), flagsOr (r.map (·.2)))

/-! ## Adders and their residues (R117) -/

/-- The exponent of the least quantum of an accumulation format. -/
def leastQuantum (f : Fmt) : Int :=
  match f with
  | .int64 | .int32 | .transit => 0
  | _ => 1 - (f.bias : Int) - f.mbits

/-- The exact value of a code in units of the format's least quantum; none of a NaN or an infinity. -/
def quantaOf (f : Fmt) (code : Nat) : Option Int :=
  match f with
  | .int64 | .int32 | .transit => some (sintOf 64 code)
  | _ =>
    match decodeElt f code with
    | .fin s m e => let n : Int := (m <<< (e - leastQuantum f).toNat : Nat); some (if s then -n else n)
    | _ => none

/-- The mod-255 residue of a value. -/
def residueOf (v : Int) : Nat := (v % 255).toNat

/-- The residues that travel with codes of an accumulation format. -/
def residuesOf (d : Desc) (xs : List Nat) : List Nat :=
  match gdAcc d with
  | none => []
  | some f => xs.map (fun x => residueOf ((quantaOf f x).getD 0))

/-- The comparison that an add makes: the operands' residues against that of the actual result. -/
def residueOk (ra rb : Nat) (result : Int) : Bool := (ra + rb) % 255 == residueOf result

/-- An add of two codes whose exact sum comes out wrong by `err` least quanta; an infinity or a NaN is not summed. -/
def addErr (f : Fmt) (rnd : Rnd) (a b : Nat) (err : Int) : Nat × Flags :=
  match quantaOf f a, quantaOf f b with
  | some x, some y =>
    let v := x + y + err
    match f with
    | .int64 | .int32 | .transit => let (n, g) := satInt 64 v; (uintOf 64 n, g)
    | _ => roundOp f rnd.det (if v == 0 then .fin (rnd.det == .rdn) 0 0 else .fin (decide (v < 0)) v.natAbs (leastQuantum f), 0)
  | _, _ => accOp .sum f rnd a b

/-- One operation on whole operands, in which the adder of one element errs. -/
def accOpsErr (d : Desc) (e : Nat) (err : Int) (a b : List Nat) : List Nat × Flags :=
  match gdAcc d with
  | none => ([], 0)
  | some f =>
    let r := ((a.zip b).zipIdx).map (fun xy =>
      if xy.2 == e && gdRed d == .sum then addErr f (gdRnd d) xy.1.1 xy.1.2 err
      else accOp (gdRed d) f (gdRnd d) xy.1.1 xy.1.2)
    (r.map (·.1), flagsOr (r.map (·.2)))

/-- Whether the residues of an add of codes show an error of `err` least quanta in element `e`: those that travel with the left
operand against those of the right one. -/
def missShows (d : Desc) (e : Nat) (err : Int) (ra : List Nat) (a b : List Nat) : Bool :=
  match gdAcc d with
  | none => false
  | some f =>
    match (a[e]?).bind (quantaOf f), (b[e]?).bind (quantaOf f) with
    | some x, some y => gdRed d == .sum && !residueOk (ra.getD e 0) (residueOf y) (x + y + err)
    | _, _ => false

/-- log2 of the quantum q_f and the width W_f (R106). -/
def gridOf (f : Fmt) : Int × Nat :=
  match f with
  | .e4m3 => (-9, 18) | .e5m2 => (-16, 32) | .e3m2 => (-4, 9) | .e2m3 => (-3, 6) | .e2m1 => (-1, 4)
  | .mxint8 => (-6, 8) | .fp32 => (-23, 24) | .fp16 => (-10, 11) | .bf16 => (-7, 8) | .int32 => (0, 32)
  | _ => (0, 64)

/-- The headroom H of R107. -/
def headroom (d : Desc) : Int :=
  match gdIn d with
  | none => -1
  | some f => 47 - (gridOf f).2 - clog2 (gdN d)

/-- The largest scale offset of R107. -/
def offsetLimit (d : Desc) : Int :=
  if gdIn d == some .int32 then 0 else min 16 (headroom d)

/-- log2 of the grid g of an EXACT group (R106). -/
def gridLog (d : Desc) : Int :=
  match gdIn d with
  | none => 0
  | some f => (gridOf f).1 + gdScale d - 127

/-- The integer of an i48 accumulator element (R111). -/
def wrap48 (v : Int) : Int := sintOf 48 (uintOf 48 v)

/-- An element of an EXACT contribution on the grid (R110, R111): integer, sticky bits (NaN, +inf, -inf, FINITE from
bit 3 down), flags, and 1 when it vanished. -/
structure GridElem where
  n : Int
  sticky : BitVec 4
  flags : Flags
  vanished : Nat
  deriving DecidableEq, Repr

/-- A value of an EXACT contribution converted to the grid; `o` is the block's or the declared offset (R110). -/
def toGrid (d : Desc) (f : Fmt) (o : Int) (v : FV) : GridElem :=
  match v with
  | .nan _ sig _ => { n := 0, sticky := 8, flags := flagIf sig ieInvalid, vanished := 0 }
  | .inf s => { n := 0, sticky := if s then 2 else 4, flags := 0, vanished := 0 }
  | .fin s m e =>
    if m == 0 then { n := 0, sticky := 1, flags := 0, vanished := 0 } else
    let sgn := fun (x : Nat) => if s then -(x : Int) else (x : Int)
    if f.isBlock || f == .int32 then
      let (n, lost) := roundTo (gdRnd d).det s m e (gridLog d) 0
      { n := sgn n, sticky := 1, flags := flagIf lost ieInexact, vanished := b2n (n == 0) }
    else
      let oo := max o 0
      let w := (gridOf f).2
      if geScaled m e 2 ((gdScale d : Int) + o - 127) then
        let lim : Nat := if 0 ≤ o then (2 ^ w - 1) <<< o.toNat else (2 ^ w - 1) >>> (-o).toNat
        { n := sgn lim, sticky := 1, flags := saturated, vanished := b2n (lim == 0) }
      else
        let (n, lost) := roundTo (gdRnd d).det s m e (gridLog d + oo) 0
        { n := sgn (n <<< oo.toNat), sticky := 1, flags := flagIf lost ieInexact, vanished := b2n (n == 0) }

/-- The largest block offset of a frame, over blocks whose scale is not 0xFF (R108). -/
def largestOffset (d : Desc) (k : Nat) (payload : List Byte) : Option Int :=
  match gdIn d with
  | none => none
  | some f =>
    (splitPayload f (gdInBlk d) k payload).2.foldl (fun acc s =>
      if s == 0xFF then acc else
      let o : Int := (s : Int) - gdScale d
      some (match acc with | none => o | some x => max x o)) none

/-- An EXACT contribution on the grid (R110); `o` is the declared offset of R108. -/
def leafGrid (d : Desc) (k : Nat) (o : Int) (payload : List Byte) : List GridElem :=
  match gdIn d with
  | none => []
  | some f => (leafValues d k payload).map (toGrid d f o)

/-- One EXACT accumulator element combined with another (R111). -/
def gridOp (op : RedOp) (a b : Int × BitVec 4) : Int × BitVec 4 :=
  let fin := fun (s : BitVec 4) => bitOf s 0
  let n := match op with
    | .sum => wrap48 (a.1 + b.1)
    | .max => if fin a.2 && fin b.2 then max a.1 b.1 else if fin b.2 then b.1 else a.1
    | .min => if fin a.2 && fin b.2 then min a.1 b.1 else if fin b.2 then b.1 else a.1
  (n, a.2 ||| b.2)

/-- EXACT elements combined, in which the adder of one errs by `err` (R111, R117). -/
def gridOpsErr (op : RedOp) (e : Nat) (err : Int) (a b : List (Int × BitVec 4)) : List (Int × BitVec 4) :=
  ((a.zip b).zipIdx).map (fun xy =>
    let r := gridOp op xy.1.1 xy.1.2
    if xy.2 == e && op == .sum then (wrap48 (xy.1.1.1 + xy.1.2.1 + err), r.2) else r)

/-- The residues that travel with EXACT elements. -/
def gridResidues (xs : List (Int × BitVec 4)) : List Nat := xs.map (fun x => residueOf x.1)

/-- Whether the residues of an add of EXACT elements show an error of `err` in element `e`. -/
def gridMissShows (op : RedOp) (e : Nat) (err : Int) (ra : List Nat) (a b : List (Int × BitVec 4)) : Bool :=
  match a[e]?, b[e]? with
  | some x, some y => op == .sum && !residueOk (ra.getD e 0) (residueOf y.1) (x.1 + y.1 + err)
  | _, _ => false

/-- The result of the final conversion of a chunk: payload, flags, VANISHED, ZERO_BLOCKS, and whether OUT_POL
REPEAT withholds it (R115). -/
structure Final where
  payload : List Byte
  flags : Flags
  vanished : Nat
  zeros : Nat
  repeatScale : Bool := false
  deriving DecidableEq, Repr

/-- Blocks laid out as R89 and R91 set out: codes in element order, then the scales. -/
def layBlocks (f : Fmt) (b : Nat) (dir : Bool) (tc k : Nat) (blocks : List BlockOut) : List Byte :=
  let arr := (blocks.map (fun x => x.codes.toArray)).toArray
  let codes := (List.range k).map (fun e => (arr.getD (blockOf b dir tc e) #[]).getD (placeIn b dir tc e) 0)
  packBits f.width codes ++ blocks.map (fun x => BitVec.ofNat 8 x.scale)

/-- The blocks of `k` values as lists of elements with their numbers. -/
def cutBlocks (b : Nat) (dir : Bool) (tc k : Nat) (xs : Array BElem) : List (List BElem) :=
  (List.range (k / b)).map (fun j =>
    (List.range b).map (fun i => xs.getD (elemAt b dir tc j i) { val := .fin false 0 0 }))

/-- Totals of a list of blocks. -/
def sumBlocks (f : Fmt) (b : Nat) (dir : Bool) (tc k : Nat) (blocks : List BlockOut) : Final :=
  { payload := layBlocks f b dir tc k blocks, flags := flagsOr (blocks.map (·.flags)),
    vanished := satAdd32 0 (blocks.map (·.vanished)).sum, zeros := satAdd32 0 (blocks.map (·.zeros)).sum }

/-- The random bits of element `p` of a chunk (R98). -/
def elemBits (d : Desc) (group step bucket chunk p : Nat) : Nat :=
  srBits (gdSeed d) group step bucket (chunk * gdK d + p)

/-- The final conversion of an ORDERED or ARRIVAL chunk, after any division (R97, R105). -/
def finalConv (d : Desc) (group step bucket chunk : Nat) (codes : List Nat) : Final :=
  match gdAcc d, gdOut d with
  | some a, some o =>
    let k := codes.length
    if a == .int64 then
      let r := codes.map (fun c => if o == .int32 then let (v, g) := satInt 32 (sintOf 64 c); (uintOf 32 v, g) else (c, 0))
      { payload := packBits o.width (r.map (·.1)), flags := flagsOr (r.map (·.2)), vanished := 0, zeros := 0 }
    else
      let vs := (codes.map (decodeElt a)).zipIdx.map (fun vp =>
        ({ val := vp.1, rbits := if gdRnd d == .sr then elemBits d group step bucket chunk vp.2 else 0 } : BElem))
      if o.isBlock then
        let b := 8 <<< gdOutBlk d
        sumBlocks o b (gdOutDir d) (gdTileCols d) k
          ((cutBlocks b (gdOutDir d) (gdTileCols d) k vs.toArray).map (encodeBlock o (gdOvf d) (gdRnd d)))
      else
        let r := vs.map (fun x => (x.val, encodeFV o (gdOvf d) false x.val (gdRnd d) x.rbits))
        { payload := packBits o.width (r.map (·.2.1)), flags := flagsOr (r.map (·.2.2)),
          vanished := satAdd32 0 (r.filter (fun x => match x.1 with
            | .fin s m _ => m != 0 && x.2.1 == zeroCode o s
            | _ => false)).length, zeros := 0 }
  | _, _ => { payload := [], flags := 0, vanished := 0, zeros := 0 }

/-- The MEAN division of R69 on a root in the accumulation format. -/
def meanDiv (d : Desc) (present : Nat) (codes : List Nat) : List Nat × Flags :=
  match gdAcc d with
  | none => ([], 0)
  | some a =>
    let r := codes.map (fun c => roundOp a (gdRnd d).det (divFV (decodeElt a c) (.fin false present 0)))
    (r.map (·.1), flagsOr (r.map (·.2)))

/-- The exact value of an EXACT element with its sticky bits (R114). A sum of zero has sign + whatever the contributions and
ROUND: the spec gives no sign (DESIGN CHOICE, log 100). -/
def exactValue (d : Desc) (present : Nat) (ns : Int × BitVec 4) : FV × Flags :=
  let nan := bitOf ns.2 3
  let pinf := bitOf ns.2 2
  let ninf := bitOf ns.2 1
  let fin := bitOf ns.2 0
  let num : FV := .fin (ns.1 < 0) ns.1.natAbs (gridLog d)
  let val := if gdOp d == 1 then (divFV num (.fin false present 0)).1 else num
  match gdRed d with
  | .sum => if nan then (defaultNan, 0) else if pinf && ninf then (defaultNan, ieInvalid)
            else if pinf then (.inf false, 0) else if ninf then (.inf true, 0) else (val, 0)
  | .max => if nan then (defaultNan, 0) else if pinf then (.inf false, 0) else if fin then (val, 0)
            else if ninf then (.inf true, 0) else (val, 0)
  | .min => if nan then (defaultNan, 0) else if ninf then (.inf true, 0) else if fin then (val, 0)
            else if pinf then (.inf false, 0) else (val, 0)

/-- Whether every element of a block fits at a scale (R114). -/
def blockFits (f : Fmt) (rnd : Rnd) (scale : Nat) (vs : List FV) : Bool :=
  let (mm, me) := f.maxFin
  vs.all (fun v => match v with
    | .fin _ m e =>
      let e' := e - ((scale : Int) - 127)
      match rnd with
      | .rne | .rna | .sr => m == 0 || !(geScaled m e' (2 * mm + 1) (me - 1))
      | _ => geScaled mm me m e'
    | _ => true)

/-- The smallest scale above `a`, at most 254, at which a block fits; 254 when none does (R115). -/
def raiseScale (f : Fmt) (rnd : Rnd) (vs : List FV) : Nat → Nat → Nat
  | 0, _ => 254
  | n + 1, s => if s ≥ 254 then 254 else if blockFits f rnd s vs then s else raiseScale f rnd vs n (s + 1)

/-- One block of an EXACT result (R114, R115, R103, R104); the Bool says that REPEAT withholds the chunk. A block that R103
encodes with scale 0xFF has no element to fit, and one of infinities alone has scale 0x00. Under RAISE, SCALE_RAISED is set for every block that does not fit, also at A
254, where the scale cannot rise (DESIGN CHOICE, log 100). -/
def exactBlock (d : Desc) (f : Fmt) (vs : List BElem) : BlockOut × Bool :=
  if vs.all (fun b => b.val.isZero) then (encodeBlock f 1 (gdRnd d) vs, false)
  else if vs.any (fun b => b.val.isNan || (b.val.isInf && f != .e5m2)) then
    (encodeBlockAt f 1 (gdRnd d) (gdScale d) vs, false)
  else if vs.all (fun b => b.val.isInf) then (encodeBlockAt f 1 (gdRnd d) 0 vs, false)
  else
    let a := gdScale d
    let vals := vs.map (·.val)
    if blockFits f (gdRnd d) a vals then (encodeBlockAt f 1 (gdRnd d) a vs, false)
    else match gdOutPol d with
      | 0 =>
        let o := encodeBlockAt f 1 (gdRnd d) (raiseScale f (gdRnd d) vals 256 (a + 1)) vs
        ({ o with flags := o.flags ||| scaleRaised }, false)
      | 1 => (encodeBlockAt f 1 (gdRnd d) a vs, false)
      | _ => (encodeBlockAt f 1 (gdRnd d) a vs, true)

/-- The final conversion of an EXACT chunk (R114, R115). -/
def finalExact (d : Desc) (group step bucket chunk present : Nat) (acc : List (Int × BitVec 4)) : Final :=
  match gdOut d with
  | none => { payload := [], flags := 0, vanished := 0, zeros := 0 }
  | some o =>
    let k := acc.length
    if o == .int32 then
      let r := acc.map (fun ns => satInt 32 ns.1)
      let lostAny := r.any (fun x => x.2 != 0)
      { payload := packBits 32 (r.map (fun x => uintOf 32 x.1)), flags := flagsOr (r.map (·.2)), vanished := 0,
        zeros := 0, repeatScale := lostAny && gdOutPol d == 2 }
    else
      let evs := acc.map (exactValue d present)
      let fl := flagsOr (evs.map (·.2))
      let vs := evs.zipIdx.map (fun vp =>
        ({ val := vp.1.1, rbits := if gdRnd d == .sr then elemBits d group step bucket chunk vp.2 else 0 } : BElem))
      if o.isBlock then
        let b := 8 <<< gdOutBlk d
        let bs := (cutBlocks b (gdOutDir d) (gdTileCols d) k vs.toArray).map (exactBlock d o)
        let fin := sumBlocks o b (gdOutDir d) (gdTileCols d) k (bs.map (·.1))
        { fin with flags := fin.flags ||| fl, repeatScale := bs.any (·.2) }
      else
        let r := vs.map (fun x => (x.val, encodeFV o 0 false x.val (gdRnd d) x.rbits))
        { payload := packBits o.width (r.map (·.2.1)), flags := fl ||| flagsOr (r.map (·.2.2)),
          vanished := satAdd32 0 (r.filter (fun x => match x.1 with
            | .fin s m _ => m != 0 && x.2.1 == zeroCode o s
            | _ => false)).length, zeros := 0 }

/-- Accumulation bytes of a full chunk, A of R127. -/
def accBytes (d : Desc) : Nat :=
  gdK d * (match gdAcc d with | some f => f.width / 8 | none => 0)

/-- The accumulator part and the Moraine part of SLOT_BYTES (R128). -/
def slotParts (d : Desc) : Nat × Nat :=
  if gdExact d then (gdK d * 8, 0)
  else if gdMode d == 0 && gdN d ≥ 2 then (accBytes d, ceilDiv (gdN d) 4 * (accBytes d + 4096))
  else (accBytes d, 0)

/-- The permitted combinations of R93 and the further FORMAT cases (R78, R86, R88, R91, R107). -/
def formatOk (d : Desc) : Bool :=
  let tc := gdTileCols d
  match gdIn d, gdAcc d, gdOut d with
  | some i, some a, some o =>
    let blkOk := fun (f : Fmt) (blk : Nat) (dir : Bool) => if f.isBlock then blk ≤ 5 else blk == 0 && !dir
    let intOp := gdOp d != 1
    let floatOut := o == .fp32 || o == .fp16 || o == .bf16 || o.isBlock
    let combo :=
      if gdExact d then
        a == .transit && (((i.isBlock || i == .fp32 || i == .fp16 || i == .bf16) && floatOut) ||
          (i == .int32 && o == .int32 && intOp))
      else
        (i == .fp64 && a == .fp64 && (o == .fp64 || o == .fp32)) ||
        (i == .fp32 && a == .fp32 && floatOut) ||
        (i == .fp32 && a == .fp64 && (o == .fp64 || floatOut)) ||
        ((i == .fp16 || i == .bf16 || i.isBlock) && a == .fp32 && floatOut) ||
        (i == .int32 && a == .int64 && (o == .int32 || o == .int64) && intOp) ||
        (i == .int64 && a == .int64 && o == .int64 && intOp)
    let exactOk := !gdExact d || ((i != .int32 || gdScale d == 0x7F) && decide (0 ≤ headroom d) && gdScale d != 0xFF)
    let kOk := match fullK i (gdInBlk d) (gdInDir d) tc with
      | none => false
      | some k => k != 0 && k % (blockUnit o (gdOutBlk d) (gdOutDir d) tc) == 0
    blkOk i (gdInBlk d) (gdInDir d) && blkOk o (gdOutBlk d) (gdOutDir d) && combo && exactOk && kOk
  | _, _, _ => false

/-- The PARAM checks of R42: reserved codes, RES_TC 7, TILE_COLS 0 with a column-shared operand. Where two rules meet, PARAM is
given (DESIGN CHOICE, log 96): for TILE_COLS 0 with a direction bit of 1 on an operand that is not block-scaled, which R86
gives FORMAT, and for the reserved OUT_POL 0b11 in an ORDERED or ARRIVAL group, whose OUT_POL R93 ignores. -/
def paramOk (d : Desc) : Bool :=
  gdMode d != 3 && gdOp d ≤ 4 && gdRound d ≤ 5 && gdOvf d != 3 && gdOutPol d != 3 && gdLatePol d ≤ 1 &&
  gdResTc d != 7 && !((gdInDir d || gdOutDir d) && gdTileCols d == 0)

/-- home_index of R56. -/
def homeIndex (group bucket chunk homes : Nat) : Nat :=
  let x : Word := BitVec.ofNat 64 ((group % 2 ^ 16) <<< 36 ||| (bucket % 2 ^ 16) <<< 20 ||| chunk % 2 ^ 20)
  let x := x ^^^ (x >>> 31)
  let x := x * 0x9E6C63D0676A9A99#64
  let x := x ^^^ (x >>> 29)
  let x := x * 0xD6E8FEB86659FD93#64
  let x := x ^^^ (x >>> 32)
  ((x.toNat >>> 32) * homes) >>> 32

end Sys2Proof.Machine
end

