-- ==== Sys2Proof/Machine/State.lean ====
section
/-! DEFINITION. The state of the switch as plain data, one structure for each block, every field at its reset value
(R12), and the reasons a command can stop. -/

namespace Sys2Proof.Machine

/-- No command faults: an access the spec turns away completes as the spec says (R307, R451, R455, R457), and every
exception, error event and halt is a next state. -/
inductive Fault where
  deriving DecidableEq, Repr

/-- Commands that have no meaning. -/
inductive Refusal where
  /-- No meaning is given yet. Raised by `exec` alone. Safe. -/
  | notModelled (mnemonic : String)
  /-- A vector instruction whose operands R298 rejects when its program is loaded, so that no run ever reaches it.
  Raised by the vector commands. Safe: the hardware never executes it. -/
  | rejectedAtLoad (mnemonic : String)
  deriving DecidableEq, Repr

/-! ## Control cores -/

/-- The states of a control core (R323). -/
inductive CoreRun where
  | reset | running | waiting | halted | stopped
  deriving DecidableEq, Repr

/-- An inbound mailbox entry (R313, R314); `copy` names the Neve copy of a FABRIC entry's frame. -/
structure MbxEntry where
  desc : Word
  data : Word
  copy : Option Nat
  deriving DecidableEq, Repr

/-- A staged table word (R309). -/
structure Staged where
  tbl : Nat
  idx : Nat
  word : Nat
  val : Word
  deriving DecidableEq, Repr

/-- A control core. Index 0 of `regs` is never written (R279). -/
structure Core where
  st : CoreRun := .reset
  pc : Word := 0
  startPc : BitVec 48 := 0
  cause : BitVec 8 := 0
  regs : Vector Word 32 := Vector.replicate 32 0
  mbx : List MbxEntry := []
  heldFrames : List Nat := []
  cmp : Option Word := none
  timer : Bool := false
  faultLatch : Bool := false
  waitFor : Option (BitVec 6 × BitVec 32) := none
  committing : Option (BitVec 6 × Nat) := none
  stopAfter : Bool := false
  stage : List Staged := []
  localMem : Memory := []
  deriving DecidableEq, Repr

/-! ## Serac slices -/

/-- What a run of a step or FIN program knows of its chunk (R290-R294, R340, R353-R355). -/
structure RunCtx where
  active : Bool := false
  isFin : Bool := false
  group : Nat := 0
  slot : Nat := 0
  prog : Nat := 0
  instr : Nat := 0
  step : Nat := 0
  bucket : Nat := 0
  chunk : Nat := 0
  rank : Nat := 0xFFFFFFFF
  present : Nat := 1
  home : Nat := 0x3F
  stripe : Nat := 0
  elems : Nat := 0
  fullK : Nat := 0
  seed : Word := 0
  rnd : Rnd := .rne
  resType : VTy := .f32
  outFmt : Nat := 0
  outBlk : Nat := 0
  outDir : Bool := false
  chunkBase : Nat := 0
  atHome : Bool := true
  stream : Nat := 0
  emitted : SMap (Option Nat) := []
  scales : SMap (Option Nat) := []
  flags : Flags := 0
  vanished : Nat := 0
  zeros : Nat := 0
  exc : Option (BitVec 8) := none
  poisoned : Bool := false
  stalled : Bool := false
  deriving DecidableEq, Repr

/-- A frame on its way from its port to the block of the switch that handles it: its ingress timestamp, the cycle of its
start-of-frame symbol (R522), its Neve copy, which a CONTRIB frame does not have (R22), and whether the combiner has to
forward it unchanged (R132, R234). -/
structure LocalC where
  port : Nat
  cls : Nat
  ups : Nat
  frame : Frame
  ts : Word
  sof : Nat := 0
  copy : Option Nat := none
  pass : Bool := false
  deriving DecidableEq, Repr

/-- A contribution, or a frame of a transit partial, accepted by the dispatcher for a chunk (R57, R135), waiting for its
slice. `since` counts CLK_ARITH cycles in the slice's queue (R47). -/
structure SerOp where
  c : LocalC
  cid : ChunkId
  rank : Nat
  express : Bool
  since : Nat
  deriving DecidableEq, Repr

/-- A Serac slice: V0-V31, P0-P7, the run it holds, its intake and its operation queue. -/
structure Slice where
  v : SMap (BitVec 8192) := []
  p : SMap (BitVec 256) := []
  run : RunCtx := {}
  intakeUsed : Nat := 0
  ops : List SerOp := []
  halted : Bool := false
  deriving DecidableEq, Repr

/-! ## Groups, steps and chunks -/

/-- The states of a step (R52). -/
inductive StepSt where
  | idle | open_ | expired | delivering | closed
  deriving DecidableEq, Repr

/-- The value of an accumulator or of a Moraine entry: codes of the accumulation format, or i48 integers with their
sticky bits (R111). -/
inductive AccV where
  | codes (xs : List Nat)
  | grid (xs : List (Int × BitVec 4))
  deriving DecidableEq, Repr

/-- A Moraine entry: node (l, i) waiting for its sibling (R124), whether it lies in Firn (R28), where, and the residues that travel
with its elements (R117). -/
structure MorEnt where
  level : Nat
  node : Nat
  val : List Nat
  bytes : Nat
  inFirn : Bool
  addr : Nat := 0
  res : List Nat := []
  deriving DecidableEq, Repr

/-- A transit partial being received for a chunk (R135, R163, R171): the frame indices held, those added, those discarded for a
failing tile and not here again (R176), and whether its Keystone frame has found every index held, so that it is answered once all
are added. -/
structure PartRx where
  src : Nat
  msg : Nat
  dest : Nat
  ranks : List Nat
  count : Nat
  got : List Nat
  added : List Nat := []
  tile : List Nat := []
  whole : Bool := false
  lastAt : Nat
  deriving DecidableEq, Repr

/-- Where a chunk stands: open; complete with its root ready; or closed. -/
inductive ChunkPh where
  | unbound
  | bound
  | rooted (st : RecStatus)
  | closed (st : RecStatus)
  deriving DecidableEq, Repr

/-- A chunk of a step at this home; `accRes` holds the residues that travel with the accumulator's elements (R117). -/
structure Chunk where
  ph : ChunkPh := .unbound
  slice : Option Nat := none
  present : Nat := 0
  acc : Option AccV := none
  accRes : List Nat := []
  accFirn : Bool := false
  accAddr : Nat := 0
  moraine : List MorEnt := []
  parts : List PartRx := []
  queued : Nat := 0
  slotHeld : Bool := false
  flags : Flags := 0
  vanished : Nat := 0
  zeros : Nat := 0
  finDone : Bool := false
  finStarted : Bool := false
  encoded : Option (List Byte) := none
  delivered : Bool := false
  since : Nat := 0
  deriving DecidableEq, Repr

/-- A run of chunks for which one record is built (R71), with the ranks it is still to be sent to. -/
structure RunRec where
  bucket : Nat
  first : Nat
  last : Nat
  count : Nat
  present : Nat
  status : RecStatus
  flags : Flags
  vanished : Nat
  zeros : Nat
  closeTime : Word
  todo : List Nat
  deriving DecidableEq, Repr

/-- A step of a group at this home. -/
structure StepRec where
  st : StepSt := .idle
  t0 : Word := 0
  expiry : Option Word := none
  aborted : Bool := false
  chunks : SMap Chunk := []
  builtBuckets : List Nat := []
  runs : List RunRec := []
  deriving DecidableEq, Repr

/-- What a home keeps for a group beside its descriptor (R44, R51, R61, R191, R192, R358); the group ID and the bucket lengths
are those of the descriptor's commit (R519). -/
structure Group where
  gid : Option Nat := none
  lens : List Nat := []
  base : Nat := 0
  steps : SMap StepRec := []
  bseq : Nat := 0
  arrivals : Nat := 0
  accReserved : Nat := 0
  quotaExts : List Nat := []
  arena : List Nat := []
  rings : SMap (Option (Nat × Nat)) := []
  deriving DecidableEq, Repr

/-! ## Frames in the switch -/

/-- A copy of a frame in Neve: its cells, reference count (R245), the quota index it is charged to (R247), the entry to UP
of its ingress port that its credits belong to (R206), and its bytes. -/
structure NeveCopy where
  cells : List Nat
  ref : Nat
  quota : Nat
  ups : Nat
  bytes : List Byte
  deriving DecidableEq, Repr

/-- Where a queued frame came from. -/
inductive Src where
  | port (p c : Nat)
  | internal
  deriving DecidableEq, Repr

/-- A queued frame: its Neve copy, its header and contents as they will leave, the entry to UP and the ingress timestamp it
came with, its message when the switch is its source (destination, MSG_ID, FRAME_IDX) and the number of that sending, and the
cycle in which it joined its queue (R235). -/
structure QEnt where
  copy : Nat
  frame : Frame
  src : Src
  ups : Nat := 0
  ts : Word := 0
  sof : Nat := 0
  msg : Option (Nat × Nat × Nat) := none
  sending : Nat := 0
  guardSeen : Bool := false
  joined : Nat := 0
  deriving DecidableEq, Repr

/-- The key of a message the switch is the source of. -/
structure MsgKey where
  dest : Nat
  id : Nat
  deriving DecidableEq, Repr

/-- What a message of the switch carries. -/
inductive MsgKind where
  | result (c : ChunkId)
  | record (slot : Nat) (step : Nat) (rank : Nat)
  | release (slot : Nat)
  | transit (comb : Nat)
  deriving DecidableEq, Repr

/-- A message the switch is the source of: its frames as built, the Neve copies of the first sending, the Firn copy,
and the state of its answer (R168-R181). -/
structure Msg where
  key : MsgKey
  kind : MsgKind
  frames : List Frame
  neve : List Nat
  copy : Option Nat
  started : Bool := false
  sent : Bool := false
  timer : Option (Nat × Nat) := none
  resends : Nat := 0
  sendNo : Nat := 0
  deriving DecidableEq, Repr

/-- A retransmit or custody copy in Firn: the pieces (extent, first 256-byte unit, units) that hold it, and how many
messages still need it (R25, R134, R247). -/
structure FirnCopy where
  pieces : List (Nat × Nat × Nat)
  ref : Nat
  deriving DecidableEq, Repr

/-- Work of an internal requester that waits for Neve or Firn buffers (R251). -/
inductive Job where
  | build (c : ChunkId)
  | resend (k : MsgKey) (first count : Nat)
  | answer (f : Frame)
  | record (slot step rank run : Nat)
  | seal (comb : Nat)
  | release (slot bseq : Nat) (ranks : List Nat)
  deriving DecidableEq, Repr

/-- What work asks of the pools, all that it needs together: cells and extents, each with the quota index it is charged to and how
many (R249). -/
structure Ask where
  cells : Nat × Nat := (0, 0)
  exts : Nat × Nat := (0, 0)
  deriving DecidableEq, Repr

/-- Work that waits because R249 refuses what it asks for (R251). -/
structure Want where
  job : Job
  ask : Ask
  deriving DecidableEq, Repr

/-- The group counters of R60. -/
inductive GCnt where
  | late | busy | dup | refused
  deriving DecidableEq, Repr

/-- What the dispatcher decides about a local contribution. -/
inductive Verdict where
  /-- refused: frame type, reason, and the group counter with its slot -/
  | refuse (typ reason : Nat) (cnt : Option (Nat × GCnt))
  /-- a FORMAT refusal, which also marks the chunk (R58) -/
  | format (slot : Nat)
  /-- check 7 (R26, R58) -/
  | duplicate (slot : Nat)
  /-- a partial that was accepted for a chunk closed since: answered ACK, or NOTICE of reason 9 (R118, R53) -/
  | accepted (aborted : Bool)
  /-- no running slice can take it (R35, R425) -/
  | noSlice
  /-- a table entry that the checks read is poisoned: discarded without an answer (R372) -/
  | discard
  | accept (slot : Nat)
  deriving DecidableEq, Repr

/-- A message addressed to the switch (R171, R181): the frame indices held while it is being received, the frames kept for a
program operation (R188), whether any frame of any sending arrived with CMARK, and the refusal of a transit partial with the
ranks it covers, until its Keystone frame is answered (R136). -/
structure RxMsg where
  src : Nat
  dest : Nat
  msg : Nat
  typ : Nat
  got : List Nat
  cmark : Bool
  kept : List LocalC := []
  refused : Option (Verdict × List Nat) := none
  deriving DecidableEq, Repr

/-- A contribution in a combiner's partial: rank, source, MSG_ID and the class it came on. -/
structure Cov where
  ranks : List Nat
  src : Nat
  msg : Nat
  cls : Nat
  cmark : Bool
  deriving DecidableEq, Repr

/-- A partial at a combiner (R132-R138): what it covers, the frames of its first contribution while it is alone, the
integers on the grid g and whether every element behind them is finite (R113), the slice it is bound to and whether the step
program has run on its first contribution (R28, R290), and after it is sealed its message and the back-off of R136. -/
structure Comb where
  slot : Nat
  group : Nat
  step : Nat
  bucket : Nat
  chunk : Nat
  home : Nat
  elems : Nat
  covs : List Cov
  held : List LocalC
  vals : List Int
  t : Int
  fin : Bool := true
  cls : Nat
  slice : Nat := 0
  ran : Bool := false
  opened : Nat
  sealed : Bool := false
  key : Option MsgKey := none
  wait : Nat := 1350
  due : Option Nat := none
  deriving DecidableEq, Repr

/-- An entry of the keystone hold store (R219). -/
structure HoldEnt where
  key : HoldKey
  port : Option Nat
  frames : Nat
  left : Nat
  ks : Option QEnt
  ends : Nat
  last : Nat
  deriving DecidableEq, Repr

/-! ## Ports and lanes -/

/-- The states of a logical port (R213). -/
inductive PState where
  | off | down | training | up | held
  deriving DecidableEq, Repr

/-- The training states (R405). -/
inductive LT where
  | inactive | detect | poll | config | eq | verify | linked
  deriving DecidableEq, Repr

/-- One virtual channel of a port (R204-R209): the written ALLOT, the allotment in force, the peer's, the counts, and the value
of the INIT symbol received. -/
structure Vc where
  allot : BitVec 12 := 0x030
  force : BitVec 12 := 0
  peer : BitVec 12 := 0
  sent : BitVec 12 := 0
  ret : BitVec 12 := 0
  cum : BitVec 12 := 0
  gotInit : Bool := false
  initVal : BitVec 12 := 0
  deriving DecidableEq, Repr

/-- One class of an egress port (R233, R236, R266-R268): registers, queue, deficit and shaper tokens (in units of
2^-16, as of a cycle). -/
structure Cls where
  pcls : Word := 0x8000010000000000
  sch : Word := 0x0080480000000240
  q : List QEnt := []
  deficit : Int := 0
  tok : Int := 0
  tokAt : Nat := 0
  deriving DecidableEq, Repr

/-- A frame on the wire at an egress port. -/
structure Sending where
  ent : QEnt
  cls : Nat
  ends : Nat
  deriving DecidableEq, Repr

/-- A logical port. `txPos` and `rxPos` are the next stream positions sent and received (R399), `credPos` that of the last
credit symbol begun (R397). -/
structure Port where
  ctl : Word := 0x10000000000A4CB8
  st : PState := .off
  ups : Nat := 0
  holdEnds : Option Nat := none
  losses : Nat := 0
  discarded : Nat := 0
  credErr : Nat := 0
  vc : Vector Vc 8 := #v[{}, {}, {}, {}, {}, {}, {}, { allot := 0x010 }]
  initSent : Bool := false
  withheld : Bool := false
  peerCred0 : Bool := false
  cls : Vector Cls 8 := Vector.replicate 8 {}
  sending : Option Sending := none
  schPort : Word := 0x0080000000480000
  tok : Int := 0
  tokAt : Nat := 0
  cur : Fin 8 := 0
  fresh : Bool := true
  gateGuard : Bool := true
  gatePlen : Nat := 0
  gateArmed : Option Word := none
  gateArmPlen : Nat := 0
  gateBase : Word := 0
  gateList : List (BitVec 32) := []
  gateStart : Nat := 0
  gateEntry : Nat := 0
  gateEntryAt : Nat := 0
  guardHold : Nat := 0
  switches : Nat := 0
  lnkCtl : Word := 0x7000000000149970
  lt : LT := .inactive
  ltSince : Nat := 0
  retryAt : Option Nat := none
  fast : Option Nat := none
  gen : Nat := 0
  width : Nat := 0
  propW : Nat := 0
  gensOff : Nat := 0
  lastFail : Nat := 0
  trainFails : Nat := 0
  peerEp : BitVec 20 := 0
  peerPort : BitVec 9 := 0
  peerGens : Nat := 0
  ts2At : Option Nat := none
  genMax : Nat := 3
  initAt : Nat := 0
  txPos : Nat := 0
  rxPos : Nat := 0
  credPos : Option Nat := none
  hdrErr : Nat := 0
  hopCrc : Nat := 0
  stomped : Nat := 0
  frameErr : Nat := 0
  hopLimit : Nat := 0
  aborted : Nat := 0
  deriving DecidableEq, Repr

/-- A serial lane (R394, R400, R404, R412, R414): the running disparities are negative where false, `txPos` is its place in
four lane blocks; `idle` and `deaf` say that its transmitter and its receiver stay out of the port until DETECT (R406). -/
structure Lane where
  signal : Bool := false
  lock : Bool := false
  polInv : Bool := false
  idx : BitVec 2 := 0
  active : Bool := false
  skew : BitVec 7 := 0
  codeErr : Nat := 0
  amErr : Nat := 0
  fillDel : Nat := 0
  fillIns : Nat := 0
  sets : Nat := 0
  setEp : BitVec 20 := 0
  setPort : BitVec 9 := 0
  markers : Nat := 0
  errSince : Bool := false
  rdTx : Bool := false
  rdRx : Bool := false
  txPos : Nat := 0
  delay : Nat := 0
  idle : Bool := false
  deaf : Bool := false
  eyeCtl : Word := 0x2000000000000000
  eyeBusy : Bool := false
  eyeDone : Bool := false
  eyeRefused : Bool := false
  mismatch : BitVec 40 := 0
  deriving DecidableEq, Repr

/-- A Viaduct (R16-R18, R500): stopped, retraining, and the failed replays in a row in each direction. -/
structure Vdct where
  stopped : Bool := false
  busy : Bool := false
  lastOk : Bool := false
  failsIn : Nat := 0
  failsOut : Nat := 0
  deriving DecidableEq, Repr

/-- A Pier's device-time count (R437): none until a time-load cell has loaded it. -/
structure Pier where
  loaded : Option (Nat × Word) := none
  deriving DecidableEq, Repr

/-! ## Buffers and Firn -/

/-- The buffer pool manager (R239-R254). Neve: the cells pushed back on each bank's list, head first, how many cells of
each bank have left the part of its list that threading built (in ascending order), the link words that a fault has
changed, and the bank pointer. Firn: the head of the list, whose link words stand in Firn itself, and the state bit of
every extent. Then the buffers lost behind cut lists, and BPM_CMD with its result. -/
structure Bpm where
  neveReady : Bool := false
  firnReady : Bool := false
  freed : SMap (List Nat) := []
  fresh : SMap Nat := []
  links : SMap (Option Word) := []
  bankPtr : Nat := 0
  extHead : Option Nat := none
  extAlloc : SMap Bool := []
  retired : SMap Bool := []
  lostCells : Nat := 0
  lostExts : Nat := 0
  cmd : Word := 0
  result : Word := 0
  waiting : Bool := false
  deriving DecidableEq, Repr

/-- A line of the Firn cache: the 256-byte line it holds, its data, its valid and dirty masks (R373), and the beats whose
data came from a poisoned beat (R372). -/
structure Line where
  addr : Nat
  data : BitVec 2048
  valid : BitVec 256
  dirty : BitVec 256
  pois : BitVec 8 := 0
  deriving DecidableEq, Repr

/-- A Firn stack (R379-R389). -/
structure Stack where
  arb : Word := 0x0200000000000000
  therm : Word := 0x555F693400000000
  thermNext : Word := 0x555F693400000000
  temps : Vector Byte 4 := Vector.replicate 4 0
  level : Nat := 0
  idcCnt : Nat := 0
  corrCnt : Nat := 0
  uncorrCnt : Nat := 0
  dieCounts : Vector Nat 12 := Vector.replicate 12 0
  margin : Word := 0x0000100000000000
  marginBusy : Bool := false
  marginCh : Nat := 0
  marginN : Nat := 0
  marginDone : Bool := false
  marginRefused : Bool := false
  fails : BitVec 32 := 0
  trained : Bool := false
  stuck : Bool := false
  cache : SMap (List Line) := []
  deriving DecidableEq, Repr

/-- The row refresh position of a channel (R380): commands issued since Thaw, and the cycle the last one fell due in. -/
structure Refresh where
  count : Nat := 0
  last : Nat := 0
  deriving DecidableEq, Repr

/-! ## Faults and the host -/

/-- The error registers of one block instance (R417). -/
structure ErrBlk where
  status : Word := 0
  mask : Word := 0
  info : Word := 0
  deriving DecidableEq, Repr

/-- A MGMT port's MSI-X structures (R460): Enable, Function Mask, message addresses and data, entries whose mask bit is
clear, pending bits. -/
structure Msix where
  enable : Bool := false
  fmask : Bool := false
  addr : SMap Word := []
  data : SMap (BitVec 32) := []
  unmasked : SMap Bool := []
  pending : SMap Bool := []
  deriving DecidableEq, Repr

/-- What the host writes in the configuration header of a port (R454): Command, and the two BARs' addresses. -/
structure Cfg where
  command : BitVec 16 := 0
  bar0 : Word := 0
  bar2 : Word := 0
  deriving DecidableEq, Repr

/-- A MGMT port: PERST_N, its configuration header, MSI-X, its registers, its mailboxes and its DEV_TIME latch (R434). -/
structure Mgmt where
  perst : Bool := false
  cfg : Cfg := {}
  msix : Msix := {}
  firnBase : BitVec 22 := 0
  inData : Word := 0
  inCore : BitVec 3 := 0
  inAccepted : Bool := false
  inFull : Bool := false
  out : List (Nat × Word) := []
  rbSel : Word := 0
  latch : Option (BitVec 32) := none
  deriving DecidableEq, Repr

/-- What the switch shows to the outside: the model's own record, newest first. -/
inductive Out where
  | msix (port vec : Nat)
  | credit (port vc : Nat) (init : Bool) (value : BitVec 12)
  | frame (port : Nat) (f : Frame)
  | abort (port : Nat)
  | stream (port : Nat) (codes : List (Nat × BitVec 10))
  | read (v : Word)
  | bytes (bs : List Byte) (poisoned : Bool)
  | unsupported
  | smbus (bs : List Byte)
  | smbusNack
  | spi (cmd : Word) (bs : List Byte)
  | tdo (bs : List Bool)
  | pufRecord (bs : List Byte)
  deriving DecidableEq, Repr

/-- Clocks, reset, straps, power and die temperature (R430-R452). `running` is false while a reset holds the switch;
`halted` is R451's halt; `pwrSwitching` lists the domains that are switching: bit, on or off, and the cycle it began; `refclk` and `prefOff` say
whether REFCLK_CORE runs, and which PREF clocks do not (R517). -/
structure Clk where
  running : Bool := false
  pllLock : Bool := false
  halted : Bool := false
  cycles : Nat := 0
  ofs : Word := 0
  straps : BitVec 3 := 5
  pwrOk : Bool := false
  rstCfg : Word := 0x8000000000000000
  cause : Nat := 0
  causeCore : Nat := 0
  wasFatal : Bool := false
  resets : Nat := 0
  fatalSeen : Bool := false
  warm : Bool := false
  pwrReq : Word := 0x3FFFFFFF
  pwrOn : Word := 0x3FFFFFFF
  pwrSwitching : List (Nat × Bool × Nat) := []
  pwrResult : Nat := 0
  pwrDomain : Nat := 0
  therm : Word := 0x646E340000000000
  thermNext : Word := 0x646E340000000000
  dieMax : Byte := 0
  dieSensor : Nat := 0
  dieLevel : Nat := 0
  refclk : Bool := true
  prefOff : SMap Bool := []
  alive : Bool := false
  aliveNext : Nat := 524288
  deriving DecidableEq, Repr

/-- Boot, image, identity, attestation, flash (R467-R481). -/
structure Sec where
  bootRom : Bool := false
  waiting : Bool := false
  done : Bool := false
  source : Nat := 0
  result : Nat := 0
  version : Word := 0
  codeBase : Nat := 0
  codeLimit : Nat := 0
  entry : Nat := 0
  digest : List Byte := []
  signerHash : List Byte := []
  keyKind : Byte := 0
  remapBuf : List (Nat × BitVec 32) := []
  tries : List (Bool × Nat) := []
  mbx : Word := 0
  mbxGo : Bool := false
  mbxLen : Nat := 0
  pufDone : Bool := false
  idValid : Bool := false
  enrolled : Bool := false
  seed : List Byte := []
  pk : List Byte := []
  devId : List Byte := []
  nonce : Vector Word 4 := Vector.replicate 4 0
  attBusy : Option (List Byte) := none
  attDone : Bool := false
  attResult : Nat := 0
  attRec : List Byte := []
  attSig : List Byte := []
  internal : Bool := false
  flashCmd : Word := 0
  flashRun : Option Word := none
  flashDone : Bool := false
  flashData : Vector Word 32 := Vector.replicate 32 0
  deriving DecidableEq, Repr

/-- The test access port (R485): its instruction, the preloaded pins, and whether the lane pins are taken from their ports, driven
from the preloaded pins where `driven`, at high impedance where not. -/
structure Tap where
  ir : BitVec 5 := 1
  pins : List Bool := []
  taken : Bool := false
  driven : Bool := false
  deriving DecidableEq, Repr

/-- The tables of R308, committed values; an unlisted entry holds its reset value. -/
structure Tables where
  gidx : SMap (BitVec 16) := []
  desc : SMap Desc := []
  member : SMap Word := []
  bucket : SMap Word := []
  homes : SMap (BitVec 32) := []
  gcnt : SMap (Word × Word) := []
  window : SMap (Vector Word 4) := []
  route : SMap (BitVec 32) := []
  ecmp : SMap (BitVec 512) := []
  quota : SMap (Vector Word 3) := []
  policer : SMap (Vector Word 4) := []
  gate : SMap (BitVec 32) := []
  prog : SMap Word := []
  remap : SMap (BitVec 32) := []
  poison : SMap Bool := []
  deriving DecidableEq, Repr

/-- Fabric-wide registers and counters (R139, R185, R203, R222, R225, R262, R497). -/
structure Fabric where
  swEp : BitVec 20 := 0
  combCtl : Word := 0x8000000000000A8C
  e2eCtl : Word := 0x80000000000034BC
  e2eWin : Word := 0
  abandoned : Nat := 0
  resent : Nat := 0
  echoed : Nat := 0
  unmatched : Nat := 0
  noRoute : Nat := 0
  noPort : Nat := 0
  turn : Nat := 0
  fenceSkip : Nat := 0
  fenceCmd : Word := 0
  epoch : BitVec 32 := 0
  ksCtl : Word := 0x00041EB000000A8C
  ksTimeout : Nat := 0
  ksQuiet : Nat := 0
  ksOverflow : Nat := 0
  polCls : Word := 0
  unknownGroup : Nat := 0
  grpAbort : Word := 0
  sliceSet : BitVec 18 := 0x0FFFF
  setErr : Bool := false
  arenaCmd : Word := 0
  arenaArg : Word := 0
  arenaData : Word := 0
  arenaDone : Bool := false
  arenaCode : Nat := 0
  arenaBusy : Option (Nat × Nat × Nat × Nat) := none
  arenaPut : Word := 0
  arenaBad : BitVec 256 := 0
  deriving DecidableEq, Repr

/-- The CLK_CORE cycle in progress: the place in the cycle that the commands so far have reached (R9, R10, R256); the
local contributions dispatched in it (R521); the allocators' position in their rotating order and the frames, cells and
extents granted (R255); the buffers freed in it, the extents with the requester that freed them (R256); the event that
each block's INFO describes, the blocks that have called for their vector (R419, R420), and the entries popped from each
outbound mailbox (R462); the waiting work whose refusal in it has been counted (R251), the ports that were OFF or not as it began
where that has changed in it (R392), the ports whose link it lost, with the cause (R408), and the ports whose gates have
switched over in it (R274). -/
structure Cyc where
  place : Nat := 0
  refused : List Job := []
  wasOff : SMap (Option Bool) := []
  lost : SMap (Option (BitVec 3)) := []
  switched : SMap Bool := []
  dispatched : Nat := 0
  rot : Nat := 0
  frames : Nat := 0
  cells : Nat := 0
  exts : Nat := 0
  freedCells : List Nat := []
  freedExts : List (Nat × Nat) := []
  infos : SMap Nat := []
  calls : SMap Bool := []
  outs : SMap Nat := []
  deriving DecidableEq, Repr

/-- The state of the switch. -/
structure State where
  pending : List Instr := []
  clk : Clk := {}
  cyc : Cyc := {}
  cores : Vector Core 8 := Vector.replicate 8 {}
  commitFree : Nat := 0
  ctlMem : Memory := []
  progStore : Memory := []
  tbl : Tables := {}
  fab : Fabric := {}
  slices : Vector Slice 18 := Vector.replicate 18 {}
  groups : SMap Group := []
  dispatch : List LocalC := []
  intake : List (Nat × SerOp) := []
  combQ : List LocalC := []
  combs : SMap (Option Comb) := []
  combNext : Nat := 0
  localQ : List LocalC := []
  rx : List RxMsg := []
  msgs : List Msg := []
  jobs : List Job := []
  wants : List Want := []
  msgCtr : SMap Nat := []
  windows : SMap (BitVec 32 × BitVec 256) := []
  neve : SMap (Option NeveCopy) := []
  neveHeld : SMap Nat := []
  firnHeld : SMap Nat := []
  denied : SMap Nat := []
  drops : SMap Nat := []
  copies : SMap (Option FirnCopy) := []
  copyNext : Nat := 0
  copyExts : List (Nat × Nat) := []
  bpm : Bpm := {}
  ecmpPtr : SMap Nat := []
  polTok : SMap (Nat × Nat × Nat) := []
  ports : SMap Port := []
  lanes : SMap Lane := []
  split : SMap (BitVec 2) := []
  piers : SMap Pier := []
  vdct : Vector Vdct 8 := Vector.replicate 8 {}
  fences : SMap Bool := []
  holds : List HoldEnt := []
  firn : Memory := []
  firnPoison : SMap Bool := []
  firnErr : SMap MemFault := []
  firnThreaded : BitVec 4 := 0
  remapFrom : SMap (Option Nat) := []
  frn : Vector Stack 4 := Vector.replicate 4 {}
  refreshes : SMap Refresh := []
  errs : SMap ErrBlk := []
  mgmt : Vector Mgmt 2 := Vector.replicate 2 {}
  sec : Sec := {}
  tap : Tap := {}
  freeCtr : Nat := 0
  out : List Out := []
  deriving DecidableEq, Repr

/-- The machine right after the power-on reset has been asserted (R438, R440): every register at its Reset column,
the switch held until THAW (R435). -/
def State.reset : State := {}

end Sys2Proof.Machine
end

