-- ==== Sys2Proof/Machine/Ops.lean ====
section
/-! DEFINITION. The named operations over the state that every family uses: parts of the state by number, device time,
the model's output record, the recording of fault events (R415-R422) and the exceptions of a control core (R320). -/

namespace Sys2Proof.Machine

/-- What a meaning answers. -/
abbrev Res := Host.Outcome State Fault Refusal

/-- The switch runs: thawed and not halted (R435, R451). -/
def isRunning (s : State) : Bool := s.clk.running && !s.clk.halted

/-- A next state when a condition holds, the same state when it does not. -/
def act (ok : Bool) (s t : State) : Res := .next (if ok then t else s)

/-- GRADE[2:0] is that of a ZX5120-S; any other value counts as ZX5120-R (R482). -/
def gradeS (s : State) : Bool := s.clk.straps == 5

/-- Device time (R432). -/
def devTime (s : State) : Word := BitVec.ofNat 64 s.clk.cycles + s.clk.ofs

/-- TIMER is pending (R317): it stays so once it has come due. -/
def timerPending (s : State) (k : Core) : Bool :=
  k.timer || (match k.cmp with | some v => decide (v.toNat ≤ (devTime s).toNat) | none => false)

/-- The timers that have come due stay pending, whatever device time does from then on (R317). -/
def latchTimers (s : State) : State :=
  { s with cores := s.cores.map (fun k => { k with timer := timerPending s k }) }

/-- The cycle count since Thaw. -/
def now (s : State) : Nat := s.clk.cycles

/-- Notes something the outside sees. -/
def emit (s : State) (o : Out) : State := { s with out := o :: s.out }

/-- A control core. -/
def getCore (s : State) (c : CoreNo) : Core := s.cores[c]
/-- A control core replaced. -/
def setCore (s : State) (c : CoreNo) (k : Core) : State := { s with cores := s.cores.set c k }
/-- A slice. -/
def getSlice (s : State) (k : SliceNo) : Slice := s.slices[k]
/-- A slice replaced. -/
def setSlice (s : State) (k : SliceNo) (x : Slice) : State := { s with slices := s.slices.set k x }
/-- A logical port by number. -/
def getPort (s : State) (p : Nat) : Port := tget {} s.ports p
/-- A logical port replaced. -/
def setPort (s : State) (p : Nat) (x : Port) : State := { s with ports := tput {} s.ports p x }
/-- A lane by number. -/
def getLane (s : State) (l : Nat) : Lane := tget {} s.lanes l
/-- A lane replaced. -/
def setLane (s : State) (l : Nat) (x : Lane) : State := { s with lanes := tput {} s.lanes l x }
/-- What a home keeps for a descriptor slot. -/
def getGroup (s : State) (slot : Nat) : Group := tget {} s.groups slot
/-- The same replaced. -/
def setGroup (s : State) (slot : Nat) (g : Group) : State := { s with groups := tput {} s.groups slot g }
/-- A Firn stack. -/
def getStack (s : State) (k : Fin 4) : Stack := s.frn[k]
/-- A Firn stack replaced. -/
def setStack (s : State) (k : Fin 4) (x : Stack) : State := { s with frn := s.frn.set k x }
/-- A MGMT port. -/
def getMgmt (s : State) (m : Fin 2) : Mgmt := s.mgmt[m]
/-- A MGMT port replaced. -/
def setMgmt (s : State) (m : Fin 2) (x : Mgmt) : State := { s with mgmt := s.mgmt.set m x }

/-- One class of a port. -/
def getCls (p : Port) (c : Fin 8) : Cls := p.cls[c]
/-- One class of a port replaced. -/
def setCls (p : Port) (c : Fin 8) (x : Cls) : Port := { p with cls := p.cls.set c x }
/-- One virtual channel of a port. -/
def getVc (p : Port) (c : Fin 8) : Vc := p.vc[c]
/-- One virtual channel of a port replaced. -/
def setVc (p : Port) (c : Fin 8) (x : Vc) : Port := { p with vc := p.vc.set c x }

/-- A number below 8 as an index. -/
def fin8 (n : Nat) : Fin 8 := ⟨n % 8, Nat.mod_lt _ (by decide)⟩
/-- A number below 4 as an index. -/
def fin4 (n : Nat) : Fin 4 := ⟨n % 4, Nat.mod_lt _ (by decide)⟩
/-- A number below 2 as an index. -/
def fin2 (n : Nat) : Fin 2 := ⟨n % 2, Nat.mod_lt _ (by decide)⟩
/-- A number below 18 as a slice. -/
def fin18 (n : Nat) : SliceNo := ⟨n % 18, Nat.mod_lt _ (by decide)⟩

/-- Whether a power domain is on and not switching (R444); the domains the grade removes are off. -/
def pdOn (s : State) (bit : Nat) : Bool :=
  bitOf s.clk.pwrOn bit && !(s.clk.pwrSwitching.any (fun x => x.1 == bit))

/-- The power domain of an error block by vector (R422, R487). -/
def vecDomain (v : Nat) : Nat :=
  if v < 8 then 22 + v else if v < 16 then 2 else if v < 20 then 18 + (v - 16) else if v < 22 then 7 + (v - 20)
  else if v < 40 then 9 + (v - 22) / 2 else if v < 44 then 3 + (v - 40) else if v < 47 then 2 else 1

/-- Blocks that the ZX5120-R does not have (R422). -/
def vecRemoved (s : State) (v : Nat) : Bool :=
  !gradeS s && (v == 6 || v == 7 || v == 14 || v == 15 || (36 ≤ v && v ≤ 39))

/-- The classes of the STATUS bits of a block: bits of class F, U and C (R254, R324, R388, R413, R423, R452, R486). -/
def errBits (v : Nat) : Word × Word × Word :=
  if v < 8 then (0, 0, 0xF)
  else if v < 16 then (0, 2, 1)
  else if v < 20 then (0, 2, 1)
  else if v < 22 then (0, 0xA, 5)
  else if v < 40 then (0x10, 0xE, 1)
  else if v < 44 then (0x600, 0x84C, 0x1B3)
  else if v == 44 then (0, 0xF, 0x30)
  else if v == 45 then (0, 2, 1)
  else if v == 46 then (0, 0xFF, 0)
  else if v == 47 then (0x1E, 0, 1)
  else (8, 0, 7)

/-- The W1C bits of a block's STATUS. -/
def errAll (v : Nat) : Word := let (f, u, c) := errBits v; f ||| u ||| c

/-- The writable bits of a block's MASK: those of class C and U (R417). -/
def errMaskable (v : Nat) : Word := let (_, u, c) := errBits v; u ||| c

/-- The reset value of a block's registers: MASK is 1 for class C (R418). -/
def errReset (v : Nat) : ErrBlk := { status := 0, mask := (errBits v).2.2, info := 0 }

/-- A block's registers. -/
def getErr (s : State) (v : Nat) : ErrBlk := tget (errReset v) s.errs v
/-- A block's registers replaced. -/
def setErr (s : State) (v : Nat) (e : ErrBlk) : State := { s with errs := tput (errReset v) s.errs v e }

/-- A vector at one port (R460): sent where its entry is unmasked, pending where it is masked, by its own bit or by Function Mask,
which masks every entry (PRESUMED from PCI Express, log 89); a port with MSI-X Enable 0 does neither. -/
def msixPort (s : State) (m : Fin 2) (v : Nat) : State :=
  let g := getMgmt s m
  if !g.msix.enable then s
  else if tget false g.msix.unmasked v && !g.msix.fmask then emit s (.msix m v)
  else setMgmt s m { g with msix := { g.msix with pending := tput false g.msix.pending v true } }

/-- A vector at both ports. -/
def msixBoth (s : State) (v : Nat) : State := msixPort (msixPort s 0 v) 1 v

/-- Every core's FAULT latch set (R317). -/
def faultLatches (s : State) : State :=
  { s with cores := s.cores.map (fun k => { k with faultLatch := true }) }

/-- A block calls for its vector, once in a cycle whatever its causes (R420). -/
def callVector (s : State) (v : Nat) : State :=
  if vecRemoved s v || tget false s.cyc.calls v then s
  else faultLatches (msixBoth { s with cyc := { s.cyc with calls := tput false s.cyc.calls v true } } v)

/-- The instance inside its block that an event's INFO names (R413, R423, R388, R324): lane, port, channel or core. -/
def evtInst (v : Nat) (info : Word) : Nat :=
  if v < 8 then fld info 55 9 else if v < 16 then 0 else if v < 20 then fld info 55 9 else if v < 40 then 0
  else if v < 44 then fld info 58 6 else if v == 45 then fld info 58 3 else if v == 46 then fld info 61 3 else 0

/-- The rank of an event among those of one block in one cycle: class F, U, C, then the STATUS bit, then the instance
(R419). -/
def evtRank (v bit : Nat) (info : Word) : Nat :=
  let (f, u, _) := errBits v
  ((if bitOf f bit then 0 else if bitOf u bit then 1 else 2) * 64 + bit) * 512 + evtInst v info

/-- The place in a cycle that an event has at the least: after the cycle's W1C writes (R9). -/
def placeEvent : Nat := 1200

/-- An event recorded by a block: its STATUS bit, INFO where no event of higher rank came in this cycle (R419), and the
vector when an unmasked bit rises (R417-R420). A class F event also stops ALIVE_OUT (R429). Events of a block whose domain
is off are not recorded. -/
def recordEvt (s : State) (v bit : Nat) (info : Word) : State :=
  if vecRemoved s v || !pdOn s (vecDomain v) then s else
  let e := getErr s v
  let b : Word := 1#64 <<< bit
  let rise := !bitOf e.status bit && !bitOf e.mask bit
  let k := evtRank v bit info + 1
  let best := tget 0 s.cyc.infos v
  let first := best == 0 || decide (k ≤ best)
  let s1 := setErr s v { e with status := e.status ||| b, info := if first then info else e.info }
  let s2 := { s1 with cyc := { s1.cyc with
    place := max s1.cyc.place placeEvent
    infos := if first then tput 0 s1.cyc.infos v k else s1.cyc.infos } }
  let s3 := if bitOf (errBits v).1 bit then { s2 with clk := { s2.clk with fatalSeen := true } } else s2
  if rise then callVector s3 v else s3

/-- A free value and the state that has used it. -/
def freshWord (s : State) : Word × State := (Config.freeWord s.freeCtr, { s with freeCtr := s.freeCtr + 1 })

/-- `n` free bytes. -/
def freeBytes (s : State) (n : Nat) : List Byte × State :=
  (((List.range (n / 8 + 1)).flatMap (fun j => wordLE (Config.freeWord (s.freeCtr + j)))).take n,
   { s with freeCtr := s.freeCtr + (n / 8 + 1) })

/-- A counter that saturates at `top`. -/
def sat (top n : Nat) : Nat := min n top

/-- A 16-bit counter raised by one. -/
def inc16 (n : Nat) : Nat := min (n + 1) 0xFFFF

/-- G(n) (R279): G0 reads as zero. -/
def readReg (k : Core) (n : BitVec 6) : Word :=
  if n.toNat = 0 then 0 else k.regs.getD n.toNat 0

/-- A result written to G(n): G0 discards it (R279). -/
def writeReg (k : Core) (n : BitVec 6) (v : Word) : Core :=
  if n.toNat = 0 then k else { k with regs := k.regs.setIfInBounds n.toNat v }

/-- The PC past the instruction (R285). -/
def nextPc (k : Core) : Core := { k with pc := k.pc + 8 }

/-- A result written and the PC advanced. -/
def retire (s : State) (c : CoreNo) (d : BitVec 6) (v : Word) : State :=
  setCore s c (nextPc (writeReg (getCore s c) d v))

/-- The exception causes of a core (R319). -/
inductive Exc where
  | illegal | illegalFormat | fetch | misalign | access | dreg | table | stageFull | mbx | memUncorr
  deriving DecidableEq, Repr

/-- The code of R319. -/
def Exc.code : Exc → BitVec 8
  | .illegal => 1 | .illegalFormat => 2 | .fetch => 3 | .misalign => 4 | .access => 5 | .dreg => 6
  | .table => 7 | .stageFull => 8 | .mbx => 9 | .memUncorr => 10

/-- A core takes an exception (R320): the instruction has no effect, the core is STOPPED with the cause and the PC of
the faulting instruction, its bit of CTL_ERR_STATUS is set and CTL_ERR_INFO written, class U. -/
def takeExc (s : State) (c : CoreNo) (x : Exc) (addr : Word) : State :=
  let k := getCore s c
  let s1 := setCore s c { k with st := .stopped, cause := x.code }
  recordEvt s1 46 c (packFields [(61, 3, c), (53, 8, x.code.toNat), (0, 48, addr.toNat)])

/-- A PC that can be fetched from: in the code region and a multiple of 8 (R283). -/
def fetchable (s : State) (pc : Word) : Bool :=
  let a := pc.toNat
  a % 8 == 0 && decide (0x01000000 + s.sec.codeBase ≤ a) && decide (a + 8 ≤ 0x01000000 + s.sec.codeLimit)

/-- A register field of a scalar or system instruction names G0-G31 (R287). -/
def okReg (n : BitVec 6) : Bool := decide (n.toNat < 32)

/-- A core instruction: nothing unless the core is RUNNING and in no commit (R304); FETCH when the PC cannot be fetched
from (R283); ILLEGAL when its encoding is not legal (R287, R325); else its effect. -/
def coreInstr (s : State) (c : CoreNo) (legal : Bool) (k : State → State) : Res :=
  if isRunning s && (getCore s c).st == .running && (getCore s c).committing.isNone && pdOn s 2 then
    if !fetchable s (getCore s c).pc then .next (takeExc s c .fetch (getCore s c).pc)
    else if !legal then .next (takeExc s c .illegal (getCore s c).pc)
    else .next (k s)
  else .next s

/-- IMM sign-extended to 64 bits (R287). -/
def immS (i : BitVec 32) : Word := i.signExtend 64
/-- IMM zero-extended to 64 bits. -/
def immZ (i : BitVec 32) : Word := i.setWidth 64

end Sys2Proof.Machine
end

