-- ==== Sys2Proof/Machine/Firn.lean ====
section
/-! DEFINITION. Firn (R366-R389): the address mapping, row remapping, the controller code, poison, the Firn cache with
its hints, and the accesses of every requester. -/

namespace Sys2Proof.Machine

/-- Firn bytes (R366). -/
def firnSize : Nat := 0x3000000000

/-- A place in the stacks (R367). -/
structure FirnPlace where
  stack : Nat
  channel : Nat
  die : Nat
  bank : Nat
  row : Nat
  burst : Nat
  deriving DecidableEq, Repr

/-- firn_decode of R367. -/
def firnDecode (a : Nat) : FirnPlace :=
  let u := a >>> 11
  let ch := u % 256
  let v := u >>> 8
  let w := v >>> 4
  { stack := ch >>> 6, channel := ch % 64, bank := v % 16, row := w % 2048, die := w >>> 11, burst := (a >>> 8) % 8 }

/-- The first remap table index of a bank's spares (R384). -/
def bankIndex (p : FirnPlace) : Nat := (((64 * p.stack + p.channel) * 12 + p.die) * 16 + p.bank) * 16

/-- The remap entry of an index. -/
def remapEnt (s : State) (i : Nat) : BitVec 32 := tget 0 s.tbl.remap i

/-- The state of a remap entry (R384): 0 FREE, 1 ACTIVE, 2 COPYING. -/
def remapState (e : BitVec 32) : Nat := fld e 28 2

/-- The lowest of `n` spares from `i` on whose entry holds a row (R386). -/
def spareOf (s : State) (row i : Nat) : Nat → Option Nat
  | 0 => none
  | n + 1 =>
    let e := remapEnt s i
    if bitOf e 31 && remapState e != 0 && fld e 0 11 == row then some i else spareOf s row (i + 1) n

/-- The memory key of a spare row's bytes: spare rows lie above the addressed bytes. -/
def spareBase (i : Nat) : Nat := firnSize + i * 2048

/-- Where the bytes of a 2 KiB row unit lie now, and the spare that holds them: a COPYING entry still reads from where
the row was mapped before its commit (R385). -/
def rowBase (s : State) (a : Nat) : Nat × Option Nat :=
  let p := firnDecode a
  let base := a / 2048 * 2048
  match spareOf s p.row (bankIndex p) 16 with
  | none => (base, none)
  | some i =>
    if remapState (remapEnt s i) == 2 then
      match tget none s.remapFrom i with
      | some b => (b, if b ≥ firnSize then some ((b - firnSize) / 2048) else none)
      | none => (base, none)
    else (spareBase i, some i)

/-- The memory key of a Firn byte address, after remapping. -/
def firnPhys (s : State) (a : Nat) : Nat := (rowBase s a).1 + a % 2048

/-- A Firn error event of a burst (R388). -/
def firnEvt (s : State) (bit a beat symbol req : Nat) : State :=
  let p := firnDecode a
  let sp := (rowBase s a).2
  recordEvt s (40 + p.stack) bit
    (packFields [(58, 6, p.channel), (54, 4, p.die), (50, 4, p.bank), (39, 11, p.row), (36, 3, p.burst), (33, 3, beat),
      (32, 1, b2n sp.isSome), (28, 4, (sp.getD 0) % 16), (22, 6, symbol), (17, 5, req)])

/-- A 24-bit counter raised. -/
def inc24 (n k : Nat) : Nat := min (n + k) 0xFFFFFF

/-- `k` codewords of a burst corrected: CORR, and the count (R371, R388). -/
def firnCorr (s : State) (a beat symbol req k : Nat) : State :=
  let i := fin4 (firnDecode a).stack
  let x := getStack s i
  firnEvt (setStack s i { x with corrCnt := inc24 x.corrCnt k }) 1 a beat symbol req

/-- An uncorrectable burst: UNCORR, and the count (R371, R388). -/
def firnUncorr (s : State) (a beat req : Nat) : State :=
  let i := fin4 (firnDecode a).stack
  let x := getStack s i
  firnEvt (setStack s i { x with uncorrCnt := inc16 x.uncorrCnt }) 2 a beat 0x3F req

/-- Extents in the pool and in the regions reserved at boot (R239, R365). -/
def extTotal : Nat := 3145728
/-- Extents of the regions reserved at boot: 208 MiB. -/
def extReserved : Nat := 3328
/-- Extents of the pool. -/
def extPool : Nat := extTotal - extReserved

/-- An extent that holds a region reserved at boot. -/
def isReservedExt (x : Nat) : Bool :=
  decide (Config.firnReservedFirst ≤ x) && decide (x < Config.firnReservedFirst + extReserved)

/-- An extent of the pool (R242). -/
def inPool (x : Nat) : Bool := decide (x < extTotal) && !isReservedExt x

/-- The extent with a place in the ascending order of the pool (R520). -/
def poolExt (i : Nat) : Nat := if i < Config.firnReservedFirst then i else i + extReserved

/-- The link word that threading writes into an extent of the pool (R240, R241): the byte address of the next one in
ascending order, or bit [63] in the last. -/
def threadLink (x : Nat) : Word :=
  let y := if x + 1 = Config.firnReservedFirst then x + 1 + extReserved else x + 1
  if y < extTotal then BitVec.ofNat 64 (y * 65536) else BitVec.ofNat 64 (2 ^ 63)

/-- What a byte of the stacks that nothing has written since reads as: its byte of the link word where its stack has been
threaded, 0 elsewhere. The list of `firn` holds the difference from it. -/
def firnBase (s : State) (key : Nat) : Byte :=
  if key % 65536 < 8 && decide (key < firnSize) && bitOf s.firnThreaded (firnDecode key).stack && inPool (key / 65536) then
    BitVec.ofNat 8 (fld (threadLink (key / 65536)) (8 * (key % 8)) 8)
  else 0

/-- A byte of the stacks. -/
def rawGet (s : State) (key : Nat) : Byte := memGet s.firn key ^^^ firnBase s key

/-- A byte written in the list that holds the stacks. -/
def rawPut (s : State) (f : Memory) (key : Nat) (b : Byte) : Memory := memPut f key (b ^^^ firnBase s key)

/-- The cache set of an address (R373). -/
def setOf (a : Nat) : Nat := ((a >>> 19) % 8) * 512 + (a >>> 8) % 512

/-- The 256 bytes of a line as they lie in the stacks. -/
def memLine (s : State) (la : Nat) : BitVec 2048 :=
  let base := firnPhys s la
  BitVec.ofNat 2048 (leNat ((List.range 256).map (fun i => rawGet s (base + i))))

/-- A byte of a line. -/
def lineByte (d : BitVec 2048) (i : Nat) : Byte := BitVec.ofNat 8 (fld d (8 * i) 8)

/-- A mask of 256 bits widened to the bits of its bytes. -/
def widenMask (m : BitVec 256) : BitVec 2048 :=
  BitVec.ofNat 2048 ((List.range 256).foldr (fun i acc => acc * 256 + (if bitOf m i then 255 else 0)) 0)

/-- The bytes of `b` where the mask is 1, of `a` elsewhere. -/
def mergeLine (m : BitVec 256) (a b : BitVec 2048) : BitVec 2048 :=
  let w := widenMask m
  (a &&& ~~~w) ||| (b &&& w)

/-- A mask of `n` ones from bit `i` on. -/
def onesFrom (i n : Nat) : BitVec 256 := BitVec.ofNat 256 ((2 ^ n - 1) <<< i)

/-- The beats of a line whose 32 mask bits satisfy a test, as a mask. -/
def beatsWhere (m : BitVec 256) (p : Nat → Bool) : BitVec 8 :=
  BitVec.ofNat 8 ((List.range 8).foldr (fun b acc => acc * 2 + b2n (p (fld m (32 * b) 32))) 0)

/-- Beats of a line that a mask covers wholly. -/
def wholeBeats (m : BitVec 256) : BitVec 8 := beatsWhere m (· == 0xFFFFFFFF)

/-- Beats of a line that a mask touches. -/
def someBeats (m : BitVec 256) : BitVec 8 := beatsWhere m (· != 0)

/-- What the code says of a burst that the channel has given in error since it was last written (R371): a burst that is
uncorrectable is not rewritten by the switch (R372), so that it stays so until a write of the whole burst. -/
def burstErr (s : State) (la : Nat) : MemFault := tget .none s.firnErr (firnPhys s la / 256)

/-- The same noted. -/
def noteErr (s : State) (la : Nat) (f : MemFault) : State :=
  { s with firnErr := tput .none s.firnErr (firnPhys s la / 256) f }

/-- Bytes put in the stacks; a beat covered wholly loses its POISON (R372), and a burst its error. -/
def memWriteLine (s : State) (la : Nat) (m : BitVec 256) (d : BitVec 2048) : State :=
  let base := firnPhys s la
  { s with
    firnErr := if m == BitVec.allOnes 256 then tput .none s.firnErr (base / 256) .none else s.firnErr
    firn := (List.range 256).foldl (fun f i => if bitOf m i then rawPut s f (base + i) (lineByte d i) else f) s.firn
    firnPoison := (List.range 8).foldl (fun f b => if bitOf (wholeBeats m) b then tput false f (base / 32 + b) false else f)
      s.firnPoison }

/-- The beats of a burst that are poisoned in the stacks. -/
def poisonedBeats (s : State) (la : Nat) : BitVec 8 :=
  let base := firnPhys s la / 32
  BitVec.ofNat 8 ((List.range 8).foldr (fun b acc => acc * 2 + b2n (tget false s.firnPoison (base + b))) 0)

/-- The lowest beat of a mask. -/
def firstBeat (m : BitVec 8) : Nat := ((List.range 8).find? (fun b => bitOf m b)).getD 0

/-- Sets POISON on the beats of a range in the stacks (R372). -/
def poisonRange (s : State) (a n : Nat) : State :=
  let beats := (List.range (ceilDiv n 32 + 1)).map (fun i => a / 32 * 32 + 32 * i)
  let keys := (beats.filter (fun b => decide (b < a + n))).map (fun b => firnPhys s b / 32)
  { s with firnPoison := keys.foldl (fun f k => tput false f k true) s.firnPoison }

/-- A burst fetched: POISON_READ where any beat of it is poisoned (R372). -/
def noteFetch (s : State) (la req : Nat) : State :=
  let p := poisonedBeats s la
  if p == 0 then s else firnEvt s 3 la (firstBeat p) 0x3F req

/-- What a burst's fetch gives (R371): its data, the beats that are uncorrectable or poisoned, and the state after its
events. A fault met now, or one that the burst has had since it was last written; the data of an uncorrectable burst is what the
channel gives, a free value. -/
def fetchBurst (s : State) (la req : Nat) (f : MemFault) : BitVec 2048 × BitVec 8 × State :=
  let t := noteFetch s la req
  let p := poisonedBeats s la
  match (if f == .corrected || f == .uncorrectable then f else burstErr s la) with
  | .corrected =>
    let (x, u) := freshWord (noteErr t la .corrected)
    (memLine s la, p, firnCorr u la (fld x 8 3) (fld x 0 8 % 36) req 1)
  | .uncorrectable =>
    let (x, u) := freshWord (noteErr t la .uncorrectable)
    let b := fld x 61 3
    (memLine s la ^^^ (BitVec.ofNat 2048 (x.toNat <<< (256 * b))), p ||| (1#8 <<< b), firnUncorr u la b req)
  | _ => (memLine s la, p, t)

/-- Whether a burst comes uncorrectable, by a fault met now or before. -/
def burstLost (s : State) (la : Nat) (f : MemFault) : Bool :=
  f == .uncorrectable || (f != .corrected && burstErr s la == .uncorrectable)

/-- A burst written: a write that leaves any byte of a beat unwritten is done as a read of the burst, a merge and a write
of the burst (R369), the read meeting a fault; where the read comes uncorrectable, POISON is set in every codeword of the stored
burst (R372). -/
def writeBurst (s : State) (la : Nat) (m : BitVec 256) (d : BitVec 2048) (req : Nat) (f : MemFault) : State :=
  if someBeats m == wholeBeats m then memWriteLine s la m d
  else
    let (x, _, t) := fetchBurst s la req f
    if burstLost s la f then poisonRange (memWriteLine t la (BitVec.allOnes 256) (mergeLine m x d)) la 256
    else noteErr (memWriteLine t la m d) la .none

/-- A dirty line written back (R375): as a whole burst when its valid mask is full, else its dirty bytes under R369; where
its data came from a poisoned burst, with POISON in every codeword (R372). -/
def storeLine (s : State) (l : Line) (req : Nat) (f : MemFault) : State :=
  if l.dirty == 0 then s
  else if l.valid == BitVec.allOnes 256 then
    let t := memWriteLine s l.addr l.valid l.data
    if l.pois == 0 then t else poisonRange t l.addr 256
  else writeBurst s l.addr (l.dirty &&& l.valid) l.data req f

/-- A line of the cache, and the other lines of its set. -/
def findLine (s : State) (la : Nat) : Option (Line × List Line) :=
  let st := getStack s (fin4 (firnDecode la).stack)
  takeFirst (fun (l : Line) => l.addr == la) (tget [] st.cache (setOf la))

/-- The lines of a set replaced. -/
def putSet (s : State) (la : Nat) (ls : List Line) : State :=
  let k := fin4 (firnDecode la).stack
  let st := getStack s k
  setStack s k { st with cache := tput [] st.cache (setOf la) ls }

/-- The lines of a set. -/
def lineSet (s : State) (la : Nat) : List Line :=
  tget [] (getStack s (fin4 (firnDecode la).stack)).cache (setOf la)

/-- The least recently used line of a full set evicted, written back where dirty (R373, R375). -/
def evict (s : State) (la req : Nat) : State :=
  let ls := lineSet s la
  if ls.length < 16 then s else
  match ls.getLast? with
  | none => s
  | some l => let t := storeLine s l req .none; putSet t la (lineSet t la).dropLast

/-- A line put at the front of its set: most recent. -/
def pushLine (s : State) (la : Nat) (l : Line) (req : Nat) : State :=
  let t := evict s la req
  putSet t la (l :: lineSet t la)

/-- A line written where it stands in its set, recency unchanged. -/
def keepPlace (s : State) (la : Nat) (l : Line) : State :=
  putSet s la ((lineSet s la).map (fun x => if x.addr == la then l else x))

/-- A line taken out of its set. -/
def dropLine (s : State) (la : Nat) : State := putSet s la ((lineSet s la).filter (fun x => x.addr != la))

/-- Errors in the cache's SRAM met on a hit (R376): corrected, CACHE_CORR; uncorrectable in a clean line, CACHE_CORR and the
line invalidated, to be fetched again; in a dirty line, CACHE_UNCORR and the line written back with POISON in that beat. -/
def cacheFault (s : State) (la req : Nat) (f : MemFault) : State :=
  match findLine s la, f with
  | some _, .cacheCorr => firnEvt s 5 la 0 0x3F req
  | some (l, _), .cacheUncorr b =>
    if l.dirty == 0 then firnEvt (dropLine s la) 5 la b.val 0x3F req
    else
      let t := poisonRange (storeLine s l req .none) (la + 32 * b.val) 32
      firnEvt (keepPlace t la { l with dirty := 0, pois := l.pois ||| (1#8 <<< b.val) }) 6 la b.val 0x3F req
  | _, _ => s

/-- A read of bytes of one line under a hint (R373, R374): the line's data, whether the bytes read came from a poisoned or
uncorrectable beat, and the state after. -/
def readLine (s₀ : State) (la : Nat) (m : BitVec 256) (h : Hint) (req : Nat) (f : MemFault) :
    BitVec 2048 × Bool × State :=
  let s := cacheFault s₀ la req f
  match findLine s la with
  | some (l, rest) =>
    if l.valid == BitVec.allOnes 256 then
      let bad := (l.pois &&& someBeats m) != 0
      match h with
      | .keep => (l.data, bad, putSet s la (l :: rest))
      | .stream => (l.data, bad, s)
      | .last => (l.data, bad, dropLine (storeLine s l req .none) la)
    else
      let (d, p, t) := fetchBurst s la req f
      let l' := { l with
        data := mergeLine l.valid d l.data
        valid := BitVec.allOnes 256
        pois := l.pois ||| (p &&& ~~~ wholeBeats l.valid) }
      let bad := (l'.pois &&& someBeats m) != 0
      match h with
      | .keep => (l'.data, bad, putSet t la (l' :: rest))
      | .stream => (l'.data, bad, keepPlace t la l')
      | .last => (l'.data, bad, dropLine (storeLine t l' req .none) la)
  | none =>
    let (d, p, t) := fetchBurst s la req f
    let bad := (p &&& someBeats m) != 0
    match h with
    | .keep => (d, bad, pushLine t la { addr := la, data := d, valid := BitVec.allOnes 256, dirty := 0, pois := p } req)
    | _ => (d, bad, t)

/-- A write of bytes of one line under a hint (R374). -/
def writeLine (s : State) (la : Nat) (m : BitVec 256) (d : BitVec 2048) (h : Hint) (req : Nat) : State :=
  match findLine s la with
  | some (l, rest) =>
    let l' := { l with
      data := mergeLine m l.data d
      valid := l.valid ||| m
      dirty := l.dirty ||| m
      pois := l.pois &&& ~~~ wholeBeats (l.dirty ||| m) }
    match h with
    | .keep => putSet s la (l' :: rest)
    | .stream => keepPlace (storeLine s l' req .none) la { l' with dirty := 0 }
    | .last => dropLine (storeLine s l' req .none) la
  | none =>
    match h with
    | .keep => pushLine s la { addr := la, data := mergeLine m 0 d, valid := m, dirty := m } req
    | _ => writeBurst s la m d req .none

/-- Bytes of Firn read under a hint, at most `k` lines, a fault being met in the first; what a poisoned or uncorrectable
beat gives is marked. -/
def firnReadF (s : State) (a n : Nat) (h : Hint) (req : Nat) (f : MemFault) : Nat → List Byte × Bool × State
  | 0 => ([], false, s)
  | k + 1 =>
    if n == 0 then ([], false, s) else
    let la := a / 256 * 256
    let off := a % 256
    let len := min n (256 - off)
    let (d, p, t) := readLine s la (onesFrom off len) h req f
    let (bs, p', t') := firnReadF t (a + len) (n - len) h req .none k
    ((List.range len).map (fun i => lineByte d (off + i)) ++ bs, p || p', t')

/-- Bytes of Firn read without a fault. -/
def firnRead (s : State) (a n : Nat) (h : Hint) (req k : Nat) : List Byte × Bool × State := firnReadF s a n h req .none k

/-- Bytes of Firn written under a hint, at most `k` lines. -/
def firnWrite (s : State) (a : Nat) (bs : List Byte) (h : Hint) (req : Nat) : Nat → State
  | 0 => s
  | k + 1 =>
    if bs.isEmpty then s else
    let la := a / 256 * 256
    let off := a % 256
    let len := min bs.length (256 - off)
    let d := BitVec.ofNat 2048 (leNat (bs.take len) <<< (8 * off))
    firnWrite (writeLine s la (onesFrom off len) d h req) (a + len) (bs.drop len) h req k

/-- The lines that `n` bytes can touch. -/
def linesOf (n : Nat) : Nat := n / 256 + 2

/-- Whether every stack's domain is on (R444). -/
def firnOn (s : State) : Bool := pdOn s 3 && pdOn s 4 && pdOn s 5 && pdOn s 6

/-- Whether the stack that holds an address takes no requests (R381, R424). -/
def stackStuck (s : State) (a : Nat) : Bool := (getStack s (fin4 (firnDecode a).stack)).stuck

/-- Whether the row of an address is being copied to a spare (R385). -/
def rowCopying (s : State) (a : Nat) : Bool :=
  let p := firnDecode a
  match spareOf s p.row (bankIndex p) 16 with
  | some i => remapState (remapEnt s i) == 2
  | none => false

/-- Whether a margining point runs on the channel of an address (R389). -/
def marginOn (s : State) (a : Nat) : Bool :=
  let p := firnDecode a
  let x := getStack s (fin4 p.stack)
  x.marginBusy && x.marginCh == p.channel

/-- Whether a request to an address waits (R381, R385, R389). -/
def burstWaits (s : State) (a : Nat) : Bool := stackStuck s a || rowCopying s a || marginOn s a

/-- Whether a request for `n` bytes waits: any of its bursts does. -/
def firnWaits (s : State) (a n : Nat) : Bool :=
  (List.range (linesOf n)).any (fun i => decide (a / 256 * 256 + 256 * i < a + n) && burstWaits s (a / 256 * 256 + 256 * i))

/-! ## The controller code (R371) -/

/-- A product in GF(2^8) with field polynomial x^8 + x^4 + x^3 + x^2 + 1. -/
def gfMul (a b : Nat) : Nat :=
  (List.range 8).foldl (fun (acc : Nat × Nat) i =>
    (if (b >>> i) % 2 == 1 then acc.1 ^^^ acc.2 else acc.1,
     let d := acc.2 * 2; if d ≥ 256 then d ^^^ 0x11D else d)) (0, a) |>.1

/-- A power of α. -/
def gfPow (i : Nat) : Nat := (List.range i).foldl (fun x _ => gfMul x 2) 1

/-- The three syndromes of a codeword of 36 symbols at the roots 1, α and α^2 of the generator; symbol i is the
coefficient of x^(35-i). -/
def syndromes (w : List Nat) : Nat × Nat × Nat :=
  let ev := fun (r : Nat) => w.foldl (fun acc c => gfMul acc r ^^^ c) 0
  (ev 1, ev 2, ev 4)

/-- What the code says of a codeword: sound, one symbol corrected (its place and its right value), or uncorrectable. -/
inductive Codeword where
  | good
  | fixed (i v : Nat)
  | bad
  deriving DecidableEq, Repr

/-- Corrects one wrong symbol, detects two (R371): with error value `s0` at symbol i, s1 = s0 α^(35-i) and
s2 = s0 α^(2(35-i)). -/
def checkWord (w : List Nat) : Codeword :=
  let (a, b, c) := syndromes w
  if a == 0 && b == 0 && c == 0 then .good else
  match (List.range 36).find? (fun i =>
      let x := gfPow (35 - i)
      a != 0 && gfMul a x == b && gfMul b x == c) with
  | some i => .fixed i ((w.getD i 0) ^^^ a)
  | none => .bad

/-- ADDR_TAG of R371: the XOR of the seven-bit groups of the burst's address bits [37:8]. -/
def addrTag (a : Nat) : Nat :=
  let x := (a >>> 8) % 2 ^ 30
  (x % 128) ^^^ ((x >>> 7) % 128) ^^^ ((x >>> 14) % 128) ^^^ ((x >>> 21) % 128) ^^^ ((x >>> 28) % 128)

/-- The symbols of a codeword after correction. -/
def fixWord (w : List Nat) : List Nat :=
  match checkWord w with
  | .fixed i v => w.set i v
  | _ => w

/-- A burst as the channel gives it: eight codewords (R371). For each beat: whether it is uncorrectable, the symbol
corrected, POISON, and the 32 data bytes. -/
def judgeBeat (a : Nat) (w : List Nat) : Bool × Option Nat × Bool × List Nat :=
  let f := fixWord w
  let m := f.getD 32 0
  match checkWord w with
  | .bad => (true, none, false, f.take 32)
  | .good => (m % 128 != addrTag a, none, m ≥ 128, f.take 32)
  | .fixed i _ => (m % 128 != addrTag a, some i, m ≥ 128, f.take 32)

end Sys2Proof.Machine
end

