-- ==== Sys2Proof/Machine/Memory.lean ====
section
/-! DEFINITION. The control-core address map (R282-R284, R300, R315): loads and stores of every region. -/

namespace Sys2Proof.Machine

/-- The regions of R282. -/
inductive Region where
  | localMem | ctlMem | progStore | neve | firn | unmapped
  deriving DecidableEq, Repr

/-- The region of an address, with the byte's place in it. -/
def regionOf (a : Nat) : Region × Nat :=
  if a < 0x40000 then (.localMem, a)
  else if 0x01000000 ≤ a ∧ a < 0x02000000 then (.ctlMem, a - 0x01000000)
  else if 0x02000000 ≤ a ∧ a < 0x02400000 then (.progStore, a - 0x02000000)
  else if 0x04000000 ≤ a ∧ a < 0x0E000000 then (.neve, a - 0x04000000)
  else if 0x10000000000 ≤ a ∧ a < 0x13000000000 then (.firn, a - 0x10000000000)
  else (.unmapped, a)

/-- Whether a range of control memory meets the code region (R283). -/
def inCode (s : State) (o n : Nat) : Bool :=
  decide (o < s.sec.codeLimit) && decide (s.sec.codeBase < o + n)

/-- Whether a directory word names a program that is LOADED, and its range of the store in bytes (R297). -/
def progRange (w : Word) : Option (Nat × Nat) :=
  if bitOf w 63 && fld w 60 2 == 1 then some (8 * fld w 29 19, 8 * fld w 16 13) else none

/-- Whether a byte range of the program store meets a LOADED program (R300). -/
def inLoaded (s : State) (o n : Nat) : Bool :=
  s.tbl.prog.any (fun kv => match progRange kv.2 with
    | some (b, l) => decide (o < b + l) && decide (b < o + n)
    | none => false)

/-- The copies of a core's unreleased mailbox entries: those it has received, and those that wait in its mailbox (R282, R315). -/
def unreleased (k : Core) : List Nat := k.heldFrames ++ k.mbx.filterMap (fun e => e.copy)

/-- The copy held for a core that owns a Neve cell, with the cell's place in it (R315). -/
def heldCell (s : State) (c : CoreNo) (cell : Nat) : Option (NeveCopy × Nat) :=
  (unreleased (getCore s c)).findSome? (fun k =>
    match tget none s.neve k with
    | some cp => match cp.cells.idxOf? cell with
      | some i => some (cp, i)
      | none => none
    | none => none)

/-- A class C or U event of a control memory (R423): memory, core, table, place. -/
def cmsEvt (s : State) (bit mem core table loc : Nat) : State :=
  recordEvt s 45 bit (packFields [(61, 3, mem), (58, 3, core), (52, 6, table), (26, 26, loc)])

/-- A Neve event of a byte address (R423); half h holds banks 128h to 128h + 127 (R422). -/
def nevEvt (s : State) (bit addr : Nat) : State :=
  recordEvt s (20 + (addr / 256) % 256 / 128) bit (packFields [(0, 28, addr / 128 * 128)])


/-- What a load meets: an exception, a wait (the stack takes no requests), or the bytes read. -/
inductive LoadRes where
  | exc (x : Exc) (t : State)
  | waits
  | val (v : Nat) (t : State)

/-- The value of a load of `n` bytes at an address, with the error its data meets (R282, R330, R372, R424). -/
def loadValue (s : State) (c : CoreNo) (a n : Nat) (fault : MemFault) : LoadRes :=
  let (r, o) := regionOf a
  let guarded := fun (mem core : Nat) (v : Nat) =>
    match fault with
    | .corrected => LoadRes.val v (cmsEvt s 0 mem core 0 o)
    | .uncorrectable => LoadRes.exc .memUncorr (cmsEvt s 1 mem core 0 o)
    | _ => LoadRes.val v s
  match r with
  | .localMem => guarded 0 c (leNat (memBytes (getCore s c).localMem o n))
  | .ctlMem => guarded 1 0 (leNat (memBytes s.ctlMem o n))
  | .progStore => guarded 2 0 (leNat (memBytes s.progStore o n))
  | .neve =>
    match heldCell s c (o / 256) with
    | none => .exc .access s
    | some (cp, i) =>
      let (f, t) := freshWord s
      match fault with
      | .uncorrectable => .val (f.toNat % 2 ^ (8 * n)) (nevEvt t 1 o)
      | _ =>
        let at0 := 256 * i + o % 256
        let u := match fault with
          | .corrected => nevEvt s 0 o
          | _ => s
        if at0 + n ≤ cp.bytes.length then .val (leNat ((cp.bytes.drop at0).take n)) u
        else .val (leNat ((cp.bytes.drop at0).take n ++ (leBytes 8 f.toNat).take (at0 + n - max at0 cp.bytes.length)))
          { u with freeCtr := t.freeCtr }
  | .firn =>
    if !firnOn s then .exc .access s
    else if firnWaits s o n then .waits
    else
      let (bs, _, t) := firnReadF s o n .keep (0x15 + c) fault (linesOf n)
      .val (leNat bs) t
  | .unmapped => .exc .access s

/-- What a store meets. -/
inductive StoreRes where
  | exc (x : Exc)
  | waits
  | done (t : State)

/-- A store of the low `n` bytes of a word (R282-R284, R300). -/
def storeValue (s : State) (c : CoreNo) (a n : Nat) (v : Word) : StoreRes :=
  let (r, o) := regionOf a
  let bs := leBytes n v.toNat
  match r with
  | .localMem => let k := getCore s c; .done (setCore s c { k with localMem := memPutBytes k.localMem o bs })
  | .ctlMem => if inCode s o n then .exc .access else .done { s with ctlMem := memPutBytes s.ctlMem o bs }
  | .progStore =>
    if n != 8 || inLoaded s o n then .exc .access else .done { s with progStore := memPutBytes s.progStore o bs }
  | .firn =>
    if !firnOn s || isReservedExt (o / 65536) then .exc .access
    else if firnWaits s o n then .waits
    else .done (firnWrite s o bs .keep (0x15 + c) (linesOf n))
  | _ => .exc .access

end Sys2Proof.Machine
end

