-- ==== Sys2Proof/Machine/Line.lean ====
section
/-! DEFINITION. Line coding (R205, R394-R401): 8b/10b and its running disparity, PAM4, the characters of credit symbols and
alignment markers, lane blocks, striping, and the stream that a port sends. -/

namespace Sys2Proof.Machine

/-- One byte into a CRC-8 with polynomial 0x07, no reflection (R155, R205). -/
def crc8Byte (c : Byte) (b : Byte) : Byte :=
  let one := fun (x : Byte) => if bitOf x 7 then (x <<< 1) ^^^ 0x07#8 else x <<< 1
  one (one (one (one (one (one (one (one (c ^^^ b))))))))

/-- CRC-8 of a byte list, initial value 0. -/
def crc8 (bs : List Byte) : Byte := bs.foldl crc8Byte 0

/-! ## 8b/10b (R394) -/

/-- A character of the stream: a data byte, or a special character by its byte value (R395). -/
inductive Sym where
  | d (b : Byte)
  | k (b : Byte)
  deriving DecidableEq, Repr

/-- The six bits abcdei of the low five bits of a data byte at negative running disparity. The two tables of 8b/10b are those
of the published code, which the spec names and does not print (PRESUMED, log 104). -/
def sixNeg : Array Nat := #[
  0b100111, 0b011101, 0b101101, 0b110001, 0b110101, 0b101001, 0b011001, 0b111000,
  0b111001, 0b100101, 0b010101, 0b110100, 0b001101, 0b101100, 0b011100, 0b010111,
  0b011011, 0b100011, 0b010011, 0b110010, 0b001011, 0b101010, 0b011010, 0b111010,
  0b110011, 0b100110, 0b010110, 0b110110, 0b001110, 0b101110, 0b011110, 0b101011]

/-- The four bits fghj of the high three bits of a data byte at negative running disparity. -/
def fourNeg : Array Nat := #[0b1011, 0b1001, 0b0101, 0b1100, 0b1101, 0b1010, 0b0110, 0b1110]

/-- The four bits fghj of a special character at negative running disparity. -/
def fourNegK : Array Nat := #[0b1011, 0b0110, 0b1010, 0b1100, 0b1101, 0b0101, 0b1001, 0b0111]

/-- Ones of a code's low `n` bits. -/
def onesOf (n x : Nat) : Nat := ((List.range n).filter (fun i => (x >>> i) % 2 == 1)).length

/-- A sub-block of `n` bits at a running disparity: complemented at a positive one where it is not balanced, or where its
form alternates (D7 and Dx.3), and the disparity after it. -/
def subBlock (n neg : Nat) (rd alternates : Bool) : Nat × Bool :=
  let even := onesOf n neg * 2 == n
  (if rd && (!even || alternates) then 2 ^ n - 1 - neg else neg, if even then rd else !rd)

/-- Whether the alternate form of Dx.7 is taken: by the disparity before fghj, so that no run of five equal bits arises. -/
def altSeven (x : Nat) (rd : Bool) : Bool :=
  if rd then x == 11 || x == 13 || x == 14 else x == 17 || x == 18 || x == 20

/-- The 10-bit code of a character at a running disparity, and the disparity after it. -/
def encodeChar (rd : Bool) (c : Sym) : Code × Bool :=
  match c with
  | .d b =>
    let x := b.toNat % 32
    let y := b.toNat / 32
    let (six, r) := subBlock 6 (sixNeg.getD x 0) rd (x == 7)
    let (four, r') := subBlock 4 (if y == 7 && altSeven x r then 0b0111 else fourNeg.getD y 0) r (y == 3)
    (BitVec.ofNat 10 (six * 16 + four), r')
  | .k b =>
    let x := b.toNat % 32
    let y := b.toNat / 32
    let (six, r) := subBlock 6 (if x == 28 then 0b001111 else sixNeg.getD x 0) rd false
    let (four, r') := subBlock 4 (fourNegK.getD y 0) r true
    (BitVec.ofNat 10 (six * 16 + four), r')

/-- The special characters in use (R395): filler, marker, comma, credit symbol, start, end, abort. -/
def kFill : Byte := 0x1C
def kMark : Byte := 0x7C
def kComma : Byte := 0xBC
def kCredit : Byte := 0xF7
def kStart : Byte := 0xFB
def kEnd : Byte := 0xFD
def kAbort : Byte := 0xFE

/-- The special characters, those in use and the reserved ones (R395). -/
def specials : List Byte := [0x1C, 0x3C, 0x5C, 0x7C, 0x9C, 0xBC, 0xDC, 0xF7, 0xFB, 0xFC, 0xFD, 0xFE]

/-- The special characters that a receiver meets as code errors. -/
def reservedK : List Byte := [0x3C, 0x5C, 0x9C, 0xDC, 0xFC]

/-- Every character that has a code. -/
def allChars : List Sym :=
  (List.range 256).map (fun n => Sym.d (BitVec.ofNat 8 n)) ++ specials.map Sym.k

/-- The character of a code at a running disparity: none is a code error, an invalid code, one of the wrong disparity or a
reserved special character (R396). -/
def decodeChar (rd : Bool) (c : Code) : Option Sym :=
  (allChars.find? (fun x => (encodeChar rd x).1 == c)).filter (fun x => match x with
    | .k b => !reservedK.contains b
    | .d _ => true)

/-- The running disparity after a received code: that of its ones where they are not five (PRESUMED for a code error,
log 104). -/
def rdAfter (rd : Bool) (c : Code) : Bool :=
  let n := onesOf 10 c.toNat
  if n == 5 then rd else decide (5 < n)

/-- The five PAM4 symbols of a code (R394): bit pairs, the first bit the more significant, in Gray code. -/
def pam4 (c : Code) : List Int :=
  (List.range 5).map (fun i => match fld c (8 - 2 * i) 2 with | 0 => -3 | 1 => -1 | 3 => 1 | _ => 3)

/-- A code on a receive pair of inverted polarity (R402): each PAM4 symbol is negated, which in the Gray code changes the
first bit of each pair. -/
def invertPair (c : Code) : Code := c ^^^ 0b1010101010#10

/-! ## Credit symbols and markers -/

/-- The four characters of a credit symbol (R205). -/
def creditChars (vc : Nat) (init : Bool) (value : BitVec 12) : List Sym :=
  let a : Byte := BitVec.ofNat 8 (vc * 32 + b2n init * 16 + value.toNat / 256)
  let b : Byte := BitVec.ofNat 8 (value.toNat % 256)
  [.k kCredit, .d a, .d b, .d (crc8 [a, b])]

/-- The four characters of the alignment marker that a lane sends (R401): its index in the port, and its number. -/
def markerChars (lane i : Nat) : List Sym :=
  let a : Byte := BitVec.ofNat 8 (i * 64 + lane / 256)
  let b : Byte := BitVec.ofNat 8 (lane % 256)
  [.k kMark, .d a, .d b, .d (crc8 [a, b])]

/-! ## The stream a port sends (R397, R399, R400) -/

/-- What a lane places before its next character of the stream: a filler pair at the start of a lane block, with a marker
behind it in every fourth block. -/
def blockHead (lane i pos : Nat) : List Sym :=
  if pos % 4096 != 0 then [] else
  [.k kFill, .k kFill] ++ (if pos / 4096 % 4 == 0 then markerChars lane i else [])

/-- Characters coded by a lane, with its running disparity and its place in the lane blocks. -/
def laneCode (l : Lane) : List Sym → List Code × Lane
  | [] => ([], l)
  | x :: xs =>
    let (c, rd) := encodeChar l.rdTx x
    let (cs, l') := laneCode { l with rdTx := rd, txPos := (l.txPos + 1) % 16384 } xs
    (c :: cs, l')

/-- The lane that stream position `n` travels on in a port (R399). -/
def streamLane (p w n : Nat) : Nat := p + n % max 1 w

/-- Characters of the stream sent at a port from its stream position on: the codes with their lanes, and the state. -/
def streamCodes (s : State) (p : Nat) : List Sym → List (Nat × Code) × State
  | [] => ([], s)
  | x :: xs =>
    let y := getPort s p
    let lane := streamLane p y.width y.txPos
    let l := getLane s lane
    let (cs, l') := laneCode l (blockHead lane (lane - p) l.txPos ++ [x])
    let (rest, t) := streamCodes (setPort (setLane s lane l') p { y with txPos := y.txPos + 1 }) p xs
    (cs.map (fun c => (lane, c)) ++ rest, t)

/-- What a port shows on its lanes, where the test access port has not taken their pins (R485). -/
def emitLine (s : State) (o : Out) : State := if s.tap.taken then s else emit s o

/-- Characters sent at a port, behind the idle characters that time has put before them: how many of those came is timing, and
free below 16 (log 104). -/
def sendStream (s : State) (p : Nat) (xs : List Sym) : State :=
  let (f, t) := freshWord s
  let (cs, u) := streamCodes t p (List.replicate (f.toNat % 16) (.k kComma) ++ xs)
  emitLine u (.stream p cs)

/-- A credit symbol sent (R205): at most one begins in any 16 consecutive stream positions (R397), so that idle characters
go before one that would come too soon. -/
def sendCreditSymbol (s : State) (p vc : Nat) (init : Bool) (value : BitVec 12) : State :=
  let x := getPort s p
  let gap := match x.credPos with | some n => n + 16 - x.txPos | none => 0
  let t := sendStream s p (List.replicate gap (.k kComma) ++ creditChars vc init value)
  let y := getPort t p
  emitLine (setPort t p { y with credPos := some (y.txPos - 4) }) (.credit p vc init value)

/-! ## Received characters (R396) -/

/-- The event of a code error on a lane (R396). -/
def codeErrEvt (s : State) (lane : Nat) : State :=
  let x := getLane s lane
  recordEvt (setLane s lane { x with codeErr := inc16 x.codeErr, errSince := true }) (lane / 64) 0
    (packFields [(55, 9, lane)])

/-- The lane that stream position `n` arrives on in a port: the active one that has learned that index (R399, R402). -/
def rxLane (s : State) (p n : Nat) : Nat :=
  let w := max 1 (getPort s p).width
  ((((List.range 4).map (p + ·)).find? (fun l => (getLane s l).active && (getLane s l).idx.toNat == n % w))).getD (p + n % w)

/-- A code as a lane's receiver reads it, an inverted receive pair corrected (R402). -/
def rxPolarity (l : Lane) (c : Code) : Code := if l.polInv then invertPair c else c

/-- A code received on a lane: its character, or none and a code error counted. -/
def rxCode (s : State) (lane : Nat) (c₀ : Code) : Option Sym × State :=
  let l := getLane s lane
  let c := rxPolarity l c₀
  let t := setLane s lane { l with rdRx := rdAfter l.rdRx c }
  match decodeChar l.rdRx c with
  | some x => (some x, t)
  | none => (none, codeErrEvt t lane)

/-- Codes received on a lane, in order. -/
def rxCodes (s : State) (lane : Nat) : List Code → List (Option Sym) × State
  | [] => ([], s)
  | c :: cs =>
    let (x, t) := rxCode s lane c
    let (xs, u) := rxCodes t lane cs
    (x :: xs, u)

/-- A stream position of a port gone by (R399). -/
def rxAdvance (s : State) (p : Nat) : State := let x := getPort s p; setPort s p { x with rxPos := x.rxPos + 1 }

/-- Data characters expected at consecutive stream positions of a port: none where one is a code error, as a special character
there is too (R396, R397, R399). -/
def rxData (s : State) (p : Nat) : List Code → Option (List Byte) × State
  | [] => (some [], s)
  | c :: cs =>
    let lane := rxLane s p (getPort s p).rxPos
    let (x, t) := rxCode (rxAdvance s p) lane c
    let (xs, u) := rxData t p cs
    match x with
    | some (.d b) => (xs.map (b :: ·), u)
    | some (.k _) => (none, codeErrEvt u lane)
    | none => (none, u)

/-- Whether a data byte's code changes the running disparity. -/
def flipsRd (b : Byte) : Bool := (encodeChar false (.d b)).2

/-- What the characters of a frame, which a receive command gives decoded, leave of the lanes' running disparities and of the
stream position. -/
def rxFrame (s : State) (p : Nat) : List Byte → State
  | [] => s
  | b :: bs =>
    let lane := rxLane s p (getPort s p).rxPos
    let l := getLane s lane
    rxFrame (setLane (rxAdvance s p) lane { l with rdRx := l.rdRx != flipsRd b }) p bs

end Sys2Proof.Machine
end

