-- ==== Sys2Proof/Machine/Bpm.lean ====
section
/-! DEFINITION. The buffer pool manager (R237-R256): free lists, checks, reference counts, quotas and credit returns. -/

namespace Sys2Proof.Machine

/-- A credit symbol is noted when a port is UP (R206). -/
def sendCredit (s : State) (p : Nat) (v : Fin 8) : State :=
  let x := getPort s p
  if x.st == .up then sendCreditSymbol s p v false (getVc x v).cum else s

/-- Cells of a received frame released to its sender (R206), unless the port has left UP since. -/
def returnCredits (s : State) (p c ups cells : Nat) : State :=
  let x := getPort s p
  if x.ups != ups || c ≥ 8 then s else
  let v := getVc x (fin8 c)
  sendCredit (setPort s p (setVc x (fin8 c) { v with cum := v.cum + BitVec.ofNat 12 cells })) p (fin8 c)

/-- Cells that a frame of `f` bytes takes (R227). -/
def cellsOf (f : Nat) : Nat := ceilDiv f 256

/-- The split of a port group (R391). -/
def splitOf (s : State) (g : Nat) : Nat := (tget 0 s.split g).toNat

/-- A logical port exists under the split and the grade (R198, R392, R4). -/
def portExists (s : State) (p : Nat) : Bool :=
  decide (p < (if gradeS s then 512 else 384)) &&
  (match splitOf s (p / 4) with | 0 => p % 4 == 0 | 1 => p % 2 == 0 | _ => true)

/-- Lanes of a logical port. -/
def portLanes (s : State) (p : Nat) : Nat :=
  match splitOf s (p / 4) with | 0 => 4 | 1 => 2 | _ => 1

/-- The quota entry of a requester at reset (R248). -/
def quotaReset (q : Nat) : Vector Word 3 :=
  let lim := packFields [(42, 22, 0), (20, 22, 0x3FFFFF)]
  if q == 4096 then #v[packFields [(44, 20, 0x10000), (24, 20, 0x40000)], lim, 0]
  else if q == 4097 then #v[packFields [(44, 20, 0x100), (24, 20, 0x1000)], lim, 0]
  else if q == 4098 then #v[packFields [(44, 20, 0x2000), (24, 20, 0x10000)], lim, 0]
  else #v[0, 0, 0]

/-- Whether a table entry is poisoned (R426). -/
def isPoisoned (s : State) (tbl idx : Nat) : Bool := tget false s.tbl.poison (tbl * 2 ^ 32 + idx)

/-- A quota entry as the manager uses it; a poisoned one reads as its defaults (R426). -/
def quotaEnt (s : State) (q : Nat) : Vector Word 3 :=
  if isPoisoned s 0x0A q then quotaReset q else tget (quotaReset q) s.tbl.quota q

/-- Cells held by a requester. -/
def neveHeldOf (s : State) (q : Nat) : Nat := tget 0 s.neveHeld q
/-- Extents held by a requester. -/
def firnHeldOf (s : State) (q : Nat) : Nat := tget 0 s.firnHeld q

/-- The effective Neve reservation of a requester under a set of quota entries (R249). -/
def effNeve (s : State) (ent : Nat → Vector Word 3) (q : Nat) : Nat :=
  let r := fld (ent q)[0] 44 20
  if q < 4096 then
    let x := getPort s (q / 8)
    if x.st == .up || x.st == .held then max r (getVc x (fin8 (q % 8))).force.toNat else r
  else r

/-- The requesters that can hold a reservation. -/
def quotaUsers (s : State) : List Nat :=
  let ps : List Nat := s.ports.map (fun (kp : Nat × Port) => kp.1)
  let qs : List Nat := s.tbl.quota.map (fun (kq : Nat × Vector Word 3) => kq.1)
  ((ps.flatMap (fun p => (List.range 8).map (fun c => 8 * p + c))) ++ qs ++ [4096, 4097, 4098]).dedup

/-- Cells of Neve in domains that are on. -/
def neveTotal (s : State) : Nat := 327680 * (b2n (pdOn s 7) + b2n (pdOn s 8))

/-- Cells allocated. -/
def neveUsed (s : State) : Nat := (s.neve.map (fun kv => match kv.2 with | some c => c.cells.length | none => 0)).sum

/-- NEVE_FREE (R254). -/
def neveFree (s : State) : Nat := neveTotal s - neveUsed s - s.bpm.lostCells

/-- Extents allocated. -/
def extsUsed (s : State) : Nat := s.bpm.extAlloc.length

/-- Whether an extent is retired (R253). -/
def isRetired (s : State) (x : Nat) : Bool := tget false s.bpm.retired x

/-- Extents freed that have still to join the list; a retired one never does (R253, R256). -/
def extsFreed (s : State) : Nat := (s.cyc.freedExts.filter (fun xq => !isRetired s xq.1)).length

/-- Retired extents that are not allocated: they are out of FIRN_FREE (R253). -/
def extsRetiredFree (s : State) : Nat :=
  (s.bpm.retired.filter (fun kv => !tget false s.bpm.extAlloc kv.1)).length

/-- FIRN_FREE (R254). -/
def firnFree (s : State) : Nat := extPool - extsUsed s - extsRetiredFree s - s.bpm.lostExts

/-- shared_free() for Neve (R249); a cell freed in this cycle can be granted from the next one on (R256). -/
def sharedNeve (s : State) : Nat :=
  neveFree s - s.cyc.freedCells.length - ((quotaUsers s).map (fun q => effNeve s (quotaEnt s) q - neveHeldOf s q)).sum

/-- shared_free() for Firn. -/
def sharedFirn (s : State) : Nat :=
  firnFree s - extsFreed s - ([4096, 4097, 4098].map (fun q => fld (quotaEnt s q)[1] 42 22 - firnHeldOf s q)).sum

/-- may_alloc of R249. -/
def mayAlloc (ingress : Bool) (r h limit shared n : Nat) : Bool :=
  if h + n ≤ r then true
  else if ingress then false
  else if h + n > max limit r then false
  else decide ((if h ≥ r then n else h + n - r) ≤ shared)

/-- may_alloc for Neve cells. -/
def mayNeve (s : State) (q n : Nat) : Bool :=
  mayAlloc (decide (q < 4096)) (effNeve s (quotaEnt s) q) (neveHeldOf s q) (fld (quotaEnt s q)[0] 24 20) (sharedNeve s) n

/-- may_alloc for Firn extents. -/
def mayFirn (s : State) (q n : Nat) : Bool :=
  mayAlloc false (fld (quotaEnt s q)[1] 42 22) (firnHeldOf s q) (fld (quotaEnt s q)[1] 20 22) (sharedFirn s) n

/-- Whether R249 allows what work asks for. -/
def askFits (s : State) (a : Ask) : Bool :=
  (a.cells.2 == 0 || mayNeve s a.cells.1 a.cells.2) && (a.exts.2 == 0 || mayFirn s a.exts.1 a.exts.2)

/-- The requester that a refusal counts for. -/
def askRefused (s : State) (a : Ask) : Nat :=
  if a.exts.2 == 0 || (a.cells.2 != 0 && !mayNeve s a.cells.1 a.cells.2) then a.cells.1 else a.exts.1

/-- A refused allocation counts in DENIED (R251). -/
def countDenied (s : State) (q : Nat) : State := { s with denied := tput 0 s.denied q (inc16 (tget 0 s.denied q)) }

/-- A BPM event (R254): pool, requester and the byte address that failed. -/
def bpmEvt (s : State) (bit pool req addr : Nat) : State :=
  recordEvt s 44 bit (packFields [(62, 2, pool), (49, 13, req), (0, 38, addr)])

/-- A BPM event whose address nothing states (QUOTA_OVER, CMD_ERR): it is free, and so is the requester where none is
concerned. -/
def bpmNote (s : State) (bit pool : Nat) (req : Option Nat) : State :=
  let (f, t) := freshWord s
  bpmEvt t bit pool (req.getD (fld f 40 13)) (fld f 0 38)

/-! ## Lists and link words (R240-R244) -/

/-- The link word of a free buffer: the byte address of the next, or bit [63] in the last (R240). -/
def linkWord (next : Option Nat) : Word :=
  match next with
  | some a => BitVec.ofNat 64 a
  | none => BitVec.ofNat 64 (2 ^ 63)

/-- The check of a Neve link word read from the list of bank `k` (R242): the event bit of a failure. That the cell lies in the
list's own bank is judged with the range; a word that fails that and the alignment or the reserved bits as well is recorded as
RANGE alone (DESIGN CHOICE, log 111: the spec does not say which is recorded). -/
def neveLinkBad (k : Nat) (w : Word) : Option Nat :=
  let a := fld w 0 38
  if bitOf w 63 then (if fld w 38 25 == 0 then none else some 1)
  else if a ≥ 0x0A000000 || (a / 256) % 256 != k then some 0
  else if a % 256 != 0 || fld w 38 25 != 0 then some 1
  else none

/-- The check of a Firn link word (R242). -/
def firnLinkBad (w : Word) : Option Nat :=
  let a := fld w 0 38
  if bitOf w 63 then (if fld w 38 25 == 0 then none else some 1)
  else if !inPool (a / 65536) then some 0
  else if a % 65536 != 0 || fld w 38 25 != 0 then some 1
  else none

/-- The cell at the head of a bank's list. -/
def bankHead (b : Bpm) (k : Nat) : Option Nat :=
  match tget [] b.freed k with
  | x :: _ => some x
  | [] => let i := tget 0 b.fresh k; if i < 2560 then some (i * 256 + k) else none

/-- A bank's list without its head. -/
def dropHeadCell (b : Bpm) (k : Nat) : Bpm :=
  match tget [] b.freed k with
  | _ :: rest => { b with freed := tput [] b.freed k rest }
  | [] => { b with fresh := tput 0 b.fresh k (min 2560 (tget 0 b.fresh k + 1)) }

/-- Cells on a bank's list. -/
def bankLength (b : Bpm) (k : Nat) : Nat := (tget [] b.freed k).length + (2560 - tget 0 b.fresh k)

/-- A list cut where a link word fails its check (R243): at this cell, or at this extent, on whose list `kept` extents that are not
retired have been read; the failure's event bit, and the address that failed. -/
inductive Cut where
  | cell (x bit addr : Nat)
  | ext (x kept bit addr : Nat)
  deriving DecidableEq, Repr

/-- The next cell of a bank's list, the manager after its pop, and the check of its link word: a failure cuts the list
there, and what lies beyond is lost (R240, R242-R244). -/
def popBank (b : Bpm) (k : Nat) : Option (Nat × Bpm × List Cut) :=
  match bankHead b k with
  | none => none
  | some x =>
    let b' := dropHeadCell b k
    match tget none b.links x with
    | none => some (x, b', [])
    | some w =>
      let b'' := { b' with links := tput none b'.links x none }
      match neveLinkBad k w with
      | none => some (x, b'', [])
      | some bit =>
        some (x, { b'' with
          freed := tput [] b''.freed k []
          fresh := tput 0 b''.fresh k 2560
          lostCells := b''.lostCells + bankLength b'' k }, [.cell x bit (fld w 0 38)])

/-- A cell pushed on its bank's list, its link word written. -/
def pushBank (b : Bpm) (cell : Nat) : Bpm :=
  let k := cell % 256
  { b with freed := tput [] b.freed k (cell :: tget [] b.freed k), links := tput none b.links cell none }

/-- `n` cells from consecutive banks from the bank pointer on, empty lists passed over, or as many as there are; `tries` bounds the
search (R237, R243). -/
def takeCells (s : State) (b : Bpm) (n : Nat) : Nat → List Nat × Bpm × List Cut
  | 0 => ([], b, [])
  | tries + 1 =>
    match n with
    | 0 => ([], b, [])
    | m + 1 =>
      let k := b.bankPtr
      let nxt := (k + 1) % 256
      if !pdOn s (7 + k / 128) then takeCells s { b with bankPtr := nxt } (m + 1) tries
      else match popBank b k with
        | none => takeCells s { b with bankPtr := nxt } (m + 1) tries
        | some (c, b', ev) =>
          let (cs, b'', ev') := takeCells s { b' with bankPtr := nxt } m tries
          (c :: cs, b'', ev ++ ev')

/-- The first 8 bytes of a free extent written with its link word (R240). -/
def writeExtLink (s : State) (x : Nat) (w : Word) : State := firnWrite s (x * 65536) (wordLE w) .stream 0 2

/-- An extent pushed on the head of the Firn list. -/
def pushExt (s : State) (x : Nat) : State :=
  let t := writeExtLink s x (linkWord (s.bpm.extHead.map (· * 65536)))
  { t with bpm := { t.bpm with extHead := some x } }

/-! ## The cycle (R255, R256) -/

/-- The buffers freed in a cycle join their lists (R256): a retired extent does not (R253), and one whose link word has to wait for
Firn goes on waiting (R381, R385, R389). -/
def joinFreed (s : State) : State :=
  let t := s.cyc.freedExts.foldl (fun u xq =>
    if isRetired u xq.1 || burstWaits u (xq.1 * 65536) then u else pushExt u xq.1) s
  { t with bpm := s.cyc.freedCells.foldl pushBank t.bpm }

/-- Work that waits for buffers asks for them in every cycle: each refusal counts, once in the cycle (R251). -/
def countWaits (s : State) : State :=
  (s.wants.filter (fun w => s.jobs.contains w.job && !s.cyc.refused.contains w.job && !askFits s w.ask)).foldl
    (fun t w => countDenied t (askRefused s w.ask)) s

/-- The end of a CLK_CORE cycle: the count advances while the switch runs and the PLL holds lock (R432), and the timers that are due
then stay pending (R317); the buffers freed in the cycle join their lists, to be granted from the next cycle on (R256). -/
def nextCycle (s : State) : State :=
  let t := joinFreed (if isRunning s then countWaits s else s)
  let u := { t with
    wants := t.wants.filter (fun w => t.jobs.contains w.job)
    cyc := { freedExts := s.cyc.freedExts.filter (fun xq => !isRetired s xq.1 && burstWaits s (xq.1 * 65536)) } }
  if s.clk.running && s.clk.pllLock then latchTimers { u with clk := { u.clk with cycles := u.clk.cycles + 1 } } else u

/-- One cycle of CLK_CORE in which no command is given. -/
def idleCycle (s : State) : State := nextCycle s

/-- A command takes its place in the cycle: where the commands so far have gone beyond that place, it falls in the next
cycle (R9, R10, R256). A switch that is held or halted keeps to this order too, though no cycle of it counts. -/
def atPlace (p : Nat) (s : State) : State :=
  let t := if s.cyc.place > p then nextCycle s else s
  { t with cyc := { t.cyc with place := max p t.cyc.place } }

/-- The same for a command of which one is taken in a cycle: a second one falls in the next (R256, R521). -/
def afterPlace (p : Nat) (s : State) : State :=
  let t := if s.cyc.place > p then nextCycle s else s
  { t with cyc := { t.cyc with place := p + 1 } }

/-- The place of a logical port in the rotating order of its port group's cell path: the order starts at the lowest logical port
after a reset, and one port later in every cycle (R226, R520). -/
def pathPos (s : State) (p : Nat) : Nat :=
  let n := (List.range 4).countP (fun i => portExists s (p / 4 * 4 + i))
  let i := (List.range (p % 4)).countP (fun j => portExists s (p / 4 * 4 + j))
  (i + n - now s % max 1 n) % max 1 n

/-! ### Places: the order in which what falls in one cycle takes effect -/

/-- Reads, by party: they give the counts before the cycle's increments (R10, R379). -/
def placeRead : Nat := 1000
/-- W1C writes: the cycle's events take effect after them (R9). -/
def placeW1c : Nat := 1100
/-- WO commands, one in a cycle: they act ahead of the cycle's decisions (R256, R224). -/
def placeWo : Nat := 1300
/-- Characters and credit symbols (R216, R256: a credit return before a frame start). -/
def placeWire : Nat := 2000
/-- Losses of a link. -/
def placeLoss : Nat := 2100
/-- Gate entries and switchovers: a selection of the cycle sees the new list (R274). -/
def placeGate : Nat := 2200
/-- Answers, credits of completion queues and arrivals (R186, R191). -/
def placeAnswer : Nat := 2300
/-- Frames that have left (R221). -/
def placeDepart : Nat := 2400
/-- Selections at the egress ports, by port group and in the order of its egress cell path (R226): the depth is that of the start of
the cycle (R235, R256). -/
def placeStart (s : State) (p : Nat) : Nat := 2500 + 4 * (p / 4) + pathPos s p
/-- Frames received, by port group and in the order of its ingress cell path (R200, R226). -/
def placeReceive (s : State) (p : Nat) : Nat := 3100 + 5 * (p / 4) + pathPos s p
/-- Contributions at the combiner, by port group among the frames received: those forwarded need spray decisions in that order
(R200). What comes from no port comes last. -/
def placeCombine (p : Nat) : Nat := 3104 + 5 * min (p / 4) 128
/-- Everything that no rule places. -/
def placeWork : Nat := 4000
/-- Aborts: a chunk whose last add completes in the cycle counts as completed (R55). -/
def placeAbort : Nat := 4060
/-- Partials taken as abandoned: their slots are released ahead of the cycle's contributions (R64). -/
def placeSilence : Nat := 4080
/-- The dispatcher, by port group (R29, R64, R131, R521). -/
def placeDispatch : Nat := 4200
/-- Expiries, after the cycle's contributions (R66). -/
def placeExpiry : Nat := 4650
/-- Records and messages placed. -/
def placeSend : Nat := 4700
/-- Timers that end, after the answers and symbols of the cycle (R186, R216, R221). -/
def placeTimeout : Nat := 4750
/-- Arena commands begin: a step that opens in their cycle counts (R364). -/
def placeArenaGo : Nat := 4800
/-- GROUPCTL frames entering mailboxes, by port group (R313). -/
def placeMailbox : Nat := 5000
/-- Hold entries' timers, after the frames that leave or are delivered in the cycle (R221). -/
def placeHoldEnd : Nat := 5210
/-- The host's mailbox words, by MGMT port (R313). -/
def placeHostMbx : Nat := 5200
/-- Arena stores, by slice (R342, R379). -/
def placeArena : Nat := 5230
/-- BAR2 writes, by MGMT port (R459). -/
def placeBar2 : Nat := 5280
/-- Control cores, by number (R306, R311, R313, R459). -/
def placeCore : Nat := 5300
/-- Commit cycles: a lookup of the cycle sees the old entry (R256). -/
def placeCommit : Nat := 5400
/-- Register writes, by party: they take effect in the next cycle (R236, R256, R268). -/
def placeWrite : Nat := 6000

/-- ALIVE_OUT's inversions: a class F event of the cycle stops them (R429). -/
def placeAlive : Nat := 7000

/-- The requesters of the allocators: the quota entries in use (R247). -/
def requesters : Nat := 4099

/-- A requester's position in the allocators' rotating order, which starts one requester later in every cycle, and at 0
after a reset (R255, R520). -/
def rotPos (s : State) (q : Nat) : Nat := (q + requesters - now s % requesters) % requesters

/-- The next cycle, in which a command goes on at its own place. -/
def laterCycle (s : State) : State :=
  let u := nextCycle s
  { u with cyc := { u.cyc with place := s.cyc.place } }

/-- An allocation of cells or extents comes in the allocators' order and within a cycle's limits of 64 frames, 128 cells and
one extent: where it does not, it waits for the next cycle (R255), in which the command goes on at its own place. -/
def grantTurn (s : State) (q frames cells exts : Nat) : State :=
  let c := s.cyc
  let t := if rotPos s q < c.rot || c.frames + frames > 64 || c.cells + cells > 128 || c.exts + exts > 1
    then laterCycle s else s
  { t with cyc := { t.cyc with
    rot := rotPos t q, frames := t.cyc.frames + frames, cells := t.cyc.cells + cells, exts := t.cyc.exts + exts } }

/-- The event of a cut (R243, R254). -/
def cutEvt (s : State) (c : Cut) : State :=
  match c with
  | .cell _ bit a => bpmEvt s bit 0 0x1FFF a
  | .ext _ _ bit a => bpmEvt s bit 1 0x1FFF a

/-- What a failed allocation tells: what R249 refuses, where it is a refusal and no wait, and the lists cut on its way. -/
structure Short where
  ask : Option Ask := none
  cuts : List Cut := []
  deriving DecidableEq, Repr

/-- A bank's list cut behind one of its cells. -/
def cutBank (b : Bpm) (x : Nat) : Bpm :=
  let k := x % 256
  let i := tget 0 b.fresh k
  let xs := tget [] b.freed k ++ (List.range (2560 - i)).map (fun j => (i + j) * 256 + k)
  let kept := xs.takeWhile (fun y => y != x) ++ [x]
  { b with
    freed := tput [] b.freed k kept, fresh := tput 0 b.fresh k 2560, links := tput none b.links x none
    lostCells := b.lostCells + (xs.length - kept.length) }

/-- A cut made although nothing was granted: what had been popped is on its list again (R243). -/
def applyCut (s : State) (c : Cut) : State :=
  match c with
  | .cell x _ _ => cutEvt { s with bpm := cutBank s.bpm x } c
  | .ext x kept _ _ =>
    let t := writeExtLink s x (linkWord none)
    cutEvt { t with bpm := { t.bpm with lostExts := t.bpm.lostExts + (firnFree t - extsFreed t - kept) } } c

/-- The cuts that a failed allocation has met. -/
def applyCuts (s : State) (e : Short) : State := e.cuts.foldl applyCut s

/-- A frame copy written to Neve for a requester with a reference count: its first cell names it; and the cuts met. -/
def grantCopy (s₀ : State) (q ups ref : Nat) (bytes : List Byte) (cells : Nat) : Except Short (Nat × List Cut × State) :=
  if !s₀.bpm.neveReady then .error {} else
  let no : Ask := { cells := (q, cells) }
  if !mayNeve s₀ q cells then .error { ask := some no } else
  let s := grantTurn s₀ q 1 cells 0
  match takeCells s s.bpm cells (256 * (cells + 1)) with
  | (c :: cs, b, cuts) =>
    if cs.length + 1 != cells then .error { ask := some no, cuts } else
    .ok (c, cuts, cuts.foldl cutEvt { s with
      bpm := b
      neve := tput none s.neve c (some { cells := c :: cs, ref, quota := q, ups, bytes })
      neveHeld := tput 0 s.neveHeld q (neveHeldOf s q + cells) })
  | ([], _, cuts) => .error { ask := some no, cuts }

/-- The copy granted, or why not: the pool is not ready, or R249 refuses it. -/
def allocCopy (s : State) (q ups ref : Nat) (bytes : List Byte) (cells : Nat) : Except Short (Nat × State) :=
  match grantCopy s q ups ref bytes cells with
  | .ok (id, _, t) => .ok (id, t)
  | .error e => .error e

/-- Every cell of a copy freed (R245, R256), its charge and its credits returned (R206). -/
def freeCopy (s : State) (id : Nat) (c : NeveCopy) : State :=
  let t := { s with
    neve := tput none s.neve id none
    cyc := { s.cyc with freedCells := s.cyc.freedCells ++ c.cells }
    neveHeld := tput 0 s.neveHeld c.quota (neveHeldOf s c.quota - c.cells.length) }
  if c.quota < 4096 then returnCredits t (c.quota / 8) (c.quota % 8) c.ups c.cells.length else t

/-- One decrement of a copy's reference count (R245, R246); `q` is the quota index of the requester that gives it up. -/
def dropRef (s : State) (q id : Nat) : State :=
  match tget none s.neve id with
  | none => bpmEvt s 3 0 q (id * 256)
  | some c =>
    if c.ref ≤ 1 then freeCopy s id c
    else { s with neve := tput none s.neve id (some { c with ref := c.ref - 1 }) }

/-- `n` decrements. -/
def dropRefs (s : State) (q id : Nat) : Nat → State
  | 0 => s
  | n + 1 => dropRefs (dropRef s q id) q id n

/-- The head of the Firn list popped, with its link word, which the manager has prefetched (R240), checked: a failure leaves the
head empty and what lies beyond lost (R243). Retired extents at the head are discarded (R253). `kept` extents that are not retired
have been popped before it. -/
def popExt (s : State) (kept : Nat) : Nat → Except (List Cut) (Nat × List Cut × State)
  | 0 => .error []
  | fuel + 1 =>
    match s.bpm.extHead with
    | none => .error []
    | some x =>
      let (bs, _, t) := firnRead s (x * 65536) 8 .stream 0 2
      let w := BitVec.ofNat 64 (leNat bs)
      let gone := isRetired t x
      let head := if bitOf w 63 then none else some (fld w 0 38 / 65536)
      let al := if gone then t.bpm.extAlloc else tput false t.bpm.extAlloc x true
      let (u, cuts) := match firnLinkBad w with
        | none => ({ t with bpm := { t.bpm with extHead := head, extAlloc := al } }, [])
        | some bit =>
          let v := { t with bpm := { t.bpm with extHead := none, extAlloc := al } }
          ({ v with bpm := { v.bpm with lostExts := v.bpm.lostExts + (firnFree v - extsFreed v) } },
            [Cut.ext x (kept + b2n (!gone)) bit (fld w 0 38)])
      if gone then
        match popExt u kept fuel with
        | .error cs => .error (cuts ++ cs)
        | .ok (y, cs, v) => .ok (y, cuts ++ cs, v)
      else .ok (x, cuts, u)

/-- `n` extents popped, each in a turn of its own where `turn` (R255). -/
def takeExts (s : State) (q : Nat) (turn : Bool) (kept : Nat) : Nat → Except (List Cut) (List Nat × List Cut × State)
  | 0 => .ok ([], [], s)
  | n + 1 =>
    match popExt (if turn then grantTurn s q 0 0 1 else s) kept (s.bpm.retired.length + 1) with
    | .error cs => .error cs
    | .ok (x, cs, t) =>
      match takeExts t q turn (kept + 1) n with
      | .error cs' => .error (cs ++ cs')
      | .ok (xs, cs', u) => .ok (x :: xs, cs ++ cs', u)

/-- Extents granted to a requester, whole or not at all (R249): one in a cycle, but that the reservations of a commit are made in
its commit cycle, of which they take the extent (`turn` false; R255, R311, DESIGN CHOICE, log 50). -/
def allocExts (s₀ : State) (q n : Nat) (turn : Bool) : Except Short (List Nat × State) :=
  if n == 0 then .ok ([], s₀) else
  let no : Ask := { exts := (q, n) }
  if !s₀.bpm.firnReady then .error {}
  else if !mayFirn s₀ q n then .error { ask := some no }
  else
    match takeExts s₀ q turn 0 n with
    | .error cuts => .error { ask := some no, cuts }
    | .ok (xs, cuts, t) =>
      let u := cuts.foldl cutEvt { t with firnHeld := tput 0 t.firnHeld q (firnHeldOf t q + n) }
      .ok (xs, if turn then u else { u with cyc := { u.cyc with exts := 1 } })

/-- An extent's charge given back by a requester: F_HELD stays at 0 when it is already 0 (R253). -/
def uncharge (s : State) (q : Nat) : State := { s with firnHeld := tput 0 s.firnHeld q (firnHeldOf s q - 1) }

/-- A free of an extent for a requester (R242-R244, R253): range, double free, and the discard of a retired extent. Of two
frees of one extent in one cycle, the one from the lower quota index frees it (R256). -/
def freeExtent (s : State) (q x : Nat) : State :=
  if !inPool x then bpmEvt s 0 1 q (x * 65536)
  else if !tget false s.bpm.extAlloc x then
    match s.cyc.freedExts.find? (fun e => e.1 == x) with
    | some (_, q') =>
      if q < q' then
        let t := { uncharge s q with firnHeld := tput 0 (uncharge s q).firnHeld q' (firnHeldOf (uncharge s q) q' + 1) }
        bpmEvt { t with cyc := { t.cyc with
          freedExts := t.cyc.freedExts.map (fun e => if e.1 == x then (x, q) else e) } } 2 1 q' (x * 65536)
      else bpmEvt s 2 1 q (x * 65536)
    | none => bpmEvt s 2 1 q (x * 65536)
  else
    let t := uncharge { s with bpm := { s.bpm with extAlloc := tput false s.bpm.extAlloc x false } } q
    { t with cyc := { t.cyc with freedExts := t.cyc.freedExts ++ [(x, q)] } }

/-- Several frees. -/
def freeExtents (s : State) (q : Nat) (xs : List Nat) : State := xs.foldl (fun t x => freeExtent t q x) s

/-- A fault changes the link word of the free cell at the bank pointer, or of the extent at the head of the Firn list. -/
def breakLink (s : State) (l : LinkFault) (pool : Nat) : State :=
  match l with
  | .none => s
  | .changed w =>
    if pool == 0 then
      match bankHead s.bpm s.bpm.bankPtr with
      | some x => { s with bpm := { s.bpm with links := tput none s.bpm.links x (some w) } }
      | none => s
    else match s.bpm.extHead with
      | some x => writeExtLink s x w
      | none => s

end Sys2Proof.Machine
end

