-- ==== Sys2Proof/Machine/Tables.lean ====
section
/-! DEFINITION. The tables of R308: shapes, committed words, staging, the checks and reservations of a commit (R37, R44,
R252, R298), and its result (R311, R312). -/

namespace Sys2Proof.Machine

/-- Entries and words per entry of a table (R308, R384); none for a reserved ID. -/
def tblShape (id : Nat) : Option (Nat × Nat) :=
  match id with
  | 0x01 => some (65536, 1) | 0x02 => some (16384, 8) | 0x03 => some (4194304, 1) | 0x04 => some (1048576, 1)
  | 0x05 => some (65536, 1) | 0x06 => some (16384, 2) | 0x07 => some (4194304, 4) | 0x08 => some (1048576, 1)
  | 0x09 => some (4096, 8) | 0x0A => some (8192, 3) | 0x0B => some (4608, 4) | 0x0C => some (32768, 1)
  | 0x0D => some (1024, 1) | 0x0E => some (786432, 1) | _ => none

/-- A policer entry at reset (R260). -/
def policerReset : Vector Word 4 := #v[0x0044000000000000, 0, 0, 0]
/-- A gate entry at reset (R270). -/
def gateReset : BitVec 32 := 0xFF000000
/-- A window entry at reset. -/
def windowReset : Vector Word 4 := Vector.replicate 4 0

/-- Policer indices that no marker uses (R259). -/
def policerHole (i : Nat) : Bool := decide (i < 4096) && i % 8 == 7

/-- The valid descriptors with STATUS OK that name a directory entry (R297 USERS). -/
def progUsers (s : State) (i : Nat) : Nat :=
  (s.tbl.desc.filter (fun kd => gdValid kd.2 && gdStatus kd.2 == 0 &&
    ((gdStepEn kd.2 && gdStepProg kd.2 == i) || (gdOp kd.2 == 4 && gdFinProg kd.2 == i)))).length

/-- A descriptor as committed. -/
def descOf (s : State) (slot : Nat) : Desc := tget descZero s.tbl.desc slot

/-- A committed word of a table, whatever the entry's poison (R308, R310). -/
def tblWord (s : State) (id i w : Nat) : Word :=
  match id with
  | 0x01 => (tget 0 s.tbl.gidx i).setWidth 64
  | 0x02 => (descOf s i).getD w 0
  | 0x03 => tget 0 s.tbl.member i
  | 0x04 => tget 0 s.tbl.bucket i
  | 0x05 => (tget 0 s.tbl.homes i).setWidth 64
  | 0x06 => let c := tget (0, 0) s.tbl.gcnt i; if w == 0 then c.1 else c.2
  | 0x07 => (tget windowReset s.tbl.window i).getD w 0
  | 0x08 => (tget 0 s.tbl.route i).setWidth 64
  | 0x09 => BitVec.ofNat 64 (fld (tget 0 s.tbl.ecmp i) (64 * w) 64)
  | 0x0A =>
    let e := (tget (quotaReset i) s.tbl.quota i).getD w 0
    match w with
    | 0 => setFld e 4 20 (neveHeldOf s i)
    | 1 => if i < 4096 then 0 else e
    | _ => packFields [(42, 22, firnHeldOf s i), (16, 16, tget 0 s.denied i), (0, 16, tget 0 s.drops i)]
  | 0x0B => if policerHole i then 0 else (tget policerReset s.tbl.policer i).getD w 0
  | 0x0C => (tget gateReset s.tbl.gate i).setWidth 64
  | 0x0D => setFld (tget 0 s.tbl.prog i) 0 16 (progUsers s i)
  | 0x0E => (tget 0 s.tbl.remap i).setWidth 64
  | _ => 0

/-- The RW bits of a table word (R8, R308): what TBL.W can write. -/
def tblMask (id i w : Nat) : Word :=
  match id with
  | 0x01 => 0xBFFF
  | 0x02 => match w with
    | 0 => 0xFFFFFFFFFFFFF000 | 1 => 0xFFFFFFFFFFFFFF00 | 2 => 0xFFFFFFFFF8000000 | 3 => 0xFFFFFE03FFFF0000
    | 4 => 0xFFFFFFFFC0000000 | 5 => 0xFFFFFFFFFFE00000 | 6 => 0xFFFF000000000000 | _ => 0xFFFFFFFFFFFFFFFF
  | 0x03 => 0xFFFFFFFFF0000000
  | 0x04 => 0x7FFFFFF
  | 0x05 => 0xFFFFF
  | 0x07 => match w with
    | 0 => 0xFFFFFFFFFFFFFFFF | 1 => 0xFFFFFFFFFFFFFFFF | 2 => 0xFFFFFFFFFFFF0001 | _ => 0xFFFFFFFFFF
  | 0x08 => 0xC0000FFF
  | 0x09 => 0xFFFFFFFFFFFFFFFF
  | 0x0A => if i ≥ 4099 then 0 else match w with
    | 0 => 0xFFFFFFFFFF000000
    | 1 => if i < 4096 then 0 else 0xFFFFFFFFFFF00000
    | _ => 0
  | 0x0B => if policerHole i then 0 else match w with
    | 0 => 0xFFFEFFFFFFFFFFFF | 1 => 0xFFFFFFFFFFFF0000 | _ => 0
  | 0x0C => 0xFFFFFFFF
  | 0x0D => 0xC000FFFFFFFF0000
  | 0x0E => 0xC00007FF
  | _ => 0

/-- The RC fields of a table word cleared (R310). -/
def tblClearRc (s : State) (id i w : Nat) : State :=
  match id with
  | 0x06 =>
    let c := tget (0, 0) s.tbl.gcnt i
    { s with tbl := { s.tbl with gcnt := tput (0, 0) s.tbl.gcnt i (if w == 0 then (0, c.2) else (c.1, 0)) } }
  | 0x0A => if w == 2 then { s with denied := tput 0 s.denied i 0, drops := tput 0 s.drops i 0 } else s
  | 0x0B =>
    if w ≥ 2 then
      let e := tget policerReset s.tbl.policer i
      { s with tbl := { s.tbl with policer := tput policerReset s.tbl.policer i (e.setIfInBounds w 0) } }
    else s
  | _ => s

/-- A committed word replaced in its RW bits; its entry loses its poison (R426). -/
def tblStore (s : State) (id i w : Nat) (v : Word) : State :=
  let t := s.tbl
  let x := writeMasked (tblMask id i w) (tblWord s id i w) v
  let t1 := { t with poison := tput false t.poison (id * 2 ^ 32 + i) false }
  let t2 := match id with
    | 0x01 => { t1 with gidx := tput 0 t.gidx i (x.setWidth 16) }
    | 0x02 => { t1 with desc := tput descZero t.desc i ((tget descZero t.desc i).setIfInBounds w x) }
    | 0x03 => { t1 with member := tput 0 t.member i x }
    | 0x04 => { t1 with bucket := tput 0 t.bucket i x }
    | 0x05 => { t1 with homes := tput 0 t.homes i (x.setWidth 32) }
    | 0x07 => { t1 with window := tput windowReset t.window i ((tget windowReset t.window i).setIfInBounds w x) }
    | 0x08 => { t1 with route := tput 0 t.route i (x.setWidth 32) }
    | 0x09 =>
      let e := tget 0 t.ecmp i
      let keep := e &&& ~~~(BitVec.ofNat 512 ((2 ^ 64 - 1) <<< (64 * w)))
      { t1 with ecmp := tput 0 t.ecmp i (keep ||| BitVec.ofNat 512 (x.toNat <<< (64 * w))) }
    | 0x0A =>
      let y := writeMasked (tblMask id i w) ((tget (quotaReset i) t.quota i).getD w 0) v
      { t1 with quota := tput (quotaReset i) t.quota i ((tget (quotaReset i) t.quota i).setIfInBounds w y) }
    | 0x0B => if policerHole i then t1 else
      { t1 with policer := tput policerReset t.policer i ((tget policerReset t.policer i).setIfInBounds w x) }
    | 0x0C => { t1 with gate := tput gateReset t.gate i (x.setWidth 32) }
    | 0x0D => { t1 with prog := tput 0 t.prog i (writeMasked (tblMask id i w) (tget 0 t.prog i) v) }
    | 0x0E => { t1 with remap := tput 0 t.remap i (x.setWidth 32) }
    | _ => t1
  { s with tbl := t2 }

/-- What a core has staged for a word (R309). -/
def stagedVal (k : Core) (id i w : Nat) : Option Word :=
  (k.stage.find? (fun x => x.tbl == id && x.idx == i && x.word == w)).map (·.val)

/-- The table word a core sees (R310): its own staged value in the RW bits, the committed entry elsewhere. -/
def coreSees (s : State) (c : CoreNo) (id i w : Nat) : Word :=
  let com := tblWord s id i w
  match stagedVal (getCore s c) id i w with
  | some v => writeMasked (tblMask id i w) com v
  | none => com

/-- A word staged, an earlier value of it replaced (R309); none when the store is full. -/
def stageWord (k : Core) (id i w : Nat) (v : Word) : Option Core :=
  let x : Staged := { tbl := id, idx := i, word := w, val := v }
  if (stagedVal k id i w).isSome then
    some { k with stage := k.stage.map (fun y => if y.tbl == id && y.idx == i && y.word == w then x else y) }
  else if k.stage.length < 4096 then some { k with stage := k.stage ++ [x] }
  else none

/-! ## Descriptors -/

/-- Whether every step of a group is IDLE or CLOSED (R44, R364). -/
def groupQuiet (s : State) (slot : Nat) : Bool :=
  (getGroup s slot).steps.all (fun kv => kv.2.st == .idle || kv.2.st == .closed)

/-- The member table words of a group, in rank order. -/
def memberWords (s : State) (d : Desc) : List Word :=
  (List.range (gdN d)).map (fun r => tget 0 s.tbl.member (gdMemberBase d + r))

/-- The endpoint of a rank (R40). -/
def endpointOf (s : State) (d : Desc) (r : Nat) : Nat := fld (tget 0 s.tbl.member (gdMemberBase d + r)) 44 20

/-- The length of a bucket (R40). -/
def bucketLen (s : State) (d : Desc) (b : Nat) : Nat := fld (tget 0 s.tbl.bucket (gdBucketBase d + b)) 0 27

/-- A home-set entry's word; a poisoned one reads as at reset (R426). -/
def homeEnt (s : State) (i : Nat) : BitVec 32 := if isPoisoned s 0x05 i then 0 else tget 0 s.tbl.homes i

/-- A home-set entry (R40). -/
def homeAt (s : State) (d : Desc) (i : Nat) : Nat := fld (homeEnt s (gdHomeBase d + i)) 0 20

/-- The endpoints of a home set, in order. -/
def homeSet (s : State) (d : Desc) : List Nat := (List.range (gdHomes d)).map (homeAt s d)

/-- MEMBERS of R42 passes. -/
def membersOk (s : State) (d : Desc) : Bool :=
  let ws := memberWords s d
  gdN d != 0 && gdN d ≤ 65536 && gdMinPresent d ≤ gdN d && gdMemberBase d + gdN d ≤ 4194304 &&
  ws.zipIdx.all (fun x => fld x.1 28 16 == x.2) && decide (ws.map (fun w => fld w 44 20)).Nodup

/-- HOMES of R42 passes. -/
def homesOk (s : State) (d : Desc) : Bool :=
  gdHomes d != 0 && gdHomes d ≤ 64 && gdHomeBase d + gdHomes d ≤ 65536 && decide (homeSet s d).Nodup

/-- BUCKETS of R42 passes (R41, R90). -/
def bucketsOk (s : State) (d : Desc) : Bool :=
  gdBuckets d != 0 && gdBuckets d ≤ 65536 && gdBucketBase d + gdBuckets d ≤ 1048576 &&
  (List.range (gdBuckets d)).all (fun b =>
    let l := bucketLen s d b
    l != 0 && l ≤ 67108864 && (l % 4096 == 0 || (chunkElems d (l % 4096)).isSome)) &&
  ((List.range (gdBuckets d)).map (fun b => bucketChunks (bucketLen s d b))).sum ≤ 1048576

/-- A directory entry that is LOADED with a KIND (R299); a poisoned one is not (R426). -/
def progLoaded (s : State) (i : Nat) (fin : Bool) : Bool :=
  let w := tget 0 s.tbl.prog i
  !isPoisoned s 0x0D i && bitOf w 63 && fld w 60 2 == 1 && bitOf w 62 == fin

/-- PROGRAM of R42 passes (R299). -/
def programOk (s : State) (d : Desc) : Bool :=
  !(gdStepEn d && !progLoaded s (gdStepProg d) false) &&
  (if gdOp d == 4 then progLoaded s (gdFinProg d) true else gdArena d == 0)

/-- The bucket lengths of a definition, in order. -/
def bucketLens (s : State) (d : Desc) : List Nat := (List.range (gdBuckets d)).map (bucketLen s d)

/-- The chunks of a step that this switch homes under a group ID, given the buckets' lengths: bucket and chunk, in order, so
that a chunk's position is its local chunk number (R519, R359). -/
def homedChunks (d : Desc) (gid : Nat) (lens : List Nat) : List (Nat × Nat) :=
  if !gdIsHome d then [] else
  lens.zipIdx.flatMap (fun lb =>
    ((List.range (bucketChunks lb.1)).filter (fun c => homeIndex gid lb.2 c (gdHomes d) == gdSelf d)).map
      (fun c => (lb.2, c)))

/-- The group ID whose valid index entry names a slot (R519); a poisoned one names none (R426). -/
def gidOf (s : State) (slot : Nat) : Option Nat :=
  (s.tbl.gidx.find? (fun (kv : Nat × BitVec 16) =>
    bitOf kv.2 15 && fld kv.2 0 14 == slot && !isPoisoned s 0x01 kv.1)).map (·.1)

/-- DEF_CRC (R43): the RO fields taken as zero. -/
def defCrc (s : State) (d : Desc) : BitVec 32 :=
  let gd := (List.range 8).flatMap (fun w => wordLE ((d.getD w 0) &&& tblMask 2 0 w))
  let ms := (memberWords s d).flatMap wordLE
  let bs := (List.range (gdBuckets d)).flatMap (fun b => wordLE (tget 0 s.tbl.bucket (gdBucketBase d + b)))
  let hs := (List.range (gdHomes d)).flatMap (fun h => leBytes 4 (homeEnt s (gdHomeBase d + h)).toNat)
  crc32c (gd ++ ms ++ bs ++ hs)

/-- The first of R37's checks that fails, as its STATUS; 0 when all pass. IN_USE is judged before. Toward the 256 of
EXPRESS_FULL count the valid express descriptors whose definition stands; one whose definition failed does not (DESIGN
CHOICE, log 95). -/
def defStatus (s : State) (slot : Nat) (d : Desc) : Nat :=
  let express := (s.tbl.desc.filter (fun kd => kd.1 != slot && gdLive kd.2 && gdExpress kd.2)).length
  if !paramOk d then 2
  else if !formatOk d then 1
  else if !membersOk s d then 3
  else if !homesOk s d then 4
  else if !bucketsOk s d then 5
  else if gdQuota d == 0 then 6
  else if gdExpress d && express ≥ 256 then 7
  else if !programOk s d then 9
  else 0

/-- The RO fields of a descriptor that passes (R37 step 3, R39). -/
def fillRo (s : State) (d : Desc) (gid : Option Nat) : Desc :=
  let hs := homeSet s d
  let self := s.fab.swEp.toNat
  let isHome := hs.contains self
  let d3 := setFld (setFld d[3] 40 1 (b2n isHome)) 34 6 (if isHome then hs.idxOf self else 0)
  let d1 := (d.set 3 d3).set 2 (setFld d[2] 3 24 ((slotParts d).1 + (slotParts d).2))
  let hc := match gid with | some g => (homedChunks d1 g (bucketLens s d1)).length | none => 0
  let d2 := d1.set 4 (setFld d1[4] 0 21 hc)
  d2.set 6 (setFld (setFld d2[6] 0 32 (defCrc s d).toNat) 40 8 0)

/-- A descriptor with a STATUS and the other RO fields at 0: what they read as where a definition fails or is cleared the spec does
not say (DESIGN CHOICE, log 112). -/
def failRo (d : Desc) (st : Nat) : Desc :=
  let z := Vector.ofFn (fun (w : Fin 8) => d[w] &&& tblMask 2 0 w)
  z.set 6 (setFld z[6] 40 8 st)

/-- Everything a group holds reserved given back (R44). -/
def releaseGroup (s : State) (slot : Nat) : State :=
  let g := getGroup s slot
  freeExtents (setGroup s slot {}) 4096 (g.quotaExts ++ g.arena)

/-- Accumulator-store bytes that the express groups reserve (R46), but for one slot. -/
def expressBytes (s : State) (slot : Nat) : Nat :=
  (s.groups.map (fun kg => if kg.1 == slot then 0 else kg.2.accReserved)).sum

/-- The reservations of a definition (R61, R46, R358): accumulator-store bytes and Firn extents of the quota. -/
def quotaNeeds (d : Desc) : Nat × Nat :=
  let (a, m) := slotParts d
  if gdExpress d then (gdQuota d * a, ceilDiv (gdQuota d * m) 65536) else (0, ceilDiv (gdQuota d * (a + m)) 65536)

/-- The arena extents reserved on this switch (R358). -/
def arenaNeeds (d : Desc) : Nat := if gdIsHome d then gdArena d else min 1 (gdArena d)

/-- A failed definition: everything reserved is released and STATUS written (R37). -/
def failDef (s : State) (slot : Nat) (d : Desc) (st : Nat) : State :=
  let t := releaseGroup s slot
  { t with tbl := { t.tbl with desc := tput descZero t.tbl.desc slot (failRo d st) } }

/-- A definition's reservations made, or NO_SPACE (R37 step 2, R61, R362), with what the Firn pool refused (R251).
`old` is the definition with STATUS OK that it changes: its quota reservation is kept when QUOTA_CHUNKS and SLOT_BYTES are
unchanged (R44), its arena when ARENA_EXTENTS is (R362). -/
def reserveDef (s : State) (slot : Nat) (d : Desc) (old : Option Desc) : Except Short State :=
  let g := getGroup s slot
  let (acc, qx) := quotaNeeds d
  let keepQ := match old with
    | some o => gdQuota o == gdQuota d && gdSlotBytes o == gdSlotBytes d
    | none => false
  let keepA := match old with
    | some o => gdArena o == gdArena d
    | none => false
  let s1 := if keepQ then s else freeExtents (setGroup s slot { g with quotaExts := [], accReserved := 0 }) 4096 g.quotaExts
  let g1 := getGroup s1 slot
  let s2 := if keepA then s1 else freeExtents (setGroup s1 slot { g1 with arena := [] }) 4096 g1.arena
  if (slotParts d).1 + (slotParts d).2 > 0xFFFFFF then .error {}
  else if !keepQ && expressBytes s2 slot + acc > 33554432 then .error {}
  else
    match allocExts s2 4096 ((if keepQ then 0 else qx) + (if keepA then 0 else arenaNeeds d)) false with
    | .error e => .error e
    | .ok (xs, s3) =>
      let g3 := getGroup s3 slot
      let n := if keepQ then 0 else qx
      .ok (setGroup s3 slot { g3 with
        accReserved := if keepQ then g3.accReserved else acc
        quotaExts := if keepQ then g3.quotaExts else xs.take n
        arena := if keepA then g3.arena else xs.drop n })

/-- A descriptor written. -/
def putDesc (s : State) (slot : Nat) (d : Desc) : State :=
  { s with tbl := { s.tbl with desc := tput descZero s.tbl.desc slot d } }

/-- A definition that passes its checks (R44): one over a group with STATUS OK changes it and keeps B, the barrier state,
the counters and the rings; any other defines the group afresh. -/
def defineGroup (s : State) (slot : Nat) (old d : Desc) : Nat × State :=
  let gid := gidOf s slot
  let dn := fillRo s d gid
  let change := gdValid old && gdStatus old == 0
  match reserveDef (if change then s else releaseGroup s slot) slot dn (if change then some old else none) with
  | .error e => (8, let t := applyCuts (failDef s slot d 8) e; if e.ask.isSome then countDenied t 4096 else t)
  | .ok t =>
    let g := { getGroup t slot with gid, lens := bucketLens s d }
    if change then (0, putDesc (setGroup t slot g) slot dn)
    else
      let u := setGroup t slot { g with base := 0, steps := [], bseq := 0, arrivals := 0, rings := [] }
      (0, putDesc { u with tbl := { u.tbl with gcnt := tput (0, 0) u.tbl.gcnt slot (0, 0) } } slot dn)

/-- One descriptor of a commit (R37, R44, R519): `d` carries the staged words. Gives the STATUS written. -/
def commitDesc (s : State) (slot : Nat) (old d : Desc) : Nat × State :=
  if gdLive old && !groupQuiet s slot then (0x0A, putDesc s slot (old.set 6 (setFld old[6] 40 8 0x0A)))
  else if !gdValid d then (0, putDesc (releaseGroup s slot) slot (failRo d 0))
  else
    let st := defStatus s slot d
    if st != 0 then (st, failDef s slot d st) else defineGroup s slot old d

/-! ## The other checked tables -/

/-- Whether the effective Neve reservations fit their pool (R252), a poisoned entry's being its defaults (R426). -/
def neveQuotaFits (s : State) : Bool :=
  decide (((quotaUsers s).map (effNeve s (quotaEnt s))).sum ≤ neveTotal s - s.bpm.lostCells)

/-- Whether the effective reservations fit their pools (R252); a retired extent is out of the pool (R239). -/
def quotaFits (s : State) : Bool :=
  neveQuotaFits s &&
  decide (([4096, 4097, 4098].map (fun q => fld (quotaEnt s q)[1] 42 22)).sum ≤ extPool - s.bpm.retired.length - s.bpm.lostExts)

/-- The entries a commit touches in a table, ascending. -/
def touched (stg : List Staged) (id : Nat) : List Nat :=
  (((stg.filter (fun x => x.tbl == id)).map (·.idx)).dedup).mergeSort (· ≤ ·)

/-- The staged words of some tables stored. -/
def storeAll (s : State) (stg : List Staged) (ids : List Nat) : State :=
  (stg.filter (fun x => ids.contains x.tbl)).foldl (fun t x => tblStore t x.tbl x.idx x.word x.val) s

/-- A bucket of a marker brought up to the present cycle: tc and tp of R261. -/
def settleTok (s : State) (i : Nat) (e : Vector Word 4) : Nat × Nat :=
  let (tc, tp, at_) := tget (0, 0, 0) s.polTok i
  let dt := now s - at_
  let cir := fld e[0] 24 24
  let pir := fld e[0] 0 24
  (min (tc + dt * cir) (fld e[1] 40 24 <<< 16), min (tp + dt * max pir cir) (fld e[1] 16 24 <<< 16))

/-- The buckets of a policer entry after a commit (R261): full when EN rises, kept and capped otherwise. -/
def commitTok (s : State) (i : Nat) (old new : Vector Word 4) : State :=
  let full := (fld new[1] 40 24 <<< 16, fld new[1] 16 24 <<< 16)
  let (tc, tp) := if bitOf new[0] 63 && !bitOf old[0] 63 then full
    else let (a, b) := settleTok s i old; (min a full.1, min b full.2)
  { s with polTok := tput (0, 0, 0) s.polTok i (tc, tp, now s) }

/-- CQ_BASE and CQ_ENTRIES of a rank (R189). -/
def cqOf (s : State) (slot r : Nat) : Word × Nat :=
  let w := tget windowReset s.tbl.window (gdMemberBase (descOf s slot) + r)
  (w[1], fld w[2] 16 16)

/-- The rings after a commit (R191): a member whose CQ_BASE or CQ_ENTRIES the commit has changed, in its window entry or by
another MEMBER_BASE, has its record number and credits set afresh. -/
def resetRings (old s : State) : State :=
  { s with groups := tmap {} (fun slot (g : Group) =>
      { g with rings := g.rings.filter (fun kr => cqOf old slot kr.1 == cqOf s slot kr.1) }) s.groups }

/-- The states of a bank's 16 remap entries after a commit (R385, R386): for each row the lowest valid entry holds it,
and a valid entry with COPY that was touched copies. -/
def settleBank (s old : State) (stg : List Staged) (b : Nat) : State :=
  let idx := (List.range 16).map (fun p => b * 16 + p)
  let step := fun (t : State) (i : Nat) =>
    let e := remapEnt t i
    let row := fld e 0 11
    let lower := idx.any (fun j => decide (j < i) && bitOf (remapEnt t j) 31 && fld (remapEnt t j) 0 11 == row)
    let st := if !bitOf e 31 || lower then 0
      else if stg.any (fun x => x.tbl == 0x0E && x.idx == i) then (if bitOf e 30 then 2 else 1)
      else if remapState e == 0 then 1 else remapState e
    let e' := (e &&& ~~~(0x30000000#32)) ||| (BitVec.ofNat 32 (st <<< 28))
    let unit := i / 16
    let place := ((unit / 16 % 12) * 2048 + row) * 16 + unit % 16
    let addr := (place * 256 + unit / 192) * 2048
    let from_ := (rowBase old addr).1
    let t1 := { t with tbl := { t.tbl with remap := tput 0 t.tbl.remap i e' } }
    { t1 with remapFrom := tput none t1.remapFrom i (if st == 2 then some from_ else none) }
  let rowAddr := fun (row : Nat) => ((((b / 16 % 12) * 2048 + row) * 16 + b % 16) * 256 + b / 192) * 2048
  let conflict := idx.find? (fun i => bitOf (remapEnt s i) 31 && idx.any (fun j => decide (j < i) &&
    bitOf (remapEnt s j) 31 && fld (remapEnt s j) 0 11 == fld (remapEnt s i) 0 11))
  let t := idx.foldl step s
  match conflict with
  | some i => firnEvt t 4 (rowAddr (fld (remapEnt s i) 0 11)) 0 0x3F 0x1D
  | none => t

/-- A commit applied (R311, R312), given the checker of a program. Gives WORDS, DEF_STATUS, QUOTA_OVER, PSTORE_BUSY and
PROG_REJECT as the result word. -/
def applyCommit (s : State) (stg : List Staged) (check : State → Nat → Word → Bool) : Word × State :=
  let t1 := storeAll s stg [0x01, 0x03, 0x04, 0x05, 0x07, 0x08, 0x09, 0x0B, 0x0C]
  let t3 := (touched stg 0x0B).foldl (fun t i =>
    commitTok t i (tget policerReset s.tbl.policer i) (tget policerReset t.tbl.policer i)) t1
  -- quota entries (R252)
  let q := storeAll t3 stg [0x0A]
  let tooMuch := !(touched stg 0x0A).isEmpty && !quotaFits q
  let t4 := if tooMuch then bpmNote t3 5 (if neveQuotaFits q then 1 else 0) none else q
  -- directory entries (R298)
  let prog := fun (acc : State × Bool × Bool) (i : Nat) =>
    let (t, busy, rej) := acc
    let oldW := tget 0 t.tbl.prog i
    let t' := storeAll t (stg.filter (fun x => x.idx == i)) [0x0D]
    let w := tget 0 t'.tbl.prog i
    if progUsers t i != 0 then
      if w != oldW then (t, true, rej) else (t, busy, rej)
    else
      let good := check { t with tbl := { t.tbl with prog := tput 0 t.tbl.prog i 0 } } i w
      let st := if !bitOf w 63 then 0 else if good then 1 else 2
      ({ t' with tbl := { t'.tbl with prog := tput 0 t'.tbl.prog i (setFld w 60 2 st) } }, busy, rej || st == 2)
  let (t5, busy, rej) := (touched stg 0x0D).foldl prog (t4, false, false)
  -- row remap (R385, R386)
  let t6 := storeAll t5 stg [0x0E]
  let t7 := (((touched stg 0x0E).map (· / 16)).dedup).foldl (fun t b => settleBank t s stg b) t6
  -- descriptors (R37)
  let desc := fun (acc : Nat × State) (slot : Nat) =>
    let (st0, t) := acc
    let old := descOf t slot
    let d := descOf (storeAll t (stg.filter (fun x => x.idx == slot)) [0x02]) slot
    let (st, t') := commitDesc { t with tbl := { t.tbl with poison := tput false t.tbl.poison (2 * 2 ^ 32 + slot) false } }
      slot old d
    (if st0 == 0 then st else st0, t')
  let (st, t8) := (touched stg 0x02).foldl desc (0, t7)
  (packFields [(48, 16, stg.length), (40, 8, st), (39, 1, b2n tooMuch), (38, 1, b2n busy), (37, 1, b2n rej)],
    resetRings s t8)

/-- The cycles between a commit's start and its commit cycle (R311). -/
def commitLen (s : State) (stg : List Staged) : Nat :=
  let desc := (touched stg 0x02).map (fun slot =>
    let d := descOf (storeAll s (stg.filter (fun x => x.idx == slot)) [0x02]) slot
    if gdValid d then ceilDiv (gdN d + gdBuckets d + gdHomes d) 8 else 0)
  let prog := (touched stg 0x0D).map (fun i =>
    let w := tget 0 (storeAll s (stg.filter (fun x => x.idx == i)) [0x0D]).tbl.prog i
    if bitOf w 63 && progUsers s i == 0 then ceilDiv (fld w 16 13) 8 else 0)
  4 + ceilDiv stg.length 8 + desc.sum + prog.sum

/-- Whether a commit waits for the Firn pool (R241): it has a descriptor to define and the pool is not ready. -/
def commitWaits (s : State) (stg : List Staged) : Bool :=
  !s.bpm.firnReady && (touched stg 0x02).any (fun slot =>
    gdValid (descOf (storeAll s (stg.filter (fun x => x.idx == slot)) [0x02]) slot))

end Sys2Proof.Machine
end

