-- ==== Sys2Proof/Machine/Frames.lean ====
section
/-! DEFINITION. Span frames (R150-R167): header fields, the checks HCHECK, HOP_CRC and tile checksums, and the frames
that the switch builds. -/

namespace Sys2Proof.Machine

/-- One byte into a reflected CRC-32 (0x04C1_1DB7 reflected is 0xEDB8_8320; R158). -/
def crc32Byte (c : BitVec 32) (b : Byte) : BitVec 32 :=
  let one := fun (x : BitVec 32) => if bitOf x 0 then (x >>> 1) ^^^ 0xEDB88320#32 else x >>> 1
  one (one (one (one (one (one (one (one (c ^^^ b.setWidth 32))))))))

/-- CRC-32 of a byte list. -/
def crc32 (bs : List Byte) : BitVec 32 := (bs.foldl crc32Byte 0xFFFFFFFF#32) ^^^ 0xFFFFFFFF#32

/-- TYPE (R153). -/
def fType (f : Frame) : Nat := fld f.w0 60 4
/-- CLASS. -/
def fClass (f : Frame) : Nat := fld f.w0 56 4
/-- KEYSTONE. -/
def fKey (f : Frame) : Bool := bitOf f.w0 55
/-- CMARK. -/
def fCmark (f : Frame) : Bool := bitOf f.w0 54
/-- RETX. -/
def fRetx (f : Frame) : Bool := bitOf f.w0 52
/-- HOPS. -/
def fHops (f : Frame) : Nat := fld f.w0 48 4
/-- DEST. -/
def fDest (f : Frame) : Nat := fld f.w0 28 20
/-- SRC. -/
def fSrc (f : Frame) : Nat := fld f.w0 8 20
/-- MSG_ID. -/
def fMsg (f : Frame) : Nat := fld f.w1 32 32
/-- FRAME_IDX. -/
def fIdx (f : Frame) : Nat := fld f.w1 16 16
/-- FRAME_COUNT. -/
def fCount (f : Frame) : Nat := fld f.w1 0 16
/-- PAYLOAD_LEN. -/
def fLen (f : Frame) : Nat := fld f.w4 51 13
/-- Group ID of a CONTRIB, BARRIER or GROUPCTL frame. -/
def fGroup (f : Frame) : Nat := fld f.w2 48 16
/-- STEP of a CONTRIB frame, BSEQ of a BARRIER frame. -/
def fStep (f : Frame) : Nat := fld f.w2 32 16
/-- BUCKET of a CONTRIB frame. -/
def fBucket (f : Frame) : Nat := fld f.w2 16 16
/-- RANK. -/
def fRank (f : Frame) : Nat := fld f.w2 0 16
/-- CHUNK of a CONTRIB frame. -/
def fChunk (f : Frame) : Nat := fld f.w3 44 20
/-- FMT of a CONTRIB frame. -/
def fFmt (f : Frame) : Nat := fld f.w3 38 6
/-- BLK of a CONTRIB frame. -/
def fBlk (f : Frame) : Nat := fld f.w3 35 3
/-- DIR of a CONTRIB frame. -/
def fDir (f : Frame) : Bool := bitOf f.w3 34
/-- OFFSET of a CONTRIB frame, signed. -/
def fOffset (f : Frame) : Int := sintOf 8 (fld f.w3 24 8)
/-- ELEMENTS of a CONTRIB frame. -/
def fElems (f : Frame) : Nat := fld f.w3 0 24
/-- COVERED of a CONTRIB frame. -/
def fCovered (f : Frame) : Nat := fld f.w4 46 5

/-- A transit partial: FMT 0x18 (R162). -/
def isTransit (f : Frame) : Bool := fFmt f == 0x18

/-- An answer frame (R153). -/
def isAnswer (f : Frame) : Bool := 3 ≤ fType f && fType f ≤ 7

/-- The header words in order. -/
def headerWords (f : Frame) : List Word := [f.w0, f.w1, f.w2, f.w3, f.w4, f.w5, f.w6, f.w7]

/-- The bits of W0 that HCHECK takes as zero: HCHECK, HOPS, CMARK and KINC (R155). -/
def hcheckMask : Word := 0x006F0000000000FF

/-- HCHECK of a header (R155). -/
def hcheckOf (f : Frame) : Byte :=
  crc8 ((({ f with w0 := f.w0 &&& ~~~hcheckMask } : Frame) |> headerWords).flatMap wordBE)

/-- Tile checksums of a payload (R119). -/
def tilesOf (payload : List Byte) : List (BitVec 32) := (chunksOf 256 payload (payload.length / 256 + 1)).map crc32c

/-- The bytes of a frame from W0 to the end of the tile-checksum block (R151). -/
def frameBytes (f : Frame) : List Byte :=
  (headerWords f).flatMap wordBE ++ f.payload ++ f.tiles.flatMap (fun t => leBytes 4 t.toNat)

/-- The trailer (R158): HOP_CRC and END_CODE. -/
def trailerWord (f : Frame) : Word := packFields [(32, 32, f.hopCrc.toNat), (24, 8, f.endCode.toNat)]

/-- The bytes of a frame in the order in which they are sent, the trailer most significant byte first (R151). -/
def sentBytes (f : Frame) : List Byte := frameBytes f ++ wordBE (trailerWord f)

/-- The frame's length on the wire by its PAYLOAD_LEN (R150). -/
def wireLen (f : Frame) : Nat := 72 + fLen f + 4 * ceilDiv (fLen f) 256

/-- Cells of a frame (R227). -/
def fCells (f : Frame) : Nat := cellsOf (wireLen f)

/-- The frame with its HOP_CRC computed afresh (R159). -/
def reHop (f : Frame) : Frame := { f with hopCrc := crc32 (frameBytes f) }

/-- The frame with HCHECK and HOP_CRC computed. -/
def sealFrame (f : Frame) : Frame :=
  let g := { f with w0 := setFld f.w0 0 8 (hcheckOf f).toNat, endCode := 1 }
  reHop g

/-- The tiles of a payload that do not match their checksums, lowest first. -/
def badTiles (f : Frame) : List Nat :=
  let want := tilesOf f.payload
  (List.range (max want.length f.tiles.length)).filter (fun i => want[i]? != f.tiles[i]?)

/-- Every tile matches (R120). -/
def tilesGood (f : Frame) : Bool := (badTiles f).isEmpty

/-- W0 of a frame that the switch is the source of. -/
def mkW0 (typ cls : Nat) (key retx : Bool) (dest src : Nat) : Word :=
  packFields [(60, 4, typ), (56, 4, cls), (55, 1, b2n key), (52, 1, b2n retx), (28, 20, dest), (8, 20, src)]

/-- W1 of a frame. -/
def mkW1 (msg idx count : Nat) : Word := packFields [(32, 32, msg), (16, 16, idx), (0, 16, count)]

/-- Answer frame types (R153). -/
def tyAck : Nat := 3
def tyNack : Nat := 4
def tyBusy : Nat := 5
def tyLate : Nat := 6
def tyNotice : Nat := 7

/-- An answer frame (R166): the answered message's MSG_ID and DEST, and the fields of its type. -/
def mkAnswer (typ src dest ansMsg ansDest reason : Nat) (echo : Bool) (firstMissing : Nat) (ctx : Word) (chunk : Nat) :
    Frame :=
  sealFrame {
    w0 := mkW0 typ 7 true false dest src
    w1 := mkW1 0 0 1
    w2 := packFields [(32, 32, ansMsg), (12, 20, ansDest)]
    w3 := packFields [(56, 8, reason), (55, 1, b2n echo), (32, 16, firstMissing)]
    w5 := ctx
    w6 := packFields [(44, 20, chunk)] }

/-- The CONTEXT word of a refusal that answers a CONTRIB frame: group, step, bucket, rank (R166). -/
def contribCtx (f : Frame) (rank : Nat) : Word :=
  packFields [(48, 16, fGroup f), (32, 16, fStep f), (16, 16, fBucket f), (0, 16, rank)]

/-- The CONTEXT word of a NOTICE that answers a GROUPCTL or BARRIER message (R166). -/
def ctlCtx (f : Frame) : Word := packFields [(48, 16, fGroup f), (0, 16, fRank f)]

/-- A frame to be resent: RETX set (R179). -/
def markRetx (f : Frame) : Frame := sealFrame { f with w0 := f.w0 ||| 0x0010000000000000#64 }

/-- A Keystone frame released with KINC (R219, R220). -/
def setKinc (f : Frame) : Frame := reHop { f with w0 := f.w0 ||| 0x0020000000000000#64 }

/-- A frame marked with CMARK (R157). -/
def setCmark (f : Frame) : Frame := reHop { f with w0 := f.w0 ||| 0x0040000000000000#64 }

end Sys2Proof.Machine
end

