-- ==== Sys2Proof/Machine/Route.lean ====
section
/-! DEFINITION. Route lookup, spraying, the keystone hold and the egress queues (R194-R203, R218-R221, R233), and the
sending of frames that the switch builds. -/

namespace Sys2Proof.Machine

/-- A 16-bit counter of the fabric raised. -/
def onFab (s : State) (f : Fabric → Fabric) : State := { s with fab := f s.fab }

/-- The route of an endpoint (R195, R196, R426): none when not valid; else the set, or the switch itself. -/
inductive Route where
  | invalid
  | self
  | set (n : Nat)
  deriving DecidableEq, Repr

/-- Route lookup. -/
def routeOf (s : State) (dest : Nat) : Route :=
  let e := if isPoisoned s 0x08 dest then 0#32 else tget 0 s.tbl.route dest
  if !bitOf e 31 then .invalid
  else if bitOf e 30 then (if dest == s.fab.swEp.toNat then .self else .invalid)
  else .set (fld e 0 12)

/-- The role of a port: 0 EDGE, 1 UP, 2 DOWN (R211). -/
def portRole (p : Port) : Nat := fld p.ctl 61 2

/-- The members of an equal-cost set that exist (R198, R426). -/
def setPorts (s : State) (n : Nat) : List Nat :=
  let m := if isPoisoned s 0x09 n then 0#512 else tget 0 s.tbl.ecmp n
  (List.range 512).filter (fun p => bitOf m p && portExists s p)

/-- Cells queued at a port on a class (R235). -/
def queueDepth (q : List QEnt) : Nat := (q.map (fun e => fCells e.frame)).sum

/-- Cells sent and not returned on a VC (R207). -/
def outstanding (v : Vc) : Nat := (v.sent - v.ret).toNat

/-- The load of a port for a class (R199). -/
def portLoad (p : Port) (c : Fin 8) : Nat := queueDepth (getCls p c).q + outstanding (getVc p c)

/-- Whether a port may take a frame by the peer's allotment and the turn rule (R199, R212). -/
def portTakes (p : Port) (c : Fin 8) (cells : Nat) (fromUp : Bool) : Bool :=
  decide (cells ≤ (getVc p c).peer.toNat) && !(fromUp && portRole p == 1)

/-- What the spray of a frame decides (R199, R201). -/
inductive Spray where
  | to (p : Nat) (ptr : Option Nat)
  | noPort
  | turn
  deriving DecidableEq, Repr

/-- The spray decision: the least-loaded eligible port, several ties going to the first at or after the pointer, which then
moves; else the lowest HELD port; else a drop. -/
def spray (s : State) (n : Nat) (c : Fin 8) (cells : Nat) (fromUp : Bool) : Spray :=
  let ps := setPorts s n
  let elig := ps.filter (fun p => (getPort s p).st == .up && portTakes (getPort s p) c cells fromUp)
  match (elig.map (fun p => portLoad (getPort s p) c)).min? with
  | some lo =>
    match elig.filter (fun p => portLoad (getPort s p) c == lo) with
    | [p] => .to p none
    | tied =>
      let ptr := tget 0 s.ecmpPtr n
      let pick := (tied.find? (fun p => decide (ptr ≤ p))).getD (tied.headD 0)
      .to pick (some ((pick + 1) % 512))
  | none =>
    match ps.find? (fun p => (getPort s p).st == .held && portTakes (getPort s p) c cells fromUp) with
    | some p => .to p none
    | none =>
      let live := ps.filter (fun p => (getPort s p).st == .up || (getPort s p).st == .held)
      if fromUp && !live.isEmpty && live.all (fun p => portRole (getPort s p) == 1) then .turn else .noPort

/-! ## Keystone hold -/

/-- The key of a frame's hold entry (R219). -/
def holdKey (f : Frame) : HoldKey :=
  { src := BitVec.ofNat 20 (fSrc f), dest := BitVec.ofNat 20 (fDest f), msgId := BitVec.ofNat 32 (fMsg f), retx := fRetx f }

/-- A hold entry by key. -/
def findHold (s : State) (k : HoldKey) : Option HoldEnt := s.holds.find? (fun h => h.key == k)

/-- A hold entry replaced or removed. -/
def putHold (s : State) (k : HoldKey) (h : Option HoldEnt) : State :=
  match h with
  | none => { s with holds := s.holds.filter (fun x => x.key != k) }
  | some e => { s with holds := s.holds.map (fun x => if x.key == k then e else x) }

/-- HOLD_TIMEOUT and QUIET of KS_CTL (R222). -/
def holdTimeout (s : State) : Nat := fld s.fab.ksCtl 32 32
def quietCycles (s : State) : Nat := fld s.fab.ksCtl 0 16

/-- Whether keystone hold applies to a frame at an egress port, or at the switch's own delivery (R218). -/
def holdsHere (s : State) (port : Option Nat) (e : QEnt) : Bool :=
  (match e.src with | .port .. => true | .internal => false) && fCount e.frame ≥ 2 &&
  (match port with
    | none => true
    | some p => portRole (getPort s p) == 0 && bitOf (getPort s p).ctl 60)

/-- A frame joins the tail of its class queue (R233). -/
def pushQueue (s : State) (p : Nat) (e : QEnt) : State :=
  let x := getPort s p
  let c := fin8 (fClass e.frame)
  let y := getCls x c
  setPort s p (setCls x c { y with q := y.q ++ [{ e with joined := now s }] })

/-- A frame addressed to the switch joins what it has to handle: CONTRIB frames, which have no Neve copy, the dispatcher's
list, others the switch's own (R22, R195). -/
def pushLocal (s : State) (e : QEnt) : State :=
  let (p, c) := match e.src with | .port p c => (p, c) | .internal => (512, fClass e.frame)
  let contrib := fType e.frame == 1
  let l : LocalC := {
    port := p, cls := c, ups := e.ups, frame := e.frame, ts := e.ts, sof := e.sof
    copy := if contrib then none else some e.copy }
  if contrib then { s with dispatch := s.dispatch ++ [l] } else { s with localQ := s.localQ ++ [l] }

/-- A Keystone frame that its entry lets go joins the tail of its queue, with KINC where the message may be incomplete
(R219, R220). -/
def letGo (s : State) (port : Option Nat) (kinc : Bool) (e : QEnt) : State :=
  let e' := if kinc then { e with frame := setKinc e.frame } else e
  match port with | some p => pushQueue s p e' | none => pushLocal s e'

/-- A Keystone frame held in an entry. One that the entry already holds, of an earlier sending with the same key, leaves with
KINC (DESIGN CHOICE, log 105: an entry refers to one held frame). -/
def holdKeystone (s : State) (h : HoldEnt) (e : QEnt) : State :=
  let t := putHold s h.key (some { h with ks := some e, last := if h.key.retx then max h.last (now s) else h.last })
  match h.ks with
  | none => t
  | some old => letGo t h.port true old

/-- A frame reaches a holding egress (R219-R221): the state after it, and the frame where it is not held. -/
def holdArrive (s : State) (port : Option Nat) (e : QEnt) : State × Option QEnt :=
  if !holdsHere s port e || holdTimeout s == 0 then (s, some e) else
  let k := holdKey e.frame
  let fresh := (findHold s k).isNone
  if fresh && decide (65536 ≤ s.holds.length) then
    (onFab s (fun f => { f with ksOverflow := inc16 f.ksOverflow }),
      some (if fKey e.frame then { e with frame := setKinc e.frame } else e))
  else
    let h := (findHold s k).getD
      { key := k, port, frames := fCount e.frame, left := 0, ks := none, ends := now s + holdTimeout s, last := now s }
    let t := if fresh then { s with holds := s.holds ++ [h] } else s
    if !fKey e.frame then (t, some e)
    else if !k.retx && decide (h.frames ≤ h.left + 1) then (putHold t k none, some e)
    else (holdKeystone t { h with port } e, none)

/-- A frame is enqueued at an egress port, or delivered to the switch itself, through the keystone hold. -/
def enqueue (s : State) (port : Option Nat) (e : QEnt) : State :=
  match holdArrive s port e with
  | (t, none) => t
  | (t, some e') => match port with | some p => pushQueue t p e' | none => pushLocal t e'

/-- A held Keystone frame released: it joins the tail of its queue and its entry is freed (R219). -/
def releaseHold (s : State) (h : HoldEnt) (kinc : Bool) : State :=
  let t := putHold s h.key none
  match h.ks with
  | none => t
  | some e => letGo t h.port kinc e

/-- A frame has left a holding egress (R219): the count rises, and a held Keystone frame may be released. -/
def holdLeave (s : State) (port : Option Nat) (e : QEnt) : State :=
  if !holdsHere s port e || fKey e.frame then s else
  match findHold s (holdKey e.frame) with
  | none => s
  | some h =>
    if h.key.retx then putHold s h.key (some { h with last := now s })
    else
      let h' := { h with left := h.left + 1 }
      if h'.frames ≤ h'.left + 1 && h'.ks.isSome then releaseHold s h' false else putHold s h.key (some h')

/-! ## Placing frames -/

/-- The pointer of an equal-cost set after a decision (R199). -/
def putPtr (s : State) (n : Nat) (ptr : Option Nat) : State :=
  match ptr with
  | some x => { s with ecmpPtr := tput 0 s.ecmpPtr n x }
  | none => s

/-- A frame with a Neve copy that the switch is the source of is routed, sprayed and enqueued (R195, R200); a frame that
cannot be placed lowers its copy's count (R245), which requester `q` holds. -/
def placeReplica (s : State) (q : Nat) (e : QEnt) : State :=
  match routeOf s (fDest e.frame) with
  | .invalid => dropRef (onFab s (fun f => { f with noRoute := inc16 f.noRoute })) q e.copy
  | .self => pushLocal (if fType e.frame == 1 then dropRef s q e.copy else s) e
  | .set n =>
    let c := fin8 (fClass e.frame)
    match spray s n c (fCells e.frame) false with
    | .to p ptr => enqueue (putPtr s n ptr) (some p) e
    | .turn => dropRef (onFab s (fun f => { f with turn := inc16 f.turn })) q e.copy
    | .noPort => dropRef (onFab s (fun f => { f with noPort := inc16 f.noPort })) q e.copy

/-- Work that waits for buffers is remembered; where it is a refusal under R249 that makes it wait, that counts in DENIED of
the requester refused, once in a cycle (R251). -/
def waitJob (s : State) (e : Short) (j : Job) : State :=
  let t := applyCuts s e
  let u := { t with jobs := t.jobs ++ [j], wants := t.wants.filter (fun w => w.job != j) }
  match e.ask with
  | none => u
  | some a =>
    if u.cyc.refused.contains j then { u with wants := u.wants ++ [{ job := j, ask := a }] }
    else
      let v := countDenied u (askRefused u a)
      { v with wants := v.wants ++ [{ job := j, ask := a }], cyc := { v.cyc with refused := v.cyc.refused ++ [j] } }

/-- An answer frame sent: it takes a Neve cell of the resend requester (R247), or waits for one. -/
def sendAnswer (s : State) (f : Frame) : State :=
  match allocCopy s 4098 0 1 (frameBytes f) (fCells f) with
  | .error e => waitJob s e (.answer f)
  | .ok (id, t) => placeReplica t 4098 { copy := id, frame := f, src := .internal }

/-- Whether an answer waits for a cell: while one does, no message that the switch has to answer is taken up, so that what comes
stalls at its port and no more than its credits allow waits (R206, R251, R276). -/
def answersWait (s : State) : Bool := s.jobs.any (fun j => match j with | .answer _ => true | _ => false)

/-- The quota index that a Neve copy is charged to. -/
def copyOwner (s : State) (id : Nat) : Nat := ((tget none s.neve id).map (·.quota)).getD 4096

/-- The buffers of a local frame given back: its Neve copy and with it its credits, or its credits alone (R206). -/
def returnLocal (s : State) (l : LocalC) : State :=
  match l.copy with
  | some id => dropRef s (copyOwner s id) id
  | none => if l.port < 512 then returnCredits s l.port l.cls l.ups (fCells l.frame) else s

/-- A frame addressed to the switch has been handled (R206, R219). -/
def handledLocal (s : State) (l : LocalC) : State :=
  holdLeave (returnLocal s l) none
    { copy := 0, frame := l.frame, src := if l.port < 512 then .port l.port l.cls else .internal, ups := l.ups }

/-! ## What the switch keeps of the messages addressed to it (R171, R181) -/

/-- Whether an entry is that of a frame's message. -/
def rxMine (f : Frame) (r : RxMsg) : Bool := r.src == fSrc f && r.dest == fDest f && r.msg == fMsg f && r.typ == fType f

/-- What is kept of a frame's message. -/
def rxOf (s : State) (f : Frame) : RxMsg :=
  (s.rx.find? (rxMine f)).getD { src := fSrc f, dest := fDest f, msg := fMsg f, typ := fType f, got := [], cmark := false }

/-- Whether a message's source has since sent a frame's message, 256 or more later, which it may not while the first is unanswered
(R169): nothing of it comes again, and what is kept of it goes (R276). -/
def rxPast (f : Frame) (r : RxMsg) : Bool :=
  let ahead := (fMsg f + 2 ^ 32 - r.msg) % 2 ^ 32
  r.src == fSrc f && r.dest == fDest f && decide (256 ≤ ahead) && decide (ahead < 2 ^ 31)

/-- The same replaced. -/
def putRx (s : State) (f : Frame) (r : RxMsg) : State :=
  let past := s.rx.filter (rxPast f)
  (past.flatMap (·.kept)).foldl returnLocal { s with rx := s.rx.filter (fun x => !rxPast f x && !rxMine f x) ++ [r] }

/-- The mark of a frame kept: ECHO of every answer to its message from now on (R181; that it outlives an answer is read from
'the frames of its resends', log 44). -/
def noteMark (s : State) (f : Frame) : State := if fCmark f then putRx s f { rxOf s f with cmark := true } else s

/-- ECHO of an answer (R181): some frame of the message arrived with CMARK, in an earlier sending too. -/
def echoOf (s : State) (f : Frame) : Bool := fCmark f || (rxOf s f).cmark

/-- An answered message: what was held of it goes, and its mark stays (R171, R181). -/
def clearRx (s : State) (f : Frame) : State :=
  { s with rx := (s.rx.filter (fun r => !rxMine f r || r.cmark)).map (fun r =>
      if rxMine f r then { r with got := [], kept := [], refused := none } else r) }

/-- Answers a frame's message to its SRC (R176, R177) with a given CONTEXT and chunk. -/
def answerCtx (s : State) (typ : Nat) (f : Frame) (reason firstMissing : Nat) (ctx : Word) (chunk : Nat) : State :=
  let e := echoOf s f
  sendAnswer (noteMark s f) (mkAnswer typ s.fab.swEp.toNat (fSrc f) (fMsg f) (fDest f) reason e firstMissing ctx chunk)

/-- ACK. -/
def ackFrame (s : State) (f : Frame) : State := answerCtx s tyAck f 0 0 0 0
/-- NACK with a reason and FIRST_MISSING (R178). -/
def nackFrame (s : State) (f : Frame) (reason firstMissing : Nat) : State := answerCtx s tyNack f reason firstMissing 0 0
/-- BUSY, LATE or NOTICE to a contribution (R166). -/
def refuseContrib (s : State) (typ : Nat) (f : Frame) (reason : Nat) : State :=
  answerCtx s typ f reason 0 (contribCtx f (fRank f)) (fChunk f)
/-- NOTICE to a BARRIER or GROUPCTL message. -/
def noticeCtl (s : State) (f : Frame) (reason : Nat) : State := answerCtx s tyNotice f reason 0 (ctlCtx f) 0

end Sys2Proof.Machine
end

