-- ==== Sys2Proof/Decode.lean ====
section
/-! DEFINITION. The decoder of commands from the opcode table's bits (the table gives no row any bits), and Plotan's
instruction words (R285): those of a control core, with what raises ILLEGAL (R286, R287, R316, R318, R325, R329-R332), and
those of a Serac program (R288, R325-R343), with what R298 rejects at load. -/

namespace Sys2Proof

/-- The command that a word spells by the opcode table's bits. The table gives none of its rows any bits, so no word
spells a command. -/
def decodeTableWord (_nbits _w : Nat) : Option Instr := none

namespace Machine

/-- The type of FUNC [34:32] (R326). -/
def vtyOf (n : Nat) : Option VTy :=
  match n with | 0 => some .f32 | 1 => some .f64 | 2 => some .i32 | 3 => some .i64 | _ => none

/-- The code of a type. -/
def vtyCode : VTy → Nat
  | .f32 => 0 | .f64 => 1 | .i32 => 2 | .i64 => 3

/-- A rounding mode (R327). -/
def vrndOf (n : Nat) : Option VRnd :=
  match n with
  | 0 => some .rne | 1 => some .rz | 2 => some .rup | 3 => some .rdn | 4 => some .rna | 5 => some .sr | 7 => some .dyn
  | _ => none

/-- A vector source field (R288, R293). -/
def vsrcOf (n : Nat) : Option VSrc :=
  if h : n < 32 then some (.v ⟨n, h⟩) else
  match n with
  | 0x20 => some (.ctx .presentF) | 0x21 => some (.ctx .present) | 0x22 => some (.ctx .rank) | 0x23 => some (.ctx .step)
  | 0x24 => some (.ctx .bucket) | 0x25 => some (.ctx .chunk) | 0x26 => some (.ctx .element) | 0x27 => some (.ctx .home)
  | _ => none

/-- A vector destination field. -/
def vdstOf (n : Nat) : Option (Fin 32) := if h : n < 32 then some ⟨n, h⟩ else none

/-- A predicate field. -/
def vpredOf (n : Nat) : Option (Fin 8) := if h : n < 8 then some ⟨n, h⟩ else none

/-- A condition of VCMP (R336). -/
def vcondOf (n : Nat) : Option VCond :=
  match n with
  | 0 => some .eq | 1 => some .ne | 2 => some .lt | 3 => some .le | 4 => some .gt | 5 => some .ge | 6 => some .un
  | _ => none

/-- An arena access mode (R341). -/
def vmodeOf (n : Nat) : Option VMode :=
  match n with
  | 0 => some .w32 | 1 => some .w64 | 2 => some .p16 | 3 => some .p8 | 4 => some .b32 | _ => none

/-- A cache hint (R341). -/
def vhintOf (n : Nat) : Option Hint :=
  match n with | 0 => some .keep | 1 => some .stream | 2 => some .last | _ => none

/-- The format fields of an IMM (R339). -/
def vfmtOf (imm : BitVec 32) : VFmt :=
  { fmt := imm.extractLsb' 8 6, blk := imm.extractLsb' 14 3, ovf := imm.extractLsb' 3 2 }

/-- A vector instruction word (R333); none where a field holds a value that no operand has or an unused field is not
zero (R325). -/
def decodeVec (w : Word) : Option VOp := do
  let opc := fld w 56 8
  let dst := fld w 50 6
  let s1 := fld w 44 6
  let s2 := fld w 38 6
  let g ← vpredOf (fld w 35 3)
  let ty := fld w 32 3
  let imm : BitVec 32 := w.setWidth 32
  let three := fun (mk : VTy → Fin 32 → VSrc → VSrc → VRnd → VOp) => (do
    let t ← vtyOf ty; let d ← vdstOf dst; let a ← vsrcOf s1; let b ← vsrcOf s2
    let r ← vrndOf (fld imm 0 3)
    if fld imm 3 29 == 0 then some (mk t d a b r) else none : Option VOp)
  let two := fun (mk : VTy → Fin 32 → VSrc → VSrc → VOp) => (do
    let t ← vtyOf ty; let d ← vdstOf dst; let a ← vsrcOf s1; let b ← vsrcOf s2
    if imm == 0 then some (mk t d a b) else none : Option VOp)
  match opc with
  | 0x80 => three (.add g)
  | 0x81 => three (.sub g)
  | 0x82 => three (.mul g)
  | 0x83 => three (.fma g)
  | 0x84 => three (.div g)
  | 0x85 => do
    let t ← vtyOf ty; let d ← vdstOf dst; let a ← vsrcOf s1; let r ← vrndOf (fld imm 0 3)
    if s2 == 0 && fld imm 3 29 == 0 then some (.sqrt g t d a r) else none
  | 0x86 => two (.max g)
  | 0x87 => two (.min g)
  | 0x88 => do
    let t ← vtyOf ty; let d ← vpredOf dst; let a ← vsrcOf s1; let b ← vsrcOf s2; let c ← vcondOf (fld imm 0 3)
    if fld imm 3 29 == 0 then some (.cmp g t d a b c) else none
  | 0x89 => do
    let t ← vtyOf ty; let d ← vdstOf dst; let a ← vsrcOf s1; let p ← vpredOf s2
    some (.sel g t d a p imm)
  | 0x8A => do
    let t ← vtyOf ty; let t' ← vtyOf (fld imm 3 3); let d ← vdstOf dst; let a ← vsrcOf s1; let r ← vrndOf (fld imm 0 3)
    if s2 == 0 && fld imm 6 26 == 0 then some (.cvt g t t' d a r) else none
  | 0x8B => do
    let t ← vtyOf ty; let d ← vdstOf dst; let a ← vsrcOf s1; let r ← vrndOf (fld imm 0 3)
    if s2 == 0 && fld imm 17 15 == 0 && fld imm 5 3 == 0 then some (.qnt g t d a (vfmtOf imm) r) else none
  | 0x8C => do
    let t ← vtyOf ty; let d ← vdstOf dst; let a ← vsrcOf s1
    if s2 == 0 && fld imm 17 15 == 0 && fld imm 5 3 == 0 && fld imm 0 3 == 0 then some (.dqt g t d a (vfmtOf imm)) else none
  | 0x90 => do
    let m ← vmodeOf ty; let d ← vdstOf dst; let h ← vhintOf (fld imm 30 2)
    if s1 == 0 && s2 == 0 then some (.ld g m d h (imm.setWidth 30)) else none
  | 0x91 => do
    let m ← vmodeOf ty; let a ← vsrcOf s1; let h ← vhintOf (fld imm 30 2)
    if dst == 0 && s2 == 0 then some (.st g m a h (imm.setWidth 30)) else none
  | 0x98 => do
    let t ← vtyOf ty; let a ← vsrcOf s1
    if dst != 0 || s2 != 0 then none else
    match fld imm 30 2 with
    | 0 => if fld imm 0 30 == 0 then some (.emit g t a .result) else none
    | 1 => do
      let r ← vrndOf (fld imm 0 3)
      if fld imm 17 13 == 0 && fld imm 5 3 == 0 then some (.emit g t a (.weights (vfmtOf imm) r)) else none
    | _ => none
  | _ => none

/-- The type takes an even-odd pair (R280). -/
def vtyWide : VTy → Bool
  | .f64 => true | .i64 => true | _ => false

/-- The type is a floating-point type. -/
def vtyF : VTy → Bool
  | .f32 => true | .f64 => true | _ => false

/-- A source of a type keeps to R280: an even register for a pair. -/
def srcOk (t : VTy) : VSrc → Bool
  | .v n => !(vtyWide t) || n.val % 2 == 0
  | .ctx _ => true

/-- A destination of a type keeps to R280. -/
def dstOk (t : VTy) (d : Fin 32) : Bool := !(vtyWide t) || d.val % 2 == 0

/-- The rounding mode of an arithmetic instruction: no stochastic code (R327), and 0 where the type cannot round. -/
def rndOk (t : VTy) (r : VRnd) : Bool := r != .sr && (vtyF t || r == .rne)

/-- Conversions that round (R338): the others are exact or saturate and carry 0 in IMM [2:0]. -/
def cvtRounds (t t' : VTy) : Bool :=
  match t, t' with
  | .f32, .f64 => false | .i32, .f64 => false | .i32, .i64 => false | .i64, .i32 => false | _, _ => true

/-- Formats VQNT and VDQT accept for a type (R339). -/
def qntFmt (t : VTy) (f : VFmt) : Option Fmt :=
  match fmtOfCode f.fmt.toNat with
  | some .fp32 => if t == .f64 then some .fp32 else none
  | some .fp64 => none
  | some .int32 => none
  | some .int64 => none
  | some .transit => none
  | x => x

/-- The block size code keeps to R339: defined for a block-scaled format, 0 for any other. -/
def blkOk (f : Fmt) (b : BitVec 3) : Bool := if f.isBlock then b.toNat ≤ 5 else b == 0

/-- What R298 asks of an instruction that decodes: register fields, types, rounding codes, formats and offsets. -/
def vLegal : VOp → Bool
  | .add _ t d a b r | .sub _ t d a b r | .mul _ t d a b r => dstOk t d && srcOk t a && srcOk t b && rndOk t r
  | .fma _ t d a b r | .div _ t d a b r => vtyF t && dstOk t d && srcOk t a && srcOk t b && rndOk t r
  | .sqrt _ t d a r => vtyF t && dstOk t d && srcOk t a && rndOk t r
  | .max _ t d a b | .min _ t d a b => dstOk t d && srcOk t a && srcOk t b
  | .cmp _ t d a b _ => d != 0 && srcOk t a && srcOk t b
  | .sel _ t d a _ _ => dstOk t d && srcOk t a
  | .cvt _ t t' d a r => t != t' && dstOk t' d && srcOk t a && (cvtRounds t t' || r == .rne)
  | .qnt _ t d a f _ =>
    vtyF t && srcOk t a && f.ovf != 3 &&
    (match qntFmt t f with | some x => blkOk x f.blk && (!x.isBlock || d.val % 2 == 0) | none => false)
  | .dqt _ t d a f =>
    vtyF t && dstOk t d && f.ovf == 0 &&
    (match qntFmt t f with
      | some x => blkOk x f.blk && (!x.isBlock || (match a with | .v n => n.val % 2 == 0 | .ctx _ => false))
      | none => false)
  | .ld _ m d _ off =>
    (match m with
      | .w32 => off.toNat % 4 == 0 | .w64 => off.toNat % 8 == 0 && d.val % 2 == 0 | .p16 => off.toNat % 2 == 0
      | .p8 => true | .b32 => off.toNat % 4 == 0)
  | .st _ m a _ off =>
    (match m with
      | .w32 => off.toNat % 4 == 0 | .w64 => off.toNat % 8 == 0 && srcOk .i64 a | .p16 => off.toNat % 2 == 0
      | .p8 => true | .b32 => false)
  | .emit _ t a st =>
    srcOk t a &&
    (match st with
      | .result => true
      | .weights f _ => f.ovf != 3 && (match fmtOfCode f.fmt.toNat with | some x => blkOk x f.blk | none => false))

/-- Whether an instruction is VEMIT. -/
def isEmit : VOp → Bool
  | .emit .. => true
  | _ => false

/-- A program of R298 and R352: every word decodes to a legal instruction, and a step program holds no VEMIT. -/
def programLegal (fin : Bool) (ws : List Word) : Bool :=
  ws.all (fun w => match decodeVec w with
    | some o => vLegal o && (fin || !isEmit o)
    | none => false)

/-! ## The words of control cores (R285-R287, R325, R329-R332) -/

/-- A scalar or system instruction word as a core's command; none where the core raises ILLEGAL on it: an opcode, function or
register value that is reserved, or an unused field that is not zero. -/
def decodeCore (c : CoreNo) (w : Word) : Option Instr :=
  let d : BitVec 6 := w.extractLsb' 50 6
  let a : BitVec 6 := w.extractLsb' 44 6
  let b : BitVec 6 := w.extractLsb' 38 6
  let f : BitVec 6 := w.extractLsb' 32 6
  let i : BitVec 32 := w.setWidth 32
  let reg := fun (n : BitVec 6) => decide (n.toNat < 32)
  let rows := fun (ok : Bool) (x : Instr) => if ok then some x else none
  let three := fun (mk : CoreNo → BitVec 6 → BitVec 6 → BitVec 6 → Instr) =>
    rows (reg d && reg a && reg b && f == 0 && i == 0) (mk c d a b)
  let two := fun (top : Nat) (mk : CoreNo → BitVec 6 → BitVec 6 → BitVec 32 → Instr) =>
    rows (reg d && reg a && b == 0 && f == 0 && decide (i.toNat < 2 ^ top)) (mk c d a i)
  let jump := fun (mk : CoreNo → BitVec 6 → BitVec 6 → BitVec 32 → Instr) =>
    rows (d == 0 && reg a && reg b && f == 0) (mk c a b i)
  let bare := fun (x : Instr) => rows (d == 0 && a == 0 && b == 0 && f == 0 && i == 0) x
  match fld w 56 8 with
  | 0x01 => three .add | 0x02 => three .sub | 0x03 => three .mul | 0x04 => three .mulhu | 0x05 => three .divu
  | 0x06 => three .remu | 0x07 => three .and | 0x08 => three .or | 0x09 => three .xor | 0x0A => three .shl
  | 0x0B => three .shr | 0x0C => three .sar | 0x0D => three .slt | 0x0E => three .sltu
  | 0x10 => two 32 .addi | 0x11 => two 32 .andi | 0x12 => two 32 .ori | 0x13 => two 32 .xori
  | 0x14 => two 6 .shli | 0x15 => two 6 .shri | 0x16 => two 6 .sari
  | 0x17 => two 32 .slti | 0x18 => two 32 .sltiu | 0x19 => two 32 .movhi
  | 0x20 => rows (reg d && reg a && b == 0 && decide (f.toNat < 7)) (.ld c d a f i .none)
  | 0x21 => rows (d == 0 && reg a && reg b && decide (f.toNat < 4)) (.st c a b f i)
  | 0x28 => jump .beq | 0x29 => jump .bne | 0x2A => jump .blt | 0x2B => jump .bge | 0x2C => jump .bltu | 0x2D => jump .bgeu
  | 0x2E => rows (reg d && a == 0 && b == 0 && f == 0) (.jal c d i)
  | 0x2F => rows (reg d && reg a && b == 0 && f == 0) (.jalr c d a i)
  | 0x40 => rows (reg d && reg a && b == 0 && f == 0) (.dregR c d a i)
  | 0x41 => rows (d == 0 && reg a && reg b && f == 0) (.dregW c a b i)
  | 0x44 => rows (d == 0 && reg a && reg b && decide (i.toNat < 8)) (.tblW c a b f i)
  | 0x45 => rows (reg d && reg a && b == 0 && decide (i.toNat < 8)) (.tblR c d a f i .none)
  | 0x46 => rows (reg d && a == 0 && b == 0 && f == 0 && i == 0) (.tblCommit c d)
  | 0x48 =>
    if i != 0 then none else
    match f.toNat with
    | 0 => rows (reg d && d.toNat % 2 == 0 && d != 0 && a == 0 && b == 0) (.mbxRecv c d)
    | 1 => rows (reg d && reg a && reg b) (.mbxSend c d a b)
    | 2 => rows (d == 0 && reg a && b == 0) (.mbxRelease c a)
    | 3 => rows (reg d && a == 0 && b == 0) (.mbxCount c d)
    | _ => none
  | 0x4C => rows (reg d && a == 0 && b == 0 && f == 0 && decide (i.toNat < 8)) (.wait c d i)
  | 0x4D =>
    if i != 0 || b != 0 then none else
    match f.toNat with
    | 0 => rows (reg d && a == 0) (.timeRead c d)
    | 1 => rows (d == 0 && reg a) (.timeArm c a)
    | 2 => rows (d == 0 && a == 0) (.timeDisarm c)
    | _ => none
  | 0x60 => bare (.fenceSt c) | 0x61 => bare (.fenceAll c) | 0x62 => bare (.fenceDev c)
  | _ => none

/-! ## The words of vector instructions, written from the same tables (R285, R288, R326, R327, R333-R343) -/

/-- The ROUND code of a rounding mode (R327). -/
def vrndCode : VRnd → Nat
  | .rne => 0 | .rz => 1 | .rup => 2 | .rdn => 3 | .rna => 4 | .sr => 5 | .dyn => 7

/-- The field of a vector source (R288, R293). -/
def vsrcCode : VSrc → Nat
  | .v n => n.val
  | .ctx .presentF => 0x20 | .ctx .present => 0x21 | .ctx .rank => 0x22 | .ctx .step => 0x23
  | .ctx .bucket => 0x24 | .ctx .chunk => 0x25 | .ctx .element => 0x26 | .ctx .home => 0x27

/-- The code of a condition (R336). -/
def vcondCode : VCond → Nat
  | .eq => 0 | .ne => 1 | .lt => 2 | .le => 3 | .gt => 4 | .ge => 5 | .un => 6

/-- The code of an arena access mode (R341). -/
def vmodeCode : VMode → Nat
  | .w32 => 0 | .w64 => 1 | .p16 => 2 | .p8 => 3 | .b32 => 4

/-- The code of a cache hint (R341). -/
def vhintCode : Hint → Nat
  | .keep => 0 | .stream => 1 | .last => 2

/-- The IMM of a format with a rounding mode (R339, R343). -/
def vfmtImm (f : VFmt) (r : Nat) : Nat := f.fmt.toNat * 2 ^ 8 + f.blk.toNat * 2 ^ 14 + f.ovf.toNat * 2 ^ 3 + r

/-- A word from its fields: opcode, DST, SRC1, SRC2, predicate, type or mode, IMM (R285, R333). -/
def vword (opc dst s1 s2 g ty imm : Nat) : Word :=
  BitVec.ofNat 64 (opc * 2 ^ 56 + dst * 2 ^ 50 + s1 * 2 ^ 44 + s2 * 2 ^ 38 + g * 2 ^ 35 + ty * 2 ^ 32 + imm)

/-- The word of a vector instruction. -/
def encodeVec : VOp → Word
  | .add g t d a b r => vword 0x80 d (vsrcCode a) (vsrcCode b) g (vtyCode t) (vrndCode r)
  | .sub g t d a b r => vword 0x81 d (vsrcCode a) (vsrcCode b) g (vtyCode t) (vrndCode r)
  | .mul g t d a b r => vword 0x82 d (vsrcCode a) (vsrcCode b) g (vtyCode t) (vrndCode r)
  | .fma g t d a b r => vword 0x83 d (vsrcCode a) (vsrcCode b) g (vtyCode t) (vrndCode r)
  | .div g t d a b r => vword 0x84 d (vsrcCode a) (vsrcCode b) g (vtyCode t) (vrndCode r)
  | .sqrt g t d a r => vword 0x85 d (vsrcCode a) 0 g (vtyCode t) (vrndCode r)
  | .max g t d a b => vword 0x86 d (vsrcCode a) (vsrcCode b) g (vtyCode t) 0
  | .min g t d a b => vword 0x87 d (vsrcCode a) (vsrcCode b) g (vtyCode t) 0
  | .cmp g t d a b c => vword 0x88 d (vsrcCode a) (vsrcCode b) g (vtyCode t) (vcondCode c)
  | .sel g t d a p imm => vword 0x89 d (vsrcCode a) p g (vtyCode t) imm.toNat
  | .cvt g t t' d a r => vword 0x8A d (vsrcCode a) 0 g (vtyCode t) (vtyCode t' * 8 + vrndCode r)
  | .qnt g t d a f r => vword 0x8B d (vsrcCode a) 0 g (vtyCode t) (vfmtImm f (vrndCode r))
  | .dqt g t d a f => vword 0x8C d (vsrcCode a) 0 g (vtyCode t) (vfmtImm f 0)
  | .ld g m d h off => vword 0x90 d 0 0 g (vmodeCode m) (vhintCode h * 2 ^ 30 + off.toNat)
  | .st g m a h off => vword 0x91 0 (vsrcCode a) 0 g (vmodeCode m) (vhintCode h * 2 ^ 30 + off.toNat)
  | .emit g t a .result => vword 0x98 0 (vsrcCode a) 0 g (vtyCode t) 0
  | .emit g t a (.weights f r) => vword 0x98 0 (vsrcCode a) 0 g (vtyCode t) (2 ^ 30 + vfmtImm f (vrndCode r))

end Machine
end Sys2Proof
end

