-- ==== Sys2Proof/Machine/Vector.lean ====
section
/-! DEFINITION. The vector instructions on a slice (R280, R281, R292-R295, R327, R328, R333-R343), the arena they reach
(R358-R361), the two output streams (R353-R355), and the check of a program at its commit (R298, R352). -/

namespace Sys2Proof.Machine

/-! ## Registers and lanes -/

/-- V(n) of a slice. -/
def vget (x : Slice) (n : Nat) : BitVec 8192 := tget 0 x.v n

/-- V(n) replaced. -/
def vput (x : Slice) (n : Nat) (v : BitVec 8192) : Slice := { x with v := tput 0 x.v n v }

/-- P(n) of a slice: P0 reads as all ones (R280). -/
def pget (x : Slice) (n : Nat) : BitVec 256 := if n == 0 then BitVec.allOnes 256 else tget 0 x.p n

/-- The 32-bit lanes of a register. -/
def lanesOf (v : BitVec 8192) : List Nat := (List.range 256).map (fun i => fld v (32 * i) 32)

/-- A register from its 32-bit lanes. -/
def ofLanes (xs : List Nat) : BitVec 8192 :=
  BitVec.ofNat 8192 (xs.foldr (fun x acc => acc * 2 ^ 32 + x % 2 ^ 32) 0)

/-- The 1,024 bytes of a register's bit string (R328). -/
def vbytes (v : BitVec 8192) : List Byte := leBytes 1024 v.toNat

/-- A register from its bytes. -/
def ofBytes (bs : List Byte) : BitVec 8192 := BitVec.ofNat 8192 (leNat bs)

/-- The lanes of a type held in V(n), or in V(n):V(n + 1) (R280). -/
def typedLanes (x : Slice) (t : VTy) (n : Nat) : List Nat :=
  if vtyWide t then
    ((lanesOf (vget x n)).zip (lanesOf (vget x (n + 1)))).map (fun lh => lh.1 + lh.2 * 2 ^ 32)
  else lanesOf (vget x n)

/-- Lanes of a type written to V(n), or to V(n):V(n + 1). -/
def putTyped (x : Slice) (t : VTy) (n : Nat) (xs : List Nat) : Slice :=
  if vtyWide t then vput (vput x n (ofLanes xs)) (n + 1) (ofLanes (xs.map (· / 2 ^ 32)))
  else vput x n (ofLanes xs)

/-- The format of a floating-point type. -/
def vtyFmt (t : VTy) : Fmt := if t == .f64 then .fp64 else .fp32

/-- The width of an integer type. -/
def vtyBits (t : VTy) : Nat := if vtyWide t then 64 else 32

/-- The 32-bit value of a context source in a lane (R293). -/
def ctxVal (r : RunCtx) (c : CtxSrc) (lane : Nat) : Nat :=
  match c with
  | .presentF => (encodeFV .fp32 0 true (.fin false r.present 0) .rne 0).1
  | .present => r.present % 2 ^ 32
  | .rank => r.rank % 2 ^ 32
  | .step => r.step
  | .bucket => r.bucket
  | .chunk => r.chunk
  | .element => 256 * r.stripe + lane
  | .home => r.home

/-- A context source as a source of a type: widened for a 64-bit type (R335). -/
def ctxTyped (r : RunCtx) (t : VTy) (c : CtxSrc) (lane : Nat) : Nat :=
  let v := ctxVal r c lane
  if vtyWide t then
    match c with
    | .presentF => (encodeFV .fp64 0 true (decodeElt .fp32 v) .rne 0).1
    | .rank => uintOf 64 (sintOf 32 v)
    | _ => v
  else v

/-- The lanes of a vector source of a type. -/
def srcLanes (x : Slice) (t : VTy) (a : VSrc) : List Nat :=
  match a with
  | .v n => typedLanes x t n
  | .ctx c => (List.range 256).map (ctxTyped x.run t c)

/-- Flags that a governed lane raises count where P1 is 1 as well (R281). -/
def laneFlags (x : Slice) (g : Nat) (fs : List Flags) : Flags :=
  let m := pget x g &&& pget x 1
  flagsOr ((fs.zipIdx.filter (fun fi => bitOf m fi.2)).map (·.1))

/-- Flags added to those of the run's chunk. -/
def addFlags (x : Slice) (f : Flags) : Slice := { x with run := { x.run with flags := x.run.flags ||| f } }

/-- The results of the governed lanes written to a destination; the others unchanged (R281). -/
def putGoverned (x : Slice) (g : Nat) (t : VTy) (d : Nat) (res : List (Nat × Flags)) : Slice :=
  let old := typedLanes x t d
  let m := pget x g
  let xs := ((old.zip res).zipIdx).map (fun p => if bitOf m p.2 then p.1.2.1 else p.1.1)
  addFlags (putTyped x t d xs) (laneFlags x g (res.map (·.2)))

/-- The rounding an arithmetic instruction uses (R327): stochastic ROUND rounds to nearest, ties to even. -/
def vrnd (x : Slice) (r : VRnd) : Rnd :=
  match r with
  | .rne => .rne | .rz => .rz | .rup => .rup | .rdn => .rdn | .rna => .rna | .sr => .sr | .dyn => x.run.rnd

/-- The random bits of a lane of a stochastic VCVT, VQNT or WEIGHTS emission (R340). -/
def laneBits (x : Slice) (lane : Nat) : Nat :=
  let r := x.run
  (srBits r.seed r.group r.step r.bucket (r.chunk * r.fullK + 256 * r.stripe + lane)) ^^^
    (((r.instr + 1) * 0x9E3779B9) % 2 ^ 32)

/-! ## Arithmetic -/

/-- A two-operand instruction on a type: `ff` on floats, `fi` on integers of a width. -/
def arith2 (x : Slice) (g : Nat) (t : VTy) (d : Nat) (a b : VSrc) (ff : Nat → Nat → Nat × Flags)
    (fi : Int → Int → Int) : Slice :=
  let w := vtyBits t
  let one := fun (p : Nat × Nat) =>
    if vtyF t then ff p.1 p.2 else (uintOf w (fi (sintOf w p.1) (sintOf w p.2)), (0 : Flags))
  putGoverned x g t d (((srcLanes x t a).zip (srcLanes x t b)).map one)

/-- An IEEE operation of two operands rounded once (R334). -/
def ieee2 (x : Slice) (t : VTy) (r : VRnd) (f : Rnd → FV → FV → FV × Flags) (a b : Nat) : Nat × Flags :=
  let rnd := (vrnd x r).det
  roundOp (vtyFmt t) rnd (f rnd (decodeElt (vtyFmt t) a) (decodeElt (vtyFmt t) b))

/-- The first NaN of three operands, quieted. -/
def nan3 (a b d : FV) : FV := if a.isNan then a.quiet else if b.isNan then b.quiet else d.quiet

/-- Va * Vb + Vd before its one rounding (R334, R83, R84). -/
def fmaFV (rnd : Rnd) (a b d : FV) : FV × Flags :=
  let inv := flagIf (a.isSnan || b.isSnan || d.isSnan) ieInvalid
  if a.isNan || b.isNan then (nan3 a b d, inv) else
  let p := mulFV a b
  if p.1.isNan then
    if d.isNan then (d.quiet, inv ||| flagIf Config.fmaInfZeroNan ieInvalid) else (defaultNan, ieInvalid)
  else if d.isNan then (d.quiet, inv)
  else addFV rnd p.1 d

/-- The condition of VCMP on floats, with its flag (R336). -/
def cmpF (c : VCond) (a b : FV) : Bool × Flags :=
  let nan := a.isNan || b.isNan
  let quietFlag := flagIf (a.isSnan || b.isSnan) ieInvalid
  let sigFlag := flagIf nan ieInvalid
  let o := cmpFV a b
  match c with
  | .eq => (!nan && o == 0, quietFlag)
  | .ne => (nan || o != 0, quietFlag)
  | .lt => (!nan && decide (o < 0), sigFlag)
  | .le => (!nan && decide (o ≤ 0), sigFlag)
  | .gt => (!nan && decide (o > 0), sigFlag)
  | .ge => (!nan && decide (o ≥ 0), sigFlag)
  | .un => (nan, quietFlag)

/-- The condition of VCMP on integers (R336). -/
def cmpI (c : VCond) (a b : Int) : Bool :=
  match c with
  | .eq => a == b
  | .ne => a != b
  | .lt => decide (a < b)
  | .le => decide (a ≤ b)
  | .gt => decide (a > b)
  | .ge => decide (a ≥ b)
  | .un => false

/-- VADD (R334). -/
def vAdd (x : Slice) (g : Nat) (t : VTy) (d : Nat) (a b : VSrc) (r : VRnd) : Slice :=
  arith2 x g t d a b (ieee2 x t r addFV) (· + ·)

/-- VSUB (R334): the sum with the second operand negated. -/
def vSub (x : Slice) (g : Nat) (t : VTy) (d : Nat) (a b : VSrc) (r : VRnd) : Slice :=
  arith2 x g t d a b (ieee2 x t r (fun rnd u v => addFV rnd u v.negate)) (· - ·)

/-- VMUL (R334). -/
def vMul (x : Slice) (g : Nat) (t : VTy) (d : Nat) (a b : VSrc) (r : VRnd) : Slice :=
  arith2 x g t d a b (ieee2 x t r (fun _ => mulFV)) (· * ·)

/-- VDIV (R334). -/
def vDiv (x : Slice) (g : Nat) (t : VTy) (d : Nat) (a b : VSrc) (r : VRnd) : Slice :=
  arith2 x g t d a b (ieee2 x t r (fun _ => divFV)) (fun u _ => u)

/-- VFMA (R334). -/
def vFma (x : Slice) (g : Nat) (t : VTy) (d : Nat) (a b : VSrc) (r : VRnd) : Slice :=
  let f := vtyFmt t
  let rnd := (vrnd x r).det
  let res := (((srcLanes x t a).zip (srcLanes x t b)).zip (typedLanes x t d)).map (fun p =>
    roundOp f rnd (fmaFV rnd (decodeElt f p.1.1) (decodeElt f p.1.2) (decodeElt f p.2)))
  putGoverned x g t d res

/-- VSQRT (R334). -/
def vSqrt (x : Slice) (g : Nat) (t : VTy) (d : Nat) (a : VSrc) (r : VRnd) : Slice :=
  let f := vtyFmt t
  putGoverned x g t d ((srcLanes x t a).map (fun u => roundOp f (vrnd x r).det (sqrtFV (decodeElt f u))))

/-- VMAX and VMIN (R85, R334). -/
def vMaxMin (isMax : Bool) (x : Slice) (g : Nat) (t : VTy) (d : Nat) (a b : VSrc) : Slice :=
  arith2 x g t d a b (maxMin (vtyFmt t) isMax) (fun u v => if isMax then max u v else min u v)

/-- VCMP (R336). -/
def vCmp (x : Slice) (g : Nat) (t : VTy) (d : Nat) (a b : VSrc) (c : VCond) : Slice :=
  let f := vtyFmt t
  let w := vtyBits t
  let res := ((srcLanes x t a).zip (srcLanes x t b)).map (fun p =>
    if vtyF t then cmpF c (decodeElt f p.1) (decodeElt f p.2) else (cmpI c (sintOf w p.1) (sintOf w p.2), (0 : Flags)))
  let ones := BitVec.ofNat 256 (res.foldr (fun q acc => acc * 2 + b2n q.1) 0)
  let m := pget x g
  let pd := (pget x d &&& ~~~m) ||| (ones &&& m)
  addFlags { x with p := tput 0 x.p d pd } (laneFlags x g (res.map (·.2)))

/-- The constant of VSEL (R337): IMM, IMM as FP32 widened, or IMM sign-extended. -/
def selConst (t : VTy) (imm : BitVec 32) : Nat :=
  match t with
  | .f32 | .i32 => imm.toNat
  | .f64 =>
    match decodeElt .fp32 imm.toNat with
    | .nan s sig p => nanCode .fp64 s sig p
    | v => (encodeFV .fp64 0 true v .rne 0).1
  | .i64 => (imm.signExtend 64).toNat

/-- VSEL (R337). -/
def vSel (x : Slice) (g : Nat) (t : VTy) (d : Nat) (a : VSrc) (p : Nat) (imm : BitVec 32) : Slice :=
  let m := pget x p
  putGoverned x g t d ((srcLanes x t a).zipIdx.map (fun ui =>
    (if bitOf m ui.2 then ui.1 else selConst t imm, (0 : Flags))))

/-- A float rounded to an integer of `w` bits (R338). -/
def floatToInt (w : Nat) (rnd : Rnd) (v : FV) (rb : Nat) : Nat × Flags :=
  let lim := fun (s : Bool) => uintOf w (if s then -((2 ^ (w - 1) : Nat) : Int) else ((2 ^ (w - 1) : Nat) : Int) - 1)
  match v with
  | .nan .. => (0, ieInvalid)
  | .inf s => (lim s, ieInvalid)
  | .fin s m e =>
    let (n, lost) := roundTo rnd s m e 0 rb
    let i : Int := if s then -(n : Int) else n
    let hi : Int := (2 ^ (w - 1) : Nat)
    if i < -hi || hi ≤ i then (lim s, ieInvalid ||| flagIf lost ieInexact)
    else (uintOf w i, flagIf lost ieInexact)

/-- A conversion of one lane (R338), encoded as R99 and R100 set out. -/
def cvtLane (t t' : VTy) (rnd : Rnd) (u rb : Nat) : Nat × Flags :=
  if vtyF t then
    let v := decodeElt (vtyFmt t) u
    if vtyF t' then encodeFV (vtyFmt t') 0 false v rnd rb else floatToInt (vtyBits t') rnd v rb
  else
    let i := sintOf (vtyBits t) u
    if vtyF t' then encodeFV (vtyFmt t') 0 false (.fin (i < 0) i.natAbs 0) rnd rb
    else let (j, f) := if t' == .i32 then satInt 32 i else (i, 0); (uintOf (vtyBits t') j, f)

/-- VCVT (R338). -/
def vCvt (x : Slice) (g : Nat) (t t' : VTy) (d : Nat) (a : VSrc) (r : VRnd) : Slice :=
  putGoverned x g t' d ((srcLanes x t a).zipIdx.map (fun ui => cvtLane t t' (vrnd x r) ui.1 (laneBits x ui.2)))

/-! ## Quantisation -/

/-- The code and scale changes of encoding governed lanes into a format (R339): by lane the new code, by block the new
scale byte, and the flags, VANISHED and ZERO_BLOCKS. -/
structure Quant where
  codes : List (Nat × Nat)
  scales : List (Nat × Nat)
  flags : Flags
  vanished : Nat
  zeros : Nat

/-- Governed lanes encoded into a format; `cnt` says which lanes' flags count. -/
def quantise (x : Slice) (t : VTy) (a : VSrc) (f : Fmt) (blk ovf : Nat) (rnd : Rnd) (gov : Nat → Bool) (cnt : Nat → Bool) :
    Quant :=
  let elems : List (Nat × BElem) := ((srcLanes x t a).zipIdx.filter (fun ui => gov ui.2)).map (fun ui =>
    (ui.2, { val := decodeElt (vtyFmt t) ui.1, rbits := laneBits x ui.2, cnt := cnt ui.2 }))
  if f.isBlock then
    let b := 8 <<< blk
    let blocks := (List.range (256 / b)).map (fun m => (m, elems.filter (fun le => le.1 / b == m)))
    let outs := (blocks.filter (fun mb => !mb.2.isEmpty)).map (fun mb => (mb.1, mb.2, encodeBlock f ovf rnd (mb.2.map (·.2))))
    { codes := outs.flatMap (fun o => (o.2.1.map (·.1)).zip o.2.2.codes),
      scales := outs.map (fun o => (o.1, o.2.2.scale)),
      flags := flagsOr (outs.map (fun o => o.2.2.flags)),
      vanished := (outs.map (fun o => o.2.2.vanished)).sum,
      zeros := (outs.map (fun o => o.2.2.zeros)).sum }
  else
    let outs := elems.map (fun le => (le.1, le.2, encodeFV f ovf false le.2.val rnd le.2.rbits))
    { codes := outs.map (fun o => (o.1, o.2.2.1)), scales := [],
      flags := flagsOr ((outs.filter (fun o => o.2.1.cnt)).map (fun o => o.2.2.2)),
      vanished := (outs.filter (fun o => match o.2.1.val with
        | .fin s m _ => m != 0 && o.2.2.1 == zeroCode f s
        | _ => false)).length,
      zeros := 0 }

/-- Fields of width `w` of a bit string replaced. -/
def putFields (w : Nat) (v : BitVec 8192) (xs : List (Nat × Nat)) : BitVec 8192 :=
  xs.foldl (fun acc ic =>
    (acc &&& ~~~(BitVec.ofNat 8192 ((2 ^ w - 1) <<< (w * ic.1)))) ||| BitVec.ofNat 8192 ((ic.2 % 2 ^ w) <<< (w * ic.1))) v

/-- VQNT (R339). -/
def vQnt (x : Slice) (g : Nat) (t : VTy) (d : Nat) (a : VSrc) (q : VFmt) (r : VRnd) : Slice :=
  match qntFmt t q with
  | none => x
  | some f =>
    let m := pget x g
    let o := quantise x t a f q.blk.toNat q.ovf.toNat (vrnd x r) (fun i => bitOf m i) (fun i => bitOf (pget x 1) i)
    let y := vput x d (putFields f.width (vget x d) o.codes)
    let z := if f.isBlock then vput y (d + 1) (putFields 8 (vget y (d + 1)) o.scales) else y
    addFlags z o.flags

/-- VDQT (R339). -/
def vDqt (x : Slice) (g : Nat) (t : VTy) (d : Nat) (a : VSrc) (q : VFmt) : Slice :=
  match qntFmt t q with
  | none => x
  | some f =>
    let str := ofLanes (srcLanes x .i32 a)
    let sc := match a with | .v n => vget x (n.val + 1) | .ctx _ => 0
    let b := 8 <<< q.blk.toNat
    let one := fun (i : Nat) =>
      let c := fld str (f.width * i) f.width
      decodeToAcc (vtyFmt t) (if f.isBlock then decodeScaled f (fld sc (8 * (i / b)) 8) c else decodeElt f c)
    putGoverned x g t d ((List.range 256).map one)

/-! ## Arena access -/

/-- The run stopped with an exception (R295). -/
def vstop (x : Slice) (cause : BitVec 8) : Slice := { x with run := { x.run with exc := some cause } }

/-- ARENA and EMIT (R319). -/
def excArena : BitVec 8 := 0x10
def excEmit : BitVec 8 := 0x11

/-- The bytes a lane accesses: the first arena offset, the first byte of the register string, how many, and whether
the pair's high register takes the upper four (R341). -/
def laneAccess (r : RunCtx) (m : VMode) (off lane : Nat) : Nat × Nat × Nat :=
  let e := 256 * r.stripe + lane
  match m with
  | .w32 => (r.chunkBase + off + 4 * e, 4 * lane, 4)
  | .w64 => (r.chunkBase + off + 8 * e, 4 * lane, 8)
  | .p16 => (r.chunkBase + off + 2 * e, 2 * lane, 2)
  | .p8 => (r.chunkBase + off + e, lane, 1)
  | .b32 => (off, 4 * lane, 4)

/-- The governed lanes' bytes: arena offset, register (0 or 1 of a pair) and byte of its string. -/
def accessBytes (x : Slice) (g : Nat) (m : VMode) (off : Nat) : List (Nat × Nat × Nat) :=
  let gov := pget x g
  ((List.range 256).filter (fun i => bitOf gov i)).flatMap (fun i =>
    let (o, b, n) := laneAccess x.run m off i
    (List.range n).map (fun k => if k < 4 then (o + k, 0, b + k) else (o + k, 1, b + k - 4)))

/-- Whether the run may make an access (R341, R360): inside the arena, and not chunk-relative at a switch that is no
home. -/
def arenaOk (s : State) (x : Slice) (m : VMode) (bytes : List (Nat × Nat × Nat)) : Bool :=
  let d := descOf s x.run.slot
  let size := 65536 * (getGroup s x.run.slot).arena.length
  gdArena d != 0 && (m == .b32 || x.run.atHome) && bytes.all (fun b => decide (b.1 < size))

/-- The Firn address of an arena byte. -/
def arenaAddr (s : State) (slot o : Nat) : Nat := (getGroup s slot).arena.getD (o / 65536) 0 * 65536 + o % 65536

/-- The 256-byte lines that Firn addresses lie in, each once, in order of first use. -/
def linesUsed (as : List Nat) : List Nat :=
  as.foldr (fun a acc => if acc.contains (a / 256) then acc else (a / 256) :: acc) []

/-- The mask of a line's bytes that are accessed. -/
def lineMask (la : Nat) (as : List Nat) : BitVec 256 :=
  as.foldl (fun m a => if a / 256 == la then m ||| (1#256 <<< (a % 256)) else m) 0

/-- Bytes of a register string replaced. -/
def putBytes (v : BitVec 8192) (xs : List (Nat × Byte)) : BitVec 8192 :=
  putFields 8 v (xs.map (fun ib => (ib.1, ib.2.toNat)))

/-- The lines of Firn addresses read under a hint, a fault being met in the first: the state after, the lines with their numbers, and
whether poisoned or uncorrectable data is among the bytes read (R372, R374). -/
def readLines (s : State) (as : List Nat) (h : Hint) (req : Nat) (fault : MemFault) : State × List (Nat × BitVec 2048) × Bool :=
  (linesUsed as).foldl (fun (acc : State × List (Nat × BitVec 2048) × Bool) (la : Nat) =>
    let (dat, p, t) := readLine acc.1 (la * 256) (lineMask la as) h req (if acc.2.1.isEmpty then fault else .none)
    (t, (la, dat) :: acc.2.1, acc.2.2 || p)) (s, [], false)

/-- A byte among lines read. -/
def readByte (lines : List (Nat × BitVec 2048)) (a : Nat) : Byte :=
  match lines.find? (fun ld => ld.1 == a / 256) with
  | some ld => lineByte ld.2 (a % 256)
  | none => 0

/-- Bytes written to Firn line by line under a hint (R374). -/
def writeLines (s : State) (bs : List (Nat × Byte)) (h : Hint) (req : Nat) : State :=
  let as := bs.map (·.1)
  (linesUsed as).foldl (fun st la =>
    let dat := (bs.filter (fun p => p.1 / 256 == la)).foldl (fun (w : BitVec 2048) p =>
      w ||| BitVec.ofNat 2048 (p.2.toNat <<< (8 * (p.1 % 256)))) 0
    writeLine st (la * 256) (lineMask la as) dat h req) s

/-- VLD.S (R341, R372, R381); a fault is met in the first line read. -/
def vLd (s : State) (sl : SliceNo) (g : Nat) (m : VMode) (d : Nat) (h : Hint) (off : Nat) (fault : MemFault) : State :=
  let x := getSlice s sl
  let bytes := accessBytes x g m off
  if !arenaOk s x m bytes then setSlice s sl (vstop x excArena)
  else
    let phys := bytes.map (fun b => (arenaAddr s x.run.slot b.1, b.2.1, b.2.2))
    let as := phys.map (·.1)
    if as.any (burstWaits s) then setSlice s sl { x with run := { x.run with stalled := true } } else
    let (t, lines, pois) := readLines s as h (1 + sl.val) fault
    let y := getSlice t sl
    let lo := (phys.filter (fun b => b.2.1 == 0)).map (fun b => (b.2.2, readByte lines b.1))
    let hi := (phys.filter (fun b => b.2.1 == 1)).map (fun b => (b.2.2, readByte lines b.1))
    let y1 := vput y d (putBytes (vget y d) lo)
    let y2 := if m == .w64 then vput y1 (d + 1) (putBytes (vget y1 (d + 1)) hi) else y1
    setSlice t sl { y2 with run := { y2.run with poisoned := y2.run.poisoned || pois } }

/-- VST.S (R341). -/
def vSt (s : State) (sl : SliceNo) (g : Nat) (m : VMode) (a : VSrc) (h : Hint) (off : Nat) : State :=
  let x := getSlice s sl
  let bytes := accessBytes x g m off
  if !arenaOk s x m bytes then setSlice s sl (vstop x excArena)
  else
    let t := if m == .w64 then VTy.i64 else .i32
    let vals := srcLanes x t a
    let lo := (vbytes (ofLanes vals)).toArray
    let hi := (vbytes (ofLanes (vals.map (· / 2 ^ 32)))).toArray
    let phys := bytes.map (fun b =>
      (arenaAddr s x.run.slot b.1, if b.2.1 == 0 then lo.getD b.2.2 0 else hi.getD b.2.2 0))
    if (phys.map (·.1)).any (burstWaits s) then setSlice s sl { x with run := { x.run with stalled := true } }
    else writeLines s phys h (1 + sl.val)

/-! ## Emission -/

/-- VEMIT to the RESULT stream (R353, R355). -/
def emitResult (x : Slice) (g : Nat) (t : VTy) (a : VSrc) : Slice :=
  let r := x.run
  let gov := pget x g
  let els := ((srcLanes x t a).zipIdx.filter (fun ui => bitOf gov ui.2 && decide (256 * r.stripe + ui.2 < r.elems))).map
    (fun ui => (256 * r.stripe + ui.2, ui.1))
  if t != r.resType || els.any (fun e => (tget none r.emitted e.1).isSome) || r.stream == 2 then vstop x excEmit
  else { x with run := { r with
    stream := if els.isEmpty then r.stream else 1
    emitted := els.foldl (fun m e => tput none m e.1 (some e.2)) r.emitted } }

/-- VEMIT to the WEIGHTS stream (R354, R355). -/
def emitWeights (x : Slice) (g : Nat) (t : VTy) (a : VSrc) (q : VFmt) (rn : VRnd) : Slice :=
  let r := x.run
  let gov := pget x g
  let live := fun (i : Nat) => decide (256 * r.stripe + i < r.elems)
  let lanes := (List.range 256).filter (fun i => bitOf gov i && live i)
  let refuse := vstop x excEmit
  match qntFmt t q with
  | none => refuse
  | some f =>
    let b := 8 <<< q.blk.toNat
    let torn := f.isBlock && lanes.any (fun i => (List.range b).any (fun k =>
      let j := i / b * b + k
      live j && !bitOf gov j))
    if !(vtyF t) || q.fmt.toNat != r.outFmt || q.blk.toNat != r.outBlk || r.outDir || torn || r.stream == 1 ||
        lanes.any (fun i => (tget none r.emitted (256 * r.stripe + i)).isSome) then refuse
    else
      let o := quantise x t a f q.blk.toNat q.ovf.toNat (vrnd x rn) (fun i => bitOf gov i && live i) (fun i => bitOf (pget x 1) i)
      { x with run := { r with
        stream := if lanes.isEmpty then r.stream else 2
        emitted := o.codes.foldl (fun m e => tput none m (256 * r.stripe + e.1) (some e.2)) r.emitted
        scales := o.scales.foldl (fun m e => tput none m (256 * r.stripe / b + e.1) (some e.2)) r.scales
        flags := r.flags ||| o.flags
        vanished := satAdd32 r.vanished o.vanished
        zeros := satAdd32 r.zeros o.zeros } }

/-! ## One instruction, a stripe, a program -/

/-- A step of registers only. -/
def onSlice (s : State) (sl : SliceNo) (f : Slice → Slice) : State := setSlice s sl (f (getSlice s sl))

/-- One vector instruction on a slice's registers (R333). -/
def vexec (s : State) (sl : SliceNo) (o : VOp) : State :=
  match o with
  | .add g t d a b r => onSlice s sl (fun x => vAdd x g t d a b r)
  | .sub g t d a b r => onSlice s sl (fun x => vSub x g t d a b r)
  | .mul g t d a b r => onSlice s sl (fun x => vMul x g t d a b r)
  | .fma g t d a b r => onSlice s sl (fun x => vFma x g t d a b r)
  | .div g t d a b r => onSlice s sl (fun x => vDiv x g t d a b r)
  | .sqrt g t d a r => onSlice s sl (fun x => vSqrt x g t d a r)
  | .max g t d a b => onSlice s sl (fun x => vMaxMin true x g t d a b)
  | .min g t d a b => onSlice s sl (fun x => vMaxMin false x g t d a b)
  | .cmp g t d a b c => onSlice s sl (fun x => vCmp x g t d a b c)
  | .sel g t d a p imm => onSlice s sl (fun x => vSel x g t d a p imm)
  | .cvt g t t' d a r => onSlice s sl (fun x => vCvt x g t t' d a r)
  | .qnt g t d a f r => onSlice s sl (fun x => vQnt x g t d a f r)
  | .dqt g t d a f => onSlice s sl (fun x => vDqt x g t d a f)
  | .ld g m d h off => vLd s sl g m d h off.toNat .none
  | .st g m a h off => vSt s sl g m a h off.toNat
  | .emit g t a .result => onSlice s sl (fun x => emitResult x g t a)
  | .emit g t a (.weights f r) => onSlice s sl (fun x => emitWeights x g t a f r)

/-- Whether a run has stopped: an exception, poisoned data (R372) or a stack that takes no requests (R381). -/
def runStopped (x : Slice) : Bool := x.run.exc.isSome || x.run.poisoned || x.run.stalled

/-- A program's instructions in order, from index `i` on, until the run stops. -/
def runOps (s : State) (sl : SliceNo) : List VOp → Nat → State
  | [], _ => s
  | o :: rest, i =>
    let s1 := onSlice s sl (fun x => { x with run := { x.run with instr := i } })
    let s2 := vexec s1 sl o
    if runStopped (getSlice s2 sl) then s2 else runOps s2 sl rest (i + 1)

/-- The registers at the start of a stripe (R292): V0 (V0:V1) holds the elements' values, P1 the lanes that hold
elements, everything else zero. -/
def setupStripe (x : Slice) (j : Nat) (vals : Array Nat) : Slice :=
  let xs := (List.range 256).map (fun i => vals.getD (256 * j + i) 0)
  let ones := min 256 (x.run.elems - 256 * j)
  let y := { x with v := [], p := tput 0 [] 1 (BitVec.ofNat 256 (2 ^ ones - 1)), run := { x.run with stripe := j } }
  putTyped y x.run.resType 0 xs

/-- The stripes of a run in ascending order; `out` gathers V0 at the end of each. The spec states no value for an element
whose P1 bit a step program has cleared: it is free. -/
def runStripes (s : State) (sl : SliceNo) (ops : List VOp) (vals : Array Nat) (n : Nat) : Nat → List (List Nat) → State × List Nat
  | 0, out => (s, out.reverse.flatten)
  | k + 1, out =>
    let j := n - (k + 1)
    let s1 := onSlice s sl (fun x => setupStripe x j vals)
    let s2 := runOps s1 sl ops 0
    let y := getSlice s2 sl
    if runStopped y then (s2, []) else
    let wid := 2 ^ vtyBits y.run.resType
    let got := (typedLanes y y.run.resType 0).zipIdx.map (fun ui =>
      if bitOf (pget y 1) ui.2 then ui.1 else (Config.freeWord (s2.freeCtr + ui.2)).toNat % wid)
    runStripes { s2 with freeCtr := s2.freeCtr + 256 } sl ops vals n k (got :: out)

/-- The instructions of a directory entry's program, as the program store holds them. -/
def progOps (s : State) (i : Nat) : List VOp :=
  let w := tget 0 s.tbl.prog i
  (List.range (fld w 16 13)).filterMap (fun k =>
    decodeVec (BitVec.ofNat 64 (leNat (memBytes s.progStore (8 * (fld w 29 19 + k)) 8))))

/-- A whole run on a slice with a context and the elements' values: the state after it and, for a step program, the
elements' new values (R294). An instruction past the last reports the last (R355). -/
def runProgram (s : State) (sl : SliceNo) (ctx : RunCtx) (vals : List Nat) : State × List Nat :=
  let ops := progOps s ctx.prog
  let s1 := onSlice s sl (fun x => { x with run := { ctx with active := true } })
  let n := ceilDiv ctx.elems 256
  let (s2, out) := runStripes s1 sl ops vals.toArray n n []
  let y := getSlice s2 sl
  let short := y.run.stream == 2 && !(List.range ctx.elems).all (fun e => (tget none y.run.emitted e).isSome)
  let y1 := if !runStopped y && short then vstop y excEmit else y
  (setSlice s2 sl { y1 with run := { y1.run with active := false } }, out.take ctx.elems)

/-- The check of a program at the commit of its directory entry (R298, R352): `s` is the state without the entry. -/
def checkProgram (s : State) (_i : Nat) (w : Word) : Bool :=
  let base := fld w 29 19
  let len := fld w 16 13
  let ws := (List.range len).map (fun k => BitVec.ofNat 64 (leNat (memBytes s.progStore (8 * (base + k)) 8)))
  decide (base + len ≤ 524288) && decide (1 ≤ len) && decide (len ≤ 4096) &&
  !inLoaded s (8 * base) (8 * len) && programLegal (bitOf w 62) ws

/-- The record of a run's exception in the slice's error registers (R295, R423). -/
def serEvt (s : State) (sl : SliceNo) (bit slot prog instr : Nat) (cause : BitVec 8) : State :=
  recordEvt s (22 + sl.val) bit
    (packFields [(58, 6, bit), (50, 8, cause.toNat), (36, 14, slot), (26, 10, prog), (14, 12, instr)])

end Sys2Proof.Machine
end

