-- ==== Sys2Proof/Machine/Chunk.lean ====
section
/-! DEFINITION. Steps and chunks at a home: the step window (R51-R53), slots (R61, R62), placement (R28), the canonical
tree and the Moraine (R123-R125), the ways a chunk closes (R67, R118, R295) and completion records (R71-R74). -/

namespace Sys2Proof.Machine

/-- The key of a chunk in its step. -/
def chunkKey (b c : Nat) : Nat := b * 2 ^ 20 + c

/-- A step of a group. -/
def getStep (g : Group) (st : Nat) : StepRec := tget {} g.steps st
/-- A step replaced. -/
def putStep (g : Group) (st : Nat) (x : StepRec) : Group := { g with steps := tput {} g.steps st x }
/-- A chunk of a step. -/
def chunkOf (x : StepRec) (b c : Nat) : Chunk := tget {} x.chunks (chunkKey b c)
/-- A chunk of a step replaced. -/
def putChunkIn (x : StepRec) (b c : Nat) (k : Chunk) : StepRec := { x with chunks := tput {} x.chunks (chunkKey b c) k }

/-- A chunk by its place. -/
def getChunk (s : State) (slot st b c : Nat) : Chunk := chunkOf (getStep (getGroup s slot) st) b c

/-- A chunk replaced. -/
def putChunk (s : State) (slot st b c : Nat) (k : Chunk) : State :=
  let g := getGroup s slot
  setGroup s slot (putStep g st (putChunkIn (getStep g st) b c k))

/-- A chunk changed. -/
def onChunk (s : State) (i : ChunkId) (f : Chunk → Chunk) : State :=
  putChunk s i.slot.val i.step.toNat i.bucket.toNat i.chunk.toNat
    (f (getChunk s i.slot.val i.step.toNat i.bucket.toNat i.chunk.toNat))

/-- The chunk a name stands for. -/
def theChunk (s : State) (i : ChunkId) : Chunk := getChunk s i.slot.val i.step.toNat i.bucket.toNat i.chunk.toNat

/-- A step changed. -/
def onStep (s : State) (slot st : Nat) (f : StepRec → StepRec) : State :=
  let g := getGroup s slot
  setGroup s slot (putStep g st (f (getStep g st)))

/-- The chunks of a step that this switch homes, by the group ID and the bucket lengths of the descriptor's commit
(R519). -/
def homed (s : State) (slot : Nat) : List (Nat × Nat) :=
  match (getGroup s slot).gid with
  | some g => homedChunks (descOf s slot) g (getGroup s slot).lens
  | none => []

/-- The step sequence numbers of the window of a group, from B on (R51). -/
def windowSteps (g : Group) : List Nat := (List.range 4).map (fun d => (g.base + d) % 65536)

/-- The distance of a step from B (R51). -/
def stepDist (g : Group) (st : Nat) : Nat := (st + 65536 - g.base % 65536) % 65536

/-- A chunk that is neither complete nor closed. -/
def isOpen (k : Chunk) : Bool :=
  match k.ph with
  | .unbound => true
  | .bound => true
  | _ => false

/-- A closed chunk: delivered, or without a result. -/
def isClosed (k : Chunk) : Bool :=
  match k.ph with
  | .closed _ => true
  | _ => false

/-- Every chunk of every group, for the placement decisions. -/
def allChunks (s : State) : List Chunk :=
  s.groups.flatMap (fun (kg : Nat × Group) => kg.2.steps.flatMap (fun (ks : Nat × StepRec) =>
    ks.2.chunks.map (fun (kc : Nat × Chunk) => kc.2)))

/-- Chunk slots a group uses (R61). -/
def slotsUsed (s : State) (slot : Nat) : Nat :=
  ((getGroup s slot).steps.map (fun (ks : Nat × StepRec) =>
    (ks.2.chunks.filter (fun (kc : Nat × Chunk) => kc.2.slotHeld)).length)).sum +
  (s.combs.filter (fun (kc : Nat × Option Comb) => match kc.2 with | some x => x.slot == slot | none => false)).length

/-! ## Slices and placement (R28, R31-R35) -/

/-- A slice of the active set that runs. -/
def sliceRuns (s : State) (k : Nat) : Bool :=
  bitOf s.fab.sliceSet k && decide (k < 18) && !(getSlice s (fin18 k)).halted && pdOn s (9 + k / 2) &&
  (gradeS s || decide (k < 14))

/-- The running slices of the active set. -/
def runningSlices (s : State) : List Nat := (List.range 18).filter (sliceRuns s)

/-- Bound open chunks of a slice, and the partials open at the combiner that are bound to it. -/
def boundCount (s : State) (k : Nat) : Nat :=
  ((allChunks s).filter (fun c => c.ph == .bound && c.slice == some k)).length +
  (s.combs.filter (fun (kc : Nat × Option Comb) => match kc.2 with
    | some x => !x.sealed && x.slice == k
    | none => false)).length

/-- The running slice with the fewest bound open chunks, ties to the lowest number (R28). -/
def leastLoaded (s : State) : Option Nat :=
  (runningSlices s).foldl (fun (acc : Option Nat) k => match acc with
    | none => some k
    | some b => if boundCount s k < boundCount s b then some k else some b) none

/-- Bytes of the accumulator store left for a bulk accumulator: 48 MiB less the express reservations and the bulk
accumulators it holds (R46, R130). -/
def accFree (s : State) : Nat :=
  let express := (s.groups.map (fun (kg : Nat × Group) => kg.2.accReserved)).sum
  let bulk := (s.groups.map (fun (kg : Nat × Group) =>
    let d := descOf s kg.1
    if gdExpress d then 0 else
    (slotParts d).1 * (kg.2.steps.map (fun (ks : Nat × StepRec) =>
      (ks.2.chunks.filter (fun (kc : Nat × Chunk) => kc.2.slotHeld && !kc.2.accFirn)).length)).sum)).sum
  50331648 - express - bulk

/-- Bytes of Moraine entries in the resident share of 16 MiB (R130). -/
def moraineUsed (s : State) : Nat :=
  ((allChunks s).map (fun c => ((c.moraine.filter (fun e => !e.inFirn)).map (·.bytes)).sum)).sum

/-- A place for `n` bytes in Firn, at the start of a burst: the switch's own choice (R28; log 87). -/
def freePlace (s : State) (n : Nat) : Nat := (Config.accAddr s.freeCtr).toNat % ((firnSize - n) / 256) * 256

/-- The first accepted contribution binds the chunk (R28): slice, accumulator location, quota slot. -/
def bindChunk (s : State) (i : ChunkId) (d : Desc) (k : Nat) : State :=
  let inFirn := !gdExpress d && decide (accFree s < (slotParts d).1)
  onChunk { s with freeCtr := s.freeCtr + 1 } i (fun x => { x with
    ph := .bound, slice := some k, slotHeld := true, accFirn := inFirn, accAddr := freePlace s (slotParts d).1 })

/-- The step opens with every IDLE step before it in the window (R53). -/
def openSteps (s : State) (slot st : Nat) (d : Desc) (ts : Word) : State :=
  let g := getGroup s slot
  let exp : Option Word := if gdDeadline d == 0 then none else some (ts + BitVec.ofNat 64 (16 * gdDeadline d))
  (((windowSteps g).take (stepDist g st + 1)).foldl (fun t n =>
    onStep t slot n (fun x => if x.st == .idle then { x with st := .open_, t0 := ts, expiry := exp } else x)) s)

/-! ## Group counters (R60) -/

/-- A group counter raised by `n`, saturating. -/
def countGroup (s : State) (slot : Nat) (c : GCnt) (n : Nat) : State :=
  let e := tget (0, 0) s.tbl.gcnt slot
  let up := fun (w : Word) (lo : Nat) => setFld w lo 32 (satAdd32 (fld w lo 32) n)
  let e' : Word × Word := match c with
    | .late => (up e.1 32, e.2)
    | .busy => (up e.1 0, e.2)
    | .dup => (e.1, up e.2 32)
    | .refused => (e.1, up e.2 0)
  { s with tbl := { s.tbl with gcnt := tput (0, 0) s.tbl.gcnt slot e' } }

/-! ## Completion records (R71) and the step's progress (R53) -/

/-- The chunks of a bucket that this switch homes, with their records. -/
def bucketChunksOf (s : State) (slot st b : Nat) : List (Nat × Chunk) :=
  let x := getStep (getGroup s slot) st
  ((homed s slot).filter (fun bc => bc.1 == b)).map (fun bc => (bc.2, chunkOf x b bc.2))

/-- The status a closed chunk carries. -/
def chunkStatus (k : Chunk) : RecStatus :=
  match k.ph with
  | .closed st => st
  | .rooted st => st
  | _ => .empty

/-- Ranks of a presence set. -/
def ranksOf (n present : Nat) : List Nat := (List.range n).filter (fun r => (present >>> r) % 2 == 1)

/-- Consecutive chunks with the same present set, status and flags, gathered into runs (R71). -/
def gatherRuns (b n : Nat) (t : Word) : List (Nat × Chunk) → List RunRec → List RunRec
  | [], acc => acc.reverse
  | (c, k) :: rest, acc =>
    let one : RunRec := {
      bucket := b, first := c, last := c, count := 1, present := k.present, status := chunkStatus k,
      flags := k.flags, vanished := k.vanished, zeros := k.zeros, closeTime := t, todo := List.range n }
    match acc with
    | [] => gatherRuns b n t rest [one]
    | r :: rs =>
      if r.present == k.present && r.status == chunkStatus k && r.flags == k.flags then
        gatherRuns b n t rest ({ r with
          last := c, count := r.count + 1, vanished := satAdd32 r.vanished k.vanished
          zeros := satAdd32 r.zeros k.zeros } :: rs)
      else gatherRuns b n t rest (one :: r :: rs)

/-- Builds the records of a bucket once every chunk of it that this switch homes has been completed or closed. -/
def buildRecords (s : State) (slot st b : Nat) : State :=
  let x := getStep (getGroup s slot) st
  let ks := bucketChunksOf s slot st b
  if x.builtBuckets.contains b || ks.isEmpty || !ks.all (fun ck => isClosed ck.2) then s else
  onStep s slot st (fun y => { y with
    builtBuckets := y.builtBuckets ++ [b]
    runs := y.runs ++ gatherRuns b (gdN (descOf s slot)) (devTime s) ks [] })

/-- A message of a step that is still unanswered, or work of it that still waits. -/
def stepBusy (s : State) (slot st : Nat) : Bool :=
  s.msgs.any (fun m => match m.kind with
    | .result c => c.slot.val == slot && c.step.toNat == st
    | .record sl n _ => sl == slot && n == st
    | _ => false) ||
  s.jobs.any (fun j => match j with
    | .build c => c.slot.val == slot && c.step.toNat == st
    | .record sl n _ _ => sl == slot && n == st
    | _ => false)

/-- B advances past consecutive CLOSED steps, which become IDLE (R53). -/
def advanceBase (g : Group) : Nat → Group
  | 0 => g
  | n + 1 =>
    if (getStep g g.base).st == .closed then
      advanceBase { putStep g g.base {} with base := (g.base + 1) % 65536 } n
    else g

/-- The step's moves that follow from its chunks and messages: to DELIVERING when no chunk is open, to CLOSED when all
records are sent and all messages finished; then the window moves. The expiry is cancelled from OPEN only (R53). -/
def settleStep (s : State) (slot st : Nat) : State :=
  let x := getStep (getGroup s slot) st
  let hs := homed s slot
  let done := hs.all (fun bc => !isOpen (chunkOf x bc.1 bc.2))
  let s1 := if (x.st == .open_ || x.st == .expired) && done && !hs.isEmpty then
      onStep s slot st (fun y => { y with
        st := .delivering, expiry := if x.st == .open_ then none else y.expiry }) else s
  let y := getStep (getGroup s1 slot) st
  let built := (hs.map (·.1)).all (fun b => y.builtBuckets.contains b)
  if y.st == .delivering && built && y.runs.all (fun r => r.todo.isEmpty) && !stepBusy s1 slot st then
    let s2 := onStep s1 slot st (fun z => { z with st := .closed })
    setGroup s2 slot (advanceBase (getGroup s2 slot) 4)
  else s1

/-- A chunk has completed or closed: the bucket's records and the step follow. -/
def chunkDone (s : State) (i : ChunkId) : State :=
  settleStep (buildRecords s i.slot.val i.step.toNat i.bucket.toNat) i.slot.val i.step.toNat

/-! ## Closing a chunk without a result -/

/-- Contributions accepted for a chunk and not yet added. -/
def pendingOps (s : State) (i : ChunkId) : List SerOp :=
  ((s.intake.filter (fun x => x.2.cid == i)).map (·.2)) ++
  s.slices.toList.flatMap (fun x => x.ops.filter (fun o => o.cid == i))

/-- Contributions of a chunk taken out of the slices' queues and from the ports' buffers, whose credits return. -/
def dropOps (s : State) (i : ChunkId) : State :=
  let gone := s.intake.filter (fun x => x.2.cid == i)
  let t := { s with
    intake := s.intake.filter (fun x => x.2.cid != i)
    slices := s.slices.map (fun x =>
      let out := x.ops.filter (fun o => o.cid == i)
      { x with ops := x.ops.filter (fun o => o.cid != i),
               intakeUsed := x.intakeUsed - (out.map (fun o => o.c.frame.payload.length)).sum }) }
  gone.foldl (fun u x => returnLocal u x.2.c) t

/-- Every frame of a transit partial has been added (R135). -/
def partDone (p : PartRx) : Bool := p.added.length == p.count

/-- The header of the frames of a transit partial as far as its answers need it. -/
def partFrame (p : PartRx) : Frame := { w0 := mkW0 1 0 false false p.dest p.src, w1 := mkW1 p.msg 0 p.count }

/-- An answer to the message of a transit partial (R171, R176). -/
def answerPart (s : State) (p : PartRx) (typ reason firstMissing : Nat) (ctx : Word) (chunk : Nat) : State :=
  answerCtx s typ (partFrame p) reason firstMissing ctx chunk

/-- The answer that an accepted partial has still to get once its chunk has closed, kept until its last frame has come (R118, R53). -/
def keepAccepted (s : State) (p : PartRx) (aborted : Bool) : State :=
  let f := partFrame p
  putRx s f { rxOf s f with got := p.got, refused := some (.accepted aborted, p.ranks) }

/-- A chunk closes without a result (R67, R118, R295): its status and flags, its slot and buffers released. Contributions that
were accepted for it and not yet added are answered ACK, and so is a transit partial, at once or when its last frame comes (R118).
CAUSE bits that expiry has set do not stay on a chunk that closes with ARITH_CHECK or RETRY for another cause: CAUSE_DEADLINE
and CAUSE_MIN_PRESENT are those of this close, and CAUSE_SCALE, where the chunk was rooted at expiry and REPEAT withholds
it, stands alone (DESIGN CHOICE, log 101). -/
def closeChunk (s : State) (i : ChunkId) (st : RecStatus) (fl : Flags) : State :=
  let ops := (pendingOps s i).filter (fun o => !isTransit o.c.frame)
  let parts := (theChunk s i).parts.filter (fun p => p.whole)
  let s1 := ops.foldl (fun t o => ackFrame t o.c.frame) (dropOps s i)
  let s2 := parts.foldl (fun t p => answerPart t p tyAck 0 0 0 0) s1
  let s3 := ((theChunk s i).parts.filter (fun p => !p.whole)).foldl (fun t p => keepAccepted t p false) s2
  let keep : Flags := if st == .arithCheck || st == .retry then
      ~~~(causeDeadline ||| causeMinPresent ||| causeScale) else BitVec.allOnes 11
  chunkDone (onChunk s3 i (fun k => { k with
    ph := .closed st, slotHeld := false, acc := none, accRes := [], moraine := [], parts := [], queued := 0, encoded := none,
    flags := (k.flags &&& keep) ||| fl })) i

/-- A chunk closed with ARITH_CHECK (R118). -/
def closeArith (s : State) (i : ChunkId) : State := closeChunk s i .arithCheck 0

/-! ## Physical faults (R117, R372, R424, R426) -/

/-- Whether a table lies in an on-die memory with its own code (R308, R423): all but those in Firn and the row remap table,
which the Firn controllers hold. -/
def onDie (id : Nat) : Bool := id != 0x03 && id != 0x04 && id != 0x07 && id != 0x0E

/-- The open chunks of a slot, by name: those of its OPEN and EXPIRED steps that this switch homes, bound or not. -/
def openChunksOf (s : State) (slot : Nat) : List ChunkId :=
  (getGroup s slot).steps.flatMap (fun (ks : Nat × StepRec) =>
    if ks.2.st == .open_ || ks.2.st == .expired then
      ((homed s slot).filter (fun bc => isOpen (chunkOf ks.2 bc.1 bc.2))).map (fun bc =>
        ({ slot := ⟨slot % 16384, Nat.mod_lt _ (by decide)⟩, step := BitVec.ofNat 16 ks.1,
           bucket := BitVec.ofNat 16 bc.1, chunk := BitVec.ofNat 20 bc.2 } : ChunkId))
    else [])

/-- An entry poisoned (R426): the open chunks of the group that a poisoned index entry or descriptor names close with
ARITH_CHECK. -/
def poisonEntry (s : State) (id i : Nat) : State :=
  let t := { s with tbl := { s.tbl with poison := tput false s.tbl.poison (id * 2 ^ 32 + i) true } }
  let slot := if id == 2 then some i else if id == 1 && bitOf (tget 0 s.tbl.gidx i) 15 then some (fld (tget 0 s.tbl.gidx i) 0 14) else none
  match slot with
  | none => t
  | some n => (openChunksOf t n).foldl closeArith t

/-- A lookup meets an error in the entry of an on-die table that it reads (R423, R424, R426). -/
def lookupFault (s : State) (id i : Nat) (lost : Bool) : State :=
  if lost then poisonEntry (cmsEvt s 1 3 0 id i) id i else cmsEvt s 0 3 0 id i

/-- What the lookups of a command meet, as far as they are lookups of its tables. -/
def meetLookups (s : State) (ids : List Nat) (xs : List TblFault) : State :=
  (xs.filter (fun x => ids.contains x.tbl.toNat)).foldl (fun t x => lookupFault t x.tbl.toNat x.idx x.lost) s

/-- Whether a slice meets a fault as it works on an operation: one of an instruction fetch only where a program runs. An adder's
fault is met by the residues alone. -/
def faultMet (f : SeracFault) (runs : Bool) : Bool :=
  match f with
  | .none | .adder .. => false
  | .storeUncorr _ | .storeCorr _ | .progEntry _ => runs
  | _ => true

/-- Whether a fault that is met closes the chunk. -/
def faultShows (f : SeracFault) (runs : Bool) : Bool :=
  match f with
  | .none | .adder .. | .accCorr _ | .storeCorr _ | .progEntry false => false
  | .storeUncorr _ | .progEntry true => runs
  | _ => true

/-- The requester class of a slice (R388). -/
def seracReq (sl : SliceNo) : Nat := 1 + sl.val

/-- An event of the accumulator store (R423). -/
def accEvt (s : State) (bit a : Nat) : State :=
  let bank := (a / 128) % 512
  recordEvt s (20 + bank / 256) bit (packFields [(63, 1, 1), (0, 28, a / 128 * 128)])

/-- The event of a physical fault that a slice meets (R118, R372, R424, R426). -/
def seracFaultEvt (s : State) (sl : SliceNo) (slot prog : Nat) (f : SeracFault) : State :=
  match f with
  | .none => s
  | .adder .. => serEvt s sl 1 slot 0 0 0
  | .regParity => serEvt s sl 2 slot 0 0 0
  | .accUncorr a => accEvt s 3 a.toNat
  | .accCorr a => accEvt s 2 a.toNat
  | .storeUncorr a => cmsEvt s 1 2 0 0 a.toNat
  | .storeCorr a => cmsEvt s 0 2 0 0 a.toNat
  | .progEntry lost => lookupFault s 0x0D prog lost
  | .firnUncorr a => (fetchBurst s (a.toNat / 256 * 256) (seracReq sl) .uncorrectable).2.2

/-- The error of an adder: the element, and by how much its exact sum comes out larger, in units of the least quantum of the
accumulation format or of the grid (log 106). -/
def slipOf (f : SeracFault) : Option (Nat × Int) :=
  match f with
  | .adder e delta shift => some (e.toNat, delta.toInt * (2 ^ shift.toNat : Nat))
  | _ => none

/-- An element of a list changed. -/
def bumpAt {α : Type} (xs : List α) (i : Nat) (f : α → α) : List α :=
  match xs[i]? with
  | some x => xs.set i (f x)
  | none => xs

/-- Ranges of Firn that a slice reads for an accumulator or Moraine entries, each under its hint (R371, R372, R377): whether any of
it is uncorrectable or poisoned, and the state with the events. -/
def firnMeets (s : State) (sl : SliceNo) (rs : List (Hint × Nat × Nat)) : Bool × State :=
  rs.foldl (fun bt r =>
    let x := firnRead bt.2 r.2.1 r.2.2 r.1 (seracReq sl) (linesOf r.2.2)
    (bt.1 || x.2.1, x.2.2)) (false, s)

/-- Ranges of Firn that a slice writes for them (R377). The values stand in the chunk; how they lie there as bytes nothing states, and
the bytes are free (log 128). -/
def firnKeeps (s : State) (sl : SliceNo) (rs : List (Hint × Nat × Nat)) : State :=
  rs.foldl (fun t r =>
    let (bs, u) := freeBytes t r.2.2
    firnWrite u r.2.1 bs r.1 (seracReq sl) (linesOf r.2.2)) s

/-- What a slice meets as it works on a chunk: whether the chunk closes for it, and the state with the events. -/
def meetFaults (s : State) (sl : SliceNo) (slot prog : Nat) (f : SeracFault) (runs : Bool) (reads : List (Hint × Nat × Nat)) : Bool × State :=
  let r := firnMeets s sl reads
  (r.1 || faultShows f runs, if faultMet f runs then seracFaultEvt r.2 sl slot prog f else r.2)

/-- Where the accumulator of a chunk lies in Firn, read and written under KEEP (R377). -/
def accPlace (d : Desc) (k : Chunk) : List (Hint × Nat × Nat) :=
  if k.accFirn then [(.keep, k.accAddr, (slotParts d).1)] else []

/-- Where Moraine entries lie in Firn, written under KEEP and read under LAST (R377). -/
def entPlaces (h : Hint) (es : List MorEnt) : List (Hint × Nat × Nat) :=
  (es.filter (·.inFirn)).map (fun e => (h, e.addr, e.bytes))

/-- What work on a chunk that changes its buffers from those of `k` to those of `k'` reads in Firn. -/
def firnReads (d : Desc) (k k' : Chunk) : List (Hint × Nat × Nat) :=
  (if k.acc.isSome then accPlace d k else []) ++ entPlaces .last (k.moraine.filter (fun e => !k'.moraine.contains e))

/-- What it writes there. -/
def firnStores (d : Desc) (k k' : Chunk) : List (Hint × Nat × Nat) :=
  (if k'.acc.isSome then accPlace d k' else []) ++ entPlaces .keep (k'.moraine.filter (fun e => !k.moraine.contains e))

/-! ## The tree (R124, R125) -/

/-- The levels above the leaves. -/
def treeDepth (n : Nat) : Nat := clog2 n

/-- A value on its way up the tree: whether it is still a leaf in its arrival format (R127), the error that its next add is to meet,
the flags raised on its way, and whether an add's residues have shown an error (R117). -/
structure Walk where
  val : List Nat
  leaf : Bool := true
  slip : Option (Nat × Int) := none
  flags : Flags := 0
  miss : Bool := false
  deriving DecidableEq, Repr

/-- Codes combined, the left ones with the residues that travel with them (R117, R123). -/
def joinVals (d : Desc) (slip : Option (Nat × Int)) (ra a b : List Nat) : List Nat × Flags × Bool :=
  match slip with
  | none => let (x, g) := accOps d a b; (x, g, false)
  | some (e, err) => let (x, g) := accOpsErr d e err a b; (x, g, missShows d e err ra a b)

/-- A walk combined with its waiting sibling, which stands on the left where `left`. -/
def walkJoin (d : Desc) (w : Walk) (e : MorEnt) (left : Bool) : Walk :=
  let r := if left then joinVals d w.slip e.res e.val w.val else joinVals d w.slip (residuesOf d w.val) w.val e.val
  { val := r.1, leaf := false, slip := none, flags := w.flags ||| r.2.1, miss := w.miss || r.2.2 }

/-- The routine of R124: the entries, and the walk's end, at the root where the Bool says so. -/
def treeAccept (d : Desc) : Nat → List MorEnt → Nat → Nat → Walk → List MorEnt × Bool × Walk
  | 0, ents, _, _, w => (ents, true, w)
  | fuel + 1, ents, l, i, w =>
    if treeDepth (gdN d) ≤ l then (ents, true, w) else
    let sib := i ^^^ 1
    if gdN d ≤ sib <<< l then treeAccept d fuel ents (l + 1) (i / 2) w
    else
      match takeFirst (fun (e : MorEnt) => e.level == l && e.node == sib) ents with
      | some (e, rest) => treeAccept d fuel rest (l + 1) (i / 2) (walkJoin d w e (i % 2 == 1))
      | none =>
        let e : MorEnt := { level := l, node := i, val := w.val, bytes := if w.leaf then 4096 else accBytes d, inFirn := false,
                            res := residuesOf d w.val }
        (ents ++ [e], false, w)

/-- One level of R125: entries in ascending index order, siblings combined, the others moved up. -/
def resolveLevel (d : Desc) (l : Nat) : Nat → List MorEnt → Option (Nat × Int) → List MorEnt × Walk
  | 0, es, slip => (es, { val := [], slip })
  | fuel + 1, es, slip =>
    match es with
    | [] => ([], { val := [], slip })
    | e :: rest =>
      match takeFirst (fun (x : MorEnt) => x.node == (e.node ^^^ 1)) rest with
      | some (w, rest') =>
        let r := walkJoin d { val := w.val, slip } e (decide (e.node < w.node))
        let (out, z) := resolveLevel d l fuel rest' none
        ({ e with level := l + 1, node := e.node / 2, val := r.val, res := residuesOf d r.val } :: out,
          { z with flags := r.flags ||| z.flags, miss := r.miss || z.miss })
      | none =>
        let (out, z) := resolveLevel d l fuel rest slip
        ({ e with level := l + 1, node := e.node / 2 } :: out, z)

/-- The Moraine resolved from level `l` up (R125): the root over the present set, the flags, and whether an add's residues have
shown an error. -/
def resolveTree (d : Desc) : Nat → Nat → List MorEnt → Option (Nat × Int) → Option (List Nat) × Flags × Bool
  | 0, _, es, _ => (es.head?.map (·.val), 0, false)
  | fuel + 1, l, es, slip =>
    let here := (es.filter (fun e => e.level == l)).mergeSort (fun a b => a.node ≤ b.node)
    let above := es.filter (fun e => e.level != l)
    let (up, z) := resolveLevel d l (here.length + 1) here slip
    let r := resolveTree d fuel (l + 1) (above ++ up) z.slip
    (r.1, z.flags ||| r.2.1, z.miss || r.2.2)

/-- The codes of an accumulator. -/
def accCodes : Option AccV → List Nat
  | some (.codes xs) => xs
  | _ => []

/-- The integers of an EXACT accumulator. -/
def accGrid : Option AccV → List (Int × BitVec 4)
  | some (.grid xs) => xs
  | _ => []

/-- An operand of codes combined into an accumulator on the left (R131): the accumulator, the flags, and whether an add's residues
have shown an error. -/
def accAdd (d : Desc) (k : Chunk) (v : List Nat) (slip : Option (Nat × Int)) : AccV × Flags × Bool :=
  match k.acc with
  | some (.codes xs) => let (x, g, m) := joinVals d slip k.accRes xs v; (.codes x, g, m)
  | _ => (.codes v, 0, false)

/-- Grid elements combined into an EXACT accumulator (R111): the accumulator, and whether an add's residues have shown an error. -/
def gridAdd (d : Desc) (k : Chunk) (v : List (Int × BitVec 4)) (slip : Option (Nat × Int)) : AccV × Bool :=
  match k.acc with
  | some (.grid xs) =>
    match slip with
    | none => (.grid ((xs.zip v).map (fun xy => gridOp (gdRed d) xy.1 xy.2)), false)
    | some (e, err) => (.grid (gridOpsErr (gdRed d) e err xs v), gridMissShows (gdRed d) e err k.accRes xs v)
  | _ => (.grid v, false)

/-- The residues that travel with an accumulator's elements (R117). -/
def accResidues (d : Desc) : AccV → List Nat
  | .codes xs => residuesOf d xs
  | .grid xs => gridResidues xs

/-- A chunk with every rank present and nothing still on its way is complete. -/
def complete (d : Desc) (k : Chunk) : Bool :=
  k.ph == .bound && popCount k.present (gdN d) == gdN d && k.queued == 0 && k.parts.all partDone

/-- A bound chunk that has become complete waits, with status OK, for its final conversion or FIN run (R53). -/
def tryComplete (s : State) (i : ChunkId) : State :=
  if complete (descOf s i.slot.val) (theChunk s i) then
    let t := onChunk s i (fun k => { k with ph := .rooted .ok, since := 2 * now s })
    settleStep t i.slot.val i.step.toNat
  else s

end Sys2Proof.Machine
end

