-- ==== Sys2Proof/Machine/Contrib.lean ====
section
/-! DEFINITION. Contributions at a home: the dispatcher's checks (R57-R59, R63, R70), the slice intakes (R522), the
reduction of a contribution (R120, R109, R290, R124, R111, R131), FIN runs (R291, R350-R356), expiry (R66, R67), aborts
(R53-R55), transit partials (R135-R137), and the slice set (R32-R35, R425). -/

namespace Sys2Proof.Machine

/-! ## The dispatcher -/

/-- The descriptor slot of a group ID, when its entries are valid and sound (check 1, R426). A descriptor with VALID 1 whose
definition failed takes no part either (R37), and its contributions are refused with UNKNOWN_GROUP (DESIGN CHOICE, log 116). -/
def slotOf (s : State) (gid : Nat) : Option Nat :=
  let e := tget 0 s.tbl.gidx gid
  let slot := fld e 0 14
  if bitOf e 15 && !isPoisoned s 0x01 gid && !isPoisoned s 0x02 slot && gdLive (descOf s slot) then some slot else none

/-- Check 2 for a group ID. -/
def homeHere (d : Desc) (f : Frame) : Bool :=
  gdIsHome d && homeIndex (fGroup f) (fBucket f) (fChunk f) (gdHomes d) == gdSelf d

/-- Check 4: bucket, chunk and element count. -/
def rangeOk (s : State) (d : Desc) (f : Frame) : Bool :=
  decide (fBucket f < gdBuckets d) && decide (fChunk f < bucketChunks (bucketLen s d (fBucket f))) &&
  chunkElems d (chunkBytes (bucketLen s d (fBucket f)) (fChunk f)) == some (fElems f)

/-- Check 5 for a member's contribution (R108). -/
def fmtOk (d : Desc) (f : Frame) : Bool :=
  match gdIn d with
  | none => false
  | some i =>
    fFmt f == i.code && fBlk f == gdInBlk d && fDir f == gdInDir d &&
    (if gdExact d then
      decide (fOffset f ≤ offsetLimit d) && (decide (0 ≤ fOffset f) || !(i.isBlock || i == .int32))
    else fOffset f == 0)

/-- The name of a frame's chunk in a slot. -/
def frameChunk (slot : Nat) (f : Frame) : ChunkId :=
  { slot := ⟨slot % 16384, Nat.mod_lt _ (by decide)⟩, step := BitVec.ofNat 16 (fStep f),
    bucket := BitVec.ofNat 16 (fBucket f), chunk := BitVec.ofNat 20 (fChunk f) }

/-- A contribution to an OPEN step is late by its ingress timestamp alone (R66). -/
def isLate (x : StepRec) (ts : Word) : Bool :=
  match x.expiry with | none => false | some e => decide (e.toNat ≤ ts.toNat)

/-- Check 6 (R51, R53, R55, R66) on a contribution with an ingress timestamp: none when it passes. A contribution that was on time
by its timestamp, and whose frame ends after DEADLINE_EXPIRY has been commanded, is still accepted in EXPIRED for a chunk that is open
(DESIGN CHOICE, log 114). -/
def stepVerdict (s : State) (slot : Nat) (f : Frame) (ts : Word) : Option Verdict :=
  let g := getGroup s slot
  let dist := stepDist g (fStep f)
  let x := getStep g (fStep f)
  if dist ≥ 32768 then some (.refuse tyLate 3 (some (slot, .late)))
  else if dist ≥ 4 then some (.refuse tyBusy 2 (some (slot, .busy)))
  else if x.st == .idle || (x.st == .open_ && !isLate x ts) then none
  else if x.st == .expired && !isLate x ts && isOpen (theChunk s (frameChunk slot f)) then none
  else if x.aborted then some (.refuse tyNotice 9 (some (slot, .refused)))
  else some (.refuse tyLate 3 (some (slot, .late)))

/-- Whether a chunk can be taken to a slice: unbound with some running slice, or bound to one that is not stopped and
not outside a set that holds no running slice (R35, R425). -/
def sliceTakes (s : State) (k : Chunk) : Bool :=
  match k.slice with
  | none => (leastLoaded s).isSome
  | some n => if (getSlice s (fin18 n)).halted then false else sliceRuns s n || !(runningSlices s).isEmpty

/-- Whether a bucket entry that check 4 reads is poisoned (R372). -/
def bucketPoisoned (s : State) (d : Desc) (f : Frame) : Bool :=
  decide (fBucket f < gdBuckets d) && isPoisoned s 0x04 (gdBucketBase d + fBucket f)

/-- The eight checks of R57 on a member's contribution with an ingress timestamp, in their order. A poisoned entry among
those read discards the frame without an answer (R372). Where a chunk finds the quota full and no slice running as well, it is
answered BUSY_QUOTA and not NACK FULL (DESIGN CHOICE, log 94: check 8 comes before the binding that R35 prevents). -/
def dispatchVerdict (s : State) (f : Frame) (ts : Word) : Verdict :=
  match slotOf s (fGroup f) with
  | none => .refuse tyNotice 4 none
  | some slot =>
    let d := descOf s slot
    let refused := fun (r : Nat) => Verdict.refuse tyNotice r (some (slot, .refused))
    if !homeHere d f then refused 5
    else if decide (gdN d ≤ fRank f) then refused 6
    else if isPoisoned s 0x03 (gdMemberBase d + fRank f) then .discard
    else if fSrc f != endpointOf s d (fRank f) then refused 6
    else if bucketPoisoned s d f then .discard
    else if !rangeOk s d f then refused 7
    else if !fmtOk d f then .format slot
    else match stepVerdict s slot f ts with
      | some v => v
      | none =>
        let k := theChunk s (frameChunk slot f)
        if !isOpen k || (k.present >>> fRank f) % 2 == 1 then .duplicate slot
        else if k.ph == .unbound && decide (gdQuota d ≤ slotsUsed s slot) then .refuse tyBusy 1 (some (slot, .busy))
        else if !sliceTakes s k then .noSlice
        else .accept slot

/-- FORMAT_REJECT of the record that covers a chunk (R58): while the step stands in the window. -/
def markFormat (s : State) (slot : Nat) (f : Frame) : State :=
  if stepDist (getGroup s slot) (fStep f) < 4 then
    onChunk s (frameChunk slot f) (fun k => { k with flags := k.flags ||| formatReject })
  else s

/-- A refusal answered and counted. -/
def applyRefusal (s : State) (f : Frame) (typ reason : Nat) (cnt : Option (Nat × GCnt)) : State :=
  let t := match cnt with
    | none => onFab s (fun x => { x with unknownGroup := satAdd32 x.unknownGroup 1 })
    | some (slot, c) => countGroup s slot c 1
  refuseContrib t typ f reason

/-- A frame accepted for a chunk goes to the chunk's slice (R22, R522). -/
def toSlice (s : State) (i : ChunkId) (l : LocalC) : State :=
  let o : SerOp := { c := l, cid := i, rank := fRank l.frame, express := gdExpress (descOf s i.slot.val), since := 2 * now s }
  let t := onChunk s i (fun k => { k with queued := k.queued + 1 })
  { t with intake := t.intake ++ [((theChunk t i).slice.getD 0, o)] }

/-- The step opens and the chunk binds, as an accepted contribution with an ingress timestamp makes them (R53, R28). -/
def openFor (s : State) (i : ChunkId) (d : Desc) (ts : Word) : State :=
  let t := openSteps s i.slot.val i.step.toNat d ts
  if (theChunk t i).ph == .unbound then bindChunk t i d ((leastLoaded t).getD 0) else t

/-- A contribution accepted (R57): its step opens, its chunk binds, its rank is present, and it goes to its slice. -/
def acceptContrib (s : State) (slot : Nat) (l : LocalC) : State :=
  let i := frameChunk slot l.frame
  toSlice (onChunk (openFor s i (descOf s slot) l.ts) i (fun k => { k with present := k.present ||| 2 ^ fRank l.frame })) i l

/-- What follows from a verdict on a member's contribution. -/
def applyVerdict (s : State) (l : LocalC) (v : Verdict) : State :=
  let f := l.frame
  match v with
  | .refuse typ reason cnt => applyRefusal (handledLocal s l) f typ reason cnt
  | .format slot => applyRefusal (markFormat (handledLocal s l) slot f) f tyNotice 8 (some (slot, .refused))
  | .duplicate slot => ackFrame (countGroup (handledLocal s l) slot .dup 1) f
  | .noSlice => nackFrame (handledLocal s l) f 5 0
  | .discard | .accepted _ => handledLocal s l
  | .accept slot => acceptContrib s slot l

/-- A frame of an express group (R45). -/
def isExpress (s : State) (f : Frame) : Bool :=
  match slotOf s (fGroup f) with | some slot => gdExpress (descOf s slot) | none => false

/-! ### Transit partials (R135-R137, R162, R163, R171) -/

/-- The ranks a partial covers, as its frame 0 lists them (R162, R163). -/
def coveredRanks (k : Nat) (f : Frame) : List Nat :=
  let n := fCovered f
  let hdr := [fRank f] ++ [f.w5, f.w6, f.w7].flatMap (fun w => [fld w 48 16, fld w 32 16, fld w 16 16, fld w 0 16])
  let count0 := min k (if n > 13 then 1022 else 1024)
  let tail := ((f.payload.drop (4 * count0)).take 6)
  let extra := [leNat (tail.take 2), leNat ((tail.drop 2).take 2), leNat ((tail.drop 4).take 2)]
  (hdr.take n) ++ (if fIdx f == 0 then extra.take (n - 13) else [])

/-- The elements of a frame of a partial: the first one's number and how many (R112, R163). -/
def partialSpan (k n idx : Nat) : Nat × Nat :=
  if n ≤ 13 then (1024 * idx, min 1024 (k - 1024 * idx))
  else if idx == 0 then (0, min 1022 k)
  else (1022 + 1024 * (idx - 1), min 1024 (k - (1022 + 1024 * (idx - 1))))

/-- The elements of a frame of a partial as grid integers over the whole chunk (R112, R111). -/
def partialGrid (k : Nat) (f : Frame) : List (Int × BitVec 4) :=
  let (lo, n) := partialSpan k (fCovered f) (fIdx f)
  let xs := (unpackBits 32 n f.payload).toArray
  (List.range k).map (fun e =>
    if lo ≤ e && e < lo + n then (sintOf 32 (xs.getD (e - lo) 0) * (2 ^ (fOffset f).toNat : Nat), 1) else (0, 0))

/-- The checks of R57 on a transit partial (R132, R135-R137, R163), by the ingress timestamp of its first frame. A rank that is already
present is looked for before the chunk's being open, so that such a partial is refused with a NOTICE of reason RANK and not taken as a duplicate of a
chunk that is open no longer (DESIGN CHOICE, log 117). -/
def partialVerdict (s : State) (f : Frame) (ts : Word) : Verdict × List Nat :=
  match slotOf s (fGroup f) with
  | none => (.refuse tyNotice 4 none, [])
  | some slot =>
    let d := descOf s slot
    let ranks := coveredRanks (fElems f) f
    let refused := fun (r : Nat) => (Verdict.refuse tyNotice r (some (slot, .refused)), ranks)
    if !homeHere d f then refused 5
    else if !ranks.all (fun r => decide (r < gdN d)) then refused 6
    else if bucketPoisoned s d f then (.discard, ranks)
    else if !rangeOk s d f then refused 7
    else if !(gdExact d && fBlk f == 0 && !fDir f && decide (0 ≤ fOffset f) && decide (fOffset f ≤ offsetLimit d)) then
      (.format slot, ranks)
    else match stepVerdict s slot f ts with
      | some v => (v, ranks)
      | none =>
        let k := theChunk s (frameChunk slot f)
        if ranks.any (fun r => (k.present >>> r) % 2 == 1) then refused 6
        else if !isOpen k then (.duplicate slot, ranks)
        else if k.ph == .unbound && decide (gdQuota d ≤ slotsUsed s slot) then
          (.refuse tyBusy 1 (some (slot, .busy)), ranks)
        else if !sliceTakes s k then (.noSlice, ranks)
        else (.accept slot, ranks)

/-- A refusal of a partial answered, and counted for each covered rank (R136); and the answer of a partial that was accepted for a
chunk closed since (R118, R53). -/
def refusePartial (s : State) (f : Frame) (v : Verdict) (ranks : List Nat) : State :=
  match v with
  | .refuse typ reason cnt =>
    let t := match cnt with
      | none => onFab s (fun x => { x with unknownGroup := satAdd32 x.unknownGroup 1 })
      | some (slot, c) => countGroup s slot c ranks.length
    refuseContrib t typ f reason
  | .format slot => refuseContrib (markFormat (countGroup s slot .refused ranks.length) slot f) tyNotice f 8
  | .duplicate slot => ackFrame (countGroup s slot .dup ranks.length) f
  | .noSlice => nackFrame s f 5 0
  | .accepted false => ackFrame s f
  | .accepted true =>
    let t := match slotOf s (fGroup f) with
      | some slot => countGroup s slot .refused ranks.length
      | none => s
    refuseContrib t tyNotice f 9
  | .discard | .accept _ => s

/-- The lowest index of a message of `n` frames that is not among those held. -/
def lowestMissing (n : Nat) (got : List Nat) : Option Nat := (List.range n).find? (fun i => !got.contains i)

/-- A frame of a partial whose answer is settled: it stands for the message, and is given when its Keystone frame finds every index
held; where one is missing, NACK INCOMPLETE (R136, R171, R176; log 107). What is discarded without an answer leaves nothing (R372). -/
def refusedFrame (s : State) (f : Frame) (r : RxMsg) (v : Verdict) (ranks : List Nat) : State :=
  if v == .discard then clearRx s f else
  let got := if r.got.contains (fIdx f) then r.got else r.got ++ [fIdx f]
  let t := putRx s f { r with got, cmark := r.cmark || fCmark f, refused := some (v, ranks) }
  if !fKey f then t else
  match lowestMissing (fCount f) got with
  | none => refusePartial (clearRx t f) f v ranks
  | some m => nackFrame t f 2 m

/-- The partial being received that a frame belongs to. -/
def partOf (k : Chunk) (f : Frame) : Option PartRx := k.parts.find? (fun p => p.src == fSrc f && p.msg == fMsg f)

/-- The slot and the partial being received that a frame belongs to. -/
def knownPart (s : State) (f : Frame) : Option (Nat × PartRx) :=
  match slotOf s (fGroup f) with
  | none => none
  | some slot => (partOf (theChunk s (frameChunk slot f)) f).map (fun p => (slot, p))

/-- A partial of a chunk replaced, or taken out. -/
def putPart (s : State) (i : ChunkId) (p : PartRx) (keep : Bool) : State :=
  let mine := fun (q : PartRx) => q.src == p.src && q.msg == p.msg
  onChunk s i (fun k =>
    let ps := if keep then k.parts.map (fun q => if mine q then p else q) else k.parts.filter (fun q => !mine q)
    { k with parts := ps })

/-- The lowest frame index that is not held. -/
def firstMissing (p : PartRx) : Option Nat := lowestMissing p.count p.got

/-- ACK once the Keystone frame has found every index held and every frame is added (R171, R176). -/
def answerIfDone (s : State) (i : ChunkId) (p : PartRx) : State :=
  if p.whole && partDone p then answerPart (putPart s i p false) p tyAck 0 0 0 0 else s

/-- A frame of an accepted partial at the dispatcher (R135, R171): one held already is discarded, another goes to the slice,
and the Keystone frame shows what is missing: NACK TILE where the lowest such index was discarded for a failing tile, else NACK
INCOMPLETE (R176). Where the chunk's slice has stopped the frame is discarded, and the Keystone
frame answered NACK FULL (R35, R425). -/
def takePartFrame (s₀ : State) (l : LocalC) (slot : Nat) (p : PartRx) : State :=
  let f := l.frame
  let i := frameChunk slot f
  let s := noteMark s₀ f
  if !sliceTakes s (theChunk s i) then
    let t := handledLocal s l
    if fKey f then nackFrame t f 5 ((firstMissing p).getD (fIdx f)) else t
  else
    let held := p.got.contains (fIdx f)
    let p1 := { p with
      got := if held then p.got else p.got ++ [fIdx f]
      tile := p.tile.filter (fun n => n != fIdx f)
      ranks := if fIdx f == 0 then coveredRanks (fElems f) f else p.ranks
      lastAt := (devTime s).toNat }
    let p2 := { p1 with whole := p1.whole || (fKey f && (firstMissing p1).isNone) }
    let s1 := putPart s i p2 true
    let s2 := if held then handledLocal s1 l else toSlice s1 i l
    match firstMissing p2 with
    | some m => if fKey f then nackFrame s2 f (if p2.tile.contains m then 1 else 2) m else s2
    | none => answerIfDone s2 i p2

/-- A frame of a transit partial at the dispatcher. A partial of more than 13 ranks is judged by its frame 0, which lists them
all (R163); a Keystone frame that comes with frame 0 missing is answered NACK INCOMPLETE. -/
def dispatchPartial (s : State) (l : LocalC) : State :=
  let f := l.frame
  match knownPart s f with
  | some (slot, p) => takePartFrame s l slot p
  | none =>
    let r := rxOf s f
    match r.refused with
    | some (v, ranks) => refusedFrame (handledLocal s l) f r v ranks
    | none =>
      if fCovered f > 13 && fIdx f != 0 then nackFrame (noteMark (handledLocal s l) f) f 2 0 else
      let first := ((s.dispatch.filter (fun x => isTransit x.frame && fSrc x.frame == fSrc f && fMsg x.frame == fMsg f)).map
        (fun x => x.ts.toNat)).foldl min l.ts.toNat
      match partialVerdict s f (BitVec.ofNat 64 first) with
      | (.accept slot, ranks) =>
        let p : PartRx := {
          src := fSrc f, msg := fMsg f, dest := fDest f, ranks, count := fCount f, got := [], lastAt := (devTime s).toNat }
        let i := frameChunk slot f
        let t := onChunk (openFor s i (descOf s slot) (BitVec.ofNat 64 first)) i (fun k => { k with parts := k.parts ++ [p] })
        takePartFrame t l slot p
      | (v, ranks) => refusedFrame (handledLocal s l) f r v ranks

/-- A frame of a transit partial waits at its port while frame 0, which the judgement needs, is still to come. -/
def partReady (s : State) (f : Frame) : Bool :=
  fCovered f ≤ 13 || fIdx f == 0 || fKey f || (knownPart s f).isSome || (rxOf s f).refused.isSome

/-! ### What the dispatcher takes -/

/-- The slice that a local contribution is bound for. -/
def boundFor (s : State) (l : LocalC) : Option Nat :=
  match slotOf s (fGroup l.frame) with
  | none => none
  | some slot => ((theChunk s (frameChunk slot l.frame)).slice).orElse (fun _ => leastLoaded s)

/-- What the dispatcher takes next of a port group: contributions in the order of their start-of-frame symbols, but an
express group's before the others (R45), where none bound for the same slice came before it (R522). A frame of a transit partial that
waits for frame 0, which its judgement needs, is passed by later contributions, for the same slice too (log 42). -/
def pickLocal (s : State) (pg : Nat) : Option LocalC :=
  let mine := s.dispatch.filter (fun l => (l.port / 4 == pg || decide (512 ≤ l.port)) &&
    (!isTransit l.frame || partReady s l.frame))
  let xs := mine.mergeSort (fun a b => decide (a.sof ≤ b.sof))
  (xs.find? (fun l => isExpress s l.frame &&
    !((xs.takeWhile (fun x => x != l)).any (fun x => boundFor s x == boundFor s l)))).orElse (fun _ => xs.head?)

/-- Contributions of one cycle are dispatched in ascending order of port group, one from each and sixteen in all; what comes
out of that order is taken in the next cycle (R29, R64, R131, R521). -/
def dispatchTurn (s : State) (pg : Nat) : State :=
  let t := if s.cyc.dispatched ≥ 16 then nextCycle s else s
  let u := afterPlace (placeDispatch + pg) t
  { u with cyc := { u.cyc with dispatched := u.cyc.dispatched + 1 } }

/-- Whether some port group's next contribution is that of an express group: bulk ones of any port group wait for it (R45; DEDUCED,
log 42). -/
def expressWaits (s : State) : Bool :=
  s.dispatch.any (fun x => match pickLocal s (x.port / 4) with
    | some l => isExpress s l.frame
    | none => false)

/-- A contribution taken by the dispatcher in its turn; its lookups of the group index, descriptors and homes may meet errors
(R426). -/
def dispatchOne (s : State) (pg : Nat) (l : LocalC) (lookups : List TblFault) : State :=
  let t := meetLookups (dispatchTurn { s with dispatch := s.dispatch.erase l } pg) [1, 2, 5] lookups
  if isTransit l.frame then dispatchPartial t l else applyVerdict t l (dispatchVerdict t l.frame l.ts)

/-- CONTRIB_DISPATCH: the next local contribution of a port group is checked (R57). A bulk one waits while an express one waits (R45),
and every one while an answer waits for a cell, so that no more of them wait than credits allow (R276). -/
def execContribDispatch (at_ : DispatchIn) (s : State) : Res :=
  match pickLocal s at_.pg.val with
  | none => .next s
  | some l =>
    act (isRunning s && (isExpress s l.frame || !expressWaits s) && !answersWait s) s (dispatchOne s at_.pg.val l at_.lookups)

/-! ### The slice intakes -/

/-- A contribution discarded at its slice: its rank is not present (R120, R109). -/
def discardOp (s : State) (o : SerOp) : State :=
  onChunk s o.cid (fun k => { k with
    present := if (k.present >>> o.rank) % 2 == 1 then k.present - 2 ^ o.rank else k.present
    queued := k.queued - 1 })

/-- A frame of a partial discarded at its slice: its index is no longer held (R171). -/
def discardPart (s : State) (i : ChunkId) (p : PartRx) (f : Frame) : State :=
  putPart (onChunk s i (fun k => { k with queued := k.queued - 1 })) i
    { p with got := p.got.filter (fun n => n != fIdx f), whole := false } true

/-- What waits at a slice that has stopped: discarded, its rank not present, NACK FULL (R35, R425). A partial is answered once, where
its message is complete (R176): its indices are held no longer, and it comes again from the lowest that is not added. -/
def nackStopped (s : State) (o : SerOp) : State :=
  let f := o.c.frame
  if !isTransit f then nackFrame (discardOp s o) f 5 0
  else match partOf (theChunk s o.cid) f with
    | none => onChunk s o.cid (fun k => { k with queued := k.queued - 1 })
    | some p =>
      let t := discardPart s o.cid p f
      if p.whole then answerPart t p tyNack 5 ((lowestMissing p.count p.added).getD 0) 0 0 else t

/-- Whether a contribution may pass to its intake: those of a chunk in ARRIVAL mode in the order of their acceptance
(R131). -/
def inTurn (s : State) (x : Nat × SerOp) : Bool :=
  gdMode (descOf s x.2.cid.slot.val) != 2 ||
  !((s.intake.takeWhile (fun y => y != x)).any (fun y => y.2.cid == x.2.cid))

/-- INTAKE_ACCEPT: the first accepted contribution of a port group that waits for a slice enters its 32 KiB intake when
it fits, and its credits return (R521, R522, R96, R206). Where no slice of the set runs it is discarded (R35); where its own
slice has left the set, it waits for the chunk to move (R33). -/
def execIntakeAccept (sl : SliceNo) (pg : Fin 128) (s₀ : State) : Res :=
  let s := atPlace placeWork s₀
  let mine := fun (x : Nat × SerOp) => x.1 == sl.val && (x.2.c.port / 4 == pg.val || decide (512 ≤ x.2.c.port))
  match takeFirst mine s.intake with
  | none => .next s₀
  | some (x, rest) =>
    let k := getSlice s sl
    let n := x.2.c.frame.payload.length
    let t := { s with intake := rest }
    if !sliceRuns s sl.val then
      act (isRunning s && !sliceTakes s (theChunk s x.2.cid)) s₀ (nackStopped (handledLocal t x.2.c) x.2)
    else
      act (isRunning s && inTurn s x && decide (k.intakeUsed + n ≤ 32768)) s₀
        (handledLocal (setSlice t sl
          { k with intakeUsed := k.intakeUsed + n, ops := k.ops ++ [{ x.2 with since := 2 * now s }] }) x.2.c)

/-! ## Runs of step and FIN programs -/

/-- STRIDE of a group on this switch (R359). -/
def strideOf (d : Desc) : Nat :=
  if gdArena d ≤ 1 || gdHomeChunks d == 0 then 0 else 256 * ((gdArena d - 1) * 256 / gdHomeChunks d)

/-- The lane type of V0 at the start of a run (R292). -/
def runType (d : Desc) : VTy :=
  if gdExact d then .i64 else
  match gdAcc d with
  | some .fp64 => .f64
  | some .int64 => .i64
  | _ => .f32

/-- The context of a run (R292, R293, R340, R353). A chunk that this switch does not home has no place in the arena: its
CHUNK_BASE is free. -/
def runCtx (s : State) (i : ChunkId) (d : Desc) (k rank present : Nat) (isFin : Bool) : RunCtx :=
  let b := i.bucket.toNat
  let c := i.chunk.toNat
  let hs := homed s i.slot.val
  let base := if hs.contains (b, c) then 65536 + hs.idxOf (b, c) * strideOf d
    else (Config.freeWord s.freeCtr).toNat % 2 ^ 38
  { isFin, group := ((getGroup s i.slot.val).gid.orElse (fun _ => gidOf s i.slot.val)).getD 0,
    slot := i.slot.val, prog := if isFin then gdFinProg d else gdStepProg d,
    step := i.step.toNat, bucket := b, chunk := c, rank, present, home := if gdIsHome d then gdSelf d else 0x3F,
    elems := k, fullK := gdK d, seed := gdSeed d, rnd := gdRnd d, resType := runType d,
    outFmt := fld d[0] 38 6, outBlk := gdOutBlk d, outDir := gdOutDir d, chunkBase := base, atHome := gdIsHome d }

/-- The event of a run's exception (R295). -/
def progExcEvt (s : State) (sl : SliceNo) : State :=
  let r := (getSlice s sl).run
  serEvt s sl 3 r.slot r.prog r.instr (r.exc.getD 0)

/-- What came of a run. -/
inductive RunEnd where
  | fine (vals : List Nat) (t : State)
  | exc (t : State)
  | arith (t : State)
  | waits
  | noProgram

/-- A run made, with its exception recorded. -/
def doRun (s : State) (sl : SliceNo) (ctx : RunCtx) (vals : List Nat) : RunEnd :=
  if isPoisoned s 0x0D ctx.prog then .noProgram else
  let (t, out) := runProgram { s with freeCtr := s.freeCtr + 1 } sl ctx vals
  let r := (getSlice t sl).run
  if r.stalled then .waits
  else if r.exc.isSome then .exc (progExcEvt t sl)
  else if r.poisoned then .arith t
  else .fine out t

/-- A slice that can work on an operation. -/
def sliceLive (s : State) (sl : SliceNo) : Bool :=
  !(getSlice s sl).halted && pdOn s (9 + sl.val / 2) && (gradeS s || decide (sl.val < 14))

/-- Whether an arena command of a group runs (R365). -/
def arenaRuns (s : State) (slot : Nat) : Bool :=
  match s.fab.arenaBusy with
  | some (_, sl, _, _) => sl == slot
  | none => false

/-- Whether an accumulator or a Moraine entry of a chunk lies where Firn takes no requests (R381, R424). -/
def chunkWaits (s : State) (d : Desc) (k : Chunk) : Bool :=
  (k.accFirn && firnWaits s k.accAddr (slotParts d).1) ||
  k.moraine.any (fun e => e.inFirn && firnWaits s e.addr e.bytes)

/-! ## What a slice serves next (R45, R47) -/

/-- Whether the FIN program of a chunk may begin (R143, R291, R365). -/
def finDue (s : State) (i : ChunkId) : Bool :=
  let g := getGroup s i.slot.val
  let k := theChunk s i
  let earlier := (windowSteps g).take (stepDist g i.step.toNat)
  gdOp (descOf s i.slot.val) == 4 && !k.finDone &&
  (match k.ph with | .rooted st => st.delivers | _ => false) && decide (stepDist g i.step.toNat < 4) &&
  earlier.all (fun n => let x := getChunk s i.slot.val n i.bucket.toNat i.chunk.toNat; x.finDone || isClosed x) &&
  !arenaRuns s i.slot.val

/-- Whether a chunk's result can be built: it has its root, a FUSED one its stream, and its slice runs (R33, R62, R350). -/
def buildDue (s : State) (i : ChunkId) : Option RecStatus :=
  let k := theChunk s i
  match k.ph with
  | .rooted st =>
    if st.delivers && (match k.slice with | some n => sliceRuns s n | none => false) &&
      (gdOp (descOf s i.slot.val) != 4 || k.finDone) then some st else none
  | _ => none

/-- The chunks that the groups list, by name. -/
def chunkIds (s : State) : List ChunkId :=
  s.groups.flatMap (fun (kg : Nat × Group) => kg.2.steps.flatMap (fun (ks : Nat × StepRec) =>
    ks.2.chunks.map (fun (kc : Nat × Chunk) => ({
      slot := ⟨kg.1 % 16384, Nat.mod_lt _ (by decide)⟩, step := BitVec.ofNat 16 ks.1,
      bucket := BitVec.ofNat 16 (kc.1 / 2 ^ 20), chunk := BitVec.ofNat 20 kc.1 } : ChunkId))))

/-- The operations queued at a slice: class and the CLK_ARITH cycle since which each waits. Beside contributions these are FIN
runs and result builds that can be made; a build that waits for buffers is none. -/
def waitingAt (s : State) (n : Nat) : List (Bool × Nat) :=
  (getSlice s (fin18 n)).ops.map (fun o => (o.express, o.since)) ++
  ((chunkIds s).filter (fun i => (theChunk s i).slice == some n &&
    (finDue s i || ((buildDue s i).isSome && !s.jobs.contains (.build i))))).map
      (fun i => (gdExpress (descOf s i.slot.val), (theChunk s i).since))

/-- A bulk operation that has waited 2,048 CLK_ARITH cycles (R47). -/
def aged (s : State) (w : Bool × Nat) : Bool := !w.1 && decide (w.2 + 2048 ≤ 2 * now s)

/-- Whether a slice may serve an operation now (R47): an aged bulk one first, then express before bulk. -/
def mayServe (s : State) (n : Nat) (w : Bool × Nat) : Bool :=
  aged s w || (!(waitingAt s n).any (aged s) && (w.1 || !(waitingAt s n).any (·.1)))

/-- The contribution a slice serves next (R47), where it is an operation's turn that is one. -/
def pickOp (s : State) (sl : SliceNo) : Option (SerOp × List SerOp) :=
  let x := getSlice s sl
  let r := match takeFirst (fun (o : SerOp) => aged s (o.express, o.since)) x.ops with
    | some r => some r
    | none =>
      match takeFirst (fun (o : SerOp) => o.express) x.ops with
      | some r => some r
      | none => takeFirst (fun _ => true) x.ops
  r.filter (fun or => mayServe s sl.val (or.1.express, or.1.since))

/-! ## A contribution at its slice -/

/-- The payload bytes of a chunk: what the frame carries, with free bytes where it is too short. -/
def chunkPayload (s : State) (n : Nat) (f : Frame) : List Byte :=
  f.payload.take n ++ (List.range (n - f.payload.length)).map (fun j =>
    BitVec.ofNat 8 (Config.freeWord (s.freeCtr + j)).toNat)

/-- A leaf in the form in which it enters the reduction: codes or grid integers with sticky bits, and what its
conversion raises. -/
structure Leaf where
  codes : List Nat := []
  grid : List (Int × BitVec 4) := []
  flags : Flags := 0
  vanished : Nat := 0

/-- A contribution decoded (R97, R110). -/
def decodeLeaf (d : Desc) (k : Nat) (o : Int) (payload : List Byte) : Leaf :=
  if gdExact d then
    let es := leafGrid d k o payload
    { grid := es.map (fun e => (e.n, e.sticky)), flags := flagsOr (es.map (·.flags)), vanished := (es.map (·.vanished)).sum }
  else
    let (xs, g) := leafAcc d k payload
    { codes := xs, flags := g }

/-- The values a step program starts from (R292). -/
def leafVals (d : Desc) (l : Leaf) : List Nat :=
  if gdExact d then l.grid.map (fun e => uintOf 64 e.1) else l.codes

/-- The leaf a step program leaves (R294). A signalling NaN that it leaves enters the accumulation as it is: R83 quiets one
where a conversion reads it (DESIGN CHOICE, log 97). The integer that it leaves for a NaN or infinite EXACT element is added,
as R294 takes the low 48 bits of every element (DESIGN CHOICE, log 97). -/
def leafFrom (d : Desc) (l : Leaf) (out : List Nat) (fl : Flags) : Leaf :=
  if gdExact d then
    { l with grid := (l.grid.zip out).map (fun eo => (sintOf 48 eo.2, eo.1.2)), flags := l.flags ||| fl }
  else { l with codes := out, flags := l.flags ||| fl }

/-- The entry that a leaf's walk meets first (R124). -/
def firstMate (d : Desc) : Nat → List MorEnt → Nat → Nat → Option MorEnt
  | 0, _, _, _ => none
  | fuel + 1, ents, l, i =>
    if treeDepth (gdN d) ≤ l then none
    else if gdN d ≤ (i ^^^ 1) <<< l then firstMate d fuel ents (l + 1) (i / 2)
    else ents.find? (fun e => e.level == l && e.node == (i ^^^ 1))

/-- Whether a leaf's entry makes an adder add (R117, R124): there is an accumulator to add to, or a sibling waits on its way. -/
def leafAdds (d : Desc) (k : Chunk) (rank : Nat) : Bool :=
  gdRed d == .sum &&
  (if gdExact d || gdMode d != 0 then k.acc.isSome else (firstMate d (treeDepth (gdN d) + 1) k.moraine 0 rank).isSome)

/-- Whether the residues show an adder's error in a program's run: whatever the operands, they do where the sum changes by an amount
that 255 does not divide (R117, log 106). -/
def runMiss (f : SeracFault) : Bool :=
  match slipOf f with
  | some (_, err) => err % 255 != 0
  | none => false

/-- A run's values with an adder's error in one that no residue has met. -/
def slipRun (w : Nat) (f : SeracFault) (xs : List Nat) : List Nat :=
  match slipOf f with
  | some (e, err) => bumpAt xs e (fun v => uintOf w ((v : Int) + err))
  | none => xs

/-- Moraine entries given their places (R28): in the resident share while it has room, the entries consumed having left it. -/
def placeEntries (s : State) (old new : List MorEnt) : List MorEnt :=
  let used := moraineUsed s - (((old.filter (fun e => !e.inFirn && !new.contains e)).map (·.bytes)).sum)
  new.map (fun e => if old.contains e then e
    else if used + e.bytes ≤ 16777216 then e
    else { e with inFirn := true, addr := freePlace s e.bytes })

/-- A chunk after a leaf has entered its reduction (R111, R124, R131), and whether an add's residues have shown an adder's error. -/
def leafNext (s : State) (d : Desc) (k : Chunk) (rank : Nat) (l : Leaf) (slip : Option (Nat × Int)) : Chunk × Bool :=
  let note := fun (x : Chunk) (g : Flags) => { x with
    flags := x.flags ||| l.flags ||| g, vanished := satAdd32 x.vanished l.vanished, queued := x.queued - 1 }
  if gdExact d then
    let (a, m) := gridAdd d k l.grid slip
    (note { k with acc := some a, accRes := accResidues d a } 0, m)
  else if gdMode d == 0 then
    let (ents, root, w) := treeAccept d (treeDepth (gdN d) + 1) k.moraine 0 rank { val := l.codes, slip }
    (note { k with
      moraine := placeEntries s k.moraine ents
      acc := if root then some (.codes w.val) else k.acc
      accRes := if root then residuesOf d w.val else k.accRes } w.flags, w.miss)
  else
    let (a, g, m) := accAdd d k l.codes slip
    (note { k with acc := some a, accRes := accResidues d a } g, m)

/-- A chunk's buffers take their new contents. -/
def storeChunk (s : State) (i : ChunkId) (d : Desc) (k' : Chunk) : State :=
  firnKeeps (onChunk { s with freeCtr := s.freeCtr + 1 } i (fun _ => k')) (fin18 (k'.slice.getD 0)) (firnStores d (theChunk s i) k')

/-- A contribution that has been added is acknowledged, and its chunk may be complete (R176, R53). -/
def finishAdd (s : State) (o : SerOp) : State := tryComplete (ackFrame s o.c.frame) o.cid

/-- The chunk closes because its slice met a fault on the contribution in hand; that one is answered ACK too (R118). -/
def closeInHand (s : State) (o : SerOp) (st : RecStatus) : State := closeChunk (ackFrame s o.c.frame) o.cid st 0

/-- A leaf enters the reduction of its chunk: what lies in Firn is read (R372), the adders' residues are compared (R117), and the
contribution is answered (R176). -/
def enterLeaf (s : State) (sl : SliceNo) (o : SerOp) (d : Desc) (l : Leaf) (fault : SeracFault) : State :=
  let k := theChunk s o.cid
  let (k', miss) := leafNext s d k o.rank l (slipOf fault)
  let (lost, t) := firnMeets s sl (firnReads d k k')
  if lost then closeInHand t o .arithCheck
  else if miss then closeInHand (seracFaultEvt t sl o.cid.slot.val 0 fault) o .arithCheck
  else finishAdd (storeChunk t o.cid d k') o

/-- A contribution whose step program is run on its leaf first (R290). None when it waits. -/
def runLeaf (s : State) (sl : SliceNo) (o : SerOp) (d : Desc) (k : Nat) (l : Leaf) (fault : SeracFault) : Option State :=
  let adds := leafAdds d (theChunk s o.cid) o.rank
  if arenaRuns s o.cid.slot.val then none
  else if !adds && runMiss fault then
    some (closeInHand (seracFaultEvt s sl o.cid.slot.val (gdStepProg d) fault) o .arithCheck)
  else match doRun s sl (runCtx s o.cid d k o.rank 1 false) (leafVals d l) with
    | .waits => none
    | .noProgram => some (closeInHand s o .arithCheck)
    | .arith t => some (closeInHand t o .arithCheck)
    | .exc t => some (closeInHand t o .retry)
    | .fine out t =>
      let vals := if adds then out else slipRun (vtyBits (runType d)) fault out
      some (enterLeaf t sl o d (leafFrom d l vals (getSlice t sl).run.flags) (if adds then fault else .none))

/-- A contribution at its slice: tiles and offsets, which come before any add or run, then what the slice meets, the step program and
the reduction (R120, R109, R290, R124). None when it waits. -/
def processOp (s : State) (sl : SliceNo) (o : SerOp) (fault : SeracFault) : Option State :=
  let f := o.c.frame
  let d := descOf s o.cid.slot.val
  let bytes := chunkBytes (bucketLen s d o.cid.bucket.toNat) o.cid.chunk.toNat
  let payload := chunkPayload s bytes f
  let k := fElems f
  if chunkWaits s d (theChunk s o.cid) then none
  else if !tilesGood f then
    some (nackFrame (discardOp (serEvt s sl 0 o.cid.slot.val 0 0 0) o) f 1 0)
  else if gdExact d && (match largestOffset d k payload with | some x => decide (fOffset f < x) | none => false) then
    let t := discardOp (countGroup s o.cid.slot.val .refused 1) o
    some (refuseContrib (markFormat t o.cid.slot.val f) tyNotice f 8)
  else
    let (lost, t) := meetFaults s sl o.cid.slot.val (gdStepProg d) fault (gdStepEn d) []
    if lost then some (closeInHand t o .arithCheck) else
    let leaf := decodeLeaf d k (fOffset f) payload
    let u := { t with freeCtr := t.freeCtr + (bytes - f.payload.length) }
    if gdStepEn d then runLeaf u sl o d k leaf fault else some (enterLeaf u sl o d leaf fault)

/-- The error of an adder in a frame's add, which touches the frame's elements alone. -/
def partSlip (f : Frame) (fault : SeracFault) : Option (Nat × Int) :=
  let (lo, n) := partialSpan (fElems f) (fCovered f) (fIdx f)
  (slipOf fault).filter (fun ee => decide (lo ≤ ee.1) && decide (ee.1 < lo + n))

/-- A chunk after a frame of a partial has been added into its accumulator, and whether an add's residues have shown an error. -/
def partNext (d : Desc) (k : Chunk) (f : Frame) (slip : Option (Nat × Int)) : Chunk × Bool :=
  let (a, m) := gridAdd d k (partialGrid (fElems f) f) slip
  ({ k with acc := some a, accRes := accResidues d a, queued := k.queued - 1 }, m)

/-- A frame of an accepted partial that has been added; the covered ranks become present with the last (R135). -/
def addPart (s : State) (i : ChunkId) (d : Desc) (p : PartRx) (f : Frame) (k' : Chunk) : State :=
  let p1 := { p with added := p.added ++ [fIdx f] }
  let t := putPart (storeChunk s i d k') i p1 true
  if partDone p1 then
    let u := onChunk t i (fun k => { k with present := p1.ranks.foldl (fun m r => m ||| 2 ^ r) k.present })
    tryComplete (answerIfDone u i p1) i
  else t

/-- A frame of a partial that fails a tile is discarded: a message that is complete is answered NACK TILE at once, else its Keystone
frame will be (R120, R171, R176). -/
def tilePart (s : State) (sl : SliceNo) (i : ChunkId) (p : PartRx) (f : Frame) : State :=
  let t := discardPart (serEvt s sl 0 i.slot.val 0 0 0) i { p with tile := p.tile ++ [fIdx f] } f
  if p.whole then answerPart t p tyNack 1 (fIdx f) 0 0 else t

/-- A frame of a transit partial at its slice (R120, R135, R176). None when it waits. -/
def processPart (s : State) (sl : SliceNo) (o : SerOp) (fault : SeracFault) : Option State :=
  let f := o.c.frame
  let i := o.cid
  let d := descOf s i.slot.val
  let k := theChunk s i
  if chunkWaits s d k then none else
  match partOf k f with
  | none => some (onChunk s i (fun x => { x with queued := x.queued - 1 }))
  | some p =>
    if !tilesGood f then some (tilePart s sl i p f) else
    let (k', miss) := partNext d k f (partSlip f fault)
    let (lost, t) := meetFaults s sl i.slot.val 0 fault false (firnReads d k k')
    if lost then some (closeArith t i)
    else if miss then some (closeArith (seracFaultEvt t sl i.slot.val 0 fault) i)
    else some (addPart t i d p f k')

/-- A slice serves its next operation, where that is a contribution (`part` false) or a frame of a partial. -/
def serveNext (sl : SliceNo) (part : Bool) (k : State → SerOp → Option State) (s : State) : Res :=
  if !(isRunning s && sliceRuns s sl.val) then .next s else
  match pickOp s sl with
  | none => .next s
  | some (o, rest) =>
    if isTransit o.c.frame != part then .next s else
    let x := getSlice s sl
    let t := setSlice (atPlace placeWork s) sl { x with ops := rest, intakeUsed := x.intakeUsed - o.c.frame.payload.length }
    .next ((k t o).getD s)

/-- SERAC_CONTRIB_PROCESS: the slice serves its next operation, a member's contribution. -/
def execSeracContribProcess (sl : SliceNo) (fault : SeracFault) (s : State) : Res :=
  serveNext sl false (fun t o => processOp t sl o fault) s

/-- TRANSIT_PARTIAL_FRAME: the slice serves its next operation, a frame of a transit partial (R135). -/
def execTransitPartialFrame (sl : SliceNo) (fault : SeracFault) (s : State) : Res :=
  serveNext sl true (fun t o => processPart t sl o fault) s

/-! ## FIN runs -/

/-- The root's values as a FIN program's V0 (R292). -/
def rootVals (d : Desc) (k : Chunk) : List Nat :=
  if gdExact d then (accGrid k.acc).map (fun e => uintOf 64 e.1) else accCodes k.acc

/-- The chunk's encoded stream after a FIN run (R353, R354). -/
def finStream (d : Desc) (k : Chunk) (r : RunCtx) (step : Nat) : Final :=
  let n := r.elems
  if r.stream == 2 then
    match gdOut d with
    | none => { payload := [], flags := 0, vanished := 0, zeros := 0 }
    | some o =>
      let codes := (List.range n).map (fun e => (tget none r.emitted e).getD 0)
      let scales := if o.isBlock then (List.range (n / (8 <<< r.outBlk))).map (fun b => BitVec.ofNat 8 ((tget none r.scales b).getD 0))
        else []
      { payload := packBits o.width codes ++ scales, flags := 0, vanished := 0, zeros := 0 }
  else
    let vals := (rootVals d k).zipIdx.map (fun ve => (tget none r.emitted ve.2).getD ve.1)
    if gdExact d then
      let acc := ((accGrid k.acc).zip vals).map (fun ev => (sintOf 64 ev.2, ev.1.2))
      finalExact d r.group step r.bucket r.chunk (popCount k.present (gdN d)) acc
    else finalConv d r.group step r.bucket r.chunk vals

/-- The values that a FIN run has emitted, with an adder's error in one that no residue has met. -/
def errEmitted (r : RunCtx) (fault : SeracFault) : RunCtx :=
  match slipOf fault with
  | some (e, err) =>
    match tget none r.emitted e with
    | some v => { r with emitted := tput none r.emitted e (some (uintOf (vtyBits r.resType) ((v : Int) + err))) }
    | none => r
  | none => r

/-- What follows from a FIN run that met no fault (R291, R353, R354). -/
def finishFin (s : State) (c : ChunkId) (d : Desc) (r : RunCtx) : State :=
  let e := finStream d (theChunk s c) r c.step.toNat
  if e.repeatScale then closeChunk s c .retry causeScale else
  onChunk s c (fun x => { x with
    finDone := true, since := 2 * now s, encoded := some e.payload, flags := x.flags ||| r.flags ||| e.flags,
    vanished := satAdd32 x.vanished (satAdd32 r.vanished e.vanished),
    zeros := satAdd32 x.zeros (satAdd32 r.zeros e.zeros) })

/-- FIN_RUN: the FIN program of a completed chunk (R291), when it is the operation's turn at its slice (R47). -/
def execFinRun (c : ChunkId) (fault : SeracFault) (s : State) : Res :=
  let d := descOf s c.slot.val
  let k := theChunk s c
  let sl := fin18 (k.slice.getD 0)
  if !(isRunning s && finDue s c && k.slice.isSome && sliceRuns s sl.val && mayServe s sl.val (gdExpress d, k.since) &&
      !chunkWaits s d k) then .next s
  else
  let (lost, w) := meetFaults (atPlace placeWork s) sl c.slot.val (gdFinProg d) fault true (accPlace d k)
  if lost then .next (closeArith w c)
  else if runMiss fault then .next (closeArith (seracFaultEvt w sl c.slot.val (gdFinProg d) fault) c)
  else
    let vals := rootVals d k
    let ctx := runCtx w c d vals.length 0xFFFFFFFF (popCount k.present (gdN d)) true
    match doRun w sl ctx vals with
    | .waits => .next s
    | .noProgram => .next (closeArith w c)
    | .arith t => .next (closeArith t c)
    | .exc t => .next (closeChunk t c .retry 0)
    | .fine _ t => .next (finishFin t c d (errEmitted (getSlice t sl).run fault))

/-! ## Expiry and aborts -/

/-- DEADLINE_EXPIRY (R66): device time has reached the expiry and every earlier contribution is dispatched, a partial of the
step, which was on time when it was accepted, with its last frame (R135). -/
def execDeadlineExpiry (slot : Fin 16384) (step : BitVec 16) (s : State) : Res :=
  let x := getStep (getGroup s slot.val) step.toNat
  let due := match x.expiry with
    | none => false
    | some e => decide (e.toNat ≤ (devTime s).toNat) && s.dispatch.all (fun l => decide (e.toNat ≤ l.ts.toNat)) &&
      x.chunks.all (fun (kc : Nat × Chunk) => kc.2.parts.all partDone)
  act (isRunning s && x.st == .open_ && due) s
    (settleStep (onStep (atPlace placeExpiry s) slot.val step.toNat (fun y => { y with st := .expired })) slot.val step.toNat)

/-- The root of a chunk over its present set, at expiry (R125), the flags, and whether an add's residues have shown an error. -/
def rootAtExpiry (d : Desc) (k : Chunk) (slip : Option (Nat × Int)) : Option AccV × Flags × Bool :=
  if gdExact d || gdMode d != 0 then (k.acc, 0, false)
  else
    let r := resolveTree d (treeDepth (gdN d)) 0 k.moraine slip
    (r.1.map AccV.codes, r.2.1, r.2.2)

/-- Whether a chunk of an expired step is evaluated over its present set (R67). -/
def expiryRoots (d : Desc) (k : Chunk) : Bool :=
  let p := popCount k.present (gdN d)
  p != 0 && decide (max (gdMinPresent d) 1 ≤ p) && gdLatePol d != 1

/-- A chunk that closes at expiry with no result (R67). -/
def closeShort (s : State) (c : ChunkId) (d : Desc) (p : Nat) : State :=
  if p == 0 then closeChunk s c .empty 0
  else if p < max (gdMinPresent d) 1 then closeChunk s c .retry (if gdLatePol d == 0 then causeMinPresent else causeDeadline)
  else closeChunk s c .retry causeDeadline

/-- A chunk of an expired step evaluated over its present set, its buffers read in Firn where they lie there (R67, R117, R125,
R372). -/
def rootChunk (s : State) (sl : SliceNo) (c : ChunkId) (d : Desc) (fault : SeracFault) : State :=
  let k := theChunk s c
  let (root, g, miss) := rootAtExpiry d k (slipOf fault)
  let (lost, w) := firnMeets s sl ((if k.acc.isSome then accPlace d k else []) ++ entPlaces .last k.moraine)
  if lost then closeArith w c
  else if miss then closeArith (seracFaultEvt w sl c.slot.val 0 fault) c
  else
    let k' := { k with
      ph := .rooted .partialRes, since := 2 * now w, acc := root, accRes := (root.map (accResidues d)).getD [], moraine := []
      flags := k.flags ||| g ||| causeDeadline }
    settleStep (storeChunk w c d k') c.slot.val c.step.toNat

/-- CHUNK_CLOSE_AT_EXPIRY (R67): an incomplete chunk of an expired step closes once a running slice can evaluate it. -/
def execChunkCloseAtExpiry (c : ChunkId) (fault : SeracFault) (s : State) : Res :=
  let d := descOf s c.slot.val
  let k := theChunk s c
  let x := getStep (getGroup s c.slot.val) c.step.toNat
  let onRunning := match k.slice with
    | none => true
    | some n => sliceRuns s n
  let sl := fin18 (k.slice.getD 0)
  if !(isRunning s && x.st == .expired && isOpen k && (homed s c.slot.val).contains (c.bucket.toNat, c.chunk.toNat) &&
      !(runningSlices s).isEmpty && onRunning && k.queued == 0 && k.parts.all partDone && !chunkWaits s d k) then .next s
  else
  let w := atPlace placeWork s
  let (lost, t) := if k.slice.isSome then meetFaults w sl c.slot.val (gdStepProg d) fault false [] else (false, w)
  .next (if lost then closeArith t c
    else if expiryRoots d k then rootChunk t sl c d fault
    else closeShort t c d (popCount k.present (gdN d)))

/-- An open or waiting chunk of an aborted step is discarded with status ABORTED (R53, R351): accepted contributions not
yet added are answered with a NOTICE and counted in REFUSED, and so is a transit partial, at once or when its last frame comes. -/
def abortChunk (s : State) (i : ChunkId) : State :=
  let ops := (pendingOps s i).filter (fun o => !isTransit o.c.frame)
  let parts := (theChunk s i).parts.filter (fun p => p.whole && !partDone p)
  let ctx := fun (t : State) (r : Nat) => packFields [(48, 16, ((getGroup t i.slot.val).gid).getD 0), (32, 16, i.step.toNat),
    (16, 16, i.bucket.toNat), (0, 16, r)]
  let s1 := ops.foldl (fun t o => refuseContrib (countGroup t i.slot.val .refused 1) tyNotice o.c.frame 9) (dropOps s i)
  let s2 := parts.foldl (fun t p =>
    answerPart (countGroup t i.slot.val .refused p.ranks.length) p tyNotice 9 0 (ctx t (p.ranks.headD 0)) i.chunk.toNat) s1
  let s3 := ((theChunk s i).parts.filter (fun p => !p.whole)).foldl (fun t p => keepAccepted t p (!partDone p)) s2
  onChunk s3 i (fun k => { k with
    ph := .closed .aborted, slotHeld := false, acc := none, accRes := [], moraine := [], parts := [], queued := 0, encoded := none })

/-- Every OPEN or EXPIRED step of a slot goes to DELIVERING (R53, R54, R351), and the barrier count is set to 0 (R193). -/
def abortGroup (s : State) (slot : Nat) : State :=
  let g := getGroup s slot
  let fused := gdOp (descOf s slot) == 4
  let hit := (windowSteps g).filter (fun n => (getStep g n).st == .open_ || (getStep g n).st == .expired)
  let one := fun (t : State) (n : Nat) =>
    let ids := (homed t slot).map (fun bc => ({
      slot := ⟨slot % 16384, Nat.mod_lt _ (by decide)⟩, step := BitVec.ofNat 16 n, bucket := BitVec.ofNat 16 bc.1,
      chunk := BitVec.ofNat 20 bc.2 } : ChunkId))
    let gone := ids.filter (fun i => let k := theChunk t i; isOpen k || (fused && !isClosed k && !k.finDone))
    let u := onStep (gone.foldl abortChunk t) slot n (fun x => { x with st := .delivering, aborted := true, expiry := none })
    let v := (((homed u slot).map (·.1)).dedup).foldl (fun w b => buildRecords w slot n b) u
    settleStep v slot n
  let t := hit.foldl one s
  setGroup t slot { getGroup t slot with arrivals := 0 }

/-- GRP_ABORT: ABORT written 1 with a slot (R54), one in a cycle; a chunk whose last add completes in the cycle counts as completed
(R55). -/
def execGrpAbort (slot : Fin 16384) (s : State) : Res :=
  act (isRunning s && pdOn s 2) s
    (let t := afterPlace placeAbort s
     abortGroup { t with fab := { t.fab with grpAbort := BitVec.ofNat 64 slot.val } } slot.val)

/-! ## Abandoned transit partials -/

/-- The TIMEOUT in force (R185). -/
def timeoutOf (s : State) : Nat := max 1350 (fld s.fab.e2eCtl 0 32)
/-- RESEND_LIMIT. -/
def resendLimit (s : State) : Nat := fld s.fab.e2eCtl 60 4

/-- The chunk and the partial with a source and MSG_ID. -/
def findPart (s : State) (src msg : Nat) : Option (ChunkId × PartRx) :=
  (s.groups.flatMap (fun (kg : Nat × Group) => kg.2.steps.flatMap (fun (ks : Nat × StepRec) =>
    ks.2.chunks.flatMap (fun (kc : Nat × Chunk) => (kc.2.parts.filter (fun p => p.src == src && p.msg == msg)).map (fun p =>
      (({ slot := ⟨kg.1 % 16384, Nat.mod_lt _ (by decide)⟩, step := BitVec.ofNat 16 ks.1,
          bucket := BitVec.ofNat 16 (kc.1 / 2 ^ 20), chunk := BitVec.ofNat 20 kc.1 } : ChunkId), p)))))).head?

/-- Frames of a transit partial that still wait at their ports for frame 0, which lists its ranks. -/
def heldBack (s : State) (src msg : Nat) : List LocalC :=
  s.dispatch.filter (fun l => isTransit l.frame && fSrc l.frame == src && fMsg l.frame == msg && !partReady s l.frame)

/-- A partial of which only such frames have come is abandoned (R135, R185): they are discarded, and their chunk, where its step has
been opened, closes with RETRY where `close`. -/
def dropHeldBack (s : State) (src msg : Nat) (close : Bool) : State :=
  match heldBack s src msg with
  | [] => s
  | l :: ls =>
    let t := (l :: ls).foldl handledLocal { s with dispatch := s.dispatch.filter (fun x => !(l :: ls).contains x) }
    match slotOf t (fGroup l.frame) with
    | none => t
    | some slot =>
      let i := frameChunk slot l.frame
      let st := (getStep (getGroup t slot) (fStep l.frame)).st
      if close && homeHere (descOf t slot) l.frame && (st == .open_ || st == .expired) && isOpen (theChunk t i) then
        closeChunk t i .retry causeDeadline
      else t

/-- The moment from which a partial's silence counts (R184): the later of its step's expiry and the arrival of its last frame; none
without an expiry. -/
def silentSince (s : State) (i : ChunkId) (lastAt : Nat) : Option Nat :=
  (getStep (getGroup s i.slot.val) i.step.toNat).expiry.map (fun e => max e.toNat lastAt)

/-- Whether a home has heard nothing of a partial for (RESEND_LIMIT + 1) × TIMEOUT (R184). -/
def isSilent (s : State) (since : Option Nat) : Bool :=
  match since with
  | some t => decide (t + (resendLimit s + 1) * timeoutOf s ≤ (devTime s).toNat)
  | none => false

/-- PARTIAL_SILENCE_TIMEOUT (R184, R135): the partial is taken as abandoned, and its chunk closes with RETRY, ahead of the cycle's
contributions (R64). -/
def execPartialSilenceTimeout (src : BitVec 20) (msg : BitVec 32) (s : State) : Res :=
  match findPart s src.toNat msg.toNat with
  | some (i, p) =>
    act (isRunning s && !partDone p && isSilent s (silentSince s i p.lastAt)) s
      (closeChunk (putPart (atPlace placeSilence s) i p false) i .retry causeDeadline)
  | none =>
    let ls := heldBack s src.toNat msg.toNat
    let last := (ls.map (fun l => l.ts.toNat)).foldl max 0
    let since := (ls.head?.bind (fun l => slotOf s (fGroup l.frame))).bind (fun slot =>
      silentSince s (frameChunk slot ((ls.map (·.frame)).headD {})) last)
    act (isRunning s && isSilent s since) s (dropHeldBack (atPlace placeSilence s) src.toNat msg.toNat true)

/-! ## The slice set -/

/-- Whether a slice may stand in the active set of this grade (R32, R499). -/
def sliceAllowed (s : State) (k : Nat) : Bool := pdOn s (9 + k / 2) && (gradeS s || decide (k < 14))

/-- A write of SLICE_SET (R32, R498): refused whole, with SET_ERR, when it names too many slices, a slice that is off or
powered down by the grade, or adds a halted one. -/
def writeSliceSet (s : State) (v : Word) : State :=
  let new : BitVec 18 := v.setWidth 18
  let named := (List.range 18).filter (fun k => bitOf new k)
  let good := decide (named.length ≤ (if gradeS s then 16 else 12)) && named.all (fun k => sliceAllowed s k) &&
    named.all (fun k => bitOf s.fab.sliceSet k || !(getSlice s (fin18 k)).halted)
  if good then onFab s (fun f => { f with sliceSet := new }) else onFab s (fun f => { f with setErr := true })

/-- SLICE_SET_WRITE. -/
def execSliceSetWrite (v : Word) (s : State) : Res := act (isRunning s && pdOn s 2) s (writeSliceSet (afterPlace placeWo s) v)

end Sys2Proof.Machine
end

