-- ==== Sys2Proof/Machine/Messages.lean ====
section
/-! DEFINITION. Messages that the switch is the source of (R165-R170, R179-R181): Firn copies (R25, R134, R247), building,
sending, resending and abandoning them. -/

namespace Sys2Proof.Machine

/-! ## Firn copies -/

/-- The tiles of frames, in order. -/
def tilesFrom (fs : List Frame) : List (List Byte) := fs.flatMap (fun f => chunksOf 256 f.payload f.tiles.length)

/-- What a copy of frames holds, in blocks of 256 bytes (R247): a tile in each, then the tile checksums (DESIGN CHOICE of the
layout, log 108). -/
def copyBlocks (fs : List Frame) : List (List Byte) :=
  let sums := (fs.flatMap (fun f => f.tiles)).flatMap (fun t => leBytes 4 t.toNat)
  tilesFrom fs ++ chunksOf 256 sums (ceilDiv sums.length 256)

/-- Units free in the extents that already hold copies. -/
def freeUnits (s : State) : List (Nat × Nat) :=
  s.copyExts.flatMap (fun (em : Nat × Nat) =>
    ((List.range 256).filter (fun u => (em.2 >>> u) % 2 == 0)).map (fun u => (em.1, u)))

/-- Units taken (`on`) or given back. -/
def markUnits (on : Bool) (xs us : List (Nat × Nat)) : List (Nat × Nat) :=
  us.foldl (fun ys eu => ys.map (fun (em : Nat × Nat) =>
    if em.1 == eu.1 then
      (em.1, if on then em.2 ||| 2 ^ eu.2 else if (em.2 >>> eu.2) % 2 == 1 then em.2 - 2 ^ eu.2 else em.2)
    else em)) xs

/-- The Firn address of a unit. -/
def unitAddr (eu : Nat × Nat) : Nat := eu.1 * 65536 + eu.2 * 256

/-- Units for a copy needed by `ref` messages, packed into the resend requester's extents (R247), or why not. -/
def allocUnits (s : State) (n ref : Nat) : Except Short (Nat × List (Nat × Nat) × State) :=
  match allocExts s 4098 (ceilDiv (n - (freeUnits s).length) 256) true with
  | .error e => .error e
  | .ok (xs, t) =>
    let t1 := { t with copyExts := t.copyExts ++ xs.map (fun x => (x, 0)) }
    let us := (freeUnits t1).take n
    let id := t1.copyNext
    .ok (id, us, { t1 with
      copyExts := markUnits true t1.copyExts us
      copies := tput none t1.copies id (some { pieces := us.map (fun eu => (eu.1, eu.2, 1)), ref })
      copyNext := id + 1 })

/-- Frames stored in Firn as the copy of `ref` messages (R25, R62, R134, R377), or why it must wait: R249 refuses the extents, or a
stack takes no requests (R381). Frames without payload need no copy. -/
def storeCopy (s : State) (fs : List Frame) (ref : Nat) : Except Short (Option Nat × State) :=
  let bs := copyBlocks fs
  if bs.isEmpty then .ok (none, s) else
  match allocUnits s bs.length ref with
  | .error e => .error e
  | .ok (id, us, t) =>
    if us.any (fun eu => burstWaits t (unitAddr eu)) then .error {}
    else .ok (some id, (us.zip bs).foldl (fun u ub => firnWrite u (unitAddr ub.1) ub.2 .stream 0 2) t)

/-- One message no longer needs a copy; the last one frees it, and empty extents return to the pool (R247). -/
def dropCopy (s : State) (id : Nat) : State :=
  match tget none s.copies id with
  | none => s
  | some c =>
    if c.ref > 1 then { s with copies := tput none s.copies id (some { c with ref := c.ref - 1 }) } else
    let xs := markUnits false s.copyExts (c.pieces.map (fun p => (p.1, p.2.1)))
    freeExtents { s with
      copies := tput none s.copies id none
      copyExts := xs.filter (fun em => em.2 != 0) } 4098 ((xs.filter (fun em => em.2 == 0)).map (·.1))

/-- The units of a message's copy. -/
def copyUnitsOf (s : State) (m : Msg) : List (Nat × Nat) :=
  match m.copy.bind (fun id => tget none s.copies id) with
  | none => []
  | some c => c.pieces.map (fun p => (p.1, p.2.1))

/-- The address of block `k` of a message's copy. -/
def blockAddr (s : State) (m : Msg) (k : Nat) : Nat := unitAddr ((copyUnitsOf s m).getD k (0, 0))

/-- The number in the copy of the first tile of a frame of a message. -/
def firstTile (m : Msg) (idx : Nat) : Nat := ((m.frames.take idx).map (fun f => f.tiles.length)).sum

/-- The address of a tile of a message in its copy. -/
def tileAddr (s : State) (m : Msg) (idx t : Nat) : Nat := blockAddr s m (firstTile m idx + t)

/-- Whether a stack that holds a message's copy takes no requests (R381). -/
def copyStalls (s : State) (m : Msg) : Bool := (copyUnitsOf s m).any (fun eu => burstWaits s (unitAddr eu))

/-- Tile `k` of a copy of `n` tiles read for a resend: its bytes, its checksum, and whether any of the bytes is poisoned or
uncorrectable (R377, R372). -/
def readTile (s : State) (m : Msg) (n k len : Nat) : List Byte × BitVec 32 × Bool × State :=
  let (bs, p, t) := firnRead s (blockAddr s m k) len .last 0 2
  let (cs, q, u) := firnRead t (blockAddr t m (n + k / 64) + 4 * (k % 64)) 4 .last 0 2
  (bs, BitVec.ofNat 32 (leNat cs), p || q, u)

/-- The tiles of a frame read for a resend, from tile `t` of it on: what they hold, and the first that fails (R121). -/
def readTiles (s : State) (m : Msg) (n k t len : Nat) : Nat → List Byte × List (BitVec 32) × Option Nat × State
  | 0 => ([], [], none, s)
  | fuel + 1 =>
    let (bs, c, bad, u) := readTile s m n (k + t) (min 256 (len - 256 * t))
    let (bs', cs, b, v) := readTiles u m n k (t + 1) len fuel
    (bs ++ bs', c :: cs, if bad || crc32c bs != c then some t else b, v)

/-- Frames of a message read from its copy for a resend, from index `i` on: the frames as the copy gives them, and the first
tile that fails as (frame, tile). A message without a copy has no payload. -/
def readBack (s : State) (m : Msg) (i : Nat) : List Frame → List Frame × Option (Nat × Nat) × State
  | [] => ([], none, s)
  | f :: fs =>
    if m.copy.isNone then (f :: fs, none, s) else
    let n := ((m.frames).map (fun g => g.tiles.length)).sum
    let (bs, cs, bad, t) := readTiles s m n (firstTile m i) 0 f.payload.length f.tiles.length
    let (gs, b, u) := readBack t m (i + 1) fs
    ({ f with payload := bs, tiles := cs } :: gs, match bad with | some k => some (i, k) | none => b, u)

/-! ## Building -/

/-- The frames of a message (R170) from their payloads; the header fields of each are given by its index. -/
def mkFramesOf (typ cls dest src msg : Nat) (ps : List (List Byte)) (head : Nat → Frame) : List Frame :=
  ps.zipIdx.map (fun pi =>
    let h := head pi.2
    sealFrame { h with
      w0 := mkW0 typ cls (pi.2 + 1 == ps.length) false dest src
      w1 := mkW1 msg pi.2 ps.length
      w4 := setFld h.w4 51 13 pi.1.length
      payload := pi.1
      tiles := tilesOf pi.1 })

/-- The frames of a message whose payload is cut into pieces of 4,096 bytes (R165). -/
def mkFrames (typ cls dest src msg : Nat) (payload : List Byte) (head : Nat → Frame) : List Frame :=
  mkFramesOf typ cls dest src msg (if payload.isEmpty then [[]] else chunksOf 4096 payload (payload.length / 4096 + 1)) head

/-- What is asked of Neve raised by cells that other frames of the same message take. -/
def Short.behind (e : Short) (cells : Nat) (cuts : List Cut) : Short :=
  { ask := e.ask.map (fun a => { a with cells := (a.cells.1, cells + a.cells.2) }), cuts := cuts ++ e.cuts }

/-- Neve copies of frames, each with a reference count, with the cuts met; or why not. -/
def allocFrames (s : State) (q ref : Nat) : List Frame → Except Short (List Nat × List Cut × State)
  | [] => .ok ([], [], s)
  | f :: fs =>
    match grantCopy s q 0 ref (frameBytes f) (fCells f) with
    | .error e => .error e
    | .ok (id, cs, t) =>
      match allocFrames t q ref fs with
      | .error e => .error (e.behind (fCells f) cs)
      | .ok (ids, cs', u) => .ok (id :: ids, cs ++ cs', u)

/-- The buffers of a message given back: its Neve copies and its Firn copy. -/
def dropBuffers (s : State) (neve : List Nat) (copy : Option Nat) : State :=
  let t := neve.foldl (fun u id => dropRef u 4096 id) s
  match copy with | some id => dropCopy t id | none => t

/-- The table number under which the poison of the message counters is kept, one entry for each destination (R168, R372). -/
def ctrTable : Nat := 0x40

/-- A message numbered and kept (R168); where the counter is poisoned it is discarded (R372). -/
def addMsg (s : State) (dest : Nat) (kind : MsgKind) (mk : Nat → List Frame) (neve : List Nat) (copy : Option Nat) : State :=
  if isPoisoned s ctrTable dest then dropBuffers s neve copy else
  let id := tget 0 s.msgCtr dest
  { s with
    msgCtr := tput 0 s.msgCtr dest ((id + 1) % 2 ^ 32)
    msgs := s.msgs ++ [{ key := { dest, id }, kind, frames := mk id, neve, copy }] }

/-- A message by its key. -/
def findMsg (s : State) (k : MsgKey) : Option Msg := s.msgs.find? (fun m => m.key == k)

/-- A message replaced. -/
def putMsg (s : State) (m : Msg) : State := { s with msgs := s.msgs.map (fun x => if x.key == m.key then m else x) }

/-- ABANDONED raised by `n`. -/
def countAbandoned (s : State) (n : Nat) : State := onFab s (fun f => { f with abandoned := min (f.abandoned + n) 0xFFFF })

/-! ## Ends of messages -/

/-- A message that needs nothing more: its copies go, and its step follows (R53). -/
def finishMsg (s : State) (m : Msg) : State :=
  let s1 := { s with
    msgs := s.msgs.filter (fun x => x.key != m.key)
    jobs := s.jobs.filter (fun j => match j with | .resend k _ _ => k != m.key | _ => true) }
  let s3 := dropBuffers s1 (if m.sent then [] else m.neve) m.copy
  match m.kind with
  | .result c => settleStep s3 c.slot.val c.step.toNat
  | .record slot st _ => settleStep s3 slot st
  | .release _ => s3
  | .transit n => { s3 with combs := tput none s3.combs n none }

/-- The CONTEXT of a partial of the switch for one of its ranks. -/
def combCtx (c : Comb) (rank : Nat) : Word :=
  packFields [(48, 16, c.group), (32, 16, c.step), (16, 16, c.bucket), (0, 16, rank)]

/-- A message abandoned (R180); a combiner tells the home of its partial with a NOTICE of reason ABORTED (R184). Its CONTEXT and CHUNK
are those of the partial, by its lowest rank (DESIGN CHOICE, log 113: it answers no message that the combiner has received, and R166
does not say what the two fields hold in such a NOTICE). -/
def abandonMsg (s : State) (m : Msg) : State :=
  let t := countAbandoned (finishMsg s m) 1
  match m.kind with
  | .transit n =>
    match tget none s.combs n with
    | some c => sendAnswer t (mkAnswer tyNotice t.fab.swEp.toNat c.home m.key.id c.home 9 false 0
        (combCtx c (((c.covs.flatMap (·.ranks)).mergeSort (· ≤ ·)).headD 0)) c.chunk)
    | none => t
  | _ => t

/-! ## Sending -/

/-- A frame of a message as it is queued. -/
def msgEnt (m : Msg) (f : Frame) (copy : Nat) : QEnt :=
  { copy, frame := f, src := .internal, msg := some (m.key.dest, m.key.id, fIdx f), sending := m.sendNo }

/-- A message whose copy fails: COPY_TILE, and the message is abandoned at once (R121). -/
def failCopy (s : State) (m : Msg) (idx t : Nat) : State :=
  abandonMsg (firnEvt s 11 (tileAddr s m idx t) (tileAddr s m idx t / 32 % 8) 0x3F 0) m

/-- A fault that the read of a copy meets in a tile of the first frame resent (R121). -/
def faultTile (m : Msg) (first : Nat) (copyFault : Option (Fin 16)) : Option (Nat × Nat) :=
  match copyFault with
  | some t => if m.copy.isSome && decide (t.val < ((m.frames.drop first).headD {}).tiles.length) then some (first, t.val) else none
  | none => none

/-- Frames of a message read from its copy, verified, and resent with RETX (R121, R179): they wait while a stack takes no
requests (R381) or Neve has no room (R251), and the message is abandoned where a tile fails. `note` is what a resend that is
not turned away so counts. -/
def resendNow (s : State) (note : State → State) (m : Msg) (first n : Nat) (copyFault : Option (Fin 16)) : State :=
  if copyStalls s m then waitJob (note s) {} (.resend m.key first n) else
  let (fs, bad, t) := readBack s m first ((m.frames.drop first).take n)
  match (faultTile m first copyFault).orElse (fun _ => bad) with
  | some (i, k) => failCopy t m i k
  | none =>
    let gs := fs.map markRetx
    match allocFrames (note t) 4098 1 gs with
    | .error e => waitJob (note s) e (.resend m.key first n)
    | .ok (ids, _, u) => (gs.zip ids).foldl (fun v fi => placeReplica v 4098 (msgEnt m fi.1 fi.2)) u

/-- A resend (R179, R180, R121): at the limit the message is abandoned. -/
def resendMsg (s : State) (m : Msg) (first n : Nat) (copyFault : Option (Fin 16)) : State :=
  if resendLimit s ≤ m.resends then abandonMsg s m else
  let m1 := { m with resends := m.resends + 1, sendNo := m.sendNo + 1, started := false }
  resendNow s (fun t => onFab (putMsg t m1) (fun f => { f with resent := inc16 f.resent })) m1 first n copyFault

/-- The first message to a destination that is not sent yet and may be (R169). -/
def nextUnsent (s : State) (dest : Nat) : Option Msg :=
  match s.msgs.find? (fun m => m.key.dest == dest && !m.sent) with
  | none => none
  | some m =>
    if s.msgs.any (fun x => x.key.dest == dest && (x.key.id + 256) % 2 ^ 32 == m.key.id) then none else some m

/-- Whether the replicas of a message's copies that are listed before it have been sent, but for those whose destination R169 holds:
a port sends the replicas of a copy in list order (R223). -/
def inListOrder (s : State) (m : Msg) : Bool :=
  !((s.msgs.takeWhile (fun x => x.key != m.key)).any (fun x =>
    !x.sent && x.neve.any (fun id => m.neve.contains id) && (nextUnsent s x.key.dest).isSome))

/-- MESSAGE_SEND: the frames of the next message to a destination are queued, in ascending order (R169, R170). -/
def execMessageSend (dest : BitVec 20) (s : State) : Res :=
  match nextUnsent s dest.toNat with
  | none => .next s
  | some m =>
    act (isRunning s && inListOrder s m) s
      ((m.frames.zip m.neve).foldl (fun u fi => placeReplica u 4096 (msgEnt m fi.1 fi.2))
        (putMsg (atPlace placeSend s) { m with sent := true }))

/-- A frame of a message has started on the wire: the first one of its sending starts the timer (R179). -/
def noteStart (s : State) (e : QEnt) : State :=
  match e.msg with
  | none => s
  | some (dest, id, _) =>
    match findMsg s { dest, id } with
    | none => s
    | some m =>
      if m.started || m.sendNo != e.sending then s
      else putMsg s { m with started := true, timer := some (now s, timeoutOf s) }

/-- ANS_MSG and ANS_DEST as the key of a message (R166). -/
def ansKey (f : Frame) : MsgKey := { dest := fld f.w2 12 20, id := fld f.w2 32 32 }

/-- Whether an answer to a message is here already, from whoever gives it: it takes effect before the message's timer (R186). -/
def answerHere (s : State) (m : Msg) : Bool :=
  s.localQ.any (fun l => isAnswer l.frame && ansKey l.frame == m.key)

/-- RESEND_TIMEOUT: TIMEOUT has run out on a message (R179, R180). -/
def execResendTimeout (dest : BitVec 20) (msg : BitVec 32) (copyFault : Option (Fin 16)) (s : State) : Res :=
  match findMsg s { dest := dest.toNat, id := msg.toNat } with
  | none => .next s
  | some m =>
    match m.timer with
    | none => .next s
    | some (t0, n) =>
      act (isRunning s && decide (t0 + n ≤ now s) && !answerHere s m) s
        (let m1 := { m with timer := none }
         resendMsg (putMsg (atPlace placeTimeout s) m1) m1 0 m.frames.length copyFault)

end Sys2Proof.Machine
end

