-- ==== Sys2Proof/Machine/Results.lean ====
section
/-! DEFINITION. What a home delivers: the final conversion and the RESULT messages of a chunk (R62, R69, R99, R114, R164,
R165, R184, R187, R189), completion records (R71-R74, R190, R191) and barrier releases (R193). -/

namespace Sys2Proof.Machine

/-- The window entry of a rank (R187). -/
def windowOf (s : State) (d : Desc) (r : Nat) : Vector Word 4 := tget windowReset s.tbl.window (gdMemberBase d + r)

/-- VALID of a window entry. -/
def winValid (w : Vector Word 4) : Bool := bitOf w[2] 0
/-- CQ_ENTRIES. -/
def winEntries (w : Vector Word 4) : Nat := fld w[2] 16 16
/-- RKEY. -/
def winKey (w : Vector Word 4) : Nat := fld w[2] 32 32
/-- RES_BYTES. -/
def winBytes (w : Vector Word 4) : Nat := fld w[3] 0 40

/-- The group ID that a slot's frames carry. -/
def groupIdOf (s : State) (slot : Nat) : Nat := ((getGroup s slot).gid).getD 0

/-- FULL_OUT (R189). -/
def fullOut (d : Desc) : Nat := match gdOut d with | some o => payloadLen o (gdOutBlk d) (gdK d) | none => 0

/-- Whether the window entry or the member entry of a rank is poisoned: a message to it is discarded (R372). -/
def rankPoisoned (s : State) (d : Desc) (r : Nat) : Bool :=
  isPoisoned s 0x07 (gdMemberBase d + r) || isPoisoned s 0x03 (gdMemberBase d + r)

/-- CB(b) (R189). -/
def chunksBelow (s : State) (d : Desc) (b : Nat) : Nat := ((List.range b).map (fun x => bucketChunks (bucketLen s d x))).sum

/-- Whether a bucket entry that CB(b) reads is poisoned: the messages that need it are discarded (R372). -/
def belowPoisoned (s : State) (d : Desc) (b : Nat) : Bool := (List.range b).any (fun x => isPoisoned s 0x04 (gdBucketBase d + x))

/-- The offset of a chunk's result in a member's region (R189). -/
def resultOffset (s : State) (d : Desc) (i : ChunkId) : Nat :=
  (chunksBelow s d i.bucket.toNat + i.chunk.toNat) * fullOut d

/-- The final conversion of a chunk's root (R69, R99, R114); the stream of a FUSED chunk is already encoded (R353, R354). -/
def finalOf (d : Desc) (k : Chunk) (group step bucket chunk : Nat) : Final :=
  let present := popCount k.present (gdN d)
  match k.encoded with
  | some p => { payload := p, flags := 0, vanished := 0, zeros := 0 }
  | none =>
    if gdExact d then finalExact d group step bucket chunk present (accGrid k.acc)
    else if gdOp d == 1 then
      let (q, g) := meanDiv d present (accCodes k.acc)
      let f := finalConv d group step bucket chunk q
      { f with flags := f.flags ||| g }
    else finalConv d group step bucket chunk (accCodes k.acc)

/-- The header of frame `idx` of a RESULT message (R164). -/
def resultHead (group step bucket kind home fmt blk chunk key cq : Nat) (dir : Bool) (addr idx : Nat) : Frame := {
  w2 := BitVec.ofNat 64 (addr + 4096 * idx)
  w3 := packFields [(48, 16, group), (32, 16, step), (16, 16, bucket), (12, 4, kind), (6, 6, home)]
  w4 := packFields [(45, 6, fmt), (42, 3, blk), (41, 1, b2n dir), (21, 20, chunk)]
  w5 := packFields [(32, 32, key), (0, 32, cq)] }

/-- The frames of a chunk's result to a member; DIR is 0 for a FUSED group (R356). -/
def resultFrames (s : State) (i : ChunkId) (d : Desc) (payload : List Byte) (r msg : Nat) : List Frame :=
  let w := windowOf s d r
  let block := match gdOut d with | some o => o.isBlock | none => false
  mkFrames 2 (gdResTc d) (endpointOf s d r) s.fab.swEp.toNat msg payload
    (resultHead (groupIdOf s i.slot.val) i.step.toNat i.bucket.toNat 0 (gdSelf d) (fld d[0] 38 6)
      (if block then gdOutBlk d else 0) i.chunk.toNat (winKey w) 0 (block && gdOutDir d && gdOp d != 4) (w[0].toNat + resultOffset s d i))

/-- Whether a chunk's result goes to a rank: its window entry is valid and holds it (R184). -/
def resultFits (s : State) (i : ChunkId) (d : Desc) (len r : Nat) : Bool :=
  winValid (windowOf s d r) && decide (resultOffset s d i + len ≤ winBytes (windowOf s d r))

/-- The ranks whose entries the builder of a chunk's result can read (R372). -/
def readableRanks (s : State) (i : ChunkId) (d : Desc) : List Nat :=
  if belowPoisoned s d i.bucket.toNat then [] else (List.range (gdN d)).filter (fun r => !rankPoisoned s d r)

/-- The ranks that a chunk's result goes to (R184). -/
def resultRanks (s : State) (i : ChunkId) (d : Desc) (len : Nat) : List Nat :=
  (readableRanks s i d).filter (resultFits s i d len)

/-- Neve copies of at most 1,023 replicas each (R62, R223, R245). -/
def allocLots (s : State) (fs : List Frame) : List (List Nat) → Except Short (List (List Nat × List Nat) × List Cut × State)
  | [] => .ok ([], [], s)
  | g :: gs =>
    match allocFrames s 4096 g.length fs with
    | .error e => .error e
    | .ok (ids, cs, t) =>
      match allocLots t fs gs with
      | .error e => .error (e.behind ((fs.map fCells).sum) cs)
      | .ok (out, cs', u) => .ok ((g, ids) :: out, cs ++ cs', u)

/-- Ranks in lots of at most 1,023. -/
def replicaLots (rs : List Nat) : Nat → List (List Nat)
  | 0 => []
  | n + 1 => if rs.isEmpty then [] else rs.take 1023 :: replicaLots (rs.drop 1023) n

/-- The buffers of a message's frames: Neve copies in lots of ranks, and one Firn copy for all of them, or what it waits for
(R25, R62, R251). -/
def allocMessage (s : State) (fs : List Frame) (lots : List (List Nat)) :
    Except Short (List (List Nat × List Nat) × Option Nat × State) :=
  match allocLots s fs lots with
  | .error e => .error e
  | .ok (out, cs, t) =>
    match storeCopy t fs (lots.map List.length).sum with
    | .error e => .error { ask := e.ask.map (fun a => { a with cells := (4096, lots.length * (fs.map fCells).sum) }), cuts := cs ++ e.cuts }
    | .ok (id, u) => .ok (out, id, u)

/-- A chunk's result built and delivered to its members' message queues, or what it waits for (R251). -/
def deliverResult (s : State) (i : ChunkId) (e : Final) : Except Short State :=
  let d := descOf s i.slot.val
  let rs := resultRanks s i d e.payload.length
  let missing := (readableRanks s i d).length - rs.length
  if rs.isEmpty then .ok (countAbandoned s missing) else
  match allocMessage s (resultFrames s i d e.payload (rs.headD 0) 0) (replicaLots rs (rs.length / 1023 + 1)) with
  | .error q => .error q
  | .ok (out, id, u) =>
    let each := out.flatMap (fun (gi : List Nat × List Nat) => gi.1.map (fun r => (r, gi.2)))
    .ok (countAbandoned (each.foldl (fun v (rn : Nat × List Nat) =>
      addMsg v (endpointOf s d rn.1) (.result i) (resultFrames s i d e.payload rn.1) rn.2 id) u) missing)

/-- A chunk closed with its result (R62): its slot is released, and its flags and counts are those of the record. -/
def closeDelivered (s : State) (i : ChunkId) (st : RecStatus) (e : Final) : State :=
  chunkDone (onChunk s i (fun k => { k with
    ph := .closed st, slotHeld := false, acc := none, accRes := [], moraine := [], encoded := none, delivered := true
    flags := k.flags ||| e.flags, vanished := satAdd32 k.vanished e.vanished, zeros := satAdd32 k.zeros e.zeros })) i

/-- The build of a result as it is retried: what has no room waits (R251). -/
def buildResult (s : State) (i : ChunkId) (st : RecStatus) : State :=
  let k := theChunk s i
  let e := finalOf (descOf s i.slot.val) k (groupIdOf s i.slot.val) i.step.toNat i.bucket.toNat i.chunk.toNat
  if e.repeatScale then closeChunk s i .retry causeScale else
  let s0 := { s with jobs := s.jobs.filter (fun j => j != .build i) }
  match deliverResult s0 i e with
  | .ok t => closeDelivered t i st e
  | .error q => waitJob s0 q (.build i)

/-- RESULT_BUILD (R62): the final conversion of a chunk and its delivery, when it is the operation's turn at its slice
(R47). -/
def execResultBuild (c : ChunkId) (fault : SeracFault) (s : State) : Res :=
  let d := descOf s c.slot.val
  let k := theChunk s c
  let sl := fin18 (k.slice.getD 0)
  match buildDue s c with
  | none => .next s
  | some st =>
    act (isRunning s && mayServe s sl.val (gdExpress d, k.since) && !chunkWaits s d k) s
      (let (lost, t) := meetFaults (atPlace placeWork s) sl c.slot.val 0 fault false (if k.encoded.isSome then [] else accPlace d k)
       if lost then closeArith t c else buildResult t c st)

/-! ## Completion records -/

/-- The bytes of a record and its bitmap (R73). -/
def recordBytes (s : State) (slot st : Nat) (d : Desc) (r : RunRec) : List Byte :=
  let n := gdN d
  let p := popCount r.present n
  let bm := decide (p < n)
  let x := getStep (getGroup s slot) st
  let words : List Word := [
    packFields [(48, 16, groupIdOf s slot), (32, 16, st), (16, 16, r.bucket), (12, 4, r.status.code), (6, 6, gdSelf d), (5, 1, b2n bm)],
    packFields [(44, 20, r.first), (24, 20, r.last), (4, 20, r.count)],
    packFields [(47, 17, p), (30, 17, n)],
    packFields [(53, 11, r.flags.toNat)],
    packFields [(32, 32, r.vanished), (0, 32, r.zeros)],
    x.t0, r.closeTime, 0]
  let bits := if bm then (List.range (ceilDiv n 64)).map (fun j => BitVec.ofNat 64 (r.present >>> (64 * j))) else []
  (words ++ bits).flatMap wordLE

/-- SLOT_CQ (R190). -/
def slotCq (d : Desc) : Nat := 64 * ceilDiv (64 + 8 * ceilDiv (gdN d) 64) 64

/-- A member's ring at this home: record number and credits (R191). -/
def ringOf (s : State) (slot : Nat) (d : Desc) (r : Nat) : Nat × Nat :=
  (tget none (getGroup s slot).rings r).getD (0, winEntries (windowOf s d r))

/-- A ring replaced. -/
def putRing (s : State) (slot r : Nat) (v : Nat × Nat) : State :=
  let g := getGroup s slot
  setGroup s slot { g with rings := tput none g.rings r (some v) }

/-- The first run whose record is still to go to a rank and whose RESULT messages to it are finished (R72). -/
def dueRun (s : State) (slot st r : Nat) : Option Nat :=
  let d := descOf s slot
  let x := getStep (getGroup s slot) st
  (List.range x.runs.length).find? (fun n =>
    match x.runs[n]? with
    | none => false
    | some u => u.todo.contains r && !s.msgs.any (fun m => m.key.dest == endpointOf s d r && (match m.kind with
        | .result c => c.slot.val == slot && c.step.toNat == st && c.bucket.toNat == u.bucket &&
            decide (u.first ≤ c.chunk.toNat) && decide (c.chunk.toNat ≤ u.last)
        | _ => false)))

/-- A run's record is done for a rank. -/
def runDone (s : State) (slot st n r : Nat) : State :=
  settleStep (onStep s slot st (fun x => { x with runs := x.runs.zipIdx.map (fun un =>
    if un.2 == n then { un.1 with todo := un.1.todo.filter (fun q => q != r) } else un.1) })) slot st

/-- The frames of a record (R190). -/
def recordFrames (s : State) (slot st : Nat) (d : Desc) (u : RunRec) (r cq : Nat) (msg : Nat) : List Frame :=
  let w := windowOf s d r
  let addr := w[1].toNat + gdSelf d * winEntries w * slotCq d + (cq % max 1 (winEntries w)) * slotCq d
  mkFrames 2 (gdResTc d) (endpointOf s d r) s.fab.swEp.toNat msg (recordBytes s slot st d u)
    (resultHead (groupIdOf s slot) st u.bucket 1 (gdSelf d) 0 0 u.first (winKey w) cq false addr)

/-- A run's record sent to a rank (R184, R187, R190, R191), or what it waits for. -/
def sendRecord (s : State) (slot st n r : Nat) : Except Short State :=
  let d := descOf s slot
  let w := windowOf s d r
  match (getStep (getGroup s slot) st).runs[n]? with
  | none => .ok s
  | some u =>
    if rankPoisoned s d r then .ok (runDone s slot st n r)
    else if !winValid w then .ok (runDone (countAbandoned s 1) slot st n r)
    else if winEntries w == 0 then .ok (runDone s slot st n r)
    else
      let (i, cr) := ringOf s slot d r
      if cr == 0 then .ok s else
      let mk := recordFrames s slot st d u r i
      match allocMessage s (mk 0) [[r]] with
      | .error q => .error q
      | .ok (out, id, v) =>
        .ok (runDone (addMsg (putRing v slot r ((i + 1) % 2 ^ 32, cr - 1)) (endpointOf s d r) (.record slot st r) mk
          (out.flatMap (·.2)) id) slot st n r)

/-- The sending of a record as it is retried. -/
def trySendRecord (s : State) (slot st n r : Nat) : State :=
  let j := Job.record slot st r n
  let s0 := { s with jobs := s.jobs.filter (fun x => x != j) }
  match sendRecord s0 slot st n r with
  | .ok t => t
  | .error q => waitJob s0 q j

/-- RECORD_SEND (R72). -/
def execRecordSend (slot : Fin 16384) (step rank : BitVec 16) (s : State) : Res :=
  match dueRun s slot.val step.toNat rank.toNat with
  | none => .next s
  | some n => act (isRunning s && pdOn s 2) s (trySendRecord (atPlace placeSend s) slot.val step.toNat n rank.toNat)

/-! ## Barrier releases -/

/-- A release to one rank (R167, R193), or why it waits. It needs no Firn copy: it has no payload. -/
def sendRelease (s : State) (slot bseq r : Nat) : Except Short State :=
  let d := descOf s slot
  if isPoisoned s 0x03 (gdMemberBase d + r) then .ok s else
  let mk := fun (msg : Nat) => mkFrames 8 (gdResTc d) (endpointOf s d r) s.fab.swEp.toNat msg []
    (fun _ => { w2 := packFields [(48, 16, groupIdOf s slot), (32, 16, bseq), (0, 16, r)], w3 := 0x8000000000000000 })
  match allocFrames s 4096 1 (mk 0) with
  | .error e => .error e
  | .ok (ids, _, t) => .ok (addMsg t (endpointOf s d r) (.release slot) mk ids none)

/-- Releases to ranks in order; what finds no room waits. -/
def sendReleases (s : State) (slot bseq : Nat) : List Nat → State
  | [] => s
  | r :: rs =>
    match sendRelease s slot bseq r with
    | .ok t => sendReleases t slot bseq rs
    | .error e => waitJob s e (.release slot bseq (r :: rs))

end Sys2Proof.Machine
end

