-- ==== Sys2Proof/Machine/Egress.lean ====
section
/-! DEFINITION. Egress ports (R223, R224, R235, R257, R258, R264-R275): shapers, deficit round robin, time gates, the
start of a frame and its departure. -/

namespace Sys2Proof.Machine

/-! ## Lengths and tokens -/

/-- The counted length of a frame (R257). -/
def countedLen (pkt : Bool) (overhead : Nat) (f : Nat) : Int :=
  if pkt then 1 else max 1 ((f : Int) + sintOf 8 overhead)

/-- A bucket's size in units of 2^-16 (R258, R268). -/
def bucketCap (pkt : Bool) (burst : Nat) : Int := ((if pkt then burst else burst * 256) <<< 16 : Nat)

/-- Tokens gained since a cycle, up to the size (R258). -/
def accrue (tok : Int) (at_ t rate : Nat) (cap : Int) : Int := min (tok + (rate * (t - at_) : Nat)) cap

/-- SCH_PCLS fields (R267); class 7 is strict and unshaped. -/
def schSp (c : Fin 8) (w : Word) : Bool := c == 7 || bitOf w 63
def schPkt (w : Word) : Bool := bitOf w 62
def schOverhead (w : Word) : Nat := fld w 54 8
def schQuantum (w : Word) : Nat := fld w 42 12
def schShEn (c : Fin 8) (w : Word) : Bool := c != 7 && bitOf w 41
def schRate (w : Word) : Nat := fld w 17 24
def schBurst (w : Word) : Nat := fld w 5 12

/-- Tokens of a class shaper at a cycle. -/
def clsTokens (x : Cls) (t : Nat) : Int :=
  accrue x.tok x.tokAt t (schRate x.sch) (bucketCap (schPkt x.sch) (schBurst x.sch))

/-- Tokens of the port shaper at a cycle (R269). -/
def portTokens (p : Port) (t : Nat) : Int :=
  accrue p.tok p.tokAt t (fld p.schPort 30 24) (bucketCap (bitOf p.schPort 62) (fld p.schPort 18 12))

/-- quantum_len of R266. -/
def quantumLen (w : Word) : Int :=
  if schPkt w then max 1 (schQuantum w) else 256 * max 18 (schQuantum w)

/-- The counted length of a class's head frame. -/
def headLen (x : Cls) (e : QEnt) : Int := countedLen (schPkt x.sch) (schOverhead x.sch) (wireLen e.frame)

/-- may_start of R207. -/
def mayStart (v : Vc) (cells : Nat) : Bool := decide (cells ≤ (v.peer - (v.sent - v.ret)).toNat)

/-! ## Time gates -/

/-- The duration of a gate entry (R270). -/
def gateDur (g : BitVec 32) : Nat := max 1 (fld g 0 24)

/-- The entry in force and its start, from an entry and its start on (R271). -/
def gateWalk (gs : List (BitVec 32)) (t : Nat) : Nat → Nat → Nat → Nat × Nat
  | 0, e, at_ => (e, at_)
  | n + 1, e, at_ =>
    let d := gateDur (gs.getD e 0)
    if at_ + d ≤ t then gateWalk gs t n ((e + 1) % max 1 gs.length) (at_ + d) else (e, at_)

/-- The cycle time of a gate list. -/
def gateCycle (gs : List (BitVec 32)) : Nat := (gs.map gateDur).sum

/-- The port's gate list brought to a cycle: whole cycles are passed over, then entries. -/
def gateAt (p : Port) (t : Nat) : Port :=
  if p.gateList.isEmpty then p else
  let skip := (t - p.gateEntryAt) / gateCycle p.gateList * gateCycle p.gateList
  let (e, at_) := gateWalk p.gateList t p.gateList.length p.gateEntry (p.gateEntryAt + skip)
  { p with gateEntry := e, gateEntryAt := at_ }

/-- Cycles until the gate of a class closes by its list, counting from the entry in force on; none when every entry is
open (R272). -/
def openRun (gs : List (BitVec 32)) (c : Nat) : Nat → Nat → Option Nat
  | 0, _ => none
  | n + 1, e =>
    if bitOf (gs.getD e 0) (24 + c) then (openRun gs c n ((e + 1) % max 1 gs.length)).map (· + gateDur (gs.getD e 0))
    else some 0

/-- Whether the gate of a class is open at a cycle (R271). -/
def gateOpen (p : Port) (c : Fin 8) : Bool :=
  c == 7 || p.gateList.isEmpty || bitOf (p.gateList.getD p.gateEntry 0) (24 + c.val)

/-- Whether a frame of `n` cycles ends before its gate closes (R272). -/
def guardOk (p : Port) (c : Fin 8) (t : Nat) (dev : Word) (n : Nat) : Bool :=
  c == 7 || !p.gateGuard ||
  ((p.gateList.isEmpty || (match openRun p.gateList c.val p.gateList.length p.gateEntry with
      | none => true
      | some r => decide (t + n ≤ p.gateEntryAt + r))) &&
   (match p.gateArmed with
      | none => true
      | some T => decide (dev.toNat + n ≤ T.toNat)))

/-- Cycles on the wire (R272). -/
def wireCycles (p : Port) (f : Nat) : Nat := ceilDiv ((f + 2) * 27) (200 * max 1 p.width * 2 ^ (p.gen - 1))

/-- The pending gate bank of a port (R270). -/
def pendingGates (s : State) (p n : Nat) : List (BitVec 32) :=
  (List.range n).map (fun e => if isPoisoned s 0x0C (64 * p + e) then gateReset else tget gateReset s.tbl.gate (64 * p + e))

/-- The armed switchover made (R274), `late` cycles after the first one at or past its time: the pending list runs from its
entry 0 since then, and stays in the bank. -/
def switchGates (s : State) (p late : Nat) : State :=
  let x := getPort s p
  setPort s p { x with
    gateList := pendingGates s p x.gateArmPlen, gateStart := now s - late, gateEntry := 0, gateEntryAt := now s - late
    gateArmed := none, switches := inc16 x.switches }

/-- The same, noted where it is the cycle of the switchover: a GO written in that cycle is applied in the one after it (R274). -/
def switchOver (s : State) (p late : Nat) : State :=
  let t := switchGates s p late
  if late == 0 then { t with cyc := { t.cyc with switched := tput false t.cyc.switched p true } } else t

/-- Cycles since device time reached the armed switchover time of a port. -/
def switchLate (s : State) (p : Nat) : Nat :=
  match (getPort s p).gateArmed with | some T => (devTime s - T).toNat | none => 0

/-- Whether the armed switchover is due. -/
def switchDue (s : State) (p : Nat) : Bool :=
  match (getPort s p).gateArmed with | none => false | some T => decide (T.toNat ≤ (devTime s).toNat)

/-- The gates of a port brought to this cycle. -/
def syncGate (s : State) (p : Nat) : State :=
  let t := if switchDue s p then switchOver s p (switchLate s p) else s
  setPort t p (gateAt (getPort t p) (now t))

/-- The gates of every port brought to this cycle, before device time is moved. -/
def syncGates (s : State) : State := (s.ports.map (fun (kp : Nat × Port) => kp.1)).foldl syncGate s

/-- The switchovers that a move of device time makes due, in the cycle of the move (R274, R433). -/
def jumpGates (s : State) : State :=
  ((s.ports.map (fun (kp : Nat × Port) => kp.1)).filter (switchDue s)).foldl (fun t p => switchOver t p 0) s

/-! ## Fences (R223, R224) -/

/-- Whether an endpoint is fenced. -/
def isFenced (s : State) (ep : Nat) : Bool := tget false s.fences ep

/-- A frame skipped by a fence: its copy's count falls, and its RESULT, record or release message is abandoned. -/
def skipFenced (s : State) (e : QEnt) : State :=
  let t := onFab (dropRef s (copyOwner s e.copy) e.copy) (fun f => { f with fenceSkip := inc16 f.fenceSkip })
  match e.msg with
  | none => t
  | some (dest, id, _) =>
    match findMsg t { dest, id } with
    | none => t
    | some m => match m.kind with | .transit _ => t | _ => abandonMsg t m

/-- Fenced frames removed from the head of a class queue. -/
def dropFencedHead (s : State) (p : Nat) (c : Fin 8) : Nat → State
  | 0 => s
  | n + 1 =>
    let x := getPort s p
    match (getCls x c).q with
    | [] => s
    | e :: rest =>
      if isFenced s (fDest e.frame) then
        dropFencedHead (skipFenced (setPort s p (setCls x c { getCls x c with q := rest })) e) p c n
      else s

/-- Fenced frames removed from the head of every class queue of a port. -/
def dropFenced (s : State) (p : Nat) : State :=
  (List.range 8).foldl (fun t c => dropFencedHead t p (fin8 c) (getCls (getPort t p) (fin8 c)).q.length) s

/-! ## Selection (R264-R266) -/

/-- Every condition of R264 but the guard rule. -/
def eligible0 (s : State) (x : Port) (c : Fin 8) : Bool :=
  let y := getCls x c
  match y.q with
  | [] => false
  | e :: _ =>
    mayStart (getVc x c) (fCells e.frame) && gateOpen x c &&
    (c == 7 || ((!schShEn c y.sch || decide (0 ≤ clsTokens y (now s))) &&
      (!bitOf x.schPort 63 || decide (0 ≤ portTokens x (now s)))))

/-- The guard rule for the head of a class. -/
def guardHead (s : State) (x : Port) (c : Fin 8) : Bool :=
  match (getCls x c).q with
  | [] => false
  | e :: _ => guardOk x c (now s) (devTime s) (wireCycles x (wireLen e.frame))

/-- A class is eligible (R264). -/
def eligible (s : State) (x : Port) (c : Fin 8) : Bool := eligible0 s x c && guardHead s x c

/-- A value in the 32 signed bits of a deficit. -/
def wrap32 (x : Int) : Int := sintOf 32 (uintOf 32 x)

/-- dwrr_pick of R266. -/
def dwrrPick (el : Fin 8 → Bool) : Nat → Port → Port × Option (Fin 8)
  | 0, x => (x, none)
  | n + 1, x =>
    let c := x.cur
    let y := getCls x c
    let next := fun (z : Cls) => dwrrPick el n { setCls x c z with cur := x.cur + 1, fresh := true }
    if schSp c y.sch then next y
    else match y.q with
      | [] => next { y with deficit := 0 }
      | e :: _ =>
        if el c then
          let d := if x.fresh then wrap32 (y.deficit + quantumLen y.sch) else y.deficit
          if headLen y e ≤ d then ({ setCls x c { y with deficit := wrap32 (d - headLen y e) } with fresh := false }, some c)
          else next { y with deficit := d }
        else next y

/-- The class a port sends next, and the port after the choice (R265). -/
def pickClass (s : State) (x : Port) : Port × Option (Fin 8) :=
  if eligible s x 7 then (x, some 7)
  else
    match [6, 5, 4, 3, 2, 1, 0].find? (fun (c : Fin 8) => schSp c (getCls x c).sch && eligible s x c) with
    | some c => (x, some c)
    | none => dwrrPick (eligible s x) 9 x

/-- GUARD_HOLD: each head frame held back by the guard rule counts once (R275). -/
def noteGuard (s : State) (p : Nat) : State :=
  (List.range 8).foldl (fun t n =>
    let c := fin8 n
    let x := getPort t p
    match (getCls x c).q with
    | [] => t
    | e :: rest =>
      if !e.guardSeen && gateOpen x c && !guardHead t x c then
        setPort t p { setCls x c { getCls x c with q := { e with guardSeen := true } :: rest } with
          guardHold := inc16 x.guardHold }
      else t) s

/-! ## Start and departure -/

/-- A frame as it leaves: HOPS raised when forwarded (R156), CMARK set above the threshold (R235), HOP_CRC afresh. -/
def leaving (e : QEnt) (mark : Bool) : Frame :=
  let f := e.frame
  let h := match e.src with
    | .port .. => { f with w0 := setFld f.w0 48 4 (fHops f + 1) }
    | .internal => f
  reHop (if mark then { h with w0 := h.w0 ||| 0x0040000000000000#64 } else h)

/-- The head of a class starts (R264, R265): debits, credits, mark by the queue's depth at the start of the cycle, and the
message's timer. -/
def startFrame (s : State) (p : Nat) (x : Port) (c : Fin 8) (e : QEnt) (rest : List QEnt) (depth : Nat) : State :=
  let y := getCls x c
  let t := now s
  let th := fld y.pcls 32 20
  let mark := th != 0xFFFFF && decide (th < depth)
  let y1 := { y with q := rest }
  let y2 := if schShEn c y.sch then
      { y1 with tok := clsTokens y t - headLen y e * 65536, tokAt := t } else y1
  let x1 := setCls x c y2
  let v := getVc x c
  let x2 := setVc x1 c { v with sent := v.sent + BitVec.ofNat 12 (fCells e.frame) }
  let x3 := if bitOf x.schPort 63 then
      { x2 with
        tok := portTokens x t - countedLen (bitOf x.schPort 62) (fld x.schPort 54 8) (wireLen e.frame) * 65536
        tokAt := t }
    else x2
  noteStart (setPort s p { x3 with
    sending := some { ent := { e with frame := leaving e mark }, cls := c, ends := t + wireCycles x (wireLen e.frame) } }) e

/-- The switch-queue event of a port and class (R424). -/
def swqEvt (s : State) (bit p : Nat) (c : Fin 8) : State :=
  recordEvt s (16 + p / 128) bit (packFields [(55, 9, p), (52, 3, c.val)])

/-- The byte address of a 128-byte word of a frame's copy (R423). -/
def copyAddr (s : State) (e : QEnt) (word : BitVec 7) : Nat :=
  let w := word.toNat
  match tget none s.neve e.copy with
  | some c => (c.cells.getD (w / 2 % max 1 c.cells.length) e.copy) * 256 + 128 * (w % 2)
  | none => e.copy * 256

/-- Whether a port verifies the tiles of a RESULT frame as it delivers it (R121): the last hop, and the switch that has the
copy to resend from. -/
def verifies (s : State) (p : Nat) (e : QEnt) : Bool :=
  fType e.frame == 2 && (e.msg.isSome || portRole (getPort s p) == 0)

/-- What a fault found at the head of a queue makes of its frame: the state after the event, and whether it still
leaves (R121, R424). -/
def headFault (s : State) (p : Nat) (c : Fin 8) (e : QEnt) (fault : EgressFault) : State × Bool :=
  let whole := !verifies s p e || tilesGood e.frame
  match fault with
  | .none | .gate .. => (s, whole)
  | .cellCorr w => (nevEvt s 0 (copyAddr s e w), whole)
  | .descCorr => (swqEvt s 0 p c, whole)
  | .cellUncorr w => (nevEvt s 1 (copyAddr s e w), false)
  | .descUncorr => (swqEvt s 1 p c, false)
  | .tile t => (s, whole && !(verifies s p e && decide (t.val < e.frame.tiles.length)))

/-- Whether a frame of the switch's own was stopped by a tile, and not by an event of its cells or descriptor. -/
def tileStopped (fault : EgressFault) : Bool := match fault with | .cellUncorr _ => false | .descUncorr => false | _ => true

/-- A frame that cannot leave: dropped, and where a tile of the switch's own RESULT frame failed, resent from its Firn
copy (R121). -/
def dropHead (s : State) (e : QEnt) (fault : EgressFault) : State :=
  let t := dropRef s (copyOwner s e.copy) e.copy
  match e.msg.bind (fun m => findMsg t { dest := m.1, id := m.2.1 }) with
  | some m => if tileStopped fault then resendMsg t m (fIdx e.frame) 1 none else t
  | none => t

/-- Whether a port can carry frames: UP, and its Pier, Viaduct and switch quadrant run. -/
def portLive (s : State) (p : Nat) : Bool :=
  isRunning s && (getPort s p).st == .up && pdOn s (22 + p / 64) && pdOn s (18 + p / 128) &&
  !(s.vdct[fin8 (p / 64)]).stopped

/-- The depth of a queue as its head is selected (R235): that of the start of the cycle, and the selected frame. -/
def startDepth (s : State) (q : List QEnt) (e : QEnt) : Nat :=
  queueDepth (q.filter (fun x => x == e || decide (x.joined < now s)))

/-- A gate entry that is brought into force now may meet an error as it is read (R426). -/
def gateFault (s : State) (p : Nat) (fault : EgressFault) : State :=
  match fault with
  | .gate n lost => if switchDue s p then lookupFault s 0x0C (64 * p + n.val) lost else s
  | _ => s

/-- FRAME_START: an UP port that is not sending selects and starts a frame (R264). -/
def execFrameStart (p : PortNo) (fault : EgressFault) (s : State) : Res :=
  if !(portLive s p && (getPort s p).sending.isNone) then .next s else
  let s0 := gateFault (atPlace (placeStart s p) s) p fault
  let s1 := noteGuard (dropFenced (syncGate s0 p) p) p
  let (x, pick) := pickClass s1 (getPort s1 p)
  let s2 := setPort s1 p x
  match pick with
  | none => .next s2
  | some c =>
    match (getCls x c).q with
    | [] => .next s2
    | e :: rest =>
      let (s3, goes) := headFault s2 p c e fault
      if goes then .next (startFrame s3 p (getPort s3 p) c e rest (startDepth s0 (getCls (getPort s0 p) c).q e))
      else .next (dropHead (setPort s3 p (setCls (getPort s3 p) c { getCls x c with q := rest })) e fault)

/-- A frame sent whole: K27.7, its bytes, K29.7 (R397). -/
def sendFrame (s : State) (p : Nat) (f : Frame) : State :=
  emitLine (sendStream s p (.k kStart :: (sentBytes f).map Sym.d ++ [.k kEnd])) (.frame p f)

/-- A frame ended with K30.7 in place of the rest (R398); how much of it went before is timing, and free. -/
def abortFrame (s : State) (p : Nat) (f : Frame) : State :=
  let (w, t) := freshWord s
  let bs := sentBytes f
  emitLine (sendStream t p (.k kStart :: (bs.take (w.toNat % (bs.length + 1))).map Sym.d ++ [.k kAbort])) (.abort p)

/-- R451: the whole switch outside PD_ROOT and PD_SEC halts; a frame that has started ends with K30.7. -/
def haltSwitch (s : State) : State :=
  let s1 := s.ports.foldl (fun t (kp : Nat × Port) =>
    match kp.2.sending with | some w => abortFrame t kp.1 w.ent.frame | none => t) s
  { s1 with
    ports := tmap {} (fun _ x => { x with sending := none }) s1.ports
    clk := { s1.clk with halted := true } }

/-- FRAME_DEPART: the last symbol of the frame on the wire leaves (R206, R219, R245); a frame whose cells are lost ends
with K30.7 (R398, R424). -/
def execFrameDepart (p : PortNo) (cellLost : Option (BitVec 7)) (s : State) : Res :=
  let x := getPort s p
  match x.sending with
  | none => .next s
  | some w =>
    let s1 := setPort (atPlace placeDepart s) p { x with sending := none }
    let gone := fun (t : State) => dropRef t (copyOwner t w.ent.copy) w.ent.copy
    act (portLive s p && decide (w.ends ≤ now s)) s
      (match cellLost with
       | some n => gone (abortFrame (nevEvt s1 1 (copyAddr s1 w.ent n)) p w.ent.frame)
       | none => holdLeave (gone (sendFrame s1 p w.ent.frame)) (some p.val) w.ent)

/-- GATE_ENTRY_ADVANCE: the entry in force ends, and the next one's gates apply (R271). -/
def execGateEntryAdvance (p : PortNo) (s : State) : Res :=
  let x := getPort s p
  let d := gateDur (x.gateList.getD x.gateEntry 0)
  act (isRunning s && !x.gateList.isEmpty && decide (x.gateEntryAt + d ≤ now s)) s
    (setPort (atPlace placeGate s) p { x with gateEntry := (x.gateEntry + 1) % x.gateList.length, gateEntryAt := x.gateEntryAt + d })

/-- The switchover time of a GO at device time `t` (R274): the first BASE + k C after it. -/
def switchTime (base t : Word) (c : Nat) : Word :=
  if t.toNat < base.toNat then base
  else if c == 0 then t + 1
  else BitVec.ofNat 64 (base.toNat + ((t.toNat - base.toNat) / c + 1) * c)

/-- The per-port registers of the switch core act: the port exists and its quadrant is on (R392, R455, R487). -/
def portRegs (s : State) (p : Nat) : Bool := isRunning s && portExists s p && pdOn s (18 + p / 128)

/-- The cycle in which a GO is applied: that after a switchover's own (R274). -/
def goCycle (s : State) (p : Nat) : State :=
  let t := syncGate s p
  if tget false t.cyc.switched p then laterCycle t else t

/-- A write of GATE_CTL (R274, R275). -/
def writeGateCtl (s : State) (p : Nat) (v : Word) : State :=
  let t := if bitOf v 63 then goCycle s p else s
  let x := getPort t p
  let n := min 64 (fld v 48 7)
  let x1 := { x with gateGuard := bitOf v 61, gatePlen := fld v 48 7 }
  if bitOf v 63 then
    setPort t p { x1 with
      gateArmed := some (switchTime x.gateBase (devTime t) (gateCycle (pendingGates t p n))), gateArmPlen := n }
  else setPort t p x1

/-- GATE_GO: GO written to GATE_CTL. -/
def execGateGo (p : PortNo) (v : Word) (s : State) : Res :=
  act (portRegs s p) s (writeGateCtl (atPlace placeWrite s) p (v ||| 0x8000000000000000#64))

/-- GATE_SWITCHOVER: device time reaches the armed switchover (R274). -/
def execGateSwitchover (p : PortNo) (s : State) : Res :=
  act (isRunning s && switchDue s p) s (let t := atPlace placeGate s; switchOver t p (switchLate t p))

/-! ## Hold entries -/

/-- Whether a frame that an entry counts has its last symbol leave in this cycle or before: that comes ahead of the entry's
timer (R221). What the switch handles of the frames addressed to it comes ahead by its place in the cycle. -/
def lastLeaving (s : State) (h : HoldEnt) : Bool :=
  match h.port.bind (fun p => (getPort s p).sending) with
  | none => false
  | some w => decide (w.ends ≤ now s) && holdKey w.ent.frame == h.key && !fKey w.ent.frame

/-- KS_TIMEOUT: a hold entry's timer ends (R220, R221). -/
def execKsTimeout (k : HoldKey) (s : State) : Res :=
  match findHold s k with
  | none => .next s
  | some h =>
    let t := atPlace placeHoldEnd s
    act (isRunning s && decide (h.ends ≤ now s) && !lastLeaving s h) s
      (if h.ks.isSome then onFab (releaseHold t h true) (fun f => { f with ksTimeout := inc16 f.ksTimeout })
       else putHold t k none)

/-- KEYSTONE_QUIET_RELEASE: QUIET cycles without a frame of a RETX 1 entry (R219). -/
def execKeystoneQuietRelease (k : HoldKey) (s : State) : Res :=
  match findHold s k with
  | none => .next s
  | some h =>
    act (isRunning s && k.retx && h.ks.isSome && decide (h.last + quietCycles s ≤ now s)) s
      (onFab (releaseHold (atPlace placeHoldEnd s) h true) (fun f => { f with ksQuiet := inc16 f.ksQuiet }))

end Sys2Proof.Machine
end

