-- ==== Sys2Proof/Machine/Ingress.lean ====
section
/-! DEFINITION. A frame on its way in (R153-R160, R195-R201, R230-R232, R250, R259-R263, R396-R398): checks, policing,
route lookup, and what becomes of it. -/

namespace Sys2Proof.Machine

/-- Where a dropped frame is counted (R153, R154, R156, R159, R398). -/
inductive Drop where
  | header | hopCrc | stomped | frameErr | aborted
  deriving DecidableEq, Repr

/-- A drop counted at its port. -/
def countDrop (s : State) (p : Nat) (d : Drop) : State :=
  let x := getPort s p
  setPort s p (match d with
    | .header => { x with hdrErr := inc16 x.hdrErr }
    | .hopCrc => { x with hopCrc := inc16 x.hopCrc }
    | .stomped => { x with stomped := inc16 x.stomped }
    | .frameErr => { x with frameErr := inc16 x.frameErr }
    | .aborted => { x with aborted := inc16 x.aborted })

/-- A drop of a frame that has no Neve copy: counted at its port, the cells that its PAYLOAD_LEN charged returned on the VC that
its CLASS names (R206, R207, R232). -/
def dropFrame (s : State) (p : Nat) (f : Frame) (d : Drop) : State :=
  returnCredits (countDrop s p d) p (fClass f) (getPort s p).ups (fCells f)

/-- The header checks of R155 and R159. -/
def headerOk (f : Frame) : Bool :=
  fld f.w0 0 8 == (hcheckOf f).toNat && fLen f ≤ 4096 && fCount f != 0 && decide (fIdx f < fCount f)

/-- TYPE and CLASS as R153 and R154 permit them. -/
def typeClassOk (f : Frame) : Bool :=
  decide (fType f < 10) && decide (fClass f < 8) && (isAnswer f == (fClass f == 7))

/-- What the end of a frame shows (R159, R396-R398): none when it is good. -/
def endFault (f : Frame) (wire : WireFault) : Option Drop :=
  match wire with
  | .aborted => some .aborted
  | .clean =>
    if f.payload.length != fLen f || f.tiles.length != ceilDiv (fLen f) 256 then some .hopCrc
    else if f.hopCrc != crc32 (frameBytes f) then some .hopCrc
    else if f.endCode == 1 then none
    else if f.endCode == 2 then some .stomped
    else some .hopCrc
  | _ => some .hopCrc

/-! ## Policing -/

/-- A policer entry as the Pier uses it; a poisoned one is disabled (R426). -/
def policerOf (s : State) (i : Nat) : Vector Word 4 :=
  if isPoisoned s 0x0B i then policerReset else tget policerReset s.tbl.policer i

/-- One marker (R261): the colour out, and the state with its tokens and counters. -/
def markOne (s : State) (i : Nat) (colour f : Nat) (stage2 : Bool) : Nat × State :=
  let e := policerOf s i
  if !bitOf e[0] 63 then (colour, s) else
  let (tc, tp) := settleTok s i e
  let b := (countedLen (bitOf e[0] 61) (fld e[0] 53 8) f).toNat * 65536
  let inC := if stage2 && bitOf e[0] 62 then colour else 0
  let (out, tc', tp') :=
    if inC == 2 || tp < b then (2, tc, tp)
    else if inC == 1 || tc < b then (1, tc, tp - b)
    else (0, tc - b, tp - b)
  let up := fun (w : Word) (lo : Nat) => setFld w lo 32 (satAdd32 (fld w lo 32) 1)
  let n := tget policerReset s.tbl.policer i
  let n' := if out == 0 then n.set 2 (up n[2] 32) else if out == 1 then n.set 2 (up n[2] 0) else n.set 3 (up n[3] 32)
  (out, { s with
    polTok := tput (0, 0, 0) s.polTok i (tc', tp', now s)
    tbl := { s.tbl with policer := tput policerReset s.tbl.policer i n' } })

/-- What policing does with a frame (R262): the frame continues, perhaps marked, or is dropped. -/
def police (s : State) (p : Nat) (f : Frame) : State × Option Frame :=
  let c := fClass f
  if c ≥ 7 then (s, some f) else
  let i := 8 * p + c
  let (k1, s1) := markOne s i 0 (wireLen f) false
  let (k2, s2) := markOne s1 (4096 + p) k1 (wireLen f) true
  let e := policerOf s i
  let action := if k2 == 0 then 0 else if k2 == 1 then fld e[0] 51 2 else fld e[0] 49 2
  match action with
  | 1 => (s2, some (setCmark f))
  | 2 =>
    if bitOf s.fab.polCls c then
      let n := tget policerReset s2.tbl.policer i
      let n' := n.set 3 (setFld n[3] 0 32 (satAdd32 (fld n[3] 0 32) 1))
      ({ s2 with tbl := { s2.tbl with policer := tput policerReset s2.tbl.policer i n' } }, none)
    else (s2, some (setCmark f))
  | _ => (s2, some f)

/-! ## Forwarding -/

/-- The raw line rate of a port, in units of 100 Gbit/s. -/
def rawRate (x : Port) : Nat := x.width * 2 ^ (x.gen - 1)

/-- The Neve copy of a frame received (R227, R247), or why there is none. -/
def takeIn (s : State) (l : LocalC) : Except Short (Nat × State) :=
  allocCopy s (8 * l.port + l.cls) l.ups 1 (frameBytes l.frame) (fCells l.frame)

/-- A frame received that gets no cells: dropped, counted, its credits returned (R250). It counts in DROPS and not in DENIED, which
R248 leaves open for what R250 drops (DESIGN CHOICE, log 121); a list that its allocation found cut is cut (R243). -/
def refuseIn (s₀ : State) (e : Short) (l : LocalC) : State :=
  let s := applyCuts s₀ e
  let x := getPort s l.port
  let t := setPort s l.port { x with frameErr := inc16 x.frameErr }
  let i := 8 * l.port + l.cls
  returnCredits { t with drops := tput 0 t.drops i (inc16 (tget 0 t.drops i)) } l.port l.cls l.ups (fCells l.frame)

/-- A frame received as it is queued. -/
def portEnt (l : LocalC) (copy : Nat) : QEnt :=
  { copy, frame := l.frame, src := .port l.port l.cls, ups := l.ups, ts := l.ts, sof := l.sof }

/-- The credits of a frame received that has no copy. -/
def creditIn (s : State) (l : LocalC) : State := returnCredits s l.port l.cls l.ups (fCells l.frame)

/-- A forwarded frame written to Neve, sprayed and enqueued (R199-R201, R250). -/
def forwardTo (s : State) (l : LocalC) (n : Nat) : State :=
  let f := l.frame
  let fromUp := decide (l.port < 512) && portRole (getPort s l.port) == 1
  match spray s n (fin8 (fClass f)) (fCells f) fromUp with
  | .turn => creditIn (onFab s (fun x => { x with turn := inc16 x.turn })) l
  | .noPort => creditIn (onFab s (fun x => { x with noPort := inc16 x.noPort })) l
  | .to q ptr =>
    match takeIn s l with
    | .error e => refuseIn s e l
    | .ok (id, t) => enqueue (putPtr t n ptr) (some q) (portEnt l id)

/-- A frame that the switch forwards: hop limit, then its equal-cost set (R156). -/
def forward (s : State) (l : LocalC) (n : Nat) : State :=
  if fHops l.frame == 15 then
    let x := getPort s l.port
    creditIn (setPort s l.port { x with hopLimit := inc16 x.hopLimit }) l
  else forwardTo s l n

/-- A contribution that this switch might combine in passing (conditions 1, 2 and 5 of R132), which nothing is while the
active set holds no running slice (R35). A frame whose HOPS is 15 is none: R132 does not name it, and it goes on to be dropped as a
forwarded frame (R156; DESIGN CHOICE, log 118). -/
def mayCombine (s : State) (f : Frame) : Bool :=
  bitOf s.fab.combCtl 63 && fType f == 1 && !fRetx f && fHops f != 15 && !(runningSlices s).isEmpty &&
  (match slotOf s (fGroup f) with
    | some slot => gdExact (descOf s slot) && gdStatus (descOf s slot) == 0
    | none => false)

/-- A frame whose destination has no valid route (R195). -/
def unrouted (s : State) (l : LocalC) : State := creditIn (onFab s (fun x => { x with noRoute := inc16 x.noRoute })) l

/-- A good frame for the switch itself: a CONTRIB frame needs no cells, another is written to Neve (R22). -/
def arriveHere (s : State) (l : LocalC) : State :=
  if fType l.frame == 1 then enqueue s none (portEnt l 0) else
  match takeIn s l with
  | .error e => refuseIn s e l
  | .ok (id, t) => enqueue t none (portEnt l id)

/-- A good frame sent on its way unchanged (R22, R195-R197). -/
def routeOn (s : State) (l : LocalC) : State :=
  match routeOf s (fDest l.frame) with
  | .invalid => unrouted s l
  | .self => arriveHere s l
  | .set n => forward s l n

/-- Whether a frame came on a port and class. -/
def cameOn (p c : Nat) (l : LocalC) : Bool := l.port == p && l.cls == c

/-- Whether an open partial holds a contribution of a port and class, which may still leave as it was received (R133): what came after
it on that port and class waits for it (R234). -/
def heldUp (s : State) (p c : Nat) : Bool :=
  s.combs.any (fun (kc : Nat × Option Comb) => match kc.2 with
    | some x => !x.sealed && x.held.any (cameOn p c)
    | none => false)

/-- Frames at the head of what one port and class have waiting at the combiner that are to be forwarded: they leave, so that no
frame of that port and class passes another (R234). -/
def drainComb (s : State) (p c : Nat) : Nat → State
  | 0 => s
  | n + 1 =>
    match takeFirst (cameOn p c) s.combQ with
    | none => s
    | some (l, rest) => if l.pass && !heldUp s p c then drainComb (routeOn { s with combQ := rest } l) p c n else s

/-- A good frame routed: to the switch itself, to the combiner, or onward (R22, R195-R197). A frame that is not combined goes
on behind those of its port and class that wait at the combiner (R234). -/
def routeFrame (s : State) (l : LocalC) : State :=
  match routeOf s (fDest l.frame) with
  | .invalid => unrouted s l
  | .self => arriveHere s l
  | .set _ =>
    let t := { s with combQ := s.combQ ++ [{ l with pass := !mayCombine s l.frame }] }
    drainComb t l.port l.cls t.combQ.length

/-! ## A frame that proves bad after its header -/

/-- Whether a frame may start at an egress before it has arrived (R231). -/
def cutsThrough (s : State) (p q : Nat) (c : Fin 8) : Bool :=
  let x := getPort s q
  bitOf (getCls x c).pcls 63 && (getCls x c).q.isEmpty && decide (rawRate x ≤ rawRate (getPort s p)) &&
  x.st == .up && x.sending.isNone

/-- A frame that fails at its end has reached its holding egress at its header (R200): it makes an entry as any frame of its message
does, and is not held in it (R219). -/
def reachBad (s : State) (q : Option Nat) (e : QEnt) : State :=
  let t := (holdArrive s q e).1
  match findHold t (holdKey e.frame) with
  | some h => if h.ks == some e then putHold t h.key (some { h with ks := none }) else t
  | none => t

/-- A frame with a Neve copy that fails at its end and has not started: dropped at ingress, its cells freed and its credits
with them (R159, R230). -/
def dropHeld (s : State) (l : LocalC) (id : Nat) (d : Drop) : State :=
  dropRef (countDrop s l.port d) (8 * l.port + l.cls) id

/-- A bad frame that R231 lets start before it has arrived, at the port its spray chose: it goes through the keystone hold, the
fences and the selection as any frame does, and one that has started is completed with STOMPED (R160, R218, R224). -/
def startBad (s : State) (l : LocalC) (q id : Nat) (d : Drop) : State :=
  let c := fin8 (fClass l.frame)
  match holdArrive s (some q) (portEnt l id) with
  | (_, none) => dropHeld (reachBad s (some q) (portEnt l id)) l id d
  | (t, some e) =>
    let u := syncGate (pushQueue t q e) q
    if isFenced u (fDest e.frame) then countDrop (dropFenced u q) l.port d else
    let (y, pick) := pickClass u (getPort u q)
    if pick == some c then
      let w := startFrame u q y c e [] (fCells e.frame)
      let z := getPort w q
      let stomp := fun (g : Sending) => { g with ent := { g.ent with frame := { g.ent.frame with endCode := 2 } } }
      countDrop (setPort w q { z with sending := z.sending.map stomp }) l.port d
    else dropHeld (setPort u q (setCls y c { getCls y c with q := [] })) l id d

/-- A frame that fails at its end: it has been sprayed and has its cells since its header (R200, R232, R250), and may have
started; else it is dropped at ingress. A contribution that may be combined, or waits behind one, does not start before it has
arrived. -/
def badFrame (s : State) (l : LocalC) (d : Drop) (started : Bool) : State :=
  let f := l.frame
  let drop := fun (t : State) => dropFrame t l.port f d
  match routeOf s (fDest f) with
  | .invalid => unrouted s l
  | .self =>
    if fType f == 1 then drop s else
    match takeIn s l with
    | .error e => refuseIn s e l
    | .ok (id, t) => dropHeld (reachBad t none (portEnt l id)) l id d
  | .set n =>
    if mayCombine s f || s.combQ.any (cameOn l.port l.cls) then drop s
    else if fHops f == 15 then forward s l n
    else
      match spray s n (fin8 (fClass f)) (fCells f) (portRole (getPort s l.port) == 1) with
      | .to q ptr =>
        match takeIn s l with
        | .error e => refuseIn s e l
        | .ok (id, t) =>
          let u := putPtr t n ptr
          if started && cutsThrough u l.port q (fin8 (fClass f)) && portLive u q then startBad u l q id d
          else dropHeld (reachBad u (some q) (portEnt l id)) l id d
      | _ => forwardTo s l n

/-! ## FRAME_RECEIVE -/

/-- The ingress timestamp of a frame whose start came `age` cycles ago (R19); a Pier whose time is not loaded takes none
(R437), and then it is free. -/
def stampOf (s : State) (p age : Nat) : Word × State :=
  if (tget {} s.piers (p / 64)).loaded.isSome then (devTime s - BitVec.ofNat 64 age, s) else freshWord s

/-! ### The characters of a frame (R396, R397, R399) -/

/-- on_credit_symbol of R207 on one VC. -/
def onSymbol (x : Port) (c : Fin 8) (init : Bool) (value : BitVec 12) : Port :=
  let v := getVc x c
  if init then
    if x.st != .up then setVc x c { v with peer := value, initVal := value, sent := 0, ret := 0, gotInit := true }
    else if value != v.peer then { x with credErr := inc16 x.credErr } else x
  else
    let y := { x with peerCred0 := true }
    if (v.sent - v.ret).toNat < (value - v.ret).toNat then { y with credErr := inc16 x.credErr }
    else setVc y c { v with ret := value }

/-- A credit symbol received: K23.7, which is balanced, and the three characters behind it (R205, R207). A code error in one of them,
or a CRC-8 that fails, discards the symbol (R396). -/
def takeSymbol (s : State) (p : Nat) (cs : List Code) : State :=
  let (bs, t) := rxData (rxAdvance s p) p cs
  let x := getPort t p
  setPort t p (match bs with
    | some [a, b, c] =>
      if crc8 [a, b] != c then { x with credErr := inc16 x.credErr }
      else onSymbol x (fin8 (fld a 5 3)) (bitOf a 4) (BitVec.ofNat 12 (fld a 0 4 * 256 + b.toNat))
    | _ => { x with credErr := inc16 x.credErr })

/-- One character of a frame at its stream position: a data byte, or K27.7, K29.7 or K30.7, which are balanced; with its code error,
which stands on the lane of that position (R396). -/
def rxOne (s : State) (p : Nat) (b : Option Byte) (bad : Bool) : State :=
  let lane := rxLane s p (getPort s p).rxPos
  let t := if bad then codeErrEvt s lane else s
  match b with
  | none => rxAdvance t p
  | some x => rxFrame t p [x]

/-- The characters of a frame from number `n` on, each behind the credit symbols that stand before it (R397). -/
def rxBody (s : State) (p n : Nat) (w : WireIn) : List (Option Byte) → State
  | [] => s
  | b :: bs =>
    let t := (w.inside.filter (fun x => x.1.toNat == n)).foldl (fun u x => takeSymbol u p [x.2.1, x.2.2.1, x.2.2.2]) s
    let bad := match w.fault with
      | .codeErr pos => pos.any (fun k => k.toNat == n)
      | _ => false
    rxBody (rxOne t p b bad) p (n + 1) w bs

/-- What the characters of a frame leave of the port and its lanes: K27.7, the bytes, and the special character that ends it, where it
has one that is its own: a K27.7 that cuts it short is the first of the next frame. -/
def rxWire (s : State) (p : Nat) (f : Frame) (w : WireIn) : State :=
  let ends := match w.fault with
    | .startInside | .cut => []
    | _ => [none]
  rxBody s p 0 w (none :: (sentBytes f).map some ++ ends)

/-- A frame arrives at an UP port (R159). Its lookups in the route, set, quota and policer tables may meet errors (R426). -/
def receive (s : State) (p : PortNo) (f : Frame) (wire : WireIn) (age : Nat) (started : Bool) : State :=
  let s0 := meetLookups (rxWire s p f wire) [8, 9, 10, 11] wire.lookups
  if !headerOk f then dropFrame s0 p f .header
  else if !typeClassOk f then dropFrame s0 p f .frameErr
  else
    let (ts, s1) := stampOf s0 p age
    match police s1 p f with
    | (s2, none) => returnCredits s2 p (fClass f) (getPort s p).ups (fCells f)
    | (s2, some g) =>
      let l : LocalC := { port := p, cls := fClass f, ups := (getPort s p).ups, frame := g, ts, sof := now s - age }
      match endFault f wire.fault with
      | none => routeFrame s2 l
      | some d => badFrame s2 l d started

/-- FRAME_RECEIVE. A frame that the loss of its link cuts short is still dropped and counted at a port that has gone to HELD (R408). -/
def execFrameReceive (p : PortNo) (f : Frame) (wire : WireIn) (age : Nat) (started : Bool) (s : State) : Res :=
  let t := atPlace (placeReceive s p) s
  if wire.fault == .cut && (getPort s p).st == .held then act (isRunning s && portExists s p) s (countDrop t p .hopCrc)
  else act (portLive s p && portExists s p && (!s.tap.taken || wire.fault == .cut)) s (receive t p f wire age started)

end Sys2Proof.Machine
end

