-- ==== Sys2Proof/Machine/Combine.lean ====
section
/-! DEFINITION. Combining in passing (R112, R113, R132-R140, R163): the conditions, partials, their sealing and custody; and the slices
that leave the set or stop (R33, R425), at the home and at the combiner. -/

namespace Sys2Proof.Machine

/-! ## Contributions on their way through -/

/-- The frames of one message in the combiner's queue. -/
def sameMsg (f : Frame) (l : LocalC) : Bool := fSrc l.frame == fSrc f && fMsg l.frame == fMsg f && fDest l.frame == fDest f

/-- Every frame of a message stands in the list. -/
def allThere (f : Frame) (q : List LocalC) : Bool :=
  (List.range (fCount f)).all (fun n => q.any (fun l => sameMsg f l && fIdx l.frame == n))

/-- WINDOW of COMB_CTL (R139). -/
def combWindow (s : State) : Nat := fld s.fab.combCtl 0 32

/-- A frame of a message of several frames has waited WINDOW cycles for the others (DESIGN CHOICE, log 54). -/
def waitedLong (s : State) (l : LocalC) : Bool := decide (l.sof + combWindow s ≤ now s)

/-- Whether a frame is the first of its port and class in what waits at the combiner: none passes another (R234). -/
def firstOfItsOwn (s : State) (l : LocalC) : Bool := s.combQ.find? (cameOn l.port l.cls) == some l

/-- The contribution a combiner handles next (R140): its frames in index order. -/
def nextComb (s : State) : Option (List LocalC) :=
  match s.combQ.find? (fun l => firstOfItsOwn s l && (fCount l.frame ≤ 1 || allThere l.frame s.combQ || waitedLong s l)) with
  | none => none
  | some l =>
    if fCount l.frame ≤ 1 || !allThere l.frame s.combQ then some [l]
    else some ((List.range (fCount l.frame)).filterMap (fun n =>
      s.combQ.find? (fun x => sameMsg l.frame x && fIdx x.frame == n)))

/-- The first frame of a contribution. -/
def headOf (ls : List LocalC) : LocalC := ls.headD { port := 0, cls := 0, ups := 0, frame := {}, ts := 0 }

/-- Frames forwarded as they were received (R133). -/
def forwardAll (s : State) (ls : List LocalC) : State := ls.foldl routeOn s

/-- A contribution that is forwarded unchanged goes on with the frames around it, in their order (R132, R234). -/
def goOn (s : State) (ls : List LocalC) : State :=
  { s with combQ := s.combQ.map (fun x => if ls.contains x then { x with pass := true } else x) }

/-- A contribution taken out of what waits at the combiner. -/
def takeOut (s : State) (ls : List LocalC) : State := { s with combQ := s.combQ.filter (fun x => !ls.contains x) }

/-- The smallest block offset of a contribution, counting one below 0 as 0 (R112). -/
def smallestOffset (d : Desc) (k : Nat) (payload : List Byte) : Nat :=
  match gdIn d with
  | none => 0
  | some f =>
    (((splitPayload f (gdInBlk d) k payload).2.filter (fun s => s != 0xFF)).map (fun s => s - gdScale d)).min?.getD 0

/-- A contribution as a combiner sees it: its ranks, its integers on the grid g, its transit offset, and whether it carries
neither a NaN scale nor a non-finite element (R113). -/
structure Part where
  ranks : List Nat
  vals : List Int
  t : Nat
  fin : Bool := true

/-- The whole payload of a transit partial as integers on g. -/
def transitVals (k : Nat) (ls : List LocalC) : List Int :=
  let per := ls.map (fun l => (partialSpan k (fCovered l.frame) (fIdx l.frame), ((partialGrid k l.frame).map (·.1)).toArray))
  (List.range k).map (fun e =>
    match per.find? (fun sp => decide (sp.1.1 ≤ e) && decide (e < sp.1.1 + sp.1.2)) with
    | some sp => sp.2.getD e 0
    | none => 0)

/-- Conditions 3 to 6 of R132 and the offsets of R109: none when one fails. A contribution whose payload is not as long as its chunk
is not combined either (DESIGN CHOICE, log 118), nor one whose conversion to the grid raises a flag or vanishes: a transit frame has no
field for them, and flags and counters do not depend on combining in passing (R144, R145; DESIGN CHOICE, log 99). -/
def asPart (s : State) (slot : Nat) (ls : List LocalC) : Option Part :=
  let d := descOf s slot
  match ls with
  | [] => none
  | l :: _ =>
    let f := l.frame
    let home := homeAt s d (homeIndex (fGroup f) (fBucket f) (fChunk f) (gdHomes d))
    if fDest f != home || !rangeOk s d f || !ls.all (fun x => tilesGood x.frame) then none
    else if isTransit f then
      let ranks := coveredRanks (fElems f) f
      if ls.length == fCount f && fBlk f == 0 && !fDir f && decide (0 ≤ fOffset f) && decide (fOffset f ≤ offsetLimit d) &&
        ranks.all (fun r => decide (r < gdN d)) then
        some { ranks, vals := transitVals (fElems f) ls, t := (fOffset f).toNat }
      else none
    else if !(decide (fRank f < gdN d) && fSrc f == endpointOf s d (fRank f) && fmtOk d f && fCount f == 1) then none
    else
      let k := fElems f
      let wide := match largestOffset d k f.payload with | some x => decide (fOffset f < x) | none => false
      let es := leafGrid d k (fOffset f) f.payload
      let block := match gdIn d with | some i => i.isBlock | none => false
      if wide || !decide (chunkBytes (bucketLen s d (fBucket f)) (fChunk f) = f.payload.length) ||
        !es.all (fun e => e.flags == 0 && e.vanished == 0)
      then none
      else some {
        ranks := [fRank f], vals := es.map (·.n)
        t := if block then smallestOffset d k f.payload else (max (fOffset f) 0).toNat
        fin := es.all (fun e => e.sticky == 1) }

/-- Every element lies on the grid g 2^t and fits in 32 bits there (R113). -/
def fits32 (t : Nat) (vs : List Int) : Bool :=
  vs.all (fun v => let x := v / (2 ^ t : Nat)
    decide (v % (2 ^ t : Nat) = 0) && decide (-2147483648 ≤ x) && decide (x ≤ 2147483647))

/-- Two sets of integers combined (R111), an adder's error in one element being added, and whether the residues of the operands show
it (R117, R138). -/
def combineVals (d : Desc) (a b : List Int) (slip : Option (Nat × Int)) : List Int × Bool :=
  let vs := (a.zip b).map (fun xy => match gdRed d with | .sum => xy.1 + xy.2 | .max => max xy.1 xy.2 | .min => min xy.1 xy.2)
  match slip with
  | none => (vs, false)
  | some (e, err) =>
    match a[e]?, b[e]? with
    | some x, some y =>
      if gdRed d == .sum then (bumpAt vs e (· + err), !residueOk (residueOf x) (residueOf y) (x + y + err)) else (vs, false)
    | _, _ => (vs, false)

/-! ## Partials -/

/-- The ranks of a partial, ascending. -/
def combRanks (c : Comb) : List Nat := (c.covs.flatMap (·.ranks)).mergeSort (· ≤ ·)

/-- A partial replaced or removed. -/
def putComb (s : State) (n : Nat) (c : Option Comb) : State := { s with combs := tput none s.combs n c }

/-- The payloads of a transit partial (R112, R163). -/
def transitPieces (c : Comb) : List (List Byte) :=
  let es := c.vals.map (fun v => uintOf 32 (v / (2 ^ c.t.toNat : Nat)))
  let rs := combRanks c
  if rs.length ≤ 13 then chunksOf 4096 (packBits 32 es) (es.length / 1024 + 1)
  else
    (packBits 32 (es.take 1022) ++ ((rs.drop 13 ++ [0, 0, 0]).take 3).flatMap (leBytes 2)) ::
      (if es.length > 1022 then chunksOf 4096 (packBits 32 (es.drop 1022)) (es.length / 1024 + 1) else [])

/-- The frames of a transit partial (R162). -/
def transitFrames (s : State) (c : Comb) (msg : Nat) : List Frame :=
  let rs := combRanks c
  let r := fun (i : Nat) => rs.getD i 0
  let four := fun (i : Nat) => packFields [(48, 16, r i), (32, 16, r (i + 1)), (16, 16, r (i + 2)), (0, 16, r (i + 3))]
  mkFramesOf 1 c.cls c.home s.fab.swEp.toNat msg (transitPieces c) (fun _ => {
    w2 := packFields [(48, 16, c.group), (32, 16, c.step), (16, 16, c.bucket), (0, 16, r 0)]
    w3 := packFields [(44, 20, c.chunk), (38, 6, 0x18), (24, 8, c.t.toNat), (0, 24, c.elems)]
    w4 := packFields [(46, 5, rs.length)]
    w5 := four 1, w6 := four 5, w7 := four 9 })

/-- A sealed partial leaves as a message to its home, with its custody copy in Firn (R133, R134), or what it waits for. Where
the message counter is poisoned the message is discarded (R372), and the partial with it. -/
def sendPartial (s : State) (n : Nat) (c : Comb) : Except Short State :=
  match allocMessage s (transitFrames s c 0) [[0]] with
  | .error q => .error q
  | .ok (out, id, u) =>
    let key : MsgKey := { dest := c.home, id := tget 0 u.msgCtr c.home }
    let kept := if isPoisoned u ctrTable c.home then none else some { c with sealed := true, key := some key }
    .ok (addMsg (putComb u n kept) c.home (.transit n) (transitFrames u c) (out.flatMap (·.2)) id)

/-- The sending of a sealed partial as it is retried. -/
def trySendPartial (s : State) (n : Nat) (c : Comb) : State :=
  match sendPartial s n c with
  | .ok t => t
  | .error q => waitJob (putComb s n (some { c with sealed := true })) q (.seal n)

/-- A partial sealed (R133): alone, its contribution leaves as received; else it becomes a message. -/
def sealComb (s : State) (n : Nat) : State :=
  match tget none s.combs n with
  | none => s
  | some c =>
    if c.sealed then s
    else if c.covs.length ≤ 1 then forwardAll (putComb s n none) c.held
    else trySendPartial s n c

/-- The member's or the earlier combiner's message acknowledged on the home's behalf (R134, R166). -/
def ackJoined (s : State) (ls : List LocalC) : State :=
  match ls with
  | [] => s
  | l :: _ =>
    let f := l.frame
    let g := if ls.any (fun x => fCmark x.frame) then { f with w0 := f.w0 ||| 0x0040000000000000#64 } else f
    ackFrame (ls.foldl returnLocal s) g

/-- What a message contributes to a partial. -/
def covOf (ls : List LocalC) (p : Part) : Cov :=
  let f := (headOf ls).frame
  { ranks := p.ranks, src := fSrc f, msg := fMsg f, cls := fClass f, cmark := ls.any (fun x => fCmark x.frame) }

/-- A contribution opens a partial when a slot of the quota is free, else it is forwarded unchanged (R132, R133). The partial is bound
to the least loaded slice (R28). -/
def openComb (s : State) (slot : Nat) (ls : List LocalC) (p : Part) : State :=
  let f := (headOf ls).frame
  if slotsUsed s slot < gdQuota (descOf s slot) && p.ranks.length ≤ 16 then
    let n := s.combNext
    let c : Comb := {
      slot, group := fGroup f, step := fStep f, bucket := fBucket f, chunk := fChunk f, home := fDest f, elems := fElems f,
      covs := [covOf ls p], held := ls, vals := p.vals, t := p.t, fin := p.fin, cls := fClass f
      slice := (leastLoaded s).getD 0, opened := now s }
    let t := { putComb (takeOut s ls) n (some c) with combNext := n + 1 }
    if p.ranks.length == 16 then sealComb t n else t
  else goOn s ls

/-- A partial that a contribution joins (R133, R134), with the integers of both. -/
def joinComb (s : State) (n : Nat) (c : Comb) (ls : List LocalC) (p : Part) (sum : List Int) : State :=
  let t0 := min c.t.toNat p.t
  let c1 := { c with covs := c.covs ++ [covOf ls p], held := [], vals := sum, t := t0 }
  let s1 := putComb s n (some c1)
  let s2 := if c.held.isEmpty then s1 else ackJoined s1 c.held
  let s3 := ackJoined (takeOut s2 ls) ls
  if (combRanks c1).length == 16 then sealComb s3 n else s3

/-- The open partial of a contribution's chunk and home. -/
def findComb (s : State) (f : Frame) : Option (Nat × Comb) :=
  (s.combs.filterMap (fun (kc : Nat × Option Comb) => match kc.2 with
    | some c =>
      if !c.sealed && c.group == fGroup f && c.step == fStep f && c.bucket == fBucket f && c.chunk == fChunk f &&
        c.home == fDest f then some (kc.1, c) else none
    | none => none)).head?

/-- WINDOW has run out on a partial (R133, R140). -/
def windowOver (s : State) (c : Comb) : Bool := decide (c.opened + max 1 (combWindow s) ≤ now s)

/-- An answer of the home relayed to every covered member (R136, R138): a message that the combiner received itself is
named by its MSG_ID; of a rank that came inside an earlier partial the combiner knows no MSG_ID. -/
def relay (s : State) (c : Comb) (typ reason : Nat) : State :=
  c.covs.foldl (fun t v =>
    match v.ranks with
    | [r] => sendAnswer t (mkAnswer typ t.fab.swEp.toNat v.src v.msg c.home reason v.cmark 0 (combCtx c r) c.chunk)
    | rs => rs.foldl (fun u r =>
        let (w, u1) := freshWord u
        sendAnswer u1 (mkAnswer typ u1.fab.swEp.toNat (endpointOf u1 (descOf u1 c.slot) r) (w.toNat % 2 ^ 32) c.home reason false 0
          (combCtx c r) c.chunk)) t) s

/-- A partial discarded, every covered member being told with a NOTICE of reason RANK (R138). -/
def dropPartial (s : State) (n : Nat) (c : Comb) : State := relay (c.held.foldl returnLocal (putComb s n none)) c tyNotice 6

/-- What a slice's fault makes of the partial in hand (R138, R424): it goes with the contribution in hand. -/
def spoilComb (s : State) (n : Nat) (c : Comb) (ls : List LocalC) (p : Part) : State :=
  dropPartial (ls.foldl returnLocal (takeOut s ls)) n { c with covs := c.covs ++ [covOf ls p] }

/-- What the step program of its group makes of a contribution at a combiner (R290): the integers; an exception, or flags that the home
is to raise; a run that R138 spoils; or a run that has to wait. -/
inductive CombRun where
  | fine (vals : List Int) (t : State)
  | away (t : State)
  | spoiled (t : State)
  | waits

/-- Whether a message's contribution is one that a step program runs on (R290): never a transit partial. -/
def runsOn (d : Desc) (ls : List LocalC) : Bool :=
  gdStepEn d && (match ls with | [] => false | l :: _ => !isTransit l.frame)

/-- The step program on a message's contribution at a combiner (R290, R294, R365). A run that raises flags or counts is left to the
home, as its record could not show them (R144, R145; DESIGN CHOICE, log 93). -/
def combRun (s : State) (sl : SliceNo) (slot : Nat) (ls : List LocalC) (vals : List Int) : CombRun :=
  let d := descOf s slot
  let f := (headOf ls).frame
  if !runsOn d ls then .fine vals s
  else if arenaRuns s slot then .waits
  else match doRun s sl (runCtx s (frameChunk slot f) d (fElems f) (fRank f) 1 false) (vals.map (uintOf 64)) with
    | .fine out t =>
      let r := (getSlice t sl).run
      if r.flags == 0 && r.vanished == 0 && r.zeros == 0 then .fine (out.map (sintOf 48)) t else .away t
    | .exc t => .away t
    | .arith t => .spoiled t
    | .noProgram => .spoiled s
    | .waits => .waits

/-- The contribution that prompted the run on which a partial's first one faulted takes its place, as received; the first
one goes on unchanged (R296). -/
def replaceFirst (s : State) (n : Nat) (c : Comb) (ls : List LocalC) (p : Part) : State :=
  let v := covOf ls p
  forwardAll (putComb (takeOut s ls) n (some { c with
    covs := [v], held := ls, vals := p.vals, t := p.t, fin := p.fin, cls := v.cls, ran := false, opened := now s })) c.held

/-- The first contribution of a partial with the step program run on it, once (R290). -/
def firstRun (s : State) (sl : SliceNo) (slot : Nat) (c : Comb) : CombRun :=
  if c.ran then .fine c.vals s else combRun s sl slot c.held c.vals

/-- The sum of a partial and a contribution, where the residues show no error (R117, R138) and it fits (R113). -/
def joinSum (s : State) (sl : SliceNo) (fault : SeracFault) (slot n : Nat) (c : Comb) (ls : List LocalC) (p : Part) : State :=
  let t := min c.t.toNat p.t
  let (vs, miss) := combineVals (descOf s slot) c.vals p.vals (slipOf fault)
  if miss then spoilComb (seracFaultEvt s sl slot 0 fault) n c ls p
  else if !fits32 t vs then openComb (sealComb (putComb s n (some c)) n) slot ls p
  else joinComb s n c ls p vs

/-- A contribution that may join an open partial: the runs of the step program on the first one, while it is held and no run has been
made on it, and on this one (R290, R296), the test of R113, and the sum. None when a run has to wait. -/
def joinRuns (s : State) (sl : SliceNo) (fault : SeracFault) (slot n : Nat) (c : Comb) (ls : List LocalC) (p : Part) :
    Option State :=
  match firstRun s sl slot c with
  | .waits => none
  | .spoiled t => some (spoilComb t n c ls p)
  | .away t => some (replaceFirst t n c ls p)
  | .fine v t =>
    let c1 := { c with vals := v, ran := true }
    match combRun t sl slot ls p.vals with
    | .waits => none
    | .spoiled u => some (spoilComb u n c1 ls p)
    | .away u => some (goOn (putComb u n (some c1)) ls)
    | .fine w u => some (joinSum u sl fault slot n c1 ls { p with vals := w })

/-- The same under a physical fault: one that closes a chunk at its home lets the partial go as R138 says (R424). -/
def tryJoin (s : State) (sl : SliceNo) (fault : SeracFault) (slot n : Nat) (c : Comb) (ls : List LocalC) (p : Part) :
    Option State :=
  let d := descOf s slot
  let (lost, t) := meetFaults s sl slot (gdStepProg d) fault (runsOn d ls || (!c.ran && runsOn d c.held)) []
  if lost then some (spoilComb t n c ls p) else joinRuns t sl fault slot n c ls p

/-- Whether a table entry that the combiner reads for a contribution is poisoned: it is discarded without an answer (R372). -/
def combPoisoned (s : State) (slot : Nat) (f : Frame) : Bool :=
  bucketPoisoned s (descOf s slot) f || (!isTransit f && isPoisoned s 0x03 (gdMemberBase (descOf s slot) + fRank f))

/-- The slice that a contribution at the combiner is for: that of the open partial it finds, else the least loaded (R28). -/
def combSlice (s : State) (f : Frame) : Option Nat :=
  match findComb s f with
  | some (_, c) => some c.slice
  | none => leastLoaded s

/-- A contribution at the combiner; none when the run of a step program has to wait. One that carries a non-finite element joins
nothing, and nothing joins it (R113). One for a partial whose slice does not run is forwarded unchanged (DESIGN CHOICE, log 93). -/
def combineOne (s : State) (sl : SliceNo) (fault : SeracFault) (ls : List LocalC) : Option State :=
  let f := (headOf ls).frame
  match slotOf s (fGroup f) with
  | none => some (goOn s ls)
  | some slot =>
    if !mayCombine s f || !sliceRuns s ((combSlice s f).getD 18) then some (goOn s ls)
    else if combPoisoned s slot f then some (ls.foldl returnLocal (takeOut s ls))
    else match asPart s slot ls with
      | none => some (goOn (if ls.all (fun x => tilesGood x.frame) then s else serEvt s sl 0 slot 0 0 0) ls)
      | some p =>
        match findComb s f with
        | none => some (openComb s slot ls p)
        | some (n, c) =>
          if !windowOver s c && p.ranks.all (fun r => !(combRanks c).contains r) && p.fin && c.fin &&
            decide ((combRanks c).length + p.ranks.length ≤ 16)
          then tryJoin s sl fault slot n c ls p
          else some (openComb (sealComb s n) slot ls p)

/-- What waits at the combiner to be forwarded leaves, by port and class, where no partial holds a contribution before it (R200,
R234). -/
def drainAll (s : State) : State :=
  (((s.combQ.map (fun l => (l.port, l.cls))).dedup).mergeSort (fun a b => decide (a.1 ≤ b.1))).foldl
    (fun t pc => drainComb t pc.1 pc.2 t.combQ.length) s

/-- COMBINE_CONTRIB (R132), on the slice that the contribution's partial is bound to, or is to be bound to; where none runs, what waits
is forwarded (R35). It acknowledges, and so it waits while an answer waits for a cell (R276). -/
def execCombineContrib (sl : SliceNo) (fault : SeracFault) (s : State) : Res :=
  match nextComb s with
  | none => .next s
  | some ls =>
    let f := (headOf ls).frame
    let mine := match combSlice s f with
      | some n => n == sl.val || !sliceRuns s n
      | none => true
    act (isRunning s && mine && !answersWait s) s
      (match combineOne (atPlace (placeCombine (headOf ls).port) s) sl fault ls with
       | none => s
       | some t => drainAll t)

/-- Whether an open partial is one of a chunk. -/
def combIs (x : Comb) (c : ChunkId) : Bool :=
  !x.sealed && x.slot == c.slot.val && x.step == c.step.toNat && x.bucket == c.bucket.toNat && x.chunk == c.chunk.toNat

/-- The open partials of a chunk, by number. -/
def combsOf (s : State) (c : ChunkId) : List (Nat × Comb) :=
  s.combs.filterMap (fun (kc : Nat × Option Comb) => match kc.2 with
    | some x => if combIs x c then some (kc.1, x) else none
    | none => none)

/-- The port at which what a partial holds came in. -/
def heldPort (c : Comb) : Nat := (headOf c.held).port

/-- Partials sealed, those that leave as received in the order of their ports (R200). -/
def sealAll (s : State) (xs : List (Nat × Comb)) : State :=
  drainAll ((xs.mergeSort (fun a b => decide (heldPort a.2 ≤ heldPort b.2))).foldl (fun t x => sealComb t x.1) s)

/-- COMB_WINDOW_SEAL: WINDOW cycles after a partial opened (R133). -/
def execCombWindowSeal (c : ChunkId) (s : State) : Res :=
  match (combsOf s c).filter (fun x => windowOver s x.2) with
  | [] => .next s
  | x :: xs => act (isRunning s) s (sealAll (atPlace (placeCombine (heldPort x.2)) s) (x :: xs))

/-- COMB_BUSY_RETRY: the back-off after BUSY ends, and the partial is resent without counting against the limit (R136,
R179). -/
def execCombBusyRetry (dest : BitVec 20) (msg : BitVec 32) (copyFault : Option (Fin 16)) (s : State) : Res :=
  match findMsg s { dest := dest.toNat, id := msg.toNat } with
  | none => .next s
  | some m =>
    match m.kind with
    | .transit n =>
      match (tget none s.combs n).bind (fun c => c.due.map (fun t0 => (c, t0))) with
      | none => .next s
      | some (c, t0) =>
        let m1 := { m with sendNo := m.sendNo + 1, started := false, timer := none }
        act (isRunning s && decide (t0 ≤ now s)) s
          (resendNow (putComb (atPlace placeTimeout s) n (some { c with due := none }))
            (fun t => onFab (putMsg t m1) (fun f => { f with resent := inc16 f.resent })) m1 0 m.frames.length copyFault)
    | _ => .next s

/-- A write of COMB_CTL (R139, R140): writing EN 0 seals every open partial. -/
def writeCombCtl (s : State) (v : Word) : State :=
  let t := onFab s (fun f => { f with combCtl := writeMasked 0x80000000FFFFFFFF f.combCtl v })
  if bitOf v 63 then t else
  sealAll t (t.combs.filterMap (fun (kc : Nat × Option Comb) => kc.2.map (fun c => (kc.1, c))))

/-- COMB_CTL_WRITE. -/
def execCombCtlWrite (v : Word) (s : State) : Res := act (isRunning s && pdOn s 2) s (writeCombCtl (atPlace placeWrite s) v)

/-! ## Slices that leave the set or stop -/

/-- CHUNK_MOVE (R33, R425): a bound chunk whose slice has left the set moves to the least-loaded running slice, with the
operations queued for it, and so does a partial open at the combiner. The contributions that the leaving slice's intake holds go with
the chunk, and take up the new intake even beyond its 32 KiB (DESIGN CHOICE, log 115: R33 does not say what becomes of them). -/
def execChunkMove (c : ChunkId) (s₀ : State) : Res :=
  let s := atPlace placeWork s₀
  let k := theChunk s c
  match k.slice, leastLoaded s with
  | some n, some m =>
    let ops := (getSlice s (fin18 n)).ops.filter (fun o => o.cid == c)
    let sz := (ops.map (fun o => o.c.frame.payload.length)).sum
    let a := getSlice s (fin18 n)
    let s1 := setSlice s (fin18 n) { a with ops := a.ops.filter (fun o => o.cid != c), intakeUsed := a.intakeUsed - sz }
    let b := getSlice s1 (fin18 m)
    let s2 := setSlice s1 (fin18 m) { b with ops := b.ops ++ ops, intakeUsed := b.intakeUsed + sz }
    let s3 := { s2 with intake := s2.intake.map (fun x => if x.2.cid == c then (m, x.2) else x) }
    act (isRunning s && !bitOf s.fab.sliceSet n && !isClosed k) s₀ (onChunk s3 c (fun x => { x with slice := some m }))
  | none, some m =>
    let away := (combsOf s c).filter (fun x => !bitOf s.fab.sliceSet x.2.slice)
    act (isRunning s && !away.isEmpty) s₀ (away.foldl (fun t x => putComb t x.1 (some { x.2 with slice := m })) s)
  | _, none => .next s₀

/-- What the operation that a stopping slice has in progress on a chunk comes to (R425, R138): at the home the chunk closes with
ARITH_CHECK, at the combiner the partial is discarded. -/
def spoilBusy (sl : SliceNo) (s : State) (i : ChunkId) : State :=
  if (theChunk s i).slice == some sl.val then (if isClosed (theChunk s i) then s else closeArith s i)
  else ((combsOf s i).filter (fun x => x.2.slice == sl.val)).foldl (fun t x => dropPartial t x.1 x.2) s

/-- SLICE_FATAL (R425): the slice halts; the chunks it was working on close with ARITH_CHECK; what waits is answered NACK
FULL. The event names the slot of the first of them. -/
def execSliceFatal (sl : SliceNo) (busy : List ChunkId) (s : State) : Res :=
  let slotNo := match busy with | i :: _ => i.slot.val | [] => 0
  let s1 := serEvt (atPlace placeWork s) sl 4 slotNo 0 0 0
  let x := getSlice s1 sl
  let s3 := busy.foldl (spoilBusy sl) (setSlice s1 sl { x with halted := true })
  let y := getSlice s3 sl
  let late := s3.intake.filter (fun z => z.1 == sl.val)
  let s4 := setSlice { s3 with intake := s3.intake.filter (fun z => z.1 != sl.val) } sl { y with ops := [], intakeUsed := 0 }
  let s5 := y.ops.foldl nackStopped s4
  let s6 := late.foldl (fun t z => nackStopped (handledLocal t z.2.c) z.2) s5
  act (isRunning s && sliceLive s sl) s (drainAll s6)

end Sys2Proof.Machine
end

