-- ==== Sys2Proof/Machine/Answers.lean ====
section
/-! DEFINITION. Frames addressed to the switch other than contributions: answers (R136, R178-R181), barriers (R193),
GROUPCTL (R188), DATA and RESULT (R161, R176, R196), the windows (R171-R175), and the work that waited for buffers
(R251, R255). -/

namespace Sys2Proof.Machine

/-- The first frame of the switch's own queue that fits. -/
def takeLocal (s : State) (p : Frame → Bool) : Option (LocalC × State) :=
  match takeFirst (fun (l : LocalC) => p l.frame) s.localQ with
  | none => none
  | some (l, rest) => some (l, handledLocal { s with localQ := rest } l)

/-- A frame of the switch's own queue handled. -/
def onLocal (s : State) (p : Frame → Bool) (k : State → LocalC → State) : Res :=
  match takeLocal (atPlace placeAnswer s) p with
  | none => .next s
  | some (l, t) => act (isRunning s) s (k t l)

/-- The same of a message that the switch answers: it waits while an answer waits for a cell (R276). -/
def onAsking (s : State) (p : Frame → Bool) (k : State → LocalC → State) : Res :=
  if answersWait s then .next s else onLocal s p k

/-! ## Answers -/

/-- REASON. -/
def ansReason (f : Frame) : Nat := fld f.w3 56 8

/-- An answer counted in ECHOED when it carries ECHO (R185). -/
def noteEcho (s : State) (f : Frame) : State :=
  if bitOf f.w3 55 then onFab s (fun x => { x with echoed := inc16 x.echoed }) else s

/-- An answer that fits no message (R180). -/
def unmatched (s : State) : State := onFab s (fun x => { x with unmatched := inc16 x.unmatched })

/-- The sent message that an answer names. -/
def answered (s : State) (f : Frame) : Option Msg := (findMsg s (ansKey f)).filter (fun m => m.sent)

/-- The partial of the switch that a message carries. -/
def combOf (s : State) (m : Msg) : Option (Nat × Comb) :=
  match m.kind with
  | .transit n => (tget none s.combs n).map (fun c => (n, c))
  | _ => none

/-- ACK_RECEIVE: an ACK finishes its message (R180). -/
def execAckReceive (s : State) : Res :=
  onLocal s (fun f => fType f == tyAck) (fun t l =>
    let u := noteEcho t l.frame
    match answered u l.frame with
    | some m => finishMsg u m
    | none => unmatched u)

/-- NACK_RECEIVE: resend, abandon, or ignore, by REASON (R178, R179). -/
def execNackReceive (copyFault : Option (Fin 16)) (s : State) : Res :=
  onLocal s (fun f => fType f == tyNack) (fun t l =>
    let u := noteEcho t l.frame
    match answered u l.frame with
    | none => unmatched u
    | some m =>
      match ansReason l.frame with
      | 1 | 2 | 5 =>
        let first := fld l.frame.w3 32 16
        resendMsg u m first (m.frames.length - first) copyFault
      | 3 | 4 => abandonMsg u m
      | _ => unmatched u)

/-- BUSY_RECEIVE: a combiner keeps custody and waits before it resends (R136). -/
def execBusyReceive (s : State) : Res :=
  onLocal s (fun f => fType f == tyBusy) (fun t l =>
    let u := noteEcho t l.frame
    match answered u l.frame with
    | none => unmatched u
    | some m =>
      match combOf u m with
      | none => unmatched u
      | some (n, c) =>
        putMsg (putComb u n (some { c with due := some (now u + c.wait), wait := min 86400 (2 * c.wait) })) { m with timer := none })

/-- LATE_RECEIVE: a combiner relays LATE to every covered member and releases the partial (R136). -/
def execLateReceive (s : State) : Res :=
  onAsking s (fun f => fType f == tyLate) (fun t l =>
    let u := noteEcho t l.frame
    match answered u l.frame with
    | none => unmatched u
    | some m =>
      match combOf u m with
      | none => unmatched u
      | some (_, c) => relay (finishMsg u m) c tyLate (ansReason l.frame))

/-- A combiner has abandoned its partial (R135, R184): the chunk of one that is being received closes with RETRY, and what is kept of
one whose chunk has closed goes. One that the switch does not hold is unmatched (R180). -/
def abandonedBy (s : State) (src id : Nat) : State :=
  match findPart s src id with
  | some (i, p) => if partDone p then unmatched s else closeChunk (putPart s i p false) i .retry causeDeadline
  | none =>
    let mine := fun (r : RxMsg) => r.src == src && r.msg == id && r.typ == 1 && r.refused.isSome
    if !(heldBack s src id).isEmpty then dropHeldBack s src id true
    else if s.rx.any mine then { s with rx := s.rx.filter (fun r => !mine r) }
    else unmatched s

/-- NOTICE_RECEIVE: a combiner relays it (R136); a home takes the partial that its combiner abandoned as abandoned, which a NOTICE
of reason ABORTED tells it for a message addressed to itself (R135, R184). -/
def execNoticeReceive (s : State) : Res :=
  onAsking s (fun f => fType f == tyNotice) (fun t l =>
    let u := noteEcho t l.frame
    match (answered u l.frame).bind (fun m => (combOf u m).map (fun nc => (m, nc.2))) with
    | some (m, c) => relay (finishMsg u m) c tyNotice (ansReason l.frame)
    | none =>
      if ansReason l.frame == 9 && (ansKey l.frame).dest == u.fab.swEp.toNat then abandonedBy u (fSrc l.frame) (ansKey l.frame).id
      else unmatched u)

/-! ## Windows and reassembly -/

/-- classify of R172: 0 new, 1 duplicate, 2 stale. -/
def classify (w : BitVec 32 × BitVec 256) (m : BitVec 32) : Nat :=
  let ahead := m - w.1
  if ahead != 0 && ahead.toNat < 0x80000000 then 0
  else
    let back := w.1 - m
    if back.toNat ≥ 256 then 2 else if bitOf w.2 back.toNat then 1 else 0

/-- mark_acked of R172. -/
def markAcked (w : BitVec 32 × BitVec 256) (m : BitVec 32) : BitVec 32 × BitVec 256 :=
  let ahead := m - w.1
  if ahead != 0 && ahead.toNat < 0x80000000 then
    (m, (if ahead.toNat ≥ 256 then 0 else w.2 <<< ahead.toNat) ||| 1)
  else (w.1, w.2 ||| (1 <<< (w.1 - m).toNat))

/-- A cleared window (R172). -/
def windowClear : BitVec 32 × BitVec 256 := (0xFFFFFFFF, 0)

/-- The window of a source (R173). -/
def windowFor (s : State) (src : Nat) : BitVec 32 × BitVec 256 := tget windowClear s.windows src

/-- An ACK that marks its message in the window (R172). -/
def ackMarked (s : State) (f : Frame) : State :=
  let w := markAcked (windowFor s (fSrc f)) (BitVec.ofNat 32 (fMsg f))
  ackFrame { s with windows := tput windowClear s.windows (fSrc f) w } f

/-- A frame of a message to the switch noted (R171): the state, and the lowest missing index when its Keystone frame is
here; none while the Keystone frame is still to come. -/
def noteFrame (s : State) (f : Frame) : State × Option (Option Nat) :=
  let old := rxOf s f
  let r := { old with
    got := if old.got.contains (fIdx f) then old.got else old.got ++ [fIdx f]
    cmark := old.cmark || fCmark f }
  (putRx s f r, if fKey f then some ((List.range (fCount f)).find? (fun n => !r.got.contains n)) else none)

/-- A whole message of one or more frames: what follows when it is complete, NACK INCOMPLETE when frames are missing. -/
def whenWhole (s : State) (f : Frame) (k : State → State) : State :=
  match noteFrame s f with
  | (t, none) => t
  | (t, some none) => k (clearRx t f)
  | (t, some (some m)) => nackFrame t f 2 m

/-- The table number under which the poison of the windows is kept, one entry for each source (R173, R372). -/
def winTable : Nat := 0x41

/-- The window's judgement of a message (R172, R173): a duplicate is answered ACK again, a stale one NACK STALE; with a poisoned
window the frame is discarded (R372). `drop` is what a frame that is not to be kept leaves. -/
def throughWindow (s₀ : State) (f : Frame) (k : State → State) (drop : State → State) : State :=
  let s := noteMark s₀ f
  if isPoisoned s winTable (fSrc f) then drop s else
  match classify (windowFor s (fSrc f)) (BitVec.ofNat 32 (fMsg f)) with
  | 0 => k s
  | 1 => let t := drop s; if fKey f then ackFrame t f else t
  | _ => let t := drop s; if fKey f then nackFrame t f 3 0 else t

/-! ## Barriers and GROUPCTL -/

/-- What the checks make of a BARRIER or GROUPCTL message. -/
inductive CtlVerdict where
  | refuse (reason : Nat)
  | discard
  | accept (slot : Nat)

/-- Checks 1, 2 (when asked: the switch is the home at entry 0 of the home set, by the committed descriptor) and 3 of R57; a
poisoned member entry discards the frame (R372). -/
def ctlCheck (s : State) (f : Frame) (home0 : Bool) : CtlVerdict :=
  match slotOf s (fGroup f) with
  | none => .refuse 4
  | some slot =>
    let d := descOf s slot
    if home0 && !(gdIsHome d && gdSelf d == 0) then .refuse 5
    else if decide (gdN d ≤ fRank f) then .refuse 6
    else if isPoisoned s 0x03 (gdMemberBase d + fRank f) then .discard
    else if fSrc f == endpointOf s d (fRank f) then .accept slot
    else .refuse 6

/-- An arrival acted on (R193). The barrier completes as an arrival makes the count N: where a change of the group has lowered N to the
count that is held or below it, the barrier waits until an abort sets the count to 0 (DESIGN CHOICE, log 119: the spec does not say
whether such a barrier completes). -/
def arrive (s : State) (f : Frame) (slot : Nat) : State :=
  let g := getGroup s slot
  let b := fStep f
  if bitOf f.w3 63 then nackFrame s f 4 0
  else if b == g.bseq then
    let t := ackMarked (setGroup s slot { g with arrivals := g.arrivals + 1 }) f
    let n := gdN (descOf s slot)
    if g.arrivals + 1 == n then
      let u := setGroup t slot { getGroup t slot with bseq := (g.bseq + 1) % 65536, arrivals := 0 }
      sendReleases u slot g.bseq (List.range n)
    else t
  else if (b + 1) % 65536 == g.bseq then ackMarked s f
  else nackFrame s f 4 0

/-- BARRIER_ARRIVAL (R193): the checks, then the window; a refusal is answered once the message is complete (R176). -/
def execBarrierArrival (s : State) : Res :=
  onAsking s (fun f => fType f == 8) (fun t l =>
    let f := l.frame
    match ctlCheck t f true with
    | .refuse r => whenWhole t f (fun u => noticeCtl u f r)
    | .discard => t
    | .accept slot => throughWindow t f (fun u => whenWhole u f (fun v => arrive v f slot)) id)

/-- OP of a GROUPCTL frame. -/
def gcOp (f : Frame) : Nat := fld f.w2 40 8

/-- CQ_CREDIT (R173, R188, R191). -/
def execCqCredit (s : State) : Res :=
  onAsking s (fun f => fType f == 9 && gcOp f == 1) (fun t l =>
    let f := l.frame
    throughWindow t f (fun u =>
      match ctlCheck u f false with
      | .refuse r => whenWhole u f (fun v => noticeCtl v f r)
      | .discard => u
      | .accept slot => whenWhole u f (fun v =>
        let d := descOf v slot
        if isPoisoned v 0x07 (gdMemberBase d + fRank f) then v else
        let (n, cr) := ringOf v slot d (fRank f)
        ackMarked (putRing v slot (fRank f) (n, min (cr + fld f.w3 0 32) (winEntries (windowOf v d (fRank f))))) f)) id)

/-- An entry put in a core's mailbox; none when it is full (R313). -/
def mbxPut (s : State) (c : CoreNo) (e : MbxEntry) : Option State :=
  let k := getCore s c
  if k.mbx.length < 256 then some (setCore s c { k with mbx := k.mbx ++ [e] }) else none

/-- A frame of a program operation placed in a core's mailbox, its bytes in Neve for the control complex (R188, R247,
R313-R315), or what stands against it. -/
def placeEntry (s : State) (c : CoreNo) (l : LocalC) : Except Short State :=
  let f := l.frame
  if (getCore s c).mbx.length ≥ 256 then .error {} else
  match allocCopy s 4097 0 1 (frameBytes f) (fCells f) with
  | .error e => .error e
  | .ok (id, t) =>
    let desc := packFields [(60, 4, 1), (44, 13, (frameBytes f).length), (20, 20, id), (0, 20, fSrc f)]
    match mbxPut t c { desc, data := f.w3, copy := some id } with
    | none => .error {}
    | some u => .ok (returnLocal u l)

/-- The frames of a program operation placed, an entry for each. -/
def placeFrames (s : State) : List LocalC → Except Short State
  | [] => .ok s
  | l :: ls =>
    match placeEntry s (fin8 (gcOp l.frame)) l with
    | .error e => .error e
    | .ok t => placeFrames t ls

/-- A whole program operation: every frame of it gets an entry, in index order, or the message is answered NACK FULL (R188;
that a message of several frames gives several entries is a DESIGN CHOICE, log 52). -/
def programOp (s : State) (f : Frame) (kept : List LocalC) : State :=
  match placeFrames s (kept.mergeSort (fun a b => decide (fIdx a.frame ≤ fIdx b.frame))) with
  | .ok t => ackMarked t f
  | .error e =>
    let t := kept.foldl returnLocal (applyCuts s e)
    nackFrame (if e.ask.isSome then countDenied t 4097 else t) f 5 0

/-- A frame of a program operation: kept with its cells until the message is whole (R171, R188). -/
def takeProgramFrame (s : State) (l : LocalC) : State :=
  let f := l.frame
  throughWindow s f (fun t =>
    let held := (rxOf t f).got.contains (fIdx f)
    let u := if held then returnLocal t l else putRx t f { rxOf t f with kept := (rxOf t f).kept ++ [l] }
    let kept := (rxOf u f).kept
    whenWhole u f (fun v => programOp v f kept)) (fun t => returnLocal t l)

/-- GROUPCTL_PROGRAM_OP: the frame has been handled for the keystone hold when it is taken (R219). -/
def execGroupctlProgramOp (s : State) : Res :=
  match takeFirst (fun (l : LocalC) => fType l.frame == 9 && decide (0x80 ≤ gcOp l.frame)) s.localQ with
  | none => .next s
  | some (l, rest) =>
    let e : QEnt := { copy := 0, frame := l.frame, src := if l.port < 512 then .port l.port l.cls else .internal, ups := l.ups }
    let t := atPlace (placeMailbox + l.port / 4) { s with localQ := rest }
    act (isRunning s && !answersWait s) s (takeProgramFrame (holdLeave t none e) l)

/-- A message answered NACK REJECTED once it is whole (R176). -/
def rejectWhole (s : State) (f : Frame) : State := whenWhole s f (fun t => nackFrame t f 4 0)

/-- GROUPCTL_RESERVED_OP: always rejected, whatever the window says (R176, R188). -/
def execGroupctlReservedOp (s : State) : Res :=
  onAsking s (fun f => fType f == 9 && gcOp f != 1 && decide (gcOp f < 0x80)) (fun t l => rejectWhole t l.frame)

/-- DATA_TO_SWITCH (R161). -/
def execDataToSwitch (s : State) : Res := onAsking s (fun f => fType f == 0) (fun t l => rejectWhole t l.frame)

/-- RESULT_TO_SWITCH (R196). -/
def execResultToSwitch (s : State) : Res := onAsking s (fun f => fType f == 2) (fun t l => rejectWhole t l.frame)

/-! ## E2E_WIN_CLR -/

/-- The transit partials being received from a source, with their chunks. -/
def partsFrom (s : State) (ep : Nat) : List (ChunkId × PartRx) :=
  (chunkIds s).flatMap (fun i => ((theChunk s i).parts.filter (fun p => p.src == ep)).map (fun p => (i, p)))

/-- A transit partial forgotten with its source's partial-message state (R185). What it has added cannot be taken out again, so
that its chunk then closes as for an abandoned partial (DESIGN CHOICE, log 53). -/
def forgetPart (s : State) (ip : ChunkId × PartRx) : State :=
  let t := putPart s ip.1 ip.2 false
  if ip.2.added.isEmpty || partDone ip.2 then t else closeChunk t ip.1 .retry causeDeadline

/-- CLR for an endpoint (R175, R185): its window, what is being received from it, frames of its partials that wait for frame 0 among
that, the counter to it and what is unanswered by it. The counter's and the window's entries are written afresh, which clears their poison (R372). -/
def clearWindow (s : State) (ep : Nat) : State :=
  let gone := s.rx.filter (fun r => r.src == ep)
  let cured := fun (ps : SMap Bool) (tb : Nat) => tput false ps (tb * 2 ^ 32 + ep) false
  let t := { s with
    windows := tput windowClear s.windows ep windowClear
    rx := s.rx.filter (fun r => r.src != ep)
    msgCtr := tput 0 s.msgCtr ep 0
    tbl := { s.tbl with poison := cured (cured s.tbl.poison ctrTable) winTable } }
  let u := (gone.flatMap (·.kept)).foldl returnLocal t
  let w := (((u.dispatch.filter (fun l => fSrc l.frame == ep)).map (fun l => fMsg l.frame)).dedup).foldl
    (fun x id => dropHeldBack x ep id false) u
  let v := (partsFrom w ep).foldl forgetPart w
  (v.msgs.filter (fun m => m.key.dest == ep)).foldl abandonMsg v

/-- A write of E2E_WIN_CLR. -/
def writeWinClr (s : State) (v : Word) : State :=
  let t := onFab s (fun f => { f with e2eWin := v &&& 0xFFFFF })
  if bitOf v 63 then clearWindow t (fld v 0 20) else t

/-- E2E_WIN_CLR. -/
def execE2eWinClr (ep : BitVec 20) (s : State) : Res :=
  act (isRunning s && pdOn s 2) s (writeWinClr (afterPlace placeWo s) (packFields [(63, 1, 1), (0, 20, ep.toNat)]))

/-! ## Work that waited for buffers -/

/-- The requester of a waiting job (R247). -/
def jobReq (j : Job) : Nat := match j with | .resend .. => 4098 | .answer _ => 4098 | _ => 4096

/-- A waiting job tried again: it waits once more while it does not fit (R251). -/
def tryJob (s : State) (j : Job) : State :=
  match j with
  | .build c => match buildDue s c with | some st => buildResult s c st | none => s
  | .resend k first n => match findMsg s k with | some m => resendNow s id m first n none | none => s
  | .answer f => sendAnswer s f
  | .record slot st r n => trySendRecord s slot st n r
  | .seal n => match tget none s.combs n with | some c => trySendPartial s n c | none => s
  | .release slot b rs => sendReleases s slot b rs

/-- ALLOC_EXT granted or denied (R249, R251, R253). -/
def allocForCtl (s : State) : State :=
  match allocExts s 4097 1 true with
  | .ok (x :: _, t) => { t with bpm := { t.bpm with result := BitVec.ofNat 64 (2 ^ 63 + x), waiting := false } }
  | r =>
    let t := countDenied (match r with | .error e => applyCuts s e | .ok _ => s) 4097
    { t with bpm := { t.bpm with result := t.bpm.result ||| 0xC000000000000000#64, waiting := false } }

/-- BPM_ALLOC_GRANT: the first waiting request of a requester is taken up (R255), and granted when R249 allows it; a link word
that a fault has changed is met by its pop (R243). -/
def execBpmAllocGrant (req : Fin 8192) (link : LinkFault) (s : State) : Res :=
  if !(isRunning s && pdOn s 2) then .next s
  else if req.val == 4097 then
    .next (if s.bpm.waiting && s.bpm.firnReady then allocForCtl (breakLink (atPlace placeWork s) link 1) else s)
  else match takeFirst (fun (j : Job) => jobReq j == req.val) s.jobs with
    | none => .next s
    | some (j, rest) => .next (tryJob (breakLink { atPlace placeWork s with jobs := rest } link 0) j)

end Sys2Proof.Machine
end

