-- ==== Sys2Proof/Machine/Link.lean ====
section
/-! DEFINITION. Ports and lanes (R204-R217, R229, R390-R414): port states, the credit exchange, training, rate matching,
eye scans; and the Viaducts (R16-R18, R437, R500). -/

namespace Sys2Proof.Machine

/-! ## Entering UP -/

/-- The lanes of a logical port. -/
def lanesOfPort (s : State) (p : Nat) : List Nat := (List.range (portLanes s p)).map (fun i => p + i)

/-- The port that a lane belongs to. -/
def portOfLane (s : State) (lane : Nat) : Nat :=
  match splitOf s (lane / 4) with | 0 => lane / 4 * 4 | 1 => lane / 2 * 2 | _ => lane

/-- The allotment that an ALLOT value gives (R204). -/
def allotOf (vc : Nat) (a : BitVec 12) : BitVec 12 :=
  if vc == 7 then (if a == 0 then 1 else a) else if 1 ≤ a.toNat && a.toNat ≤ 16 then 17 else a

/-- The allotment that a port announces on a VC (R204, R208): the one in force while it is UP, and else the one that its next
entry to UP puts in force. -/
def inForce (x : Port) (c : Fin 8) : BitVec 12 :=
  if x.st == .up then (getVc x c).force else allotOf c.val (getVc x c).allot

/-- A port as it stands when it enters UP: its allotments in force, its peer's as its INIT symbols gave them, its counts from 0
(R204, R206, R209). -/
def enterUp (x : Port) : Port :=
  { x with
    st := .up, ups := x.ups + 1, holdEnds := none
    vc := Vector.ofFn (fun (c : Fin 8) => { x.vc[c] with
      force := inForce x c, peer := x.vc[c].initVal, sent := 0, ret := 0, cum := 0 }) }

/-- Whether the Neve reservations fit with a port UP (R252). -/
def fitsUp (s : State) (p : Nat) : Bool :=
  let t := setPort s p (enterUp (getPort s p))
  decide (((quotaUsers t).map (effNeve t (quotaEnt t))).sum ≤ neveTotal t - t.bpm.lostCells)

/-- A credit symbol for each VC of a port, with its allotment or its cumulative return (R206, R208). -/
def sendAll (s : State) (p : Nat) (init : Bool) : State :=
  (List.range 8).foldl (fun t n =>
    let x := getPort t p
    sendCreditSymbol t p n init (if init then inForce x (fin8 n) else (getVc x (fin8 n)).cum)) s

/-- A port whose entry to UP does not fit withholds its INIT symbols and notes QUOTA_OVER (R252). -/
def withholdInit (s : State) (p : Nat) : State :=
  bpmNote (setPort s p { getPort s p with initSent := false, withheld := true }) 5 0 none

/-- Whether a port has done what R208, R214, R241 and R500 ask before it enters UP. -/
def upReady (s : State) (p : Nat) : Bool :=
  let x := getPort s p
  (x.st == .training || x.st == .held) && x.lt == .linked && x.initSent && x.vc.all (·.gotInit) && s.bpm.neveReady &&
    !(s.vdct[fin8 (p / 64)]).stopped

/-- A port enters UP once it is linked, has sent its INIT symbols, has one for all eight VCs, Neve is ready and its Viaduct
runs (R208, R214, R241, R500), where its reservation fits (R252). -/
def tryUp (s : State) (p : Nat) : State :=
  if upReady s p then
    if fitsUp s p then setPort s p (enterUp (getPort s p)) else withholdInit s p
  else s

/-- Every port of a Pier tried. -/
def tryUps (s : State) (ps : List Nat) : State := ps.foldl tryUp s

/-- The INIT symbols sent, from this cycle on (R208). -/
def sendInits (s : State) (p : Nat) : State := sendAll (setPort s p { getPort s p with initSent := true, initAt := now s }) p true

/-- The credit exchange begins at LINKED (R208): the allotments are announced, unless the reservation does not fit (R252). -/
def beginInit (s : State) (p : Nat) : State :=
  let x := getPort s p
  let t := setPort s p { x with
    vc := x.vc.map (fun v => { v with gotInit := false }), initSent := false, withheld := false, peerCred0 := false }
  if fitsUp t p then tryUp (sendInits t p) p else withholdInit t p

/-! ## Credit symbols -/

/-- CREDIT_SYMBOL_RECEIVE (R205, R207), between frames; one inside a frame comes with the frame (R397). -/
def execCreditSymbolReceive (p : PortNo) (c1 c2 c3 : Code) (s : State) : Res :=
  act (isRunning s && !s.tap.taken && (getPort s p).lt == .linked && pdOn s (22 + p.val / 64)) s
    (tryUp (takeSymbol (atPlace placeWire s) p [c1, c2, c3]) p)

/-- CREDIT_REFRESH: the cumulative return of every VC of an UP port (R206). -/
def execCreditRefresh (p : PortNo) (s : State) : Res := act (portLive s p) s (sendAll s p false)

/-- INIT_REPEAT: INIT symbols again, every 1,350 cycles until an INIT 0 symbol has come (R208). -/
def execInitRepeat (p : PortNo) (s : State) : Res :=
  let x := getPort s p
  act (isRunning s && x.lt == .linked && x.initSent && !x.peerCred0 && decide (x.initAt + 1350 ≤ now s)) s (sendInits s p)

/-- INIT_RESERVATION_FIT: a port that withheld its INIT symbols sends them in the first cycle that it fits (R252), ahead of the hold
timers that end in it (R216). -/
def execInitReservationFit (p : PortNo) (s₀ : State) : Res :=
  let s := atPlace placeWork s₀
  let x := getPort s p
  act (isRunning s && x.withheld && x.lt == .linked && fitsUp s p) s₀
    (tryUp (sendInits (setPort s p { x with withheld := false }) p) p)

/-- PORT_CRED_WRITE: ALLOT of one VC, refused where the port group's sum would pass 2,048 (R229). -/
def writePortCred (s : State) (p : Nat) (c : Fin 8) (v : Word) : State :=
  let g := p / 4
  let sum := ((((List.range 4).map (fun i => 4 * g + i)).filter (portExists s)).map (fun q =>
    ((List.range 8).map (fun n => if q == p && n == c.val then 0 else (getVc (getPort s q) (fin8 n)).allot.toNat)).sum)).sum
  let x := getPort s p
  if sum + fld v 52 12 ≤ 2048 then setPort s p (setVc x c { getVc x c with allot := BitVec.ofNat 12 (fld v 52 12) }) else s

/-- PORT_CRED_WRITE. -/
def execPortCredWrite (p : PortNo) (vc : Fin 8) (v : Word) (s : State) : Res :=
  act (portRegs s p) s (writePortCred (atPlace placeWrite s) p vc v)

/-! ## Discards -/

/-- A frame lost or discarded at a port (R214, R215). -/
def discard (s : State) (p : Nat) (copy : Nat) : State :=
  let t := dropRef s (copyOwner s copy) copy
  let x := getPort t p
  setPort t p { x with discarded := inc16 x.discarded }

/-- Every queued frame of a port discarded, and its hold entries freed with their Keystone frames (R214, R221). -/
def discardQueues (s : State) (p : Nat) : State :=
  let x := getPort s p
  let es := x.cls.toList.flatMap (·.q)
  let t := setPort s p { x with cls := x.cls.map (fun y => { y with q := [] }) }
  let hs := t.holds.filter (fun h => h.port == some p)
  let u := { t with holds := t.holds.filter (fun h => h.port != some p) }
  let ks := hs.filterMap (fun h => h.ks)
  (es ++ ks).foldl (fun w e => discard w p e.copy) u

/-- The frame on the wire lost (R214): the lanes still carry characters, and it ends with K30.7 (R398). -/
def loseSending (s : State) (p : Nat) : State :=
  let x := getPort s p
  match x.sending with
  | none => s
  | some w => discard (abortFrame (setPort s p { x with sending := none }) p w.ent.frame) p w.ent.copy

/-- PEER_ALLOT cleared in DOWN and OFF (R209). -/
def clearPeer (x : Port) : Port := { x with vc := x.vc.map (fun v => { v with peer := 0 }) }

/-! ## Training -/

/-- A lane whose characters begin afresh: running disparity negative (R394), at a lane block's start. -/
def lineFresh (l : Lane) : Lane := { l with rdTx := false, rdRx := false, txPos := 0 }

/-- A lane as training begins. -/
def laneFresh (l : Lane) : Lane :=
  lineFresh { l with
    signal := false, lock := false, active := false, sets := 0, markers := 0, skew := 0, errSince := false
    idle := false, deaf := false }

/-- Lanes changed. -/
def mapLanes (s : State) (ls : List Nat) (f : Lane → Lane) : State := ls.foldl (fun t l => setLane t l (f (getLane t l))) s

/-- A width as the two bits of PROP_W. -/
def widthCode (w : Nat) : Nat := if w == 4 then 3 else w

/-- The generations a port offers as a mask (R404, R407, R410). -/
def offered (x : Port) : Nat := (2 ^ x.genMax - 1) &&& (7 - x.gensOff % 8)

/-- The training set that a lane of a port sends (R404). -/
def sentSet (s : State) (p lane : Nat) (ts2 : Bool) : List Sym :=
  let x := getPort s p
  let ep := s.fab.swEp.toNat
  let w := if ts2 then x.propW else portLanes s p
  let bs : List Byte := [
    if ts2 then 0x45 else 0x4A, BitVec.ofNat 8 ((lane - p) * 64 + widthCode w * 16 + offered x), BitVec.ofNat 8 (max 1 x.gen),
    BitVec.ofNat 8 (lane / 256), BitVec.ofNat 8 (lane % 256), BitVec.ofNat 8 (ep / 65536), BitVec.ofNat 8 (ep / 256 % 256),
    BitVec.ofNat 8 (ep % 256), BitVec.ofNat 8 (p / 256), BitVec.ofNat 8 (p % 256), 0, 0, 0]
  [Sym.k kComma] ++ (bs ++ [crc8 bs]).map Sym.d ++ [Sym.k kComma]

/-- The training sets with which lanes of a port begin a state, one on each lane; how often they repeat is timing (R405). -/
def sendSets (s : State) (p : Nat) (lanes : List Nat) (ts2 : Bool) : State :=
  lanes.foldl (fun t l =>
    let (cs, l') := laneCode (getLane t l) (sentSet t p l ts2)
    emitLine (setLane t l l') (.stream p (cs.map (fun c => (l, c))))) s

/-- The port enters DETECT for a full attempt (R405). -/
def enterDetect (s : State) (p : Nat) : State :=
  let x := getPort s p
  let t := mapLanes (setPort s p { x with
    lt := .detect, ltSince := now s, retryAt := none, fast := none, gen := 0, width := 0, gensOff := 0, ts2At := none
    initSent := false, withheld := false, vc := x.vc.map (fun v => { v with gotInit := false }) }) (lanesOfPort s p) laneFresh
  sendSets t p (lanesOfPort t p) false

/-- The lanes that a port sends on: all of them, and once a width has been agreed those below it, until DETECT (R405, R406). -/
def sendLanes (s : State) (p : Nat) : List Nat := (lanesOfPort s p).filter (fun l => !(getLane s l).idle)

/-- The port enters POLL (R405, R410), at generation 1 again after an attempt at a higher one (R394, R407). -/
def enterPoll (s : State) (p : Nat) : State :=
  let x := getPort s p
  let g := fld x.lnkCtl 61 2
  let fresh := fun (l : Lane) => if x.gen ≤ 1 then l else lineFresh l
  let t := mapLanes (setPort s p { x with
    lt := .poll, ltSince := now s, gen := 0, width := 0, ts2At := none, genMax := if g == 0 then 3 else g })
    (lanesOfPort s p) (fun l => fresh { l with sets := 0, active := false, lock := false, polInv := false })
  sendSets t p (sendLanes t p) false

/-- Training begins at a DOWN port whose Pier is on (R214), while the switch runs (R451); a port of role 0b11 stays DOWN (R211). -/
def startTraining (s : State) (p : Nat) : State :=
  let x := getPort s p
  if isRunning s && x.st == .down && portRole x != 3 && x.retryAt.isNone && pdOn s (22 + p / 64) then enterDetect (setPort s p { x with st := .training }) p else s

/-- A PIER event of a port or lane (R413). -/
def pierEvt (s : State) (bit lane cause : Nat) : State :=
  recordEvt s (lane / 64) bit (packFields [(55, 9, lane), (52, 3, cause)])

/-- Training fails (R407): the port goes to DOWN, from HELD too, where it discards what it holds as at the end of its hold timer
(DEDUCED, log 59: R407 says that the port goes to DOWN, and R214 what a held port does on its way there). No width is agreed then. -/
def trainFail (s : State) (p why : Nat) : State :=
  let t := if (getPort s p).st == .held then discardQueues s p else s
  let x := getPort t p
  let down := x.st == .training || x.st == .held
  let y := if down then { clearPeer x with st := .down, holdEnds := none } else x
  pierEvt (mapLanes (setPort t p { y with
    lt := .inactive, gen := 0, width := 0, lastFail := why, trainFails := inc16 x.trainFails, ts2At := none
    retryAt := some (now s + fld x.lnkCtl 0 32) }) (lanesOfPort s p) (fun l => { l with active := false })) 3 p why

/-- Whether a lane's pins are its port's, not the test access port's (R485), and its reference clock runs (R517). -/
def laneClocked (s : State) (lane : Nat) : Bool := !s.tap.taken && !tget false s.clk.prefOff (lane / 16)

/-- SIGNAL_DETECT (R405). -/
def execSignalDetect (lane : Fin 512) (s : State) : Res :=
  let p := portOfLane s lane.val
  let t := setLane (atPlace placeWire s) lane.val { getLane s lane.val with signal := true }
  act (isRunning s && portExists s p && (getPort s p).lt == .detect && laneClocked s lane.val) s (enterPoll t p)

/-- A training set that arrived whole and valid (R404). -/
structure TrainSet where
  ts2 : Bool
  idx : Nat
  propW : Nat
  gens : Nat
  genNow : Nat
  ep : BitVec 20
  port : BitVec 9

/-- The data bytes of received characters; none when one is not a data byte. -/
def dataBytes : List (Option Sym) → Option (List Byte)
  | [] => some []
  | some (.d b) :: rest => (dataBytes rest).map (b :: ·)
  | _ => none

/-- The check of a training set (R404). -/
def parseSet (xs : List (Option Sym)) : Option TrainSet :=
  if xs.length != 16 || xs.head? != some (some (.k kComma)) || xs.getLast? != some (some (.k kComma)) then none else
  match dataBytes ((xs.drop 1).take 14) with
  | none => none
  | some b =>
    let at_ := fun (i : Nat) => (b.getD (i - 1) 0).toNat
    let w := at_ 2 / 16 % 4
    if crc8 (b.take 13) != b.getD 13 0 || w == 0 || !(at_ 1 == 0x45 || at_ 1 == 0x4A) then none
    else some {
      ts2 := at_ 1 == 0x45, idx := at_ 2 / 64, propW := 2 ^ (w - 1), gens := at_ 2 % 8, genNow := at_ 3 % 4
      ep := BitVec.ofNat 20 (at_ 6 % 16 * 65536 + at_ 7 * 256 + at_ 8), port := BitVec.ofNat 9 (at_ 9 % 2 * 256 + at_ 10) }

/-- Codes decoded from a running disparity on, and the disparity after them. -/
def decodeFrom (rd : Bool) : List Code → List (Option Sym) × Bool
  | [] => ([], rd)
  | c :: cs =>
    let (xs, r) := decodeFrom (rdAfter rd c) cs
    (decodeChar rd c :: xs, r)

/-- A set on a lane without lock, whose running disparity is still to be found, and in POLL its polarity (R402): whichever of them
gives a valid set is taken, and no code error is counted before the lane has lock. -/
def seekSet (s : State) (lane : Nat) (set : List Code) : Option TrainSet × State :=
  let l := getLane s lane
  let tries := if (getPort s (portOfLane s lane)).lt == .poll then [(false, false), (true, false), (false, true), (true, true)]
    else [(false, l.polInv), (true, l.polInv)]
  match tries.findSome? (fun (ri : Bool × Bool) =>
      let (xs, r) := decodeFrom ri.1 (if ri.2 then set.map invertPair else set)
      (parseSet xs).map (fun t => (t, r, ri.2))) with
  | some (t, r, inv) => (some t, setLane s lane { l with rdRx := r, polInv := inv })
  | none => (none, s)

/-- A set as a lane receives it (R396, R404). -/
def readSet (s : State) (lane : Nat) (set : List Code) : Option TrainSet × State :=
  if (getLane s lane).lock then let (xs, t) := rxCodes s lane set; (parseSet xs, t) else seekSet s lane set

/-- The lane of a port that learned an index. -/
def laneWithIdx (s : State) (p i : Nat) : Option Nat :=
  (lanesOfPort s p).find? (fun l => (getLane s l).lock && (getLane s l).idx.toNat == i)

/-- Lane `l` of a port hears the peer port of lane index 0. -/
def samePeer (s : State) (l l0 : Nat) : Bool :=
  (getLane s l).setEp == (getLane s l0).setEp && (getLane s l).setPort == (getLane s l0).setPort

/-- PROP_W (R406). -/
def propWidth (s : State) (p : Nat) : Nat :=
  match laneWithIdx s p 0 with
  | none => 1
  | some l0 =>
    ([4, 2, 1].find? (fun w => decide (w ≤ portLanes s p) && (List.range w).all (fun i =>
      match laneWithIdx s p i with
      | none => false
      | some l => decide (0 < (getLane s l).sets) && samePeer s l l0))).getD 1

/-- POLL to CONFIG (R405, R406): 20 µs in POLL and 8 consecutive sets on lane index 0. -/
def pollDone (s : State) (p : Nat) : State :=
  let x := getPort s p
  match laneWithIdx s p 0 with
  | none => s
  | some l0 =>
    if x.lt == .poll && decide (x.ltSince + 27000 ≤ now s) && decide (8 ≤ (getLane s l0).sets) then
      mapLanes (setPort s p { x with
        lt := .config, ltSince := now s, propW := propWidth s p, peerEp := (getLane s l0).setEp, peerPort := (getLane s l0).setPort
        ts2At := none }) [l0] (fun l => { l with sets := 0 })
      |> fun t => sendSets t p (lanesOfPort t p) true
    else s

/-- The active lanes of a port. -/
def activeLanes (s : State) (p : Nat) : List Nat := (lanesOfPort s p).filter (fun l => (getLane s l).active)

/-- The port enters VERIFY (R405): every lane begins a lane block, and the stream its position 0 (R399, R400); it sends the idle
stream, of which the first character of each lane is shown. -/
def enterVerify (s : State) (p : Nat) : State :=
  let x := getPort s p
  let t := setPort s p { x with lt := .verify, ltSince := now s, txPos := 0, rxPos := 0, credPos := none }
  let u := mapLanes (mapLanes t (sendLanes s p) (fun l => { l with txPos := 0 })) (activeLanes s p)
    (fun l => { l with markers := 0, errSince := false })
  sendStream u p (List.replicate (max 1 x.width) (.k kComma))

/-- The port enters EQ at its generation (R405): TS1 on the lanes of the agreed width. -/
def enterEq (s : State) (p : Nat) : State :=
  let x := getPort s p
  let t := mapLanes (setPort s p { x with lt := .eq, ltSince := now s }) (lanesOfPort s p) (fun l => { l with sets := 0, markers := 0 })
  sendSets t p (sendLanes t p) false

/-- CONFIG to EQ or VERIFY (R405, R406): 8 consecutive TS2 on lane index 0, and 16 TS2 sent since the first. -/
def configDone (s : State) (p l0 : Nat) (t : TrainSet) : State :=
  let x := getPort s p
  let both := offered x &&& t.gens
  let sent := match x.ts2At with | none => false | some c => decide (c + 35 ≤ now s)
  if !(decide (8 ≤ (getLane s l0).sets) && sent) then s
  else if both == 0 then trainFail s p 3
  else
    let g := msb both + 1
    let w := min x.propW t.propW
    let live := fun (l : Nat) => (getLane s l).lock && decide ((getLane s l).idx.toNat < w) && samePeer s l l0
    let s1 := (lanesOfPort s p).foldl (fun u l => setLane u l { getLane u l with
      active := live l, deaf := !live l, idle := decide (w ≤ l - p), sets := 0, markers := 0 }) s
    let y := { x with ltSince := now s, gen := g, width := w, peerGens := t.gens }
    if g == 1 then enterVerify (setPort s1 p y) p else enterEq (mapLanes (setPort s1 p y) (lanesOfPort s p) lineFresh) p

/-- EQ to VERIFY (R405): 64 consecutive TS1 at the target on every active lane. -/
def eqDone (s : State) (p : Nat) : State :=
  if (activeLanes s p).all (fun l => decide (64 ≤ (getLane s l).sets)) then enterVerify s p else s

/-! ## Link loss -/

/-- The port goes HELD, or to DOWN as on expiry with HOLD_TIME 0 (R214). LOSSES saturates at 0xFFFF, as R217 says of the other counts
(DESIGN CHOICE, log 120). -/
def leaveUp (s : State) (p : Nat) : State :=
  let t := loseSending s p
  let x := getPort t p
  let y := { x with vc := x.vc.map (fun v => { v with sent := 0, ret := 0 }) }
  if fld x.ctl 0 32 == 0 then
    let u := discardQueues (setPort t p y) p
    setPort u p { clearPeer (getPort u p) with st := .training }
  else setPort t p { y with st := .held, losses := inc16 x.losses, holdEnds := some (now s + fld x.ctl 0 32) }

/-- What follows from link loss in LINKED (R408): the port's state, and a fast retrain or a full attempt. -/
def loseLink (s : State) (p : Nat) : State :=
  let s1 := if (getPort s p).st == .up then leaveUp s p else s
  let x := getPort s1 p
  let y := { x with initSent := false, withheld := false, vc := x.vc.map (fun v => { v with gotInit := false }) }
  if bitOf x.lnkCtl 60 then enterEq (setPort s1 p { y with fast := some (now s + 67500) }) p
  else enterDetect (setPort s1 p y) p

/-- The cause with which a port has lost its link in this cycle. -/
def lostHere (s : State) (p : Nat) : Option (BitVec 3) := tget none s.cyc.lost p

/-- Link loss with its event (R408). Of several causes in one cycle the event reports the lowest. -/
def linkLost (s : State) (p cause : Nat) : State :=
  let note := fun (t : State) => { t with cyc := { t.cyc with lost := tput none t.cyc.lost p (some (BitVec.ofNat 3 cause)) } }
  match lostHere s p with
  | some c => if cause < c.toNat then note (pierEvt s 2 p cause) else s
  | none => loseLink (note (pierEvt s 2 p cause)) p

/-- LINK_LOSS (R408). -/
def execLinkLoss (p : PortNo) (cause : BitVec 3) (s : State) : Res :=
  let t := atPlace placeLoss s
  act (isRunning s && ((getPort s p).lt == .linked || (lostHere t p).isSome) && decide (1 ≤ cause.toNat) && decide (cause.toNat ≤ 6)) s
    (linkLost t p cause.toNat)

/-- TRAINING_SET_RECEIVE (R404-R406): a valid set counts, another is ignored; a TS1 on an active lane of a linked port is link loss
(R408). -/
def trainSet (s : State) (lane : Nat) (ts : Option TrainSet) : State :=
  let p := portOfLane s lane
  let x := getPort s p
  let l := getLane s lane
  match ts with
  | none => s
  | some t =>
    let same := l.setEp == t.ep && l.setPort == t.port
    match x.lt with
    | .poll =>
      pollDone (setLane s lane { l with
        lock := true, idx := BitVec.ofNat 2 t.idx, setEp := t.ep, setPort := t.port
        sets := if same && l.lock then l.sets + 1 else 1 }) p
    | .config =>
      if laneWithIdx s p 0 != some lane || !same then s
      else if !t.ts2 then setLane s lane { l with sets := 0 }
      else
        let s1 := setLane s lane { l with sets := l.sets + 1 }
        configDone (setPort s1 p { x with ts2At := some (x.ts2At.getD (now s)) }) p lane t
    | .eq =>
      if !l.active then s
      else if t.ts2 || t.genNow != x.gen then setLane s lane { l with sets := 0 }
      else eqDone (setLane s lane { l with sets := l.sets + 1 }) p
    | .linked => if l.active && !t.ts2 then linkLost s p 5 else s
    | _ => s

/-- Whether a lane takes part in what its port receives: its port trains or is linked, the lane lies within the width that has been
agreed, its pins are the port's and its reference clock runs (R402, R406, R485, R517). -/
def laneHears (s : State) (lane : Nat) : Bool :=
  let lt := (getPort s (portOfLane s lane)).lt
  portExists s (portOfLane s lane) && lt != .inactive && lt != .detect && !(getLane s lane).deaf && laneClocked s lane

/-- TRAINING_SET_RECEIVE. -/
def execTrainingSetReceive (lane : Fin 512) (first : Code) (rest : List Code) (s : State) : Res :=
  let (ts, t) := readSet (atPlace placeWire s) lane.val (first :: rest)
  act (isRunning s && laneHears s lane.val) s (trainSet t lane.val ts)

/-! ## Alignment and rate matching -/

/-- A marker discarded (R401). -/
def amErr (s : State) (lane : Nat) : State :=
  let l := getLane s lane
  pierEvt (setLane s lane { l with amErr := inc16 l.amErr, markers := 0 }) 1 lane 0

/-- VERIFY to LINKED (R405): every active lane has had two consecutive valid markers and lies within 127 characters. -/
def verifyDone (s : State) (p : Nat) : State :=
  let x := getPort s p
  if x.lt == .verify && (activeLanes s p).all (fun l => decide (2 ≤ (getLane s l).markers) && decide ((getLane s l).delay ≤ 127)) then
    beginInit (setPort s p { x with lt := .linked, ltSince := now s, fast := none, gensOff := 0 }) p
  else s

/-- A valid marker of an active lane (R401, R402, R405, R408): it follows the last one where no code error lay between. -/
def goodMarker (s : State) (lane delay : Nat) : State :=
  let p := portOfLane s lane
  let l := getLane s lane
  let s1 := setLane s lane { l with
    markers := if l.errSince then 1 else l.markers + 1, errSince := false, delay
    skew := if delay ≤ 127 then BitVec.ofNat 7 delay else l.skew }
  if ((getPort s p).lt == .linked || (lostHere s p).isSome) && decide (127 < delay) then linkLost s1 p 4 else verifyDone s1 p

/-- Whether a received character is one that may not stand in place `i` of a marker: the first is K28.3, the others are data. One that
has no code is a code error already. -/
def misplaced (i : Nat) (x : Option Sym) : Bool :=
  match x with
  | none => false
  | some (.k m) => i != 0 || m != kMark
  | some (.d _) => i == 0

/-- A marker as its four characters arrive (R401): one with a code error in it is discarded, and each counts (R396). -/
def takeMarker (s : State) (lane delay : Nat) (codes : List Code) : State :=
  let (xs, t) := rxCodes s lane codes
  let l := getLane t lane
  match xs with
  | [some (.k m), some (.d a), some (.d b), some (.d c)] =>
    if m != kMark then codeErrEvt (setLane t lane { l with markers := 0 }) lane
    else if crc8 [a, b] != c || BitVec.ofNat 2 (fld a 6 2) != l.idx then amErr t lane
    else goodMarker t lane delay
  | _ => (xs.zipIdx.filter (fun xi => misplaced xi.2 xi.1)).foldl (fun u _ => codeErrEvt u lane) (setLane t lane { l with markers := 0 })

/-- ALIGNMENT_MARKER_RECEIVE. -/
def execAlignmentMarkerReceive (lane : Fin 512) (c0 c1 c2 c3 : Code) (delay : Nat) (s : State) : Res :=
  let p := portOfLane s lane.val
  let x := getPort s p
  let t := atPlace placeWire s
  act (isRunning s && laneHears s lane.val && (getLane s lane.val).active &&
      (x.lt == .verify || x.lt == .linked || (lostHere t p).isSome)) s
    (takeMarker t lane.val delay [c0, c1, c2, c3])

/-- FILLER_PAIR_RECEIVE (R403). -/
def execFillerPairReceive (p : PortNo) (level : Nat) (bad : Option (Fin 512)) (s : State) : Res :=
  let ls := activeLanes s p
  act (isRunning s && !s.tap.taken && portExists s p && ((getPort s p).lt == .linked || (getPort s p).lt == .verify)) s
    (let s := atPlace placeWire s
     match bad with
     | some l => codeErrEvt s (if ls.contains l.val then l.val else p.val)
     | none =>
       if level > 18 then mapLanes s ls (fun l => { l with fillDel := min (l.fillDel + 1) 255 })
       else if level < 14 then mapLanes s ls (fun l => { l with fillIns := min (l.fillIns + 1) 255 })
       else s)

/-- A character outside frames and credit symbols (R396, R397): K28.5 is idle, K27.7 and K23.7 begin what other commands give
whole; any other is a code error. -/
def idleChar (s : State) (lane : Nat) (code : Code) : State :=
  let (x, t) := rxCode (rxAdvance s (portOfLane s lane)) lane code
  match x with
  | none => t
  | some c => if c == .k kComma || c == .k kStart || c == .k kCredit then t else codeErrEvt t lane

/-- IDLE_CHARACTER_RECEIVE. -/
def execIdleCharacterReceive (lane : Fin 512) (code : Code) (s : State) : Res :=
  let p := portOfLane s lane.val
  let lt := (getPort s p).lt
  act (isRunning s && !s.tap.taken && portExists s p && (getLane s lane.val).active && (lt == .linked || lt == .verify)) s
    (idleChar (atPlace placeWire s) lane.val code)

/-! ## Time limits -/

/-- The time limit of a training state in cycles (R405). -/
def ltLimit (lt : LT) : Option Nat :=
  match lt with
  | .poll => some 270000 | .config => some 27000 | .eq => some 202500 | .verify => some 27000 | _ => none

/-- A training state at its time limit (R407). -/
def limitReached (s : State) (p : Nat) : State :=
  let x := getPort s p
  match x.lt with
  | .poll => trainFail s p 1
  | .config => trainFail s p 2
  | _ =>
    if x.gen ≤ 1 then trainFail s p 4
    else enterPoll (setPort s p { x with gensOff := x.gensOff ||| 2 ^ (x.gen - 1) }) p

/-- TRAINING_TIMEOUT. -/
def execTrainingTimeout (p : PortNo) (s : State) : Res :=
  let x := getPort s p
  match ltLimit x.lt with
  | none => .next s
  | some n => act (isRunning s && x.fast.isNone && decide (x.ltSince + n ≤ now s)) s (limitReached (atPlace placeTimeout s) p)

/-- RETRY_WAIT_EXPIRY (R407). -/
def execRetryWaitExpiry (p : PortNo) (s : State) : Res :=
  let x := getPort s p
  match x.retryAt with
  | none => .next s
  | some t =>
    act (isRunning s && decide (t ≤ now s) && (x.st == .down || x.st == .held)) s
      (let u := atPlace placeTimeout s
       if x.st == .down then startTraining (setPort u p { x with retryAt := none }) p else enterDetect u p)

/-- FAST_RETRAIN_TIMEOUT (R408). -/
def execFastRetrainTimeout (p : PortNo) (s : State) : Res :=
  match (getPort s p).fast with
  | none => .next s
  | some t => act (isRunning s && decide (t ≤ now s) && (getPort s p).lt != .linked) s (enterDetect (atPlace placeTimeout s) p)

/-- HOLD_TIMEOUT (R214, R408): the queued frames are discarded; a port whose training runs passes through DOWN into
TRAINING. -/
def execHoldTimeout (p : PortNo) (s : State) : Res :=
  let x := getPort s p
  match x.holdEnds with
  | none => .next s
  | some t =>
    let u := discardQueues (setPort (atPlace placeTimeout s) p { x with holdEnds := none }) p
    act (isRunning s && x.st == .held && decide (t ≤ now s)) s
      (setPort u p { clearPeer (getPort u p) with st := if x.lt == .inactive then .down else .training })

/-- RETRAIN written (R410). -/
def retrainPort (s : State) (p : Nat) : State :=
  let x := getPort s p
  if x.st == .off || x.st == .down then s
  else if x.lt == .linked then linkLost s p 6
  else enterDetect s p

/-- The per-port registers of a Pier act: the port exists and its Pier is on (R392, R455, R487). -/
def linkRegs (s : State) (p : Nat) : Bool := isRunning s && portExists s p && pdOn s (22 + p / 64)

/-- RETRAIN. -/
def execRetrain (p : PortNo) (s : State) : Res := act (linkRegs s p) s (retrainPort (atPlace placeWrite s) p)

/-- A write of LNK_CTL (R410). -/
def writeLnkCtl (s : State) (p : Nat) (v : Word) : State :=
  let x := getPort s p
  let t := setPort s p { x with lnkCtl := writeMasked 0x70000000FFFFFFFF x.lnkCtl v }
  if bitOf v 63 then retrainPort t p else t

/-! ## Enabling ports -/

/-- A port taken down to OFF or DOWN: it discards what it holds, and does not train (R214, R398). -/
def takeDown (s : State) (p : Nat) (st : PState) : State :=
  let t := discardQueues (loseSending s p) p
  let x := getPort t p
  mapLanes (setPort t p { clearPeer x with
    st, lt := .inactive, holdEnds := none, retryAt := none, fast := none, gen := 0, width := 0, ts2At := none
    initSent := false, withheld := false
    vc := x.vc.map (fun v => { v with peer := 0, sent := 0, ret := 0, gotInit := false }) }) (lanesOfPort t p) laneFresh

/-- EN 0: the port goes OFF and discards what it holds (R214, R398). -/
def portOff (s : State) (p : Nat) : State := if (getPort s p).st == .off then s else takeDown s p .off

/-- Whether a port was OFF at the start of the cycle (R392). -/
def wasOff (s : State) (p : Nat) : Bool := (tget none s.cyc.wasOff p).getD ((getPort s p).st == .off)

/-- What it was noted, before it changes in the cycle. -/
def noteOff (s : State) (p : Nat) : State := { s with cyc := { s.cyc with wasOff := tput none s.cyc.wasOff p (some (wasOff s p)) } }

/-- A write of PORT_CTL (R211, R214). A port of role 0b11 stays DOWN: one that trains or is linked when the role is written goes
to DOWN as when its hold timer ends (DESIGN CHOICE, log 109). -/
def writePortCtl (s₀ : State) (p : Nat) (v : Word) : State :=
  let s := noteOff s₀ p
  let x := getPort s p
  let t := setPort s p { x with ctl := writeMasked 0xF0000000FFFFFFFF x.ctl v }
  if bitOf v 63 then
    if fld v 61 2 == 3 then (if x.st == .down then t else takeDown t p .down)
    else startTraining (if x.st == .off then setPort t p { getPort t p with st := .down } else t) p
  else portOff t p

/-- PORT_ENABLE: PORT_CTL written with EN 1. -/
def execPortEnable (p : PortNo) (v : Word) (s : State) : Res :=
  act (portRegs s p) s (writePortCtl (atPlace placeWrite s) p (v ||| 0x8000000000000000#64))

/-- PORT_DISABLE: PORT_CTL written with EN 0. -/
def execPortDisable (p : PortNo) (v : Word) (s : State) : Res :=
  act (portRegs s p) s (writePortCtl (atPlace placeWrite s) p (v &&& 0x7FFFFFFFFFFFFFFF#64))

/-- A write of LNK_GRP (R391, R392): ignored unless every port of the group was OFF at the start of the cycle. -/
def writeSplit (s : State) (g : Nat) (v : Word) : State :=
  let ps := ((List.range 4).map (fun i => 4 * g + i)).filter (portExists s)
  if fld v 62 2 != 3 && ps.all (wasOff s) then
    { s with split := tput 0 s.split g (BitVec.ofNat 2 (fld v 62 2)) }
  else s

/-- Whether a port group is one of the grade's and its Pier is on. -/
def groupRegs (s : State) (g : Nat) : Bool :=
  isRunning s && decide (g < (if gradeS s then 128 else 96)) && pdOn s (22 + g / 16)

/-- LNK_GRP_SPLIT_WRITE. -/
def execLnkGrpSplitWrite (g : Fin 128) (v : Word) (s : State) : Res := act (groupRegs s g) s (writeSplit (atPlace placeWrite s) g v)

/-- A write of SW_EP (R497). -/
def writeSwEp (s : State) (v : Word) : State :=
  let busy := s.ports.any (fun (kp : Nat × Port) => kp.2.st != .off) ||
    s.tbl.desc.any (fun (kd : Nat × Desc) => gdValid kd.2)
  if busy then s else onFab s (fun f => { f with swEp := v.setWidth 20 })

/-- SW_EP_WRITE. -/
def execSwEpWrite (v : Word) (s : State) : Res := act (isRunning s && pdOn s 2) s (writeSwEp (atPlace placeWrite s) v)

/-! ## Eye scans (R414) -/

/-- A write of EYE_CTL: GO starts a scan, or refuses it. -/
def writeEyeCtl (s : State) (lane : Nat) (v : Word) : State :=
  let l := getLane s lane
  if bitOf v 63 then
    if l.eyeBusy then s else
    let c := writeMasked 0x7FFFFC0000000000 l.eyeCtl v
    if !l.lock || fld v 61 2 == 3 then setLane s lane { l with eyeCtl := c, eyeDone := true, eyeRefused := true, mismatch := 0 }
    else setLane s lane { l with eyeCtl := c, eyeBusy := true, eyeDone := false, eyeRefused := false }
  else setLane s lane { l with eyeCtl := writeMasked 0x7FFFFC0000000000 l.eyeCtl v }

/-- Whether a lane is one of the grade's and its Pier is on. -/
def laneRegs (s : State) (lane : Nat) : Bool :=
  isRunning s && decide (lane < (if gradeS s then 512 else 384)) && pdOn s (22 + lane / 64)

/-- EYE_SCAN_GO. -/
def execEyeScanGo (lane : Fin 512) (v : Word) (s : State) : Res :=
  act (laneRegs s lane) s (writeEyeCtl (atPlace placeWrite s) lane (v ||| 0x8000000000000000#64))

/-- EYE_SCAN_DONE. -/
def execEyeScanDone (lane : Fin 512) (mismatches : BitVec 40) (s : State) : Res :=
  let l := getLane s lane
  act (laneRegs s lane && l.eyeBusy) s (setLane s lane { l with eyeBusy := false, eyeDone := true, mismatch := mismatches })

/-! ## Viaducts -/

/-- A Viaduct replaced. -/
def setVdct (s : State) (v : Fin 8) (x : Vdct) : State := { s with vdct := s.vdct.set v x }

/-- A Viaduct event (R422). -/
def vdctEvt (s : State) (v : Fin 8) (bit : Nat) (toPier : Bool) : State :=
  recordEvt s (8 + v) bit (packFields [(63, 1, b2n toPier)])

/-- The logical ports of a Pier that are linked. -/
def pierPorts (s : State) (v : Fin 8) : List Nat :=
  (s.ports.map (fun (kp : Nat × Port) => kp.1)).filter (fun p => p / 64 == v.val && portExists s p)

/-- The Viaduct stops (R18), LAST_OK being 0 then (R500): every port of its Pier is handled as one that has lost its link. -/
def stopVdct (s : State) (v : Fin 8) (toPier : Bool) : State :=
  let t := vdctEvt (setVdct s v { s.vdct[v] with stopped := true, lastOk := false, failsIn := 0, failsOut := 0 }) v 1 toPier
  ((pierPorts t v).filter (fun p => (getPort t p).lt == .linked)).foldl loseLink t

/-- VIADUCT_CELL_RECEIVE (R17, R18): a failing cell is replayed, and the fourth replay in a row that fails stops the
Viaduct. -/
def execViaductCellReceive (v : Fin 8) (toPier : Bool) (ok : Bool) (s : State) : Res :=
  let x := s.vdct[v]
  let t := atPlace placeWire s
  let n := if toPier then x.failsOut else x.failsIn
  let put := fun (k : Nat) => if toPier then { x with failsOut := k } else { x with failsIn := k }
  act (isRunning s && !x.stopped && pdOn s (22 + v.val)) s
    (if ok then setVdct t v (put 0)
     else if n ≥ 4 then stopVdct t v toPier
     else vdctEvt (setVdct t v (put (n + 1))) v 0 toPier)

/-- A write of VDCT_CTL (R500). -/
def writeVdctCtl (s : State) (v : Fin 8) (w : Word) : State :=
  let x := s.vdct[v]
  if bitOf w 63 && x.stopped && !x.busy && pdOn s (22 + v.val) then setVdct s v { x with busy := true, failsIn := 0, failsOut := 0 }
  else s

/-- VDCT_RETRAIN. -/
def execVdctRetrain (v : Fin 8) (s : State) : Res := act (isRunning s && pdOn s 2) s (writeVdctCtl (atPlace placeWrite s) v 0x8000000000000000)

/-- VDCT_RETRAIN_DONE (R500). A retrain that fails records a further STOP, whose direction is free: the command does not say which way
the cell went that failed again (log 122). -/
def execVdctRetrainDone (v : Fin 8) (ok : Bool) (s : State) : Res :=
  let x := s.vdct[v]
  act (isRunning s && x.busy) s
    (let s := atPlace placeWork s
     if ok then
      let t := setVdct s v { x with busy := false, stopped := false, lastOk := true }
      tryUps t (pierPorts t v)
     else
      let (f, t) := freshWord (setVdct s v { x with busy := false, lastOk := false })
      vdctEvt t v 1 (bitOf f 0))

/-- TIME_LOAD_CELL (R437): the Pier's device-time count is loaded. -/
def execTimeLoadCell (pier : Fin 8) (s : State) : Res :=
  act (isRunning s && pdOn s (22 + pier.val) && !(s.vdct[pier]).stopped) s
    { s with piers := tput {} s.piers pier { loaded := some (now s, devTime s) } }

end Sys2Proof.Machine
end

