-- ==== Sys2Proof/Machine/FirnCmd.lean ====
section
/-! DEFINITION. The commands of the buffer pool manager (R241, R253) and of Firn (R370-R389): BPM_CMD, threading,
training, margining, temperature, refresh, error counts, write-back, and row copies. -/

namespace Sys2Proof.Machine

/-! ## BPM_CMD -/

/-- The last command finished (R253). -/
def bpmFinish (s : State) : State :=
  { s with bpm := { s.bpm with result := s.bpm.result ||| 0x8000000000000000#64 } }

/-- RETIRE_EXT (R253): the range check, and the mark. -/
def retireExtent (s : State) (x : Nat) : State :=
  if inPool x then { s with bpm := { s.bpm with retired := tput false s.bpm.retired x true } }
  else bpmEvt s 0 1 4097 (x * 65536)

/-- The operation of a BPM_CMD with GO (R253). -/
def bpmGo (s : State) (op ext : Nat) (link : LinkFault) : State :=
  let t := { s with bpm := { s.bpm with result := s.bpm.result &&& 0x7FFFFFFFFFFFFFFF#64 } }
  match op with
  | 1 => if t.bpm.firnReady then allocForCtl (breakLink t link 1) else { t with bpm := { t.bpm with waiting := true } }
  | 2 => bpmFinish (freeExtent t 4097 ext)
  | 3 => bpmFinish (retireExtent t ext)
  | _ => bpmFinish (bpmNote t 4 1 (some 4097))

/-- A write of BPM_CMD (R253). -/
def writeBpmCmd (s : State) (v : Word) (link : LinkFault) : State :=
  let t := { s with bpm := { s.bpm with cmd := v &&& 0x70000000003FFFFF#64 } }
  if bitOf v 63 then bpmGo t (fld v 60 3) (fld v 0 22) link else t

/-- The word of BPM_CMD with GO. -/
def bpmWord (op ext : Nat) : Word := packFields [(63, 1, 1), (60, 3, op), (0, 22, ext)]

/-- ALLOC_EXT. -/
def execAllocExt (link : LinkFault) (s : State) : Res :=
  act (isRunning s && pdOn s 2) s (writeBpmCmd (afterPlace placeWo s) (bpmWord 1 0) link)

/-- FREE_EXT. -/
def execFreeExt (ext : BitVec 22) (s : State) : Res :=
  act (isRunning s && pdOn s 2) s (writeBpmCmd (afterPlace placeWo s) (bpmWord 2 ext.toNat) .none)

/-- RETIRE_EXT. -/
def execRetireExt (ext : BitVec 22) (s : State) : Res :=
  act (isRunning s && pdOn s 2) s (writeBpmCmd (afterPlace placeWo s) (bpmWord 3 ext.toNat) .none)

/-- BPM_CMD_RESERVED: an OP of 0 or above 3. -/
def execBpmCmdReserved (op : BitVec 3) (s : State) : Res :=
  act (isRunning s && pdOn s 2 && (op == 0 || decide (3 < op.toNat))) s (writeBpmCmd (afterPlace placeWo s) (bpmWord op.toNat 0) .none)

/-! ## Building the pools -/

/-- NEVE_THREAD_DONE (R241): NEVE_READY, and the ports that waited for it enter UP. -/
def execNeveThreadDone (s : State) : Res :=
  act (isRunning s && pdOn s 2 && !s.bpm.neveReady && (pdOn s 7 || pdOn s 8)) s
    (tryUps { s with bpm := { s.bpm with neveReady := true } } (s.ports.map (fun (kp : Nat × Port) => kp.1)))

/-- FRN_ERR_INFO of an event that concerns no burst: its place fields are free within what R388 reports, SYMBOL is 0x3F. -/
def freeInfo (f : Word) : Word :=
  packFields [(58, 6, fld f 58 6), (54, 4, fld f 0 32 % 12), (32, 22, fld f 32 22), (28, 4, fld f 28 4), (22, 6, 0x3F),
    (17, 5, fld f 32 32 % 30)]

/-- An event of a stack that concerns no burst. -/
def stackEvt (s : State) (k : Fin 4) (bit : Nat) : State :=
  let (f, t) := freshWord s
  recordEvt t (40 + k) bit (freeInfo f)

/-- A stack fails its training (R388, R424): it takes no requests. -/
def trainFailed (s : State) (k : Fin 4) : State :=
  stackEvt (setStack s k { getStack s k with stuck := true }) k 9

/-- FIRN_TRAIN_DONE (R241): every powered stack is trained, or one of them fails. -/
def execFirnTrainDone (failed : Option (Fin 4)) (s : State) : Res :=
  let r := atPlace placeWork s
  let t := { r with frn := Vector.ofFn (fun (k : Fin 4) =>
    if pdOn s (3 + k.val) then { r.frn[k] with trained := true } else r.frn[k]) }
  let u := match failed with
    | some k => if pdOn s (3 + k.val) && !(getStack s k).trained then trainFailed t k else t
    | none => t
  act (isRunning s && [0, 1, 2, 3].any (fun (k : Nat) => pdOn s (3 + k) && !(getStack s (fin4 k)).trained)) s u

/-! ## Row remapping -/

/-- What the channel gives of burst `n` of a row that is copied: a fault met now, or one that the burst has had since it was written
(R371). -/
def copyErr (s : State) (src : Nat) (row : RowCopy) (n : Nat) : MemFault :=
  if bitOf row.bad n then .uncorrectable else if bitOf row.corr n then .corrected else tget .none s.firnErr (src / 256 + n)

/-- Whether a beat of a row is marked where it is written: its burst is uncorrectable, or some beat of it is poisoned (R372). -/
def burstBad (s : State) (src : Nat) (row : RowCopy) (n : Nat) : Bool :=
  copyErr s src row n == .uncorrectable || (List.range 8).any (fun b => tget false s.firnPoison (src / 32 + 8 * n + b))

/-- The bytes of a 2 KiB row copied to another place, burst by burst: the bytes of an uncorrectable burst are free, and POISON is
set in every codeword of it and of a poisoned one (R372, R385); what is written is sound again. -/
def copyRow (s : State) (src dst : Nat) (row : RowCopy) : State :=
  let byteAt := fun (i : Nat) =>
    if copyErr s src row (i / 256) == .uncorrectable then BitVec.ofNat 8 (fld (Config.freeWord (s.freeCtr + i / 8)) (8 * (i % 8)) 8)
    else rawGet s (src + i)
  { s with
    firn := (List.range 2048).foldl (fun f i => rawPut s f (dst + i) (byteAt i)) s.firn
    firnPoison := (List.range 64).foldl (fun f b => tput false f (dst / 32 + b) (burstBad s src row (b / 8))) s.firnPoison
    firnErr := (List.range 8).foldl (fun f n => tput .none (tput .none f (src / 256 + n) (copyErr s src row n)) (dst / 256 + n) .none)
      s.firnErr
    freeCtr := s.freeCtr + 256 }

/-- The first poisoned beat of a row as it lies, counted from the row's start. -/
def rowPoison (s : State) (src : Nat) : Option Nat :=
  (List.range 64).find? (fun b => tget false s.firnPoison (src / 32 + b))

/-- The Firn byte address of the row that a remap entry replaces (R367, R384). -/
def remapRow (s : State) (i : Nat) : Nat :=
  let row := fld (remapEnt s i) 0 11
  let unit := i / 16
  (((unit / 16 % 12) * 2048 + row) * 16 + unit % 16) * 256 * 2048 + unit / 192 * 2048

/-- The event of one burst of a row copy, whose first failing beat is free (R371, R388). -/
def copyBurstEvt (s : State) (a : Nat) (f : MemFault) : State :=
  let (x, t) := freshWord s
  match f with
  | .uncorrectable => firnUncorr t a (fld x 0 3) 0x1D
  | .corrected => firnCorr t a (fld x 0 3) (fld x 8 8 % 36) 0x1D 1
  | _ => s

/-- The events of a row copy: the first poisoned beat read, and what the code says of every burst. -/
def copyEvts (s : State) (row : RowCopy) (src : Nat) : State :=
  let a := remapRow s row.entry
  let t := match rowPoison s src with
    | some b => firnEvt s 3 (a + b / 8 * 256) (b % 8) 0x3F 0x1D
    | none => s
  (List.range 8).foldl (fun u n => copyBurstEvt u (a + n * 256) (copyErr s src row n)) t

/-- REMAP_COPY_DONE (R385): the row's bursts, read from where they were mapped before the commit, stand in the spare, and
the entry is ACTIVE. The copy's own requests wait where any do (R381, R389). -/
def execRemapCopyDone (row : RowCopy) (s : State) : Res :=
  let e := remapEnt s row.entry
  let a := remapRow s row.entry
  match tget none s.remapFrom row.entry with
  | none => .next s
  | some src =>
    let u := copyRow (copyEvts (atPlace placeWork s) row src) src (spareBase row.entry) row
    act (isRunning s && remapState e == 2 && pdOn s (3 + (firnDecode a).stack) && !stackStuck s a && !marginOn s a) s { u with
      remapFrom := tput none u.remapFrom row.entry none
      tbl := { u.tbl with remap := tput 0 u.tbl.remap row.entry ((e &&& 0xCFFFFFFF#32) ||| 0x10000000#32) } }

/-! ## Threading (R241) -/

/-- The link words of the extents that lie in remapped rows written there: a remapped row is in place before any extent is
written. -/
def threadSpares (s : State) : State :=
  s.tbl.remap.foldl (fun t (ke : Nat × BitVec 32) =>
    let a := remapRow s ke.1
    if a % 65536 == 0 && inPool (a / 65536) && (rowBase s a).2 == some ke.1 then
      { t with firn := memPutBytes t.firn (spareBase ke.1) (wordLE (threadLink (a / 65536))) }
    else t) s

/-- The first 8 bytes of every extent of the pool hold its link word, whatever they held before (R240, R241). -/
def threadFirn (s : State) : State :=
  threadSpares { s with
    firnThreaded := 0xF
    firn := s.firn.filter (fun c => !(c.1 % 65536 < 8 && decide (c.1 < firnSize) && inPool (c.1 / 65536)))
    bpm := { s.bpm with firnReady := true, extHead := some (poolExt 0), extAlloc := [] } }

/-- FIRN_THREAD_DONE (R241, R473): the stacks are trained and the remap table is loaded from a verified image. -/
def execFirnThreadDone (s : State) : Res :=
  act (isRunning s && pdOn s 2 && firnOn s && s.sec.done && !s.bpm.firnReady && s.frn.all (·.trained)) s
    (threadFirn (atPlace placeWork s))

/-! ## Margining (R389) -/

/-- The remap entries of spare 15 of bank 0 of a channel's twelve dies. -/
def marginEntries (k : Fin 4) (ch : Nat) : List Nat :=
  (List.range 12).map (fun d => ((((64 * k.val + ch) * 12 + d) * 16) * 16) + 15)

/-- The pattern written into a spare row: bytes the spec does not give. -/
def patternRow (s : State) (entry : Nat) : State :=
  let base := spareBase entry
  let bytes := (List.range 256).flatMap (fun j => wordLE (Config.freeWord (s.freeCtr + j)))
  { s with
    firn := memPutBytes s.firn base bytes
    firnPoison := (List.range 64).foldl (fun f b => tput false f (base / 32 + b) false) s.firnPoison
    firnErr := (List.range 8).foldl (fun f n => tput .none f (base / 256 + n) .none) s.firnErr
    freeCtr := s.freeCtr + 256 }

/-- A write of FRN_MARGIN: a GO before DONE is ignored, and one that meets a spare in use is refused. On a stack that takes no
requests the pattern's writes wait, and with them the margining point (R381, R424). -/
def writeMargin (s : State) (k : Fin 4) (v : Word) : State :=
  let x := getStack s k
  let y := { x with margin := writeMasked 0x7FFFFFFF00000000 x.margin v }
  let es := marginEntries k (fld v 56 6 % 64)
  if !bitOf v 63 || x.marginBusy then setStack s k y
  else if es.any (fun i => bitOf (remapEnt s i) 31) then
    setStack s k { y with marginDone := true, marginRefused := true }
  else
    (if x.stuck then [] else es).foldl patternRow (setStack s k { y with
      marginBusy := true, marginDone := false, marginRefused := false
      marginCh := fld v 56 6, marginN := max 1 (fld v 32 16) })

/-- FRN_MARGIN_GO. -/
def execFrnMarginGo (st : Fin 4) (v : Word) (s : State) : Res :=
  act (isRunning s && pdOn s (3 + st.val)) s (writeMargin (atPlace placeWrite s) st (v ||| 0x8000000000000000#64))

/-- FRN_MARGIN_DONE: no more bursts can differ than were read; on a stack that takes no requests the reads wait. -/
def execFrnMarginDone (st : Fin 4) (fails : BitVec 32) (s : State) : Res :=
  let x := getStack s st
  act (isRunning s && pdOn s (3 + st.val) && x.marginBusy && !x.stuck) s
    (setStack s st { x with marginBusy := false, marginDone := true, fails := BitVec.ofNat 32 (min fails.toNat x.marginN) })

/-! ## Temperature (R381, R382) -/

/-- A level after a reading: up at once to the highest threshold reached, down by one below the level's own threshold
less the hysteresis; the top level stays (R381, R449). `ts` holds the thresholds in rising order. -/
def nextLevel (ts : List Nat) (hyst cur mx : Nat) : Nat :=
  let up := (ts.filter (fun t => decide (t ≤ mx))).length
  if cur == ts.length then cur
  else if up > cur then up
  else if cur == 0 then 0
  else if mx + hyst < ts.getD (cur - 1) 0 then cur - 1 else cur

/-- A write of FRN_THERM: ignored unless the thresholds rise strictly (R382). -/
def writeTherm (s : State) (k : Fin 4) (v : Word) : State :=
  let x := getStack s k
  if fld v 56 8 < fld v 48 8 && fld v 48 8 < fld v 40 8 then
    setStack s k { x with thermNext := writeMasked 0xFFFFFFFF80000000 x.thermNext v }
  else s

/-- FRN_THERM_WRITE. -/
def execFrnThermWrite (st : Fin 4) (v : Word) (s : State) : Res :=
  act (isRunning s && pdOn s (3 + st.val)) s (writeTherm (atPlace placeWrite s) st v)

/-- The largest of a list of bytes. -/
def maxOf (bs : List Byte) : Nat := bs.foldl (fun m b => max m b.toNat) 0

/-- FRN_THERMAL_READING (R381): the sensors, the level, and the event of a level that rises. -/
def execFrnThermalReading (st : Fin 4) (t : Vector Byte 4) (s : State) : Res :=
  let r := atPlace placeWork s
  let x := getStack r st
  let th := x.thermNext
  let lv := nextLevel [fld th 56 8, fld th 48 8, fld th 40 8] (fld th 36 4) x.level (maxOf t.toList)
  let u := setStack r st { x with therm := th, temps := t, level := lv, stuck := x.stuck || lv == 3 }
  let w := if lv > x.level then stackEvt u st (if lv == 1 then 7 else if lv == 2 then 8 else 10) else u
  act (isRunning s && pdOn s (3 + st.val)) s w

/-! ## Refresh, counts and bursts -/

/-- The interval between a channel's refresh commands (R380, R381). -/
def refreshEvery (s : State) (ch : Nat) : Nat := if (getStack s (fin4 (ch / 64))).level == 0 then 872 else 436

/-- REFRESH (R380): one refresh command of a channel, once its interval has ended. -/
def execRefresh (ch : Fin 256) (s : State) : Res :=
  let r := tget {} s.refreshes ch
  let due := r.last + refreshEvery s ch
  act (isRunning s && pdOn s (3 + ch.val / 64) && decide (due ≤ now s)) s
    { s with refreshes := tput {} s.refreshes ch { count := r.count + 1, last := due } }

/-- The corrections of one die since the last poll added (R370). -/
def addIdc (s : State) (k : Fin 4) (d n : Nat) : State :=
  let x := getStack s k
  let old := x.dieCounts.getD d 0
  if n ≤ old then setStack s k { x with dieCounts := x.dieCounts.setIfInBounds d n }
  else
    let t := setStack s k { x with
      idcCnt := inc24 x.idcCnt (n - old)
      dieCounts := x.dieCounts.setIfInBounds d n }
    let (f, u) := freshWord t
    recordEvt u (40 + k) 0 (setFld (freeInfo f) 54 4 d)

/-- IDC_POLL (R370): the count of every die read. -/
def execIdcPoll (st : Fin 4) (counts : Vector Nat 12) (s : State) : Res :=
  act (isRunning s && pdOn s (3 + st.val)) s
    ((List.range 12).reverse.foldl (fun t d => addIdc t st d (counts.getD d 0)) (atPlace placeWork s))

/-- The tables that hardware reads from regions of Firn reserved at boot: members, buckets, windows, and under numbers of the
model's own the message counters and the E2E windows (R372). -/
def firnTables : List Nat := [0x03, 0x04, 0x07, ctrTable, winTable]

/-- The table entries in a burst that came uncorrectable or poisoned: poisoned until they are written again (R372). -/
def poisonEntries (s : State) (a : Nat) : State :=
  if !isReservedExt (a / 65536) then s else
  let ks := (Config.reservedEntries (a / 256)).filter (fun k => firnTables.contains (k / 2 ^ 32))
  { s with tbl := { s.tbl with poison := ks.foldl (fun m k => tput false m k true) s.tbl.poison } }

/-- FIRN_BURST_READ (R371, R372): the eight codewords of a burst as the channel gives them are corrected, flagged or found
poisoned; what the code says stays with the burst until it is written. -/
def execFirnBurstRead (addr : BitVec 38) (raw : Vector (Vector Byte 36) 8) (req : Fin 30) (s : State) : Res :=
  let a := addr.toNat / 256 * 256
  let beats := (raw.toList.map (fun (w : Vector Byte 36) => judgeBeat a (w.toList.map (·.toNat)))).zipIdx
  let fixed := beats.filter (fun b => b.1.2.1.isSome)
  let bad := beats.find? (fun b => b.1.1)
  let pois := beats.find? (fun b => !b.1.1 && b.1.2.2.1)
  let r := atPlace placeWork s
  let t := match fixed with
    | [] => r
    | (b, i) :: _ => firnCorr r a i ((b.2.1).getD 0x3F) req.val fixed.length
  let u := match pois with | none => t | some (_, i) => firnEvt t 3 a i 0x3F req.val
  let w := match bad with | none => u | some (_, i) => firnUncorr u a i req.val
  let y := noteErr w a (if bad.isSome then .uncorrectable else if fixed.isEmpty then .none else .corrected)
  act (isRunning s && decide (a < firnSize) && pdOn s (3 + (firnDecode a).stack) && !burstWaits s a) s
    (if bad.isSome || pois.isSome then poisonEntries y a else y)

/-- FIRN_WRITEBACK (R375, R376): a dirty line is written to Firn and stays in the cache, clean. -/
def execFirnWriteback (line : LineRead) (s : State) : Res :=
  let la := line.addr.toNat / 256 * 256
  match findLine s la with
  | none => .next s
  | some (l, _) =>
    let t := cacheFault (atPlace placeWork s) la 0x1D line.fault
    act (isRunning s && pdOn s (3 + (firnDecode la).stack) && !burstWaits s la && l.dirty != 0) s
      (match findLine t la with
       | some (x, _) => keepPlace (storeLine t x 0x1D line.fault) la { x with dirty := 0 }
       | none => t)

end Sys2Proof.Machine
end

