-- ==== Sys2Proof/Machine/Cores.lean ====
section
/-! DEFINITION. The control cores beside the scalar instructions: tables and commits (R308-R312), mailboxes, events,
timers and fences (R302, R313-R318), starting and stopping (R321-R323). -/

namespace Sys2Proof.Machine

/-! ## Tables -/

/-- The table, entry and word of a table instruction, when they exist (R308, R332). -/
def tblPlace (func : BitVec 6) (idx : Word) (w : Nat) : Option (Nat × Nat × Nat) :=
  match tblShape func.toNat with
  | some (n, ws) => if idx.toNat < n ∧ w < ws then some (func.toNat, idx.toNat, w) else none
  | none => none

/-- Quota entries that no requester has: a TBL.W of one is ignored (R247). -/
def quotaHole (id i : Nat) : Bool := id == 0x0A && decide (4099 ≤ i)

/-- TBL.W: IMM [2:0] is the word, every other IMM bit is unused. -/
def execTblW (c : CoreNo) (a b : BitVec 6) (func : BitVec 6) (imm : BitVec 32) (s : State) : Res :=
  coreInstr s c (okReg a && okReg b && decide (imm.toNat < 8)) (fun t =>
    let k := getCore t c
    match tblPlace func (readReg k a) imm.toNat with
    | none => takeExc t c .table 0
    | some (id, i, w) =>
      if quotaHole id i || (id == 0x0B && policerHole i) then setCore t c (nextPc k)
      else match stageWord k id i w (readReg k b) with
        | none => takeExc t c .stageFull 0
        | some k' => setCore t c (nextPc k'))

/-- The requester class of a core (R388). -/
def coreReq (c : CoreNo) : Nat := 0x15 + c.val

/-- What the read of an entry that lies in Firn meets there (R371, R376): where in the regions reserved at boot it lies is not
given, and free. -/
def firnTblFault (s : State) (c : CoreNo) (fault : MemFault) : State :=
  let (f, t) := freshWord s
  let a := Config.firnReservedFirst * 65536 + f.toNat % (extReserved * 256) * 256
  match fault with
  | .none => s
  | .corrected => firnCorr t a (fld f 61 3) (fld f 53 8 % 36) (coreReq c) 1
  | .uncorrectable => firnUncorr t a (fld f 61 3) (coreReq c)
  | .cacheCorr => firnEvt t 5 a 0 0x3F (coreReq c)
  | .cacheUncorr b => firnEvt t 5 a b.val 0x3F (coreReq c)

/-- The gate lists of the ports whose entries are concerned brought to this cycle: a switchover that is due takes the entries as
they were in its own cycle (R274). -/
def syncTouched (s : State) (entries : List Nat) : State := ((entries.map (· / 64)).dedup).foldl syncGate s

/-- What a table read meets in its memory (R372, R423, R426): the state after, and whether the word is lost. -/
def tblFault (s : State) (c : CoreNo) (id i : Nat) (fault : MemFault) : State × Bool :=
  if isPoisoned s id i then (s, true)
  else if id == 0x0E then (s, false)
  else if !onDie id then
    let t := firnTblFault s c fault
    if fault == .uncorrectable then (poisonEntry t id i, true) else (t, false)
  else match fault with
    | .corrected => (lookupFault s id i false, false)
    | .uncorrectable => (lookupFault (if id == 0x0C then syncTouched s [i] else s) id i true, true)
    | _ => (s, false)

/-- TBL.R (R310): the word as the core sees it; an RC field read is cleared. -/
def execTblR (c : CoreNo) (d a : BitVec 6) (func : BitVec 6) (imm : BitVec 32) (fault : MemFault) (s : State) : Res :=
  coreInstr s c (okReg d && okReg a && decide (imm.toNat < 8)) (fun r =>
    let t := atPlace (placeRead + 2 + c) r
    match tblPlace func (readReg (getCore t c) a) imm.toNat with
    | none => takeExc t c .table 0
    | some (id, i, w) =>
      match tblFault t c id i fault with
      | (u, true) => takeExc u c .memUncorr 0
      | (u, false) => retire (tblClearRc u id i w) c d (coreSees u c id i w))

/-- The cycle in which a commit that issues now has its commit cycle (R311). -/
def commitDue (s : State) (stg : List Staged) : Nat := max (now s) s.commitFree + commitLen s stg

/-- TBL.COMMIT: the core blocks until its commit cycle has passed (R304, R311). -/
def execTblCommit (c : CoreNo) (d : BitVec 6) (s : State) : Res :=
  coreInstr s c (okReg d) (fun r =>
    let t := atPlace (placeCore + c) r
    let k := getCore t c
    let due := commitDue t k.stage
    setCore { t with commitFree := due + 1 } c { k with committing := some (d, due) })

/-- Arena bytes copied burst by burst from burst `i` on under STREAM (R363, R372, R377): an uncorrectable or poisoned source
burst poisons its target. -/
def copyBursts (s : State) (src dst : Nat) (i : Nat) : Nat → State
  | 0 => s
  | n + 1 =>
    let (bs, lost, t) := firnReadF s (src + 256 * i) 256 .stream 0x1D (if bitOf s.fab.arenaBad i then .uncorrectable else .none) 2
    let u := firnWrite t (dst + 256 * i) bs .stream 0x1D 2
    copyBursts (if lost then poisonRange u (dst + 256 * i) 256 else u) src dst (i + 1) n

/-- The work of a running arena command, as far as `n` bursts of a copy. -/
def arenaWork (s : State) (n : Nat) : State :=
  match s.fab.arenaBusy with
  | none => s
  | some (op, _, ext, arg) =>
    if op == 1 then copyBursts s (arg * 65536) (ext * 65536) 0 n
    else if op == 2 then copyBursts s (ext * 65536) (arg * 65536) 0 n
    else if n == 0 then s
    else firnWrite s (ext * 65536 + arg) (wordLE s.fab.arenaPut) .stream 0x1D 2

/-- The running arena command ended with a code (R364). -/
def arenaEnd (s : State) (code : Nat) : State :=
  onFab s (fun f => { f with arenaBusy := none, arenaDone := true, arenaCode := code })

/-- The bursts at the head of `n` that the running command can reach: one that has to wait holds up those behind it (R381, R385,
R389). -/
def arenaClear (s : State) (n : Nat) : Nat :=
  match s.fab.arenaBusy with
  | none => 0
  | some (op, _, ext, arg) =>
    let free := fun (i : Nat) =>
      if op == 3 then !burstWaits s (ext * 65536 + arg) else !burstWaits s (ext * 65536 + 256 * i) && !burstWaits s (arg * 65536 + 256 * i)
    if firnOn s then ((List.range n).takeWhile free).length else 0

/-- A commit to the descriptor of a running arena command stops it (R365): how much it has copied by then nothing states. -/
def arenaAbort (s : State) (stg : List Staged) : State :=
  match s.fab.arenaBusy with
  | none => s
  | some (_, slot, _, _) =>
    if (touched stg 2).contains slot then
      let (f, t) := freshWord s
      arenaEnd (arenaWork t (arenaClear t (f.toNat % 257))) 5
    else s

/-- TABLE_COMMIT_CYCLE (R311, R312): the staged words, their checks and reservations take effect, and the core goes on; a
STOP that met the commit takes effect now (R322). -/
def execTableCommitCycle (c : CoreNo) (s : State) : Res :=
  let k := getCore s c
  match k.committing with
  | none => .next s
  | some (d, due) =>
    let first := s.cores.all (fun x => match x.committing with | some (_, n) => decide (due ≤ n) | none => true)
    let r := syncTouched (atPlace (placeCommit + c) s) (touched k.stage 0x0C)
    let (w, t) := applyCommit (arenaAbort r k.stage) k.stage checkProgram
    let k1 := nextPc (writeReg (getCore t c) d w)
    let k2 := { k1 with stage := [], committing := none, stopAfter := false, st := if k.stopAfter then .halted else k1.st }
    act (isRunning s && decide (due ≤ now s) && first && !commitWaits s k.stage) s (setCore t c k2)

/-! ## Mailboxes -/

/-- MBX RECV (R316). -/
def execMbxRecv (c : CoreNo) (d : BitVec 6) (s : State) : Res :=
  coreInstr s c (okReg d && d.toNat % 2 == 0 && decide (2 ≤ d.toNat)) (fun t =>
    let k := getCore t c
    match k.mbx with
    | [] => setCore t c (nextPc (writeReg (writeReg k d 0) (d + 1) 0))
    | e :: rest =>
      let k1 := writeReg (writeReg k d e.desc) (d + 1) e.data
      setCore t c (nextPc { k1 with
        mbx := rest
        heldFrames := match e.copy with | some n => k.heldFrames ++ [n] | none => k.heldFrames }))

/-- A word put in the outbound mailbox of a MGMT port (R462, R460): none when it is full, an entry that the host pops in this
cycle still counting; vector 49 when it was empty. -/
def outPut (s : State) (m : Fin 2) (c : CoreNo) (v : Word) : Option State :=
  let g := getMgmt s m
  if g.out.length + tget 0 s.cyc.outs m < 64 then
    let t := setMgmt s m { g with out := g.out ++ [(c.val, v)] }
    some (if g.out.isEmpty then msixPort t m 49 else t)
  else none

/-- MBX SEND (R316). -/
def execMbxSend (c : CoreNo) (d a b : BitVec 6) (s : State) : Res :=
  coreInstr s c (okReg d && okReg a && okReg b) (fun r =>
    let t := atPlace (placeCore + c) r
    let k := getCore t c
    let to_ := (readReg k a).toNat
    let v := readReg k b
    if to_ ≥ 10 then takeExc t c .mbx 0 else
    let sent := if to_ < 8 then
        mbxPut t (fin8 to_) { desc := packFields [(60, 4, 4), (57, 3, c.val)], data := v, copy := none }
      else outPut t (fin2 to_) c v
    match sent with
    | some u => retire u c d 0
    | none => retire t c d 1)

/-- MBX RELEASE (R315, R316). -/
def execMbxRelease (c : CoreNo) (a : BitVec 6) (s : State) : Res :=
  coreInstr s c (okReg a) (fun t =>
    let k := getCore t c
    match takeFirst (fun (n : Nat) => n == (readReg k a).toNat) k.heldFrames with
    | none => takeExc t c .mbx 0
    | some (n, rest) => dropRef (setCore t c (nextPc { k with heldFrames := rest })) 4097 n)

/-- MBX COUNT. -/
def execMbxCount (c : CoreNo) (d : BitVec 6) (s : State) : Res :=
  coreInstr s c (okReg d) (fun t => retire t c d (BitVec.ofNat 64 (getCore t c).mbx.length))

/-! ## Events and timers -/

/-- The pending events of a core (R317). -/
def pendingEvents (s : State) (k : Core) : BitVec 32 :=
  BitVec.ofNat 32 (b2n (!k.mbx.isEmpty) + 2 * b2n (timerPending s k) + 4 * b2n k.faultLatch)

/-- A wait ends: the pending events of its mask go to the register, and a FAULT returned clears the core's own latch. -/
def endWait (s : State) (k : Core) (d : BitVec 6) (mask : BitVec 32) : Core :=
  let ev := pendingEvents s k &&& mask
  { writeReg k d (ev.setWidth 64) with
    st := .running, waitFor := none, faultLatch := k.faultLatch && !bitOf mask 2 }

/-- WAIT (R317). -/
def execWait (c : CoreNo) (d : BitVec 6) (imm : BitVec 32) (s : State) : Res :=
  coreInstr s c (okReg d && decide (imm.toNat < 8)) (fun t =>
    let k := nextPc (getCore t c)
    if imm == 0 then setCore t c { k with st := .halted }
    else if pendingEvents t k &&& imm != 0 then setCore t c (endWait t k d imm)
    else setCore t c { k with st := .waiting, waitFor := some (d, imm) })

/-- WAIT_RESUME (R317). -/
def execWaitResume (c : CoreNo) (s : State) : Res :=
  let k := getCore s c
  match k.waitFor with
  | none => .next s
  | some (d, mask) =>
    act (isRunning s && k.st == .waiting && pendingEvents s k &&& mask != 0) s (setCore s c (endWait s k d mask))

/-- TIME READ (R318). -/
def execTimeRead (c : CoreNo) (d : BitVec 6) (s : State) : Res :=
  coreInstr s c (okReg d) (fun t => retire t c d (devTime t))

/-- TIME ARM (R318). -/
def execTimeArm (c : CoreNo) (a : BitVec 6) (s : State) : Res :=
  coreInstr s c (okReg a) (fun t =>
    let k := getCore t c
    setCore t c (nextPc { k with cmp := some (readReg k a), timer := false }))

/-- TIME DISARM (R318). -/
def execTimeDisarm (c : CoreNo) (s : State) : Res :=
  coreInstr s c true (fun t => setCore t c (nextPc { getCore t c with cmp := none, timer := false }))

/-- TIMER_DUE (R318). -/
def execTimerDue (c : CoreNo) (s : State) : Res :=
  let k := getCore s c
  act (isRunning s && timerPending s k) s (setCore s c { k with timer := true })

/-! ## Fences (R302): every access of the model has taken effect when its command ends -/

/-- The PC advanced. -/
def fencePass (s : State) (c : CoreNo) : Res := coreInstr s c true (fun t => setCore t c (nextPc (getCore t c)))

/-- FENCE.ST. -/
def execFenceSt (c : CoreNo) (s : State) : Res := fencePass s c
/-- FENCE.ALL. -/
def execFenceAll (c : CoreNo) (s : State) : Res := fencePass s c
/-- FENCE.DEV. -/
def execFenceDev (c : CoreNo) (s : State) : Res := fencePass s c

/-! ## Starting and stopping -/

/-- A core started at START_PC (R322): its staged words go. -/
def startCore (k : Core) : Core :=
  match k.st with
  | .running => k
  | .waiting => k
  | _ => { k with
    st := .running, pc := k.startPc.setWidth 64, cause := 0, stage := [], committing := none, stopAfter := false, waitFor := none }

/-- A core stopped at its next instruction boundary (R322). -/
def stopCore (k : Core) : Core :=
  match k.st with
  | .running => if k.committing.isSome then { k with stopAfter := true } else { k with st := .halted }
  | .waiting => { k with st := .halted, waitFor := none }
  | _ => k

/-- A write of CORE_CTL (R322). -/
def writeCoreCtl (s : State) (c : CoreNo) (v : Word) : State :=
  if bitOf v 63 && bitOf v 62 then s else
  let k := { getCore s c with startPc := v.setWidth 48 }
  setCore s c (if bitOf v 63 then startCore k else if bitOf v 62 then stopCore k else k)

/-- CORE_START. -/
def execCoreStart (c : CoreNo) (v : Word) (s : State) : Res :=
  act (isRunning s && pdOn s 2) s (writeCoreCtl (atPlace placeWrite s) c (v ||| 0x8000000000000000#64))

/-- CORE_STOP. -/
def execCoreStop (c : CoreNo) (v : Word) (s : State) : Res :=
  act (isRunning s && pdOn s 2) s (writeCoreCtl (atPlace placeWrite s) c (v ||| 0x4000000000000000#64))

/-! ## Arena commands (R363-R365) -/

/-- The checks of an arena command, in their order; the arena extent it acts on when they pass. -/
def arenaCheck (s : State) (op slot : Nat) : Nat ⊕ Nat :=
  let arg := s.fab.arenaArg
  let aext := fld arg 42 22
  let ext := fld arg 0 22
  let arena := (getGroup s slot).arena
  if op == 0 || 3 < op then .inl 6
  else if isPoisoned s 2 slot || !(gdValid (descOf s slot) && gdStatus (descOf s slot) == 0) || arena.isEmpty then .inl 2
  else if arena.length ≤ aext || (op == 3 && ext % 8 != 0) || (op == 3 && 65536 ≤ ext) then .inl 1
  else if op != 3 && (!inPool ext || !tget false s.bpm.extAlloc ext || tget false s.bpm.retired ext) then .inl 4
  else if !groupQuiet s slot then .inl 3
  else .inr (arena.getD (if op == 3 then 0 else aext) 0)

/-- A GO of ARENA_CMD: ignored while a command runs (R364). A PUT writes the ARENA_DATA of its GO (R363);
`bad` marks the source bursts of a copy that the channel will give uncorrectable. -/
def arenaGo (s : State) (op slot : Nat) (bad : BitVec 256) : State :=
  if s.fab.arenaBusy.isSome then s else
  match arenaCheck s op slot with
  | .inl code => onFab s (fun f => { f with arenaDone := true, arenaCode := code })
  | .inr x => onFab s (fun f => { f with
      arenaDone := false, arenaBusy := some (op, slot, x, fld s.fab.arenaArg 0 22), arenaPut := f.arenaData, arenaBad := bad })

/-- A write of ARENA_CMD (R363), with the source bursts that a copy it starts will find uncorrectable. -/
def arenaWrite (s : State) (v : Word) (bad : BitVec 256) : State :=
  let t := onFab s (fun f => { f with arenaCmd := v &&& 0x7FFFC00000000000#64 })
  if bitOf v 63 then arenaGo t (fld v 60 3) (fld v 46 14) bad else t

/-- A write of ARENA_CMD as a register. -/
def writeArenaCmd (s : State) (v : Word) : State := arenaWrite s v 0

/-- An arena command row: a write with GO, which takes effect when the steps that open in its cycle have (R364). -/
def arenaCmd (s : State) (op : Nat) (slot : Nat) (bad : BitVec 256) : Res :=
  act (isRunning s && pdOn s 2) s (arenaWrite (afterPlace placeArenaGo s) (packFields [(63, 1, 1), (60, 3, op), (46, 14, slot)]) bad)

/-- ARENA_COPY_IN. -/
def execArenaCopyIn (k : ArenaCopy) (s : State) : Res := arenaCmd s 1 k.slot k.bad
/-- ARENA_COPY_OUT. -/
def execArenaCopyOut (k : ArenaCopy) (s : State) : Res := arenaCmd s 2 k.slot k.bad
/-- ARENA_PUT. -/
def execArenaPut (slot : Fin 16384) (s : State) : Res := arenaCmd s 3 slot 0
/-- ARENA_BAD_OP: an OP of 0 or above 3. -/
def execArenaBadOp (op : BitVec 3) (slot : Fin 16384) (s : State) : Res :=
  if op == 0 || decide (3 < op.toNat) then arenaCmd s op.toNat slot 0 else .next s

/-- The Firn bytes an arena command reaches, as address and length. -/
def arenaReach (x : Nat × Nat × Nat × Nat) : List (Nat × Nat) :=
  let (op, _, ext, arg) := x
  if op == 3 then [(ext * 65536 + arg, 8)] else [(ext * 65536, 65536), (arg * 65536, 65536)]

/-- ARENA_CMD_DONE: the running command has done its work (R364). -/
def execArenaCmdDone (s : State) : Res :=
  match s.fab.arenaBusy with
  | none => .next s
  | some x =>
    act (isRunning s && pdOn s 2 && firnOn s && (arenaReach x).all (fun a => !firnWaits s a.1 a.2)) s
      (arenaEnd (arenaWork (atPlace placeWork s) 256) 0)

/-! ## Fences of destinations (R224, R225) -/

/-- A write of FENCE_CMD. -/
def writeFenceCmd (s : State) (v : Word) : State :=
  let t := onFab s (fun f => { f with fenceCmd := v &&& 0x40000000000FFFFF#64 })
  if bitOf v 63 then
    { onFab t (fun f => { f with epoch := f.epoch + 1 }) with fences := tput false t.fences (fld v 0 20) (bitOf v 62) }
  else t

/-- FENCE_ADD. -/
def execFenceAdd (ep : BitVec 20) (s : State) : Res :=
  act (isRunning s && pdOn s 2) s (writeFenceCmd (afterPlace placeWo s) (packFields [(63, 1, 1), (62, 1, 1), (0, 20, ep.toNat)]))

/-- FENCE_REMOVE. -/
def execFenceRemove (ep : BitVec 20) (s : State) : Res :=
  act (isRunning s && pdOn s 2) s (writeFenceCmd (afterPlace placeWo s) (packFields [(63, 1, 1), (0, 20, ep.toNat)]))

/-! ## Device time (R432, R433) -/

/-- A change of the offset added to the timestamps of queued and waiting contributions. -/
def shiftLocal (d : Word) (l : LocalC) : LocalC := { l with ts := l.ts + d }

/-- The same for a frame in a queue. -/
def shiftEnt (d : Word) (e : QEnt) : QEnt := { e with ts := e.ts + d }

/-- The same for a port's queues. -/
def shiftPort (d : Word) (x : Port) : Port := { x with
  cls := x.cls.map (fun y => { y with q := y.q.map (shiftEnt d) })
  sending := x.sending.map (fun w => { w with ent := shiftEnt d w.ent }) }

/-- The same for an operation of a slice. -/
def shiftOp (d : Word) (o : SerOp) : SerOp := { o with c := shiftLocal d o.c }

/-- The same for a chunk's partials. -/
def shiftChunk (d : Word) (k : Chunk) : Chunk := { k with
  parts := k.parts.map (fun p => { p with lastAt := (BitVec.ofNat 64 p.lastAt + d).toNat }) }

/-- The same for a step: its T0, its expiry and its chunks' partials. -/
def shiftStep (d : Word) (x : StepRec) : StepRec := { x with
  t0 := x.t0 + d
  expiry := x.expiry.map (· + d)
  chunks := tmap {} (fun _ k => shiftChunk d k) x.chunks }

/-- The change of the offset added to every ingress timestamp, T0 and expiry time held (R433). -/
def shiftTimes (s : State) (d : Word) : State :=
  let ofComb := fun (c : Comb) => { c with held := c.held.map (shiftLocal d) }
  { s with
    groups := tmap {} (fun _ (g : Group) => { g with steps := tmap {} (fun _ (x : StepRec) => if x.st == .idle then x else shiftStep d x) g.steps })
      s.groups
    dispatch := s.dispatch.map (shiftLocal d)
    intake := s.intake.map (fun (x : Nat × SerOp) => (x.1, shiftOp d x.2))
    slices := s.slices.map (fun x => { x with ops := x.ops.map (shiftOp d) })
    combQ := s.combQ.map (shiftLocal d)
    combs := tmap none (fun _ (c : Option Comb) => c.map ofComb) s.combs
    localQ := s.localQ.map (shiftLocal d)
    rx := s.rx.map (fun x => { x with kept := x.kept.map (shiftLocal d) })
    ports := tmap {} (fun _ x => shiftPort d x) s.ports
    holds := s.holds.map (fun h => { h with ks := h.ks.map (shiftEnt d) }) }

/-- A write of DEV_TIME_OFS (R433). -/
def writeTimeOfs (s : State) (v : Word) : State :=
  let t := shiftTimes (latchTimers (syncGates s)) (v - s.clk.ofs)
  jumpGates { t with clk := { t.clk with ofs := v } }

/-- DEV_TIME_OFS_WRITE. -/
def execDevTimeOfsWrite (v : Word) (s : State) : Res :=
  act (isRunning s && pdOn s 2) s (writeTimeOfs (atPlace placeWrite s) v)

end Sys2Proof.Machine
end

