-- ==== Sys2Proof/Machine/Power.lean ====
section
/-! DEFINITION. Clocks, Thaw, resets, power domains, supplies and die temperature (R428-R452). -/

namespace Sys2Proof.Machine

/-! ## Resets -/

/-- The domains that a grade leaves on (R442). -/
def gradeDomains (straps : BitVec 3) : Word := if straps == 5 then 0x3FFFFFFF else 0x0FFCFFFF

/-- SLICE_SET at reset (R498). -/
def gradeSlices (straps : BitVec 3) : BitVec 18 := if straps == 5 then 0x0FFFF else 0x00FFF

/-- The clock block as a reset leaves it; the reference clocks are the board's (R517). -/
def clkReset (old : Clk) (straps : BitVec 3) (ok : Bool) : Clk :=
  { straps, pwrOk := ok, pwrReq := gradeDomains straps, pwrOn := gradeDomains straps, refclk := old.refclk, prefOff := old.prefOff }

/-- Everything at its reset value (R440) but the model's own queue, record and counter, the pins, and the given parts. -/
def resetWith (s : State) (clk : Clk) (mgmt : Vector Mgmt 2) (sec : Sec) (tap : Tap) : State :=
  { pending := s.pending, out := s.out, freeCtr := s.freeCtr, clk, mgmt, sec, tap
    fab := { sliceSet := gradeSlices clk.straps } }

/-- A MGMT port at its reset values, with its pin. -/
def mgmtReset (g : Mgmt) : Mgmt := { perst := g.perst }

/-- Power-on reset entered: PWR_OK is low (R438, R446). -/
def powerOnAssert (s : State) : State :=
  resetWith s (clkReset s.clk s.clk.straps false) (s.mgmt.map mgmtReset) {} {}

/-- Power-on reset released by PWR_OK, with the straps as they read (R446, R482). -/
def powerOnRelease (s : State) (grade : BitVec 3) : State :=
  resetWith s (clkReset s.clk grade true) (s.mgmt.map mgmtReset) {} {}

/-- RST_CAUSE and RST_CFG through a fundamental or warm reset (R439). -/
def clkAgain (s : State) (cause core : Nat) : Clk :=
  { clkReset s.clk s.clk.straps s.clk.pwrOk with
    rstCfg := s.clk.rstCfg, cause, causeCore := core, wasFatal := s.clk.fatalSeen, resets := min (s.clk.resets + 1) 0xFFFFFFFF }

/-- A fundamental reset of the switch (R438, R440). -/
def fundamentalReset (s : State) (cause core : Nat) : State :=
  resetWith s (clkAgain s cause core) (s.mgmt.map mgmtReset) {} s.tap

/-- Firn's dirty lines written back (R375, R440). -/
def flushCaches (s : State) : State :=
  s.frn.toList.foldl (fun t (x : Stack) => x.cache.foldl (fun u (kl : Nat × List Line) => kl.2.foldl (fun w l => storeLine w l 0x1D .none) u) t) s

/-- Whether a place in the stacks holds a region reserved at boot under the rows as they are mapped now. -/
def inReserved (s : State) (key : Nat) : Bool :=
  if key < firnSize then isReservedExt (key / 65536)
  else let i := (key - firnSize) / 2048; bitOf (remapEnt s i) 31 && isReservedExt (remapRow s i / 65536)

/-- The regions reserved at boot zeroed (R440). -/
def zeroReserved (s : State) : State :=
  { s with
    firn := s.firn.filter (fun (kv : Nat × Byte) => !inReserved s kv.1)
    firnPoison := s.firnPoison.filter (fun (kv : Nat × Bool) => !inReserved s (32 * kv.1))
    firnErr := s.firnErr.filter (fun (kv : Nat × MemFault) => !inReserved s (256 * kv.1)) }

/-- What the image and the identity leave in SEC through a warm reset (R440, R476, R478, R502). -/
def secWarm (x : Sec) : Sec :=
  { version := x.version, codeBase := x.codeBase, codeLimit := x.codeLimit, entry := x.entry, digest := x.digest
    signerHash := x.signerHash, keyKind := x.keyKind, remapBuf := x.remapBuf, pufDone := x.pufDone, idValid := x.idValid, enrolled := x.enrolled
    seed := x.seed, pk := x.pk, devId := x.devId, attRec := x.attRec, attSig := x.attSig }

/-- The control memory's code region alone (R440, R476). -/
def codeOnly (s : State) : Memory :=
  s.ctlMem.filter (fun (kv : Nat × Byte) => decide (s.sec.codeBase ≤ kv.1) && decide (kv.1 < s.sec.codeLimit))

/-- Frames that have started end with K30.7 (R398, R441). -/
def abortSending (s : State) : State :=
  s.ports.foldl (fun t (kp : Nat × Port) =>
    match kp.2.sending with | some w => abortFrame t kp.1 w.ent.frame | none => t) s

/-- A warm reset (R440, R441, R476). -/
def warmAlone (s : State) (cause core : Nat) : State :=
  let f := flushCaches s
  let t := resetWith (abortSending f) { clkAgain f cause core with pllLock := true, warm := true }
    (s.mgmt.map (fun g => { mgmtReset g with msix := g.msix, cfg := g.cfg })) (secWarm s.sec) s.tap
  zeroReserved { t with
    ctlMem := codeOnly s, firn := f.firn, firnPoison := f.firnPoison, firnErr := f.firnErr, firnThreaded := f.firnThreaded
    frn := s.frn.map (fun x => { trained := x.trained }) }

/-- PLL_UNLOCK stands, so that a warm reset acts as a fundamental one (R440). -/
def pllLost (s : State) : Bool := !s.clk.pllLock || bitOf (getErr s 47).status 1

/-- RST_CMD.WARM written (R439, R440). -/
def doWarm (s : State) (by_ : Party) : State :=
  let (cause, core) := match by_ with | .mgmt m => (3 + m.val, 0) | .core c => (5, c.val)
  if pllLost s then fundamentalReset s cause core else warmAlone s cause core

/-- A MGMT interface alone reset (R438): its configuration space with the BARs, and its MSI-X structures. -/
def resetMgmt (s : State) (m : Fin 2) : State := setMgmt s m { getMgmt s m with msix := {}, cfg := {} }

/-- The RST_CFG bit that gives a PERST pin the whole switch (R439). -/
def perstSw (s : State) (m : Fin 2) : Bool := bitOf s.clk.rstCfg (63 - m.val)

/-- PERST<m>_N asserted (R438). -/
def perstAssert (s : State) (m : Fin 2) : State :=
  if (getMgmt s m).perst then s else
  let t := setMgmt s m { getMgmt s m with perst := true }
  if !s.clk.pwrOk then t
  else if perstSw s m then fundamentalReset t (1 + m.val) 0 else resetMgmt t m

/-- POWER_ON_RESET (R438, R446). -/
def execPowerOnReset (e : PwrOk) (s : State) : Res :=
  match e with
  | .falls => .next (powerOnAssert s)
  | .rises g => act (!s.clk.pwrOk) s (powerOnRelease s g)

/-- PERST0_ASSERT. -/
def execPerst0Assert (s : State) : Res := .next (perstAssert s 0)

/-- PERST1_ASSERT. -/
def execPerst1Assert (s : State) : Res := .next (perstAssert s 1)

/-- PERST_RELEASE: the pin is deasserted; THAW follows where it held the switch. -/
def execPerstRelease (m : Fin 2) (s : State) : Res := .next (setMgmt s m { getMgmt s m with perst := false })

/-- The registers of PD_SEC have a clock: the root's, or REFCLK_CORE itself once the PLL has lost lock (R430, R451). -/
def secClocked (s : State) : Bool := s.clk.running && (s.clk.pllLock || s.clk.refclk)

/-- The DEV_TIME latch of a port discarded, as any other BAR access of the port does (R434). -/
def dropLatch (s : State) (by_ : Party) : State :=
  match by_ with
  | .mgmt m => setMgmt s m { getMgmt s m with latch := none }
  | .core _ => s

/-- A party that can write device registers now: a host whose port is out of reset, or a core that runs (R438, R451). -/
def partyActs (s : State) (by_ : Party) : Bool :=
  match by_ with
  | .mgmt m => secClocked s && !(getMgmt s m).perst
  | .core c => isRunning s && pdOn s 2 && (getCore s c).st == .running && (getCore s c).committing.isNone

/-- The place of a party's register write in a cycle (R256): MGMT0, MGMT1, then the control cores in order. -/
def placeParty (by_ : Party) : Nat :=
  placeWrite + (match by_ with | .mgmt m => m.val | .core c => 2 + c.val)

/-- The place of a party's register read (R10). -/
def placeReader (by_ : Party) : Nat :=
  placeRead + (match by_ with | .mgmt m => m.val | .core c => 2 + c.val)

/-- WARM_RESET. -/
def execWarmReset (by_ : Party) (s : State) : Res := act (partyActs s by_) s (doWarm (afterPlace placeWo s) by_)

/-- Whether a PERST pin holds the switch (R438). -/
def perstHolds (s : State) : Bool :=
  ((getMgmt s 0).perst && perstSw s 0) || ((getMgmt s 1).perst && perstSw s 1)

/-- THAW (R435): the dividers are released; the cycle count is 0, and the boot ROM is to run. Without
REFCLK_CORE the PLL does not lock, and there is no Thaw (R517). -/
def execThaw (s : State) : Res :=
  act (!s.clk.running && s.clk.pwrOk && s.clk.refclk && !perstHolds s) s
    { s with clk := { s.clk with running := true, pllLock := true, halted := false, cycles := 0 }
             sec := { s.sec with bootRom := true } }

/-! ## Power domains (R442-R444, R449) -/

/-- A word with one bit written. -/
def putBit (w : Word) (i : Nat) (on : Bool) : Word := setFld w i 1 (b2n on)

/-- Every logical port of a range is OFF. -/
def portsOff (s : State) (lo n : Nat) : Bool :=
  s.ports.all (fun (kp : Nat × Port) => !(decide (lo ≤ kp.1) && decide (kp.1 < lo + n)) || kp.2.st == .off)

/-- The condition to switch a domain off, under the domains `on` that earlier changes leave (R444). -/
def offAllowed (s : State) (on : Word) (b : Nat) : Bool :=
  let isOff := fun (i : Nat) => !bitOf on i
  if b == 2 then (List.range 27).all (fun i => isOff (3 + i))
  else if b < 7 then portsOff s 0 512 && s.tbl.desc.all (fun (kd : Nat × Desc) => !gdValid kd.2)
  else if b < 9 then (List.range 13).all (fun i => isOff (9 + i))
  else if b < 18 then [2 * (b - 9), 2 * (b - 9) + 1].all (fun k => !bitOf s.fab.sliceSet k && boundCount s k == 0)
  else if b < 22 then isOff (22 + 2 * (b - 18)) && isOff (23 + 2 * (b - 18))
  else portsOff s (64 * (b - 22)) 64

/-- The condition to switch a domain on (R444). -/
def onAllowed (on : Word) (b : Nat) : Bool :=
  if b == 2 then true
  else if b < 9 then bitOf on 2
  else if b < 22 then bitOf on 7 && bitOf on 8
  else bitOf on (18 + (b - 22) / 2)

/-- The error registers of blocks in a range of vectors at their reset values. -/
def clearErrs (s : State) (lo n : Nat) : State := (List.range n).foldl (fun t i => setErr t (lo + i) (errReset (lo + i))) s

/-- PD_CTL off: all that is not in PD_ROOT or PD_SEC is lost, DEV_TIME_OFS with it (R487), every other domain being off. -/
def ctlOff (s : State) : State :=
  { resetWith s { s.clk with ofs := 0 } s.mgmt { s.sec with codeBase := 0, codeLimit := 0, entry := 0 } s.tap with
    cyc := { s.cyc with freedCells := [], freedExts := [], wasOff := [], lost := [], switched := [], refused := [] }
    errs := s.errs.filter (fun (kv : Nat × ErrBlk) => decide (47 ≤ kv.1)) }

/-- The stack that a place in the stacks lies in. -/
def stackOfKey (key : Nat) : Nat := if key < firnSize then (firnDecode key).stack else (key - firnSize) / 2048 / 196608

/-- PD_FRN off: the stack's contents, cache, registers and remap entries are lost, and with them what lies across the
stacks: the regions reserved at boot, the pool and every copy (R40, R444). -/
def frnOff (s : State) (k : Fin 4) : State :=
  let t := clearErrs (setStack s k {}) (40 + k.val) 1
  { t with
    firn := t.firn.filter (fun (kv : Nat × Byte) => stackOfKey kv.1 != k.val)
    firnPoison := t.firnPoison.filter (fun (kv : Nat × Bool) => stackOfKey (32 * kv.1) != k.val)
    firnErr := t.firnErr.filter (fun (kv : Nat × MemFault) => stackOfKey (256 * kv.1) != k.val)
    tbl := { t.tbl with
      remap := t.tbl.remap.filter (fun (kv : Nat × BitVec 32) => kv.1 / 196608 != k.val)
      member := [], bucket := [], window := [], poison := t.tbl.poison.filter (fun (kv : Nat × Bool) =>
        !firnTables.contains (kv.1 / 2 ^ 32)) }
    remapFrom := t.remapFrom.filter (fun (kv : Nat × Option Nat) => kv.1 / 196608 != k.val)
    refreshes := t.refreshes.filter (fun (kv : Nat × Refresh) => kv.1 / 64 != k.val)
    bpm := { t.bpm with
      firnReady := false, extHead := none, extAlloc := [], retired := [], lostExts := 0, waiting := false }
    firnThreaded := t.firnThreaded &&& ~~~ (1#4 <<< k.val)
    cyc := { t.cyc with freedExts := [] }
    windows := [], msgCtr := [], firnHeld := [], copies := [], copyExts := []
    groups := tmap {} (fun _ (g : Group) => { g with quotaExts := [], arena := [] }) t.groups }

/-- Cells of a bank that no list, copy or pending free holds: those lost behind a cut. -/
def lostInBank (s : State) (k : Nat) : Nat :=
  let held := s.neve.map (fun (kc : Nat × Option NeveCopy) => match kc.2 with
    | some c => (c.cells.filter (fun x => x % 256 == k)).length
    | none => 0)
  2560 - bankLength s.bpm k - held.sum - (s.cyc.freedCells.filter (fun x => x % 256 == k)).length

/-- PD_NEV off: its cells, their list and link words are lost, and with them every copy that lies in one of them; the other
cells of such a copy are free. -/
def nevOff (s : State) (h : Nat) : State :=
  let inHalf := fun (c : Nat) => c % 256 / 128 == h
  let lost := fun (kc : Nat × Option NeveCopy) => match kc.2 with | some c => c.cells.any inHalf | none => false
  let t := clearErrs s (20 + h) 1
  let held := (t.neve.filter lost).foldl (fun (m : SMap Nat) (kc : Nat × Option NeveCopy) =>
    match kc.2 with | some c => tput 0 m c.quota (tget 0 m c.quota - c.cells.length) | none => m) t.neveHeld
  let rest_ := (t.neve.filter lost).flatMap (fun (kc : Nat × Option NeveCopy) =>
    match kc.2 with | some c => c.cells.filter (fun x => !inHalf x) | none => [])
  let left := ((List.range 128).map (fun i => lostInBank s (128 * (1 - h) + i))).sum
  { t with
    neve := t.neve.filter (fun kc => !lost kc), neveHeld := held
    cyc := { t.cyc with freedCells := t.cyc.freedCells.filter (fun x => !inHalf x) }
    bpm := rest_.foldl pushBank { t.bpm with
      freed := t.bpm.freed.filter (fun (kv : Nat × List Nat) => kv.1 / 128 != h)
      fresh := t.bpm.fresh.filter (fun (kv : Nat × Nat) => kv.1 / 128 != h)
      links := t.bpm.links.filter (fun (kv : Nat × Option Word) => !inHalf kv.1)
      lostCells := left } }

/-- PD_SER off: its two slices are lost. -/
def serOff (s : State) (k : Nat) : State :=
  clearErrs (setSlice (setSlice s (fin18 (2 * k)) {}) (fin18 (2 * k + 1)) {}) (22 + 2 * k) 2

/-- PD_SWQ off: the registers and queues of its ports are lost. -/
def swqOff (s : State) (q : Nat) : State :=
  let t := clearErrs s (16 + q) 1
  { t with
    ports := t.ports.filter (fun (kp : Nat × Port) => kp.1 / 128 != q)
    holds := t.holds.filter (fun h => match h.port with | some p => p / 128 != q | none => true) }

/-- What a Pier holds of a port at reset (R410, R411, R501). -/
def pierPart (x : Port) : Port :=
  let z : Port := {}
  { x with
    lnkCtl := z.lnkCtl, lt := z.lt, ltSince := 0, retryAt := none, fast := none, gen := 0, width := 0, propW := 0, gensOff := 0
    lastFail := 0, trainFails := 0, peerEp := 0, peerPort := 0, peerGens := 0, ts2At := none, genMax := 3, hdrErr := 0
    hopCrc := 0, stomped := 0, frameErr := 0, hopLimit := 0, aborted := 0 }

/-- PD_PIER off: its lanes, splits, device time and the Pier's part of its ports are lost. -/
def pierOff (s : State) (v : Fin 8) : State :=
  let t := clearErrs s v.val 1
  let u := { t with
    lanes := t.lanes.filter (fun (kv : Nat × Lane) => kv.1 / 64 != v.val)
    split := t.split.filter (fun (kv : Nat × BitVec 2) => kv.1 / 16 != v.val)
    piers := tput {} t.piers v.val {} }
  let ps := (u.ports.map (fun (kp : Nat × Port) => kp.1)).filter (fun p => p / 64 == v.val)
  setVdct (ps.foldl (fun w p => setPort w p (pierPart (getPort w p))) u) v { lastOk := (s.vdct[v]).lastOk }

/-- What a domain loses as it is switched off (R444). -/
def domainOff (s : State) (b : Nat) : State :=
  if b == 2 then ctlOff s
  else if b < 7 then frnOff s (fin4 (b - 3))
  else if b < 9 then nevOff s (b - 7)
  else if b < 18 then serOff s (b - 9)
  else if b < 22 then swqOff s (b - 18)
  else pierOff s (fin8 (b - 22))

/-- The outcome of a PWR_CTL write so far: the state, the domains as the changes leave them, the first refusal. -/
structure PwrWrite where
  s : State
  on : Word
  refused : Option (Nat × Nat)

/-- The first refusal kept. -/
def refuse (x : PwrWrite) (code b : Nat) : PwrWrite :=
  { x with refused := match x.refused with | some r => some r | none => some (code, b) }

/-- One switch-off tried (R443, R444). -/
def tryOff (v : Word) (x : PwrWrite) (b : Nat) : PwrWrite :=
  if !bitOf x.on b || bitOf v b then x
  else if !offAllowed x.s x.on b then refuse x 1 b
  else
    let t := domainOff x.s b
    { x with
      on := putBit x.on b false
      s := { t with clk := { t.clk with
        pwrOn := putBit t.clk.pwrOn b false, pwrSwitching := t.clk.pwrSwitching ++ [(b, false, now t)] } } }

/-- One switch-on tried: domains that the grade holds off are ignored and reported (R443). -/
def tryOn (v : Word) (x : PwrWrite) (b : Nat) : PwrWrite :=
  if bitOf x.on b || !bitOf v b then x
  else if !gradeS x.s && (b == 16 || b == 17 || b == 28 || b == 29) then refuse x 3 b
  else if !onAllowed x.on b then refuse x 2 b
  else { x with
    on := putBit x.on b true
    s := { x.s with clk := { x.s.clk with pwrSwitching := x.s.clk.pwrSwitching ++ [(b, true, now x.s)] } } }

/-- A write of PWR_CTL (R443): switch-offs in descending, then switch-ons in ascending bit order. -/
def writePwrCtl (s : State) (by_ : Party) (v0 : Word) : State :=
  if !s.clk.pwrSwitching.isEmpty then s else
  let v := match by_ with | .core _ => putBit v0 2 (bitOf s.clk.pwrOn 2) | .mgmt _ => v0
  let bits := (List.range 28).map (· + 2)
  let x0 : PwrWrite := { s, on := s.clk.pwrOn, refused := none }
  let x := bits.foldl (tryOn v) (bits.reverse.foldl (tryOff v) x0)
  let (code, dom) := x.refused.getD (0, 0)
  { x.s with clk := { x.s.clk with pwrReq := x.on, pwrResult := code, pwrDomain := dom } }

/-- PWR_CTL_WRITE. -/
def execPwrCtlWrite (by_ : Party) (v : Word) (s : State) : Res :=
  act (partyActs s by_) s (writePwrCtl (dropLatch (atPlace (placeParty by_) s) by_) by_ v)

/-- The REMAP pairs of the image loaded into the row remap table (R384, R473). -/
def loadRemap (s : State) : State :=
  let stg := s.sec.remapBuf.map (fun (x : Nat × BitVec 32) =>
    ({ tbl := 0x0E, idx := x.1, word := 0, val := x.2.setWidth 64 } : Staged))
  let t := storeAll s stg [0x0E]
  zeroReserved ((((touched stg 0x0E).map (· / 16)).dedup).foldl (fun u b => settleBank u s stg b) t)

/-- A domain has been switched on (R444): the control complex boots, Firn is prepared once its four stacks are on, Neve is
threaded again, and a Pier's ports that are enabled train. -/
def domainReady (s : State) (b : Nat) : State :=
  if b == 2 then
    { s with sec := { s.sec with
        bootRom := true, waiting := false, done := false, source := 0, result := 0, version := 0, remapBuf := [], tries := [] }
             clk := { s.clk with warm := false } }
  else if b < 7 then if firnOn s && s.sec.done then loadRemap s else s
  else if b < 9 then { s with bpm := { s.bpm with neveReady := false } }
  else if b < 22 then s
  else ((s.ports.map (fun (kp : Nat × Port) => kp.1)).filter (fun p => p / 64 == b - 22 && bitOf (getPort s p).ctl 63)).foldl
    startTraining s

/-- POWER_DOMAIN_READY (R444). -/
def execPowerDomainReady (bit : Fin 30) (s : State) : Res :=
  match takeFirst (fun (x : Nat × Bool × Nat) => x.1 == bit.val) s.clk.pwrSwitching with
  | none => .next s
  | some ((_, on, _), rest) =>
    let t := { s with clk := { s.clk with
      pwrSwitching := rest, pwrOn := if on then putBit s.clk.pwrOn bit.val true else s.clk.pwrOn } }
    act (s.clk.running && s.clk.pllLock) s (if on then domainReady t bit.val else t)

/-- The cycles a domain's switching may take (R444). -/
def switchTimeOf (b : Nat) (on : Bool) : Nat :=
  if !on then 13500
  else if b == 2 then 54000
  else if b < 7 then 121500
  else if b < 9 then 54000
  else if b < 18 then 13500
  else if b < 22 then 27000 else 54000

/-- A CLK event (R452): the fields given, and those that the event does not use free. -/
def clkEvt (s : State) (bit : Nat) (fs : List (Nat × Nat × Nat)) : State :=
  let (f, t) := freshWord s
  recordEvt t 47 bit (fs.foldl (fun (w : Word) (x : Nat × Nat × Nat) => setFld w x.1 x.2.1 x.2.2) (f &&& 0xFFFFFE0000000000#64))

/-- PD_FAULT (R449, R451): a domain has not finished within four times its time. -/
def execPdFault (bit : Fin 30) (s : State) : Res :=
  let late := s.clk.pwrSwitching.any (fun x => x.1 == bit.val && decide (x.2.2 + 4 * switchTimeOf x.1 x.2.1 ≤ now s))
  let r := atPlace placeEvent s
  let t := { r with clk := { r.clk with pwrResult := 4, pwrDomain := bit.val } }
  act (s.clk.running && late) s (haltSwitch (clkEvt t 4 [(41, 5, bit.val)]))

/-! ## Clock, supplies, temperature -/

/-- The root PLL loses lock: PLL_UNLOCK, and the switch halts with its derived clocks stopped (R431, R451). -/
def unlock (s : State) : State :=
  let t := haltSwitch (clkEvt (atPlace placeEvent s) 1 [])
  { t with clk := { t.clk with pllLock := false } }

/-- PLL_UNLOCK (R431, R451). -/
def execPllUnlock (s : State) : Res := act (s.clk.running && s.clk.pllLock) s (unlock s)

/-- The code of a rail (R452). -/
def railCode (r : Rail) : Nat :=
  match r with
  | .vddCore => 0 | .vddSram => 1 | .vddSd => 2 | .vddDram => 3 | .vpp => 4 | .vddh => 5 | .vddIo => 6

/-- REFCLK_CORE stops or runs again: where it fails while the switch runs, the PLL loses lock (R517). -/
def setRefclk (s : State) (on : Bool) : State :=
  let t := { s with clk := { s.clk with refclk := on } }
  if !on && s.clk.running && s.clk.pllLock then unlock t else t

/-- PREF<pier>_<r> stops or runs again: as it stops, the ports of its 16 lanes that are linked meet link loss, which is reported as a
lane without signal (R408, R517; DEDUCED, log 124). -/
def setPref (s : State) (i : Nat) (on : Bool) : State :=
  let r := atPlace placeLoss s
  let t := { r with clk := { r.clk with prefOff := tput false r.clk.prefOff i (!on) } }
  let ps := ((List.range 16).map (fun j => portOfLane t (16 * i + j))).dedup
  if on || !isRunning t then t
  else (ps.filter (fun p => portExists t p && (getPort t p).lt == .linked)).foldl (fun u p => linkLost u p 1) t

/-- SUPPLY (R447, R451, R517). -/
def execSupply (pin : SupplyPin) (low : Bool) (s : State) : Res :=
  match pin with
  | .rail r => act s.clk.running s (haltSwitch (clkEvt (atPlace placeEvent s) 3 [(47, 3, railCode r), (46, 1, b2n low)]))
  | .refclkCore => .next (setRefclk s (!low))
  | .pref v r => .next (setPref s (4 * v.val + r.val) (!low))

/-- A write of DIE_THERM: ignored unless the thresholds rise strictly (R450). -/
def writeDieTherm (s : State) (v : Word) : State :=
  if fld v 56 8 < fld v 48 8 then
    { s with clk := { s.clk with thermNext := writeMasked 0xFFFFFF8000000000 s.clk.thermNext v } }
  else s

/-- DIE_THERM_WRITE. -/
def execDieThermWrite (v : Word) (s : State) : Res := act (secClocked s) s (writeDieTherm (atPlace placeWrite s) v)

/-- DIE_THERMAL_READING (R449): the sensors, the level, the event of a level that rises, and the halt at CRIT. -/
def execDieThermalReading (t : Vector Byte 32) (s : State) : Res :=
  let th := s.clk.thermNext
  let mx := maxOf t.toList
  let at_ := ((t.toList.map (·.toNat)).idxOf? mx).getD 0
  let lv := nextLevel [fld th 56 8, fld th 48 8] (fld th 44 4) s.clk.dieLevel mx
  let r := atPlace placeWork s
  let u := { r with clk := { r.clk with therm := th, dieMax := BitVec.ofNat 8 mx, dieSensor := at_, dieLevel := lv } }
  let note := fun (bit : Nat) => clkEvt u bit [(58, 6, at_), (50, 8, mx)]
  let w := if lv > s.clk.dieLevel then (if lv == 2 then haltSwitch (note 2) else note 0) else u
  act (s.clk.running && s.clk.pllLock) s w

/-- ALIVE_OUT_TOGGLE (R428, R429): the inversion is the last thing of its cycle, and a class F event of the cycle stops it. -/
def execAliveOutToggle (s : State) : Res :=
  let t := atPlace placeAlive s
  act (s.clk.running && s.clk.pllLock && !s.clk.fatalSeen && decide (s.clk.aliveNext ≤ now t)) s
    { t with clk := { t.clk with alive := !t.clk.alive, aliveNext := t.clk.aliveNext + 524288 } }

end Sys2Proof.Machine
end

