-- ==== Sys2Proof/Machine/Boot.lean ====
section
/-! DEFINITION. Boot, image checks, boot flash, identity and attestation (R467-R483, R486), SMBus (R484) and the test access
port (R485). -/

namespace Sys2Proof.Machine

/-! ## Words that several readers share -/

/-- A valid grade code (R482). -/
def gradeOk (s : State) : Bool := s.clk.straps == 5 || s.clk.straps == 3

/-- The ID register (R483): stepping 1.0, ROM version 1. -/
def idWord (s : State) : Word :=
  packFields [(48, 16, 0x5120), (45, 3, s.clk.straps.toNat), (44, 1, b2n (gradeOk s)), (40, 4, 1), (36, 4, 0), (0, 32, 1)]

/-- The Revision ID of the stepping (R454, R483). -/
def revisionId : Nat := 0x10

/-- RST_CAUSE (R439). -/
def rstCauseWord (s : State) : Word :=
  packFields [(61, 3, s.clk.cause), (58, 3, s.clk.causeCore), (57, 1, b2n s.clk.wasFatal), (0, 32, s.clk.resets)]

/-- A SEC event (R486). -/
def secEvt (s : State) (bit code source : Nat) : State := recordEvt s 48 bit (packFields [(56, 8, code), (53, 3, source)])

/-- An attestation ended with a result: DONE and vector 51. -/
def attEnd (s : State) (result : Nat) : State :=
  msixBoth { s with sec := { s.sec with attBusy := none, attDone := true, attResult := result } } 51

/-- An INTERNAL event: it stops the signature engine and the PUF until the next reset (R416, R486). No image in hand is verified any
more, and a running attestation ends with ENGINE (DESIGN CHOICE, log 85). -/
def internalEvt (s : State) (code : Nat) : State :=
  let t := secEvt { s with sec := { s.sec with internal := true, tries := [], mbxGo := false } } 3 code 0
  if t.sec.attBusy.isSome then attEnd t 2 else t

/-! ## The image (R469-R472) -/

/-- `n` bytes from offset `o` of an image, as a number. -/
def imgNat (img : List Byte) (o n : Nat) : Nat := leNat ((img.drop o).take n)

/-- The right MAGIC, FORMAT and KEY_KIND (R469). -/
def magicOk (img : List Byte) : Bool :=
  decide (0x40 ≤ img.length) && imgNat img 0 4 == 0x3135585A && imgNat img 4 2 == 1 && decide (imgNat img 6 1 ≤ 1)

/-- The stepping lies in the header's range. -/
def stepOk (img : List Byte) : Bool := decide (imgNat img 0x10 1 ≤ revisionId) && decide (revisionId ≤ imgNat img 0x11 1)

/-- A section of an image. -/
structure Section where
  typ : Nat
  rsv : Nat
  off : Nat
  len : Nat
  dest : Nat
  deriving DecidableEq, Repr

/-- The section table. -/
def sectionsOf (img : List Byte) : List Section :=
  (List.range (imgNat img 0x12 2)).map (fun i =>
    let o := 0x80 + 16 * i
    { typ := imgNat img o 2, rsv := imgNat img (o + 2) 2, off := imgNat img (o + 4) 4, len := imgNat img (o + 8) 4
      dest := imgNat img (o + 12) 4 })

/-- TOTAL_LEN, CODE_BASE, CODE_LIMIT, ENTRY and the start of SIGNATURE. -/
def totalLen (img : List Byte) : Nat := imgNat img 0x14 4
def codeBaseOf (img : List Byte) : Nat := imgNat img 0x18 4
def codeLimitOf (img : List Byte) : Nat := imgNat img 0x1C 4
def entryOf (img : List Byte) : Nat := imgNat img 0x20 4
def sigStart (img : List Byte) : Nat := totalLen img - 29792

/-- Two ranges have no byte in common. -/
def apart (a la b lb : Nat) : Bool := la == 0 || lb == 0 || decide (a + la ≤ b) || decide (b + lb ≤ a)

/-- Each pair of a list passes a test. -/
def pairwise {α : Type} (p : α → α → Bool) : List α → Bool
  | [] => true
  | x :: rest => rest.all (p x) && pairwise p rest

/-- The bytes of a section. -/
def sectionBytes (img : List Byte) (x : Section) : List Byte := (img.drop x.off).take x.len

/-- The pairs of a REMAP section. -/
def remapPairs (img : List Byte) (x : Section) : List (Nat × BitVec 32) :=
  (List.range (x.len / 8)).map (fun i => (imgNat img (x.off + 8 * i) 4, BitVec.ofNat 32 (imgNat img (x.off + 8 * i + 4) 4)))

/-- A section's destination and content (R470). -/
def sectionOk (img : List Byte) (x : Section) : Bool :=
  let b := codeBaseOf img
  let l := codeLimitOf img
  x.rsv == 0 &&
  (match x.typ with
   | 1 => decide (b ≤ x.dest) && decide (x.dest + x.len ≤ l)
   | 2 => decide (x.dest + x.len ≤ 0x1000000) && apart x.dest x.len b (l - b)
   | 3 => x.dest % 8 == 0 && decide (x.dest + x.len ≤ 0x400000)
   | 4 => x.dest == 0 && x.len % 8 == 0 && decide (x.len ≤ 32768) &&
     (remapPairs img x).all (fun (p : Nat × BitVec 32) => decide (p.1 < 786432) && !bitOf p.2 30)
   | 5 => x.dest == 0
   | _ => false)

/-- R469 and R470 hold of an image of which `avail` bytes can be read; a mailbox image stays below the staging area
(R474). -/
def layoutOk (img : List Byte) (avail : Nat) (mailbox : Bool) : Bool :=
  let ss := sectionsOf img
  let n := ss.length
  let inCtl := fun (x : Section) => x.typ == 1 || x.typ == 2
  let one := fun (t : Nat) => (ss.filter (fun x => x.typ == t)).length
  decide (totalLen img ≤ avail) && decide (0x80 + 16 * n + 29792 ≤ totalLen img) && decide (1 ≤ n) && decide (n ≤ 64) &&
  imgNat img 7 1 == 0 && imgNat img 0x24 28 == 0 &&
  codeBaseOf img % 4096 == 0 && codeLimitOf img % 4096 == 0 && decide (codeBaseOf img < codeLimitOf img) &&
  decide (codeLimitOf img ≤ 0x1000000) &&
  decide (codeBaseOf img ≤ entryOf img) && decide (entryOf img < codeLimitOf img) && entryOf img % 8 == 0 &&
  ss.all (fun x => x.off % 8 == 0 && decide (0x80 + 16 * n ≤ x.off) && decide (x.off + x.len ≤ sigStart img)) &&
  ss.all (sectionOk img) &&
  pairwise (fun x y => apart x.off x.len y.off y.len) ss &&
  pairwise (fun x y => !((inCtl x && inCtl y) || (x.typ == 3 && y.typ == 3)) || apart x.dest x.len y.dest y.len) ss &&
  decide (one 4 ≤ 1) && one 5 == imgNat img 6 1 &&
  (!mailbox || ss.all (fun x => !inCtl x || decide (x.dest + x.len ≤ 0x800000)))

/-- The signer's public key (R469). -/
def signerPk (img : List Byte) : List Byte := (img.drop 0x40).take 64

/-- The digest of an image (R471). -/
def digestOf (img : List Byte) : List Byte := shake256 (img.take (sigStart img)) 64

/-- The owner certificate of an image is valid and names its signer (R471, R472). -/
def certOk (s : State) (img : List Byte) : Bool :=
  match (sectionsOf img).find? (fun x => x.typ == 5) with
  | none => false
  | some x =>
    let c := sectionBytes img x
    let body := c.take 192
    let vpk := (body.drop 64).take 64
    c.length == 29984 && shake256 vpk 32 == Config.vendorHash &&
    slhVerify vpk (shake256 body 64) (c.drop 192) &&
    (imgNat c 128 1 != 1 || (s.sec.idValid && (body.drop 160).take 32 == s.sec.devId)) &&
    body.take 64 == signerPk img

/-- The result of an image's checks (R469-R475): 0, or the code of the first that fails. -/
def imageResult (s : State) (img : List Byte) (avail : Nat) (mailbox : Bool) : Nat :=
  if mailbox && 8388608 < avail then 7
  else if !magicOk img then 2
  else if !stepOk img then 3
  else if !layoutOk img avail mailbox then 7
  else if imgNat img 6 1 == 0 && shake256 (signerPk img) 32 != Config.vendorHash then 4
  else if imgNat img 6 1 == 1 && !certOk s img then 5
  else if !slhVerify (signerPk img) (digestOf img) ((img.drop (sigStart img)).take 29792) then 6
  else 0

/-- The sections of an image placed (R473 step 3). -/
def placeSections (s : State) (img : List Byte) : State :=
  (sectionsOf img).foldl (fun t x =>
    match x.typ with
    | 1 => { t with ctlMem := memPutBytes t.ctlMem x.dest (sectionBytes img x) }
    | 2 => { t with ctlMem := memPutBytes t.ctlMem x.dest (sectionBytes img x) }
    | 3 => { t with progStore := memPutBytes t.progStore x.dest (sectionBytes img x) }
    | 4 => { t with sec := { t.sec with remapBuf := remapPairs img x } }
    | _ => t) s

/-! ## The boot ROM (R473-R476) -/

/-- Core 0 started at a control-memory offset (R473, R321). -/
def startCore0 (s : State) (entry : Nat) : State :=
  setCore s 0 { getCore s 0 with st := .running, pc := BitVec.ofNat 64 (0x01000000 + entry), cause := 0 }

/-- A boot ends with a running image (R473 step 6, R476). -/
def bootDone (s : State) : State :=
  let t := loadRemap s
  startCore0 (msixBoth { t with sec := { t.sec with done := true, waiting := false, tries := [], mbxGo := false } } 50) t.sec.entry

/-- The seeds of the identity key (R478): the text is "ZX5120 identity". -/
def keySeeds (seed : List Byte) : List Byte :=
  shake256 (seed ++ [0x5A, 0x58, 0x35, 0x31, 0x32, 0x30, 0x20, 0x69, 0x64, 0x65, 0x6E, 0x74, 0x69, 0x74, 0x79]) 96

/-- The identity that helper data give (R477, R478). -/
def deriveId (s : State) (helper : List Byte) (enrolled : Bool) : State :=
  let seed := Config.pufSeed helper
  let pk := slhPublicKey (keySeeds seed)
  { s with sec := { s.sec with pufDone := true, idValid := true, enrolled, seed, pk, devId := shake256 pk 32 } }

/-- The helper data of a PUF record whose check passes: 1,024 bytes, followed by the first 32 of the SHAKE256 output over them (R477). -/
def recordOk (rec : List Byte) : Bool := rec.length == 1056 && shake256 (rec.take 1024) 32 == rec.drop 1024

/-- The PUF step of a power-on or fundamental reset (R477, R486): the record's seed, or a new record written; one that could not be
written is a FLASH event. -/
def pufStep (s : State) (flash : FlashAnswer) (puf : PufAnswer) : State :=
  if s.sec.pufDone then s else
  let none_ := { s with sec := { s.sec with pufDone := true } }
  match flash, puf with
  | _, .fault => internalEvt none_ 2
  | _, .romFault => s
  | .silent, _ => none_
  | _, .read rec measured written =>
    let h := measured.take 1024
    if recordOk rec then deriveId s (rec.take 1024) false
    else if written then emit (deriveId s h true) (.pufRecord (h ++ shake256 h 32))
    else secEvt none_ 0 3 0

/-- The candidates of the flash in the order they are tried (R473 step 2): true is slot A. -/
def candidates (a b : List Byte) : List (Bool × Nat) :=
  let ok := fun (h : List Byte) => magicOk h && stepOk h
  let va := imgNat a 8 8
  let vb := imgNat b 8 8
  if ok a && ok b then (if va < vb then [(false, vb), (true, va)] else [(true, va), (false, vb)])
  else if ok a then [(true, va)] else if ok b then [(false, vb)] else []

/-- The ROM waits for an image through the boot mailbox with a result (R473 step 5). -/
def bootWait (s : State) (result : Nat) : State := { s with sec := { s.sec with waiting := true, result } }

/-- The ROM's search for images (R473 steps 1, 2 and 5). -/
def bootSearch (s : State) (flash : FlashAnswer) : State :=
  if !gradeOk s then secEvt { s with sec := { s.sec with result := 8 } } 2 8 0
  else match flash with
    | .silent => secEvt (bootWait s 1) 0 1 0
    | .slots a b =>
      match candidates a b with
      | [] =>
        let code := if (magicOk a && !stepOk a) || (magicOk b && !stepOk b) then 3 else 2
        secEvt (bootWait s code) 2 code 0
      | cs => { s with sec := { s.sec with tries := cs } }

/-- BOOT_ROM_START (R473, R476, R477). An uncorrectable error in the ROM is an INTERNAL event (R486), and the boot ends there, as it
does where the signature engine has stopped (DESIGN CHOICE, log 85). -/
def execBootRomStart (flash : FlashAnswer) (puf : PufAnswer) (s : State) : Res :=
  let r := atPlace placeWork s
  let t := { r with sec := { r.sec with bootRom := false } }
  act (isRunning s && s.sec.bootRom && pdOn s 2 && decide (256 ≤ now s)) s
    (if puf == .romFault then internalEvt t 1
     else if s.clk.warm && s.sec.codeLimit != 0 then bootDone { t with sec := { t.sec with source := 4 } }
     else let u := pufStep t flash puf; if u.sec.internal then u else bootSearch u flash)

/-- An image fails (R473 step 4): what it placed is zeroed. -/
def bootFail (s : State) (code source : Nat) : State :=
  secEvt { s with ctlMem := [], progStore := [], sec := { s.sec with remapBuf := [], result := code } } 2 code source

/-- A verified image (R473 step 6, R475). -/
def bootGood (s : State) (img : List Byte) (source : Nat) : State :=
  let t := placeSections s img
  let u := if source == 3 then { t with ctlMem := t.ctlMem.filter (fun (kv : Nat × Byte) => decide (kv.1 < 0x800000)) } else t
  bootDone { u with sec := { u.sec with
    codeBase := codeBaseOf img, codeLimit := codeLimitOf img, entry := entryOf img, version := BitVec.ofNat 64 (imgNat img 8 8)
    keyKind := BitVec.ofNat 8 (imgNat img 6 1), digest := digestOf img, signerHash := shake256 (signerPk img) 32
    source, result := 0 } }

/-- A candidate of the flash read and checked. -/
def trySlot (s : State) (img : List Byte) (source : Nat) (rest : List (Bool × Nat)) : State :=
  match imageResult s img img.length false with
  | 0 => bootGood s img source
  | code =>
    let t := bootFail s code source
    { t with sec := { t.sec with tries := rest, waiting := rest.isEmpty } }

/-- The image submitted in the staging area. -/
def stagedImage (s : State) : List Byte := memBytes s.ctlMem 0x800000 (min 8388608 s.sec.mbxLen)

/-- An uncorrectable error in the signature engine (R486). -/
def engineFault (s : State) : State := internalEvt s 3

/-- BOOT_IMAGE_CHECKED (R473, R474, R486). -/
def execBootImageChecked (src : ImgSource) (s₀ : State) : Res :=
  let s := atPlace placeWork s₀
  if src == .engineFault then act (secClocked s₀) s₀ (engineFault s) else
  if !(isRunning s₀ && pdOn s₀ 2 && !s₀.sec.done && !s₀.sec.internal) then .next s₀ else
  match src, s.sec.tries with
  | .slotA img, (true, _) :: rest => .next (trySlot s img 1 rest)
  | .slotB img, (false, _) :: rest => .next (trySlot s img 2 rest)
  | .mailbox, _ =>
    if !s.sec.mbxGo then .next s₀ else
    let t := { s with sec := { s.sec with mbxGo := false } }
    let img := stagedImage s
    match imageResult t img s.sec.mbxLen true with
    | 0 => .next (bootGood t img 3)
    | code =>
      let u := bootFail t code 3
      .next { u with sec := { u.sec with waiting := true } }
  | _, _ => .next s₀

/-- A write of BOOT_MBX (R474): GO submits the LEN of its own write. -/
def writeBootMbx (s : State) (v : Word) : State :=
  let t := { s with sec := { s.sec with mbx := v &&& 0xFFFFFF } }
  if bitOf v 63 && s.sec.waiting then { t with sec := { t.sec with waiting := false, mbxGo := true, mbxLen := fld v 0 24 } } else t

/-- BOOT_MBX_GO. -/
def execBootMbxGo (v : Word) (s : State) : Res := act (secClocked s) s (writeBootMbx (atPlace placeWrite s) (v ||| 0x8000000000000000#64))

/-! ## Boot flash commands (R468) -/

/-- Data bytes of a flash command. -/
def flashLen (w : Word) : Nat := min 256 (fld w 39 9)

/-- FLASH_DATA as bytes. -/
def flashBytes (s : State) : List Byte := s.sec.flashData.toList.flatMap wordLE

/-- A flash command ended: DONE and vector 52 (R460, R468). -/
def flashEnd (s : State) : State := msixBoth { s with sec := { s.sec with flashRun := none, flashDone := true } } 52

/-- A write of FLASH_CMD: a GO while a command runs, or before DONE of BOOT_STAT, is ignored. -/
def writeFlashCmd (s : State) (v : Word) : State :=
  let w := v &&& 0x7FFFFF80FFFFFFFF#64
  let t := { s with sec := { s.sec with flashCmd := w } }
  if !bitOf v 63 || s.sec.flashRun.isSome || !s.sec.done then t
  else if fld v 60 2 == 3 then flashEnd (secEvt { t with sec := { t.sec with flashDone := false } } 0 2 0)
  else emit { t with sec := { t.sec with flashDone := false, flashRun := some w } }
    (.spi w (if bitOf v 62 then (flashBytes s).take (flashLen v) else []))

/-- FLASH_READ: GO with WRITE 0. -/
def execFlashRead (v : Word) (s : State) : Res :=
  act (secClocked s) s (writeFlashCmd (atPlace placeWrite s) ((v &&& 0x3FFFFFFFFFFFFFFF#64) ||| 0x8000000000000000#64))

/-- FLASH_WRITE: GO with WRITE 1. -/
def execFlashWrite (v : Word) (s : State) : Res := act (secClocked s) s (writeFlashCmd (atPlace placeWrite s) (v ||| 0xC000000000000000#64))

/-- The first bytes of FLASH_DATA replaced. -/
def putFlash (s : State) (bs : List Byte) : State :=
  let all := bs ++ (flashBytes s).drop bs.length
  { s with sec := { s.sec with flashData := Vector.ofFn (fun (j : Fin 32) => BitVec.ofNat 64 (leNat ((all.drop (8 * j.val)).take 8))) } }

/-- FLASH_CMD_DONE: what a read gave stands in FLASH_DATA. -/
def execFlashCmdDone (data : List Byte) (s : State) : Res :=
  match s.sec.flashRun with
  | none => .next s
  | some w =>
    let t := atPlace placeWork s
    act (secClocked s) s (flashEnd (if bitOf w 62 then t else putFlash t (data.take (flashLen w))))

/-! ## Attestation (R480, R481) -/

/-- Bytes made up to a length with zeros. -/
def padTo (n : Nat) (bs : List Byte) : List Byte := (bs ++ List.replicate n 0).take n

/-- The 256 bytes of the record of R480; what no image has given yet is zero. -/
def attRecord (s : State) : List Byte :=
  let x := s.sec
  leBytes 4 1 ++ leBytes 4 0 ++ x.nonce.toList.flatMap wordLE ++ padTo 32 x.devId ++ padTo 64 x.digest ++ padTo 32 x.signerHash ++ wordLE x.version ++
  [x.keyKind, s.clk.straps.setWidth 8, BitVec.ofNat 8 revisionId, BitVec.ofNat 8 x.source] ++ leBytes 4 1 ++
  wordLE (rstCauseWord s) ++ wordLE (devTime s) ++ List.replicate 56 0

/-- GO of ATT_CTL: the nonce is latched; a GO while one runs is ignored; without an identity or an engine it is refused. -/
def attStart (s : State) : State :=
  if s.sec.attBusy.isSome then s else
  let t := { s with sec := { s.sec with attDone := false } }
  if s.sec.internal then attEnd t 2
  else if !s.sec.idValid then attEnd t 1
  else { t with sec := { t.sec with attBusy := some (attRecord s) } }

/-- ATT_GO. -/
def execAttGo (s : State) : Res := act (secClocked s) s (attStart (atPlace placeWrite s))

/-- 32 free bytes: the value that the standard lets a signer choose (R480; log 123). -/
def freshSigner (s : State) : List Byte × State :=
  ((List.range 4).flatMap (fun i => wordLE (Config.freeWord (s.freeCtr + i))), { s with freeCtr := s.freeCtr + 4 })

/-- ATT_DONE: the record and its signature become readable (R502). -/
def execAttDone (s : State) : Res :=
  match s.sec.attBusy with
  | none => .next s
  | some r =>
    let (rnd, t) := freshSigner (atPlace placeWork s)
    act (secClocked s && !s.sec.internal) s
      (attEnd { t with sec := { t.sec with attRec := r, attSig := slhSign (keySeeds t.sec.seed) rnd r } } 0)

/-! ## SMBus (R484) -/

/-- What the target answers a Block Read with, whenever PD_SEC has power: while a reset holds the switch too. -/
def smbusAnswer (s : State) (bs : List Byte) : Res := act s.clk.pwrOk s (emit (atPlace placeRead s) (.smbus bs))

/-- SMBUS_STATUS_READ. -/
def execSmbusStatusRead (s : State) : Res :=
  smbusAnswer s [BitVec.ofNat 8 (b2n s.clk.halted + 2 * b2n s.clk.fatalSeen + 4 * s.clk.dieLevel), BitVec.ofNat 8 s.sec.result]

/-- SMBUS_TEMP_READ. -/
def execSmbusTempRead (s : State) : Res :=
  smbusAnswer s (s.clk.dieMax :: s.frn.toList.map (fun (x : Stack) => BitVec.ofNat 8 (maxOf x.temps.toList)))

/-- SMBUS_POWER_READ. -/
def execSmbusPowerRead (s : State) : Res := smbusAnswer s (leBytes 4 (fld s.clk.pwrOn 0 30))

/-- SMBUS_RESET_CAUSE_READ. -/
def execSmbusResetCauseRead (s : State) : Res := smbusAnswer s (wordLE (rstCauseWord s))

/-- SMBUS_ID_READ. -/
def execSmbusIdRead (s : State) : Res := smbusAnswer s (wordLE (idWord s))

/-- SMBUS_DEVICE_ID_READ: zero without an identity. -/
def execSmbusDeviceIdRead (s : State) : Res :=
  smbusAnswer s (if s.sec.idValid then s.sec.devId else List.replicate 32 0)

/-- The PEC of the bytes of an SMBus message: the CRC-8 of polynomial x^8 + x^2 + x + 1 (PRESUMED from SMBus 3.1, log 125). -/
def smbusPec (bs : List Byte) : Byte :=
  BitVec.ofNat 8 (bs.foldl (fun c b => (List.range 8).foldl (fun x _ => if x ≥ 128 then (2 * x ^^^ 0x07) % 256 else 2 * x) (c ^^^ b.toNat)) 0)

/-- SMBUS_BAD_COMMAND: a PEC that is not that of the target's address and the command byte, or a command that R484 does not define. -/
def execSmbusBadCommand (x : SmbusIn) (s : State) : Res :=
  let badPec := match x.pec with | some p => p != smbusPec [0x74, x.cmd] | none => false
  let defined := decide (1 ≤ x.cmd.toNat) && decide (x.cmd.toNat ≤ 6)
  act (s.clk.pwrOk && (badPec || !defined)) s (emit (secEvt (atPlace placeWork s) 1 (if badPec then 1 else 2) 0) .smbusNack)

/-! ## The test access port (R485) -/

/-- An instruction selected; the test instructions take the lane pins from their ports, and drive them but for HIGHZ. -/
def tapSelect (s : State) (code : BitVec 5) : State :=
  let taken := decide (3 ≤ code.toNat) && decide (code.toNat ≤ 7)
  { s with tap := { s.tap with ir := code, taken, driven := taken && code != 6 } }

/-- IDCODE at stepping 1.0. -/
def idcodeWord : Nat := 0x151205E3

/-- IDCODE: the identification register is selected and shifts out, least significant bit first. -/
def execIdcode (s : State) : Res :=
  act s.clk.pwrOk s (emit (tapSelect s 1) (.tdo ((List.range 32).map (fun i => (idcodeWord >>> i) % 2 == 1))))

/-- SAMPLE_PRELOAD: the boundary register takes what is preloaded. -/
def execSamplePreload (pins : List Bool) (s : State) : Res :=
  let t := tapSelect s 2
  act s.clk.pwrOk s { t with tap := { t.tap with pins } }

/-- EXTEST. -/
def execExtest (s : State) : Res := act s.clk.pwrOk s (tapSelect s 3)
/-- EXTEST_PULSE. -/
def execExtestPulse (s : State) : Res := act s.clk.pwrOk s (tapSelect s 4)
/-- EXTEST_TRAIN. -/
def execExtestTrain (s : State) : Res := act s.clk.pwrOk s (tapSelect s 5)
/-- HIGHZ. -/
def execHighz (s : State) : Res := act s.clk.pwrOk s (tapSelect s 6)
/-- CLAMP. -/
def execClamp (s : State) : Res := act s.clk.pwrOk s (tapSelect s 7)

/-- BYPASS: 0x1F, or any code without an instruction; the register of one bit shifts out the 0 it has captured (PRESUMED from IEEE
1149.1, log 126). -/
def execBypass (code : BitVec 5) (s : State) : Res :=
  act (s.clk.pwrOk && !(decide (1 ≤ code.toNat) && decide (code.toNat ≤ 7))) s (emit (tapSelect s code) (.tdo [false]))

/-- TAP_RESET: IDCODE is selected. -/
def execTapReset (s : State) : Res := .next (tapSelect s 1)

end Sys2Proof.Machine
end

