-- ==== Sys2Proof/Machine/Regs.lean ====
section
/-! DEFINITION. The register map (R487-R502): every device register at its offset, its domain, its reads and its writes by
a host or a control core. -/

namespace Sys2Proof.Machine

/-- The device registers (R492-R496); an instance is a number. -/
inductive Reg where
  | id | swEp | devTime | devTimeOfs | combCtl | e2eCtl | e2eWinClr | e2eStat | routeStat | fenceCmd | fenceStat | ksCtl
  | ksStat | polCls
  | grpAbort | arenaCmd | arenaArg | arenaData | arenaResult | sliceSet | sliceStat
  | bpmCmd | bpmResult | bpmStat
  | frnArb (k : Fin 4) | frnTherm (k : Fin 4) | frnTemp (k : Fin 4) | frnEcc (k : Fin 4) | frnMargin (k : Fin 4)
  | frnMarginRes (k : Fin 4)
  | coreCtl (c : CoreNo) | coreStat (c : CoreNo)
  | clkStat | dieTherm | dieTemp | rstCmd | rstCfg | rstCause | pwrCtl | pwrStat
  | b2Base (m : Fin 2) | inData (m : Fin 2) | inCtl (m : Fin 2) | outStat (m : Fin 2) | outData (m : Fin 2)
  | outPop (m : Fin 2) | rbSel (m : Fin 2)
  | errStatus (v : Nat) | errMask (v : Nat) | errInfo (v : Nat)
  | bootStat | imgVersion | bootMbx | flashCmd | flashStat | devStat | attCtl | attStat
  | flashData (j : Nat) | devPk (j : Nat) | devId (j : Nat) | attNonce (j : Nat) | attRec (j : Nat) | attSig (j : Nat)
  | vdctCtl (v : Fin 8)
  | portCtl (p : Nat) | portState (p : Nat) | schPort (p : Nat) | gateCtl (p : Nat) | gateBase (p : Nat) | gateStat (p : Nat)
  | swqPcls (p : Nat) (c : Fin 8) | schPcls (p : Nat) (c : Fin 8) | portCred (p : Nat) (c : Fin 8)
  | lnkGrp (g : Nat) | lnkCtl (p : Nat) | lnkStat (p : Nat) | portFerr (p : Nat) | portDrop (p : Nat)
  | laneStat (l : Nat) | eyeCtl (l : Nat) | eyeRes (l : Nat)
  deriving DecidableEq, Repr

/-- The fabric-wide registers (R492). -/
def fabricReg (off : Nat) : Option Reg :=
  match off with
  | 0x00 => some .id | 0x08 => some .swEp | 0x10 => some .devTime | 0x18 => some .devTimeOfs | 0x20 => some .combCtl
  | 0x28 => some .e2eCtl | 0x30 => some .e2eWinClr | 0x38 => some .e2eStat | 0x40 => some .routeStat
  | 0x48 => some .fenceCmd | 0x50 => some .fenceStat | 0x58 => some .ksCtl | 0x60 => some .ksStat | 0x68 => some .polCls
  | _ => none

/-- Groups, slice set and buffer pool manager (R492), from 0x1000 on. -/
def groupReg (off : Nat) : Option Reg :=
  match off with
  | 0x1000 => some .grpAbort | 0x1008 => some .arenaCmd | 0x1010 => some .arenaArg | 0x1018 => some .arenaData
  | 0x1020 => some .arenaResult | 0x1028 => some .sliceSet | 0x1030 => some .sliceStat
  | 0x2000 => some .bpmCmd | 0x2008 => some .bpmResult | 0x2010 => some .bpmStat
  | _ => none

/-- A Firn stack's registers (R493). -/
def firnReg (k : Fin 4) (o : Nat) : Option Reg :=
  match o with
  | 0x00 => some (.frnArb k) | 0x08 => some (.frnTherm k) | 0x10 => some (.frnTemp k) | 0x18 => some (.frnEcc k)
  | 0x20 => some (.frnMargin k) | 0x28 => some (.frnMarginRes k) | _ => none

/-- Clocks, reset and power (R492). -/
def clockReg (o : Nat) : Option Reg :=
  match o with
  | 0x00 => some .clkStat | 0x08 => some .dieTherm | 0x10 => some .dieTemp | 0x18 => some .rstCmd | 0x20 => some .rstCfg
  | 0x28 => some .rstCause | 0x30 => some .pwrCtl | 0x38 => some .pwrStat | _ => none

/-- A MGMT port's registers (R493). -/
def mgmtReg (m : Fin 2) (o : Nat) : Option Reg :=
  match o with
  | 0x00 => some (.b2Base m) | 0x08 => some (.inData m) | 0x10 => some (.inCtl m) | 0x18 => some (.outStat m)
  | 0x20 => some (.outData m) | 0x28 => some (.outPop m) | 0x30 => some (.rbSel m) | _ => none

/-- The error registers of a vector (R494). -/
def errReg (o : Nat) : Option Reg :=
  let v := o / 32
  if 49 ≤ v then none else
  match o % 32 with
  | 0x00 => some (.errStatus v) | 0x08 => some (.errMask v) | 0x10 => some (.errInfo v) | _ => none

/-- Security and management (R492), from 0x10000 on. -/
def secReg (o : Nat) : Option Reg :=
  match o with
  | 0x00 => some .bootStat | 0x08 => some .imgVersion | 0x10 => some .bootMbx | 0x18 => some .flashCmd | 0x20 => some .flashStat
  | 0x28 => some .devStat | 0x30 => some .attCtl | 0x38 => some .attStat
  | _ =>
    if 0x100 ≤ o ∧ o < 0x200 then some (.flashData ((o - 0x100) / 8))
    else if 0x200 ≤ o ∧ o < 0x240 then some (.devPk ((o - 0x200) / 8))
    else if 0x240 ≤ o ∧ o < 0x260 then some (.devId ((o - 0x240) / 8))
    else if 0x260 ≤ o ∧ o < 0x280 then some (.attNonce ((o - 0x260) / 8))
    else if 0x300 ≤ o ∧ o < 0x400 then some (.attRec ((o - 0x300) / 8))
    else if 0x8000 ≤ o ∧ o < 0xF460 then some (.attSig ((o - 0x8000) / 8))
    else none

/-- A logical port's registers in the switch core (R495). -/
def portReg (p o : Nat) : Option Reg :=
  match o with
  | 0x00 => some (.portCtl p) | 0x08 => some (.portState p) | 0x10 => some (.schPort p) | 0x18 => some (.gateCtl p)
  | 0x20 => some (.gateBase p) | 0x28 => some (.gateStat p)
  | _ =>
    if 0x40 ≤ o ∧ o < 0x80 then some (.swqPcls p (fin8 ((o - 0x40) / 8)))
    else if 0x80 ≤ o ∧ o < 0xC0 then some (.schPcls p (fin8 ((o - 0x80) / 8)))
    else if 0xC0 ≤ o ∧ o < 0x100 then some (.portCred p (fin8 ((o - 0xC0) / 8)))
    else none

/-- A Pier's registers (R496). -/
def pierReg (q o : Nat) : Option Reg :=
  if o < 0x80 then some (.lnkGrp (16 * q + o / 8))
  else if 0x400 ≤ o ∧ o < 0xC00 then
    let p := 64 * q + (o - 0x400) / 32
    match o % 32 with
    | 0x00 => some (.lnkCtl p) | 0x08 => some (.lnkStat p) | 0x10 => some (.portFerr p) | _ => some (.portDrop p)
  else if 0x1000 ≤ o ∧ o < 0x1800 then
    let l := 64 * q + (o - 0x1000) / 32
    match o % 32 with
    | 0x00 => some (.laneStat l) | 0x08 => some (.eyeCtl l) | 0x10 => some (.eyeRes l) | _ => none
  else none

/-- The register at an offset that is a multiple of 8 (R487). -/
def regAt (off : Nat) : Option Reg :=
  if off % 8 != 0 then none
  else if off < 0x1000 then fabricReg off
  else if off < 0x3000 then groupReg off
  else if off < 0x3400 then firnReg (fin4 ((off - 0x3000) / 256)) (off % 256)
  else if 0x4000 ≤ off ∧ off < 0x4080 then
    some (if off % 16 = 0 then .coreCtl (fin8 ((off - 0x4000) / 16)) else .coreStat (fin8 ((off - 0x4000) / 16)))
  else if 0x5000 ≤ off ∧ off < 0x5040 then clockReg (off - 0x5000)
  else if 0x6000 ≤ off ∧ off < 0x6200 then mgmtReg (fin2 ((off - 0x6000) / 256)) (off % 256)
  else if 0xF000 ≤ off ∧ off < 0xF620 then errReg (off - 0xF000)
  else if 0x10000 ≤ off ∧ off < 0x20000 then secReg (off - 0x10000)
  else if 0x20000 ≤ off ∧ off < 0x20040 then some (.vdctCtl (fin8 ((off - 0x20000) / 8)))
  else if 0x40000 ≤ off ∧ off < 0x80000 then portReg ((off - 0x40000) / 512) (off % 512)
  else if 0x80000 ≤ off ∧ off < 0x90000 then pierReg ((off - 0x80000) / 8192) (off % 8192)
  else none

/-! ## Where a register lives (R487) -/

/-- The power domain of a register. -/
def regDomain : Reg → Nat
  | .frnArb k | .frnTherm k | .frnTemp k | .frnEcc k | .frnMargin k | .frnMarginRes k => 3 + k.val
  | .clkStat | .dieTherm | .dieTemp | .rstCmd | .rstCfg | .rstCause | .pwrCtl | .pwrStat => 1
  | .b2Base _ | .inData _ | .inCtl _ | .outStat _ | .outData _ | .outPop _ | .rbSel _ => 1
  | .errStatus v | .errMask v | .errInfo v => vecDomain v
  | .bootStat | .imgVersion | .bootMbx | .flashCmd | .flashStat | .devStat | .attCtl | .attStat => 1
  | .flashData _ | .devPk _ | .devId _ | .attNonce _ | .attRec _ | .attSig _ => 1
  | .portCtl p | .portState p | .schPort p | .gateCtl p | .gateBase p | .gateStat p => 18 + p / 128
  | .swqPcls p _ | .schPcls p _ | .portCred p _ => 18 + p / 128
  | .lnkGrp g => 22 + g / 16
  | .lnkCtl p | .lnkStat p | .portFerr p | .portDrop p => 22 + p / 64
  | .laneStat l | .eyeCtl l | .eyeRes l => 22 + l / 64
  | _ => 2

/-- A register that the grade removes, or that belongs to a logical port that does not exist under the split (R4, R392,
R422). -/
def regAbsent (s : State) : Reg → Bool
  | .errStatus v | .errMask v | .errInfo v => vecRemoved s v
  | .portCtl p | .portState p | .schPort p | .gateCtl p | .gateBase p | .gateStat p => !portExists s p
  | .swqPcls p _ | .schPcls p _ | .portCred p _ => !portExists s p
  | .lnkCtl p | .lnkStat p | .portFerr p | .portDrop p => !portExists s p
  | .lnkGrp g => !gradeS s && decide (96 ≤ g)
  | .laneStat l | .eyeCtl l | .eyeRes l => !gradeS s && decide (384 ≤ l)
  | .vdctCtl v => !gradeS s && decide (6 ≤ v.val)
  | _ => false

/-- A register answers: its domain is on and the grade and split have it (R307, R455). -/
def regOn (s : State) (r : Reg) : Bool := pdOn s (regDomain r) && !regAbsent s r

/-- The registers that answer on a switch halted on PLL_UNLOCK (R451, R489). -/
def regInSec (r : Reg) : Bool := regDomain r == 1

/-! ## Reads -/

/-- A word of a byte list, least significant byte first. -/
def wordOfBytes (bs : List Byte) (j : Nat) : Word := BitVec.ofNat 64 (leNat ((bs.drop (8 * j)).take 8))

/-- Bits packed, bit i from a test. -/
def bitsWhere (n : Nat) (p : Nat → Bool) : Nat := (List.range n).foldr (fun i acc => acc * 2 + b2n (p i)) 0

/-- The code of a port state (R213). -/
def pstateCode : PState → Nat
  | .off => 0 | .down => 1 | .training => 2 | .up => 3 | .held => 4

/-- The code of a training state (R405). -/
def ltCode : LT → Nat
  | .inactive => 0 | .detect => 1 | .poll => 2 | .config => 3 | .eq => 4 | .verify => 5 | .linked => 6

/-- The code of a core state (R323). -/
def coreCode : CoreRun → Nat
  | .reset => 0 | .running => 1 | .waiting => 2 | .halted => 3 | .stopped => 4

/-- The RO condition fields of an error STATUS register (R423, R452). -/
def errCond (s : State) (v : Nat) : Word :=
  if 8 ≤ v && v < 16 then packFields [(63, 1, b2n (s.vdct[fin8 (v - 8)]).stopped)]
  else if 22 ≤ v && v < 40 then packFields [(63, 1, b2n (getSlice s (fin18 (v - 22))).halted)]
  else if v == 47 then packFields [(62, 2, s.clk.dieLevel)]
  else 0

/-- PORT_CRED (R204), with the sent count that the read-back aperture adds (R463). -/
def credWord (s : State) (p : Nat) (c : Fin 8) (sent : Bool) : Word :=
  let v := getVc (getPort s p) c
  packFields [(52, 12, v.allot.toNat), (40, 12, v.peer.toNat), (28, 12, (v.sent - v.ret).toNat), (16, 12, v.ret.toNat),
    (4, 12, if sent then v.sent.toNat else 0)]

/-- The fabric-wide and group registers. -/
def readFabric (s : State) (r : Reg) : Word :=
  let f := s.fab
  match r with
  | .id => idWord s
  | .swEp => f.swEp.setWidth 64
  | .devTime => devTime s
  | .devTimeOfs => s.clk.ofs
  | .combCtl => f.combCtl
  | .e2eCtl => f.e2eCtl
  | .e2eWinClr => f.e2eWin
  | .e2eStat => packFields [(48, 16, f.abandoned), (32, 16, f.resent), (16, 16, f.echoed), (0, 16, f.unmatched)]
  | .routeStat => packFields [(48, 16, f.noRoute), (32, 16, f.noPort), (16, 16, f.turn), (0, 16, f.fenceSkip)]
  | .fenceCmd => f.fenceCmd
  | .fenceStat => packFields [(32, 32, f.epoch.toNat)]
  | .ksCtl => f.ksCtl
  | .ksStat => packFields [(48, 16, f.ksTimeout), (32, 16, f.ksQuiet), (16, 16, f.ksOverflow), (0, 16, min s.holds.length 0xFFFF)]
  | .polCls => f.polCls
  | .grpAbort => f.grpAbort
  | .arenaCmd => f.arenaCmd
  | .arenaArg => f.arenaArg
  | .arenaData => f.arenaData
  | .arenaResult => packFields [(63, 1, b2n f.arenaDone), (56, 4, f.arenaCode)]
  | .sliceSet => f.sliceSet.setWidth 64
  | .sliceStat => packFields [(63, 1, b2n f.setErr), (18, 18, bitsWhere 18 (fun k => (getSlice s (fin18 k)).halted)),
      (0, 18, bitsWhere 18 (fun k => boundCount s k != 0 || !(getSlice s (fin18 k)).ops.isEmpty))]
  | .bpmCmd => s.bpm.cmd
  | .bpmResult => s.bpm.result
  | .bpmStat => packFields [(63, 1, b2n s.bpm.neveReady), (62, 1, b2n s.bpm.firnReady),
      (42, 20, if s.bpm.neveReady then neveFree s else 0), (20, 22, if s.bpm.firnReady then firnFree s else 0)]
  | .vdctCtl v => packFields [(62, 1, b2n (s.vdct[v]).busy), (61, 1, b2n (s.vdct[v]).lastOk)]
  | _ => 0

/-- The registers of Firn stacks, cores and error blocks. -/
def readUnits (s : State) (r : Reg) : Word :=
  match r with
  | .frnArb k => (getStack s k).arb
  | .frnTherm k => (getStack s k).thermNext
  | .frnTemp k =>
    let x := getStack s k
    packFields [(56, 8, x.temps[0].toNat), (48, 8, x.temps[1].toNat), (40, 8, x.temps[2].toNat), (32, 8, x.temps[3].toNat),
      (24, 8, maxOf x.temps.toList), (22, 2, x.level)]
  | .frnEcc k => let x := getStack s k; packFields [(40, 24, x.idcCnt), (16, 24, x.corrCnt), (0, 16, x.uncorrCnt)]
  | .frnMargin k => (getStack s k).margin
  | .frnMarginRes k =>
    let x := getStack s k
    packFields [(63, 1, b2n x.marginDone), (62, 1, b2n x.marginRefused), (0, 32, x.fails.toNat)]
  | .coreCtl c => (getCore s c).startPc.setWidth 64
  | .coreStat c =>
    let k := getCore s c
    packFields [(61, 3, coreCode k.st), (48, 8, if k.st == .stopped then k.cause.toNat else 0), (0, 48, k.pc.toNat)]
  | .errStatus v => (getErr s v).status ||| errCond s v
  | .errMask v => (getErr s v).mask
  | .errInfo v => (getErr s v).info
  | _ => 0

/-- The registers of PD_SEC. -/
def readSec (s : State) (r : Reg) : Word :=
  let x := s.sec
  match r with
  | .clkStat => packFields [(63, 1, b2n s.clk.pllLock), (62, 1, b2n s.clk.halted)]
  | .dieTherm => s.clk.thermNext
  | .dieTemp => packFields [(56, 8, s.clk.dieMax.toNat), (50, 6, s.clk.dieSensor), (48, 2, s.clk.dieLevel)]
  | .rstCfg => s.clk.rstCfg
  | .rstCause => rstCauseWord s
  | .pwrCtl => s.clk.pwrReq ||| 3
  | .pwrStat => packFields [(63, 1, b2n (!s.clk.pwrSwitching.isEmpty)), (60, 3, s.clk.pwrResult), (55, 5, s.clk.pwrDomain),
      (0, 30, fld s.clk.pwrOn 0 30)]
  | .b2Base m => (getMgmt s m).firnBase.setWidth 64
  | .inData m => (getMgmt s m).inData
  | .inCtl m =>
    let g := getMgmt s m
    packFields [(62, 1, b2n g.inAccepted), (61, 1, b2n g.inFull), (0, 3, g.inCore.toNat)]
  | .outStat m => let g := getMgmt s m; packFields [(57, 7, g.out.length), (54, 3, (g.out.headD (0, 0)).1)]
  | .outData m => ((getMgmt s m).out.headD (0, 0)).2
  | .rbSel m => (getMgmt s m).rbSel
  | .bootStat => packFields [(63, 1, b2n x.done), (62, 1, b2n x.waiting), (59, 3, x.source), (48, 8, x.result)]
  | .imgVersion => x.version
  | .bootMbx => x.mbx
  | .flashCmd => x.flashCmd
  | .flashStat => packFields [(63, 1, b2n x.flashDone)]
  | .devStat => packFields [(63, 1, b2n x.idValid), (62, 1, b2n x.enrolled)]
  | .attStat => packFields [(63, 1, b2n x.attDone), (60, 3, x.attResult)]
  | .flashData j => x.flashData.getD j 0
  | .devPk j => wordOfBytes x.pk j
  | .devId j => wordOfBytes x.devId j
  | .attNonce j => x.nonce.getD j 0
  | .attRec j => wordOfBytes x.attRec j
  | .attSig j => wordOfBytes x.attSig j
  | _ => 0

/-- The registers of ports, lanes and Piers. -/
def readPort (s : State) (r : Reg) : Word :=
  match r with
  | .portCtl p => (getPort s p).ctl
  | .portState p =>
    let x := getPort s p
    packFields [(61, 3, pstateCode x.st), (32, 16, x.losses), (16, 16, x.discarded), (0, 16, x.credErr)]
  | .schPort p => (getPort s p).schPort
  | .gateCtl p =>
    let x := getPort s p
    packFields [(62, 1, b2n x.gateArmed.isSome), (61, 1, b2n x.gateGuard), (48, 7, x.gatePlen)]
  | .gateBase p => (getPort s p).gateBase
  | .gateStat p =>
    let x := gateAt (getPort s p) (now s)
    packFields [(57, 7, x.gateList.length), (51, 6, x.gateEntry), (16, 16, x.guardHold), (0, 16, x.switches)]
  | .swqPcls p c => let y := getCls (getPort s p) c; setFld y.pcls 12 20 (queueDepth y.q)
  | .schPcls p c =>
    let w := (getCls (getPort s p) c).sch
    if c == 7 then setFld (setFld w 63 1 1) 41 1 0 else w
  | .portCred p c => credWord s p c false
  | .lnkGrp g => packFields [(62, 2, splitOf s g)]
  | .lnkCtl p => (getPort s p).lnkCtl
  | .lnkStat p =>
    let x := getPort s p
    packFields [(60, 4, ltCode x.lt), (58, 2, x.gen), (56, 2, widthCode x.width), (53, 3, x.lastFail), (32, 16, x.trainFails),
      (12, 20, x.peerEp.toNat), (0, 9, x.peerPort.toNat)]
  | .portFerr p =>
    let x := getPort s p
    packFields [(48, 16, x.hdrErr), (32, 16, x.hopCrc), (16, 16, x.stomped), (0, 16, x.frameErr)]
  | .portDrop p => let x := getPort s p; packFields [(48, 16, x.hopLimit), (32, 16, x.aborted)]
  | .laneStat l =>
    let x := getLane s l
    packFields [(63, 1, b2n x.lock), (62, 1, b2n x.polInv), (60, 2, x.idx.toNat), (59, 1, b2n x.active), (52, 7, x.skew.toNat),
      (32, 16, x.codeErr), (16, 16, x.amErr), (8, 8, x.fillDel), (0, 8, x.fillIns)]
  | .eyeCtl l => (getLane s l).eyeCtl
  | .eyeRes l =>
    let x := getLane s l
    packFields [(63, 1, b2n x.eyeDone), (62, 1, b2n x.eyeRefused), (0, 40, x.mismatch.toNat)]
  | _ => 0

/-- Which of the four readers a register belongs to. -/
inductive Bank where
  | fabric | units | sec | port
  deriving DecidableEq, Repr

/-- The reader of a register. -/
def regBank : Reg → Bank
  | .frnArb _ | .frnTherm _ | .frnTemp _ | .frnEcc _ | .frnMargin _ | .frnMarginRes _ | .coreCtl _ | .coreStat _ => .units
  | .errStatus _ | .errMask _ | .errInfo _ => .units
  | .portCtl _ | .portState _ | .schPort _ | .gateCtl _ | .gateBase _ | .gateStat _ | .swqPcls _ _ | .schPcls _ _ => .port
  | .portCred _ _ | .lnkGrp _ | .lnkCtl _ | .lnkStat _ | .portFerr _ | .portDrop _ | .laneStat _ | .eyeCtl _ | .eyeRes _ => .port
  | r => if regDomain r == 1 then .sec else .fabric

/-- The value of a register; WO fields read as 0, and a register that does not answer reads as 0. -/
def readReg64 (s : State) (r : Reg) : Word :=
  if !regOn s r then 0 else
  match regBank r with
  | .fabric => readFabric s r
  | .units => readUnits s r
  | .sec => readSec s r
  | .port => readPort s r

/-- The bits of `m` meet a field. -/
def meets (m : Word) (lo len : Nat) : Bool := fld m lo len != 0

/-- The RC fields that a read of the bits `m` of a register touches, cleared whole (R310, R491). -/
def clearRc (s : State) (r : Reg) (m : Word) : State :=
  let z := fun (lo len n : Nat) => if meets m lo len then 0 else n
  match r with
  | .e2eStat => onFab s (fun f => { f with
      abandoned := z 48 16 f.abandoned, resent := z 32 16 f.resent, echoed := z 16 16 f.echoed, unmatched := z 0 16 f.unmatched })
  | .routeStat => onFab s (fun f => { f with
      noRoute := z 48 16 f.noRoute, noPort := z 32 16 f.noPort, turn := z 16 16 f.turn, fenceSkip := z 0 16 f.fenceSkip })
  | .ksStat => onFab s (fun f => { f with
      ksTimeout := z 48 16 f.ksTimeout, ksQuiet := z 32 16 f.ksQuiet, ksOverflow := z 16 16 f.ksOverflow })
  | .frnEcc k =>
    let x := getStack s k
    setStack s k { x with idcCnt := z 40 24 x.idcCnt, corrCnt := z 16 24 x.corrCnt, uncorrCnt := z 0 16 x.uncorrCnt }
  | .portState p =>
    let x := getPort s p
    setPort s p { x with losses := z 32 16 x.losses, discarded := z 16 16 x.discarded, credErr := z 0 16 x.credErr }
  | .gateStat p =>
    let x := getPort s p
    setPort s p { x with guardHold := z 16 16 x.guardHold, switches := z 0 16 x.switches }
  | .lnkStat p => let x := getPort s p; setPort s p { x with trainFails := z 32 16 x.trainFails }
  | .portFerr p =>
    let x := getPort s p
    setPort s p { x with
      hdrErr := z 48 16 x.hdrErr, hopCrc := z 32 16 x.hopCrc, stomped := z 16 16 x.stomped, frameErr := z 0 16 x.frameErr }
  | .portDrop p => let x := getPort s p; setPort s p { x with hopLimit := z 48 16 x.hopLimit, aborted := z 32 16 x.aborted }
  | .laneStat l =>
    let x := getLane s l
    setLane s l { x with
      codeErr := z 32 16 x.codeErr, amErr := z 16 16 x.amErr, fillDel := z 8 8 x.fillDel, fillIns := z 0 8 x.fillIns }
  | _ => s

/-- A read of the bits `m` of a register: its value and the state after it. -/
def readClear (s : State) (r : Reg) (m : Word) : Word × State :=
  (readReg64 s r, if regOn s r then clearRc s r m else s)

/-! ## Writes -/

/-- STATUS bits cleared by writing 1 (R417). -/
def clearStatus (s : State) (v : Nat) (w : Word) : State :=
  let e := getErr s v
  setErr s v { e with status := e.status &&& ~~~(w &&& errAll v) }

/-- A MASK written; clearing a bit whose STATUS bit is 1 calls for the vector (R417, R420). -/
def writeMask (s : State) (v : Nat) (w : Word) : State :=
  let e := getErr s v
  let n := writeMasked (errMaskable v) e.mask w
  let t := setErr s v { e with mask := n }
  if (e.mask &&& ~~~n &&& e.status) != 0 then callVector t v else t

/-- ABORT of GRP_ABORT (R54). -/
def writeGrpAbort (s : State) (v : Word) : State :=
  let t := onFab s (fun f => { f with grpAbort := v &&& 0x3FFF })
  if bitOf v 63 then abortGroup t (fld v 0 14) else t

/-- A host word placed in a core's mailbox with the KIND of port `m`, or FULL (R461). -/
def hostSend (s : State) (m : Fin 2) (c : CoreNo) : State :=
  let g := getMgmt s m
  match mbxPut s c { desc := packFields [(60, 4, 2 + m.val)], data := g.inData, copy := none } with
  | some t => setMgmt t m { getMgmt t m with inAccepted := true, inFull := false }
  | none => setMgmt s m { g with inAccepted := false, inFull := true }

/-- A write of HMBX_IN_CTL (R461); a control complex that is off takes nothing. -/
def writeInCtl (s : State) (m : Fin 2) (v : Word) : State :=
  let t := setMgmt s m { getMgmt s m with inCore := v.setWidth 3 }
  if bitOf v 63 && isRunning s && pdOn s 2 then hostSend t m (fin8 (fld v 0 3)) else t

/-- A write of HMBX_OUT_POP (R462): a SEND of the cycle still meets the entry that is removed. -/
def writeOutPop (s : State) (m : Fin 2) (v : Word) : State :=
  let g := getMgmt s m
  if !bitOf v 63 || g.out.isEmpty then s else
  let t := setMgmt s m { g with out := g.out.drop 1 }
  { t with cyc := { t.cyc with outs := tput 0 t.cyc.outs m (tget 0 t.cyc.outs m + 1) } }

/-- A class shaper's register written (R267, R268): class 7 ignores it, and a shaper that becomes active starts full. -/
def writeSchPcls (s : State) (p : Nat) (c : Fin 8) (v : Word) : State :=
  if c == 7 then s else
  let x := getPort s p
  let y := getCls x c
  let w := writeMasked 0xFFFFFFFFFFFFFFE0 y.sch v
  let tok := if schShEn c w && !schShEn c y.sch then bucketCap (schPkt w) (schBurst w) else clsTokens y (now s)
  setPort s p (setCls x c { y with sch := w, tok, tokAt := now s })

/-- The port shaper's register written (R268, R269). -/
def writeSchPort (s : State) (p : Nat) (v : Word) : State :=
  let x := getPort s p
  let w := writeMasked 0xFFFFFFFFFFFC0000 x.schPort v
  let tok := if bitOf w 63 && !bitOf x.schPort 63 then bucketCap (bitOf w 62) (fld w 18 12) else portTokens x (now s)
  setPort s p { x with schPort := w, tok, tokAt := now s }

/-- A write of SWQ_PCLS (R236). -/
def writeSwqPcls (s : State) (p : Nat) (c : Fin 8) (v : Word) : State :=
  let x := getPort s p
  let y := getCls x c
  setPort s p (setCls x c { y with pcls := writeMasked 0x800FFFFF00000000 y.pcls v })

/-- A write to a fabric-wide or group register. -/
def writeFabric (s : State) (r : Reg) (v : Word) : State :=
  match r with
  | .swEp => writeSwEp s v
  | .devTimeOfs => writeTimeOfs s v
  | .combCtl => writeCombCtl s v
  | .e2eCtl => onFab s (fun f => { f with e2eCtl := writeMasked 0xF0000000FFFFFFFF f.e2eCtl v })
  | .e2eWinClr => writeWinClr s v
  | .fenceCmd => writeFenceCmd s v
  | .ksCtl => onFab s (fun f => { f with ksCtl := writeMasked 0xFFFFFFFF0000FFFF f.ksCtl v })
  | .polCls => onFab s (fun f => { f with polCls := v &&& 0x7F })
  | .grpAbort => writeGrpAbort s v
  | .arenaCmd => writeArenaCmd s v
  | .arenaArg => onFab s (fun f => { f with arenaArg := v &&& 0xFFFFFC00003FFFFF#64 })
  | .arenaData => onFab s (fun f => { f with arenaData := v })
  | .sliceSet => writeSliceSet s v
  | .sliceStat => if bitOf v 63 then onFab s (fun f => { f with setErr := false }) else s
  | .bpmCmd => writeBpmCmd s v .none
  | .vdctCtl n => writeVdctCtl s n v
  | _ => s

/-- A write to a Firn, core or error register. -/
def writeUnits (s : State) (r : Reg) (v : Word) : State :=
  match r with
  | .frnArb k => setStack s k { getStack s k with arb := writeMasked 0xFFFF000000000000 (getStack s k).arb v }
  | .frnTherm k => writeTherm s k v
  | .frnMargin k => writeMargin s k v
  | .coreCtl c => writeCoreCtl s c v
  | .errStatus n => clearStatus s n v
  | .errMask n => writeMask s n v
  | _ => s

/-- A control core writes the registers of the MGMT ports in vain (R490). -/
def fromCore (by_ : Party) : Bool := match by_ with | .core _ => true | .mgmt _ => false

/-- A write to a register of PD_SEC. -/
def writeSec (s : State) (by_ : Party) (r : Reg) (v : Word) : State :=
  match r with
  | .dieTherm => writeDieTherm s v
  | .rstCmd => if bitOf v 63 then doWarm s by_ else s
  | .rstCfg => { s with clk := { s.clk with rstCfg := v &&& 0xC000000000000000#64 } }
  | .pwrCtl => writePwrCtl s by_ v
  | .b2Base m => if fromCore by_ then s else setMgmt s m { getMgmt s m with firnBase := v.setWidth 22 }
  | .inData m => if fromCore by_ then s else setMgmt s m { getMgmt s m with inData := v }
  | .inCtl m => if fromCore by_ then s else writeInCtl s m v
  | .outPop m => if fromCore by_ then s else writeOutPop s m v
  | .rbSel m => if fromCore by_ then s else setMgmt s m { getMgmt s m with rbSel := v &&& 0xFC000000FFFFFFFF#64 }
  | .bootMbx => writeBootMbx s v
  | .flashCmd => writeFlashCmd s v
  | .flashData j => { s with sec := { s.sec with flashData := s.sec.flashData.setIfInBounds j v } }
  | .attNonce j => { s with sec := { s.sec with nonce := s.sec.nonce.setIfInBounds j v } }
  | .attCtl => if bitOf v 63 then attStart s else s
  | _ => s

/-- A write to a register of a port, lane or Pier. -/
def writePort (s : State) (r : Reg) (v : Word) : State :=
  match r with
  | .portCtl p => writePortCtl s p v
  | .schPort p => writeSchPort s p v
  | .gateCtl p => writeGateCtl s p v
  | .gateBase p => setPort s p { getPort s p with gateBase := v }
  | .swqPcls p c => writeSwqPcls s p c v
  | .schPcls p c => writeSchPcls s p c v
  | .portCred p c => writePortCred s p c v
  | .lnkGrp g => writeSplit s g v
  | .lnkCtl p => writeLnkCtl s p v
  | .eyeCtl l => writeEyeCtl s l v
  | _ => s

/-- A whole-register write by a party; a register that does not answer ignores it, and a halted switch takes writes in
PD_SEC alone (R307, R451, R455). -/
def writeReg64 (s : State) (by_ : Party) (r : Reg) (v : Word) : State :=
  if !regOn s r || (s.clk.halted && !regInSec r) then s else
  match regBank r with
  | .fabric => writeFabric s r v
  | .units => writeUnits s r v
  | .sec => writeSec s by_ r v
  | .port => writePort s r v

/-- A write takes its place in the cycle (R9, R256, R461): W1C and MASK bits before the cycle's events, a host's mailbox word
among the arrivals, WO commands one in a cycle (an abort and an arena command in their own places, R55, R364), every other write by its party at the end. -/
def enterWrite (s : State) (by_ : Party) (r : Reg) : State :=
  match r with
  | .errStatus _ | .errMask _ | .sliceStat => atPlace placeW1c s
  | .inCtl m => atPlace (placeHostMbx + m) s
  | .grpAbort => afterPlace placeAbort s
  | .arenaCmd => afterPlace placeArenaGo s
  | .outPop _ | .bpmCmd | .fenceCmd | .e2eWinClr | .sliceSet | .rstCmd => afterPlace placeWo s
  | _ => atPlace (placeParty by_) s

/-- The bits of a register that a width covers (R455). -/
def widthMask : Width → Word
  | .whole => 0xFFFFFFFFFFFFFFFF | .low => 0x00000000FFFFFFFF | .high => 0xFFFFFFFF00000000 | .one | .two | .sixteen => 0

/-- W1C fields, which a write to the other half leaves alone (R455). -/
def w1cMask : Reg → Word
  | .errStatus _ => 0xFFFFFFFFFFFFFFFF | .sliceStat => 0x8000000000000000 | _ => 0

/-- The word that a write of a width stands for: its own half, and the register's present RW fields in the other (R455). -/
def widen (s : State) (r : Reg) (w : Width) (v : Word) : Word :=
  let m := widthMask w
  let x := match w with | .high => v <<< 32 | _ => v
  (x &&& m) ||| (readReg64 s r &&& ~~~ w1cMask r &&& ~~~m)

end Sys2Proof.Machine
end

