-- ==== Sys2Proof/Machine/HostIf.lean ====
section
/-! DEFINITION. Access to the register map and the memories: DREG.R and DREG.W (R307), BAR0 reads and writes (R455), the
MSI-X structures (R460), the host mailboxes (R461, R462), the read-back aperture (R463-R466) and BAR2 (R457-R459). -/

namespace Sys2Proof.Machine

/-! ## Control cores -/

/-- The register that a DREG access reaches, or its exception (R307, R488). -/
def dregTarget (off : Word) : Except Exc Reg :=
  if off.toNat % 8 != 0 then .error .misalign
  else if 0x1000000 ≤ off.toNat then .error .dreg
  else match regAt off.toNat with
    | some r => .ok r
    | none => .error .dreg

/-- DREG.R. -/
def execDregR (c : CoreNo) (d a : BitVec 6) (imm : BitVec 32) (s : State) : Res :=
  coreInstr s c (okReg d && okReg a) (fun t =>
    let off := readReg (getCore t c) a + immS imm
    match dregTarget off with
    | .error x => takeExc t c x off
    | .ok r => let (v, u) := readClear (atPlace (placeReader (.core c)) t) r 0xFFFFFFFFFFFFFFFF; retire u c d v)

/-- DREG.W: the PC has passed the instruction when the write acts. -/
def execDregW (c : CoreNo) (a b : BitVec 6) (imm : BitVec 32) (s : State) : Res :=
  coreInstr s c (okReg a && okReg b) (fun t =>
    let k := getCore t c
    let off := readReg k a + immS imm
    match dregTarget off with
    | .error x => takeExc t c x off
    | .ok r => writeReg64 (enterWrite (setCore t c (nextPc k)) (.core c) r) (.core c) r (readReg k b))

/-! ## Read-back (R463-R466) -/

/-- The code of a step state (R52). -/
def stepCode : StepSt → Nat
  | .idle => 0 | .open_ => 1 | .expired => 2 | .delivering => 3 | .closed => 4

/-- A word of a step-state entry (R465). -/
def stepWord (s : State) (e k : Nat) : Word :=
  let g := getGroup s (e / 4)
  let n := if g.gid.isNone then 0 else ((windowSteps g).find? (fun n => n % 4 == e % 4)).getD 0
  let x := getStep g n
  match k with
  | 0 => packFields [(61, 3, stepCode x.st), (32, 16, n), (16, 16, g.base)]
  | 1 => x.t0
  | 2 => x.expiry.getD 0
  | _ =>
    let cs := x.chunks.map (fun (kc : Nat × Chunk) => kc.2)
    packFields [(43, 21, (cs.filter (fun c => decide (c.ph = .bound))).length),
      (22, 21, (cs.filter (fun c => !isOpen c)).length)]

/-- A chunk-binding entry's content, and its Moraine entries (R466). -/
structure Binding where
  slot : Nat
  step : Nat
  bucket : Nat
  chunk : Nat
  slice : Nat
  loc : Nat
  present : Nat
  addr : Nat
  moraine : List MorEnt

/-- The chunk bindings in order: chunks that hold a slot, then the combiner's partials. -/
def bindings (s : State) : List Binding :=
  s.groups.flatMap (fun (kg : Nat × Group) => kg.2.steps.flatMap (fun (ks : Nat × StepRec) =>
    (ks.2.chunks.filter (fun (kc : Nat × Chunk) => kc.2.slotHeld)).map (fun (kc : Nat × Chunk) =>
      ({ slot := kg.1, step := ks.1, bucket := kc.1 / 2 ^ 20, chunk := kc.1 % 2 ^ 20, slice := kc.2.slice.getD 0
         loc := b2n kc.2.accFirn, present := popCount kc.2.present 65536, addr := kc.2.accAddr
         moraine := kc.2.moraine } : Binding)))) ++
  (s.combs.filterMap (fun (kc : Nat × Option Comb) => kc.2)).filterMap (fun c => if c.sealed then none else some
    ({ slot := c.slot, step := c.step, bucket := c.bucket, chunk := c.chunk, slice := c.slice, loc := 2
       present := (c.covs.map (fun v => v.ranks.length)).sum, addr := 0, moraine := [] } : Binding))

/-- A word of a chunk-binding entry. -/
def bindWord (s : State) (e k : Nat) : Word :=
  match (bindings s)[e]? with
  | none => 0
  | some b =>
    match k with
    | 0 => packFields [(63, 1, 1), (49, 14, b.slot), (33, 16, b.step), (17, 16, b.bucket)]
    | 1 => packFields [(44, 20, b.chunk), (39, 5, b.slice), (37, 2, b.loc), (20, 17, b.present)]
    | 2 => packFields [(50, 14, b.moraine.length)]
    | _ => BitVec.ofNat 64 b.addr

/-- A Moraine-index entry. -/
def moraineWord (s : State) (e : Nat) : Word :=
  let all := (bindings s).zipIdx.flatMap (fun (bi : Binding × Nat) => bi.1.moraine.map (fun m => (bi.2, m)))
  match all[e]? with
  | none => 0
  | some (b, m) => packFields [(63, 1, 1), (43, 20, b), (38, 5, m.level), (22, 16, m.node), (21, 1, b2n m.inFirn)]

/-- An egress-queue entry. -/
def queueWord (s : State) (e : Nat) : Word :=
  let q := (getCls (getPort s (e / 8)) (fin8 (e % 8))).q
  packFields [(44, 20, match q with | h :: _ => h.copy | [] => 0), (24, 20, queueDepth q), (0, 24, q.length)]

/-- A word of a hold-store entry. -/
def holdWord (s : State) (e k : Nat) : Word :=
  match s.holds[e]? with
  | none => 0
  | some h =>
    match k with
    | 0 => packFields [(63, 1, 1), (43, 20, h.key.src.toNat), (23, 20, h.key.dest.toNat), (22, 1, b2n h.key.retx),
        (21, 1, b2n h.ks.isSome), (0, 16, h.left)]
    | _ => packFields [(32, 32, h.key.msgId.toNat), (0, 32, h.ends - now s)]

/-- A completion ring by member-table entry: the group whose member table range holds it. -/
def ringWord (s : State) (e : Nat) : Word :=
  match s.tbl.desc.find? (fun (kd : Nat × Desc) =>
      gdLive kd.2 && decide (gdMemberBase kd.2 ≤ e) && decide (e < gdMemberBase kd.2 + gdN kd.2)) with
  | none => 0
  | some (slot, d) =>
    let (n, c) := ringOf s slot d (e - gdMemberBase d)
    packFields [(32, 32, n), (16, 16, c)]

/-- Entries and words per entry of a read-back source (R463). -/
def sourceShape (src : Nat) : Option (Nat × Nat) :=
  if 1 ≤ src ∧ src ≤ 0x0E then tblShape src else
  match src with
  | 0x10 => some (65536, 4) | 0x11 => some (1048576, 4) | 0x12 => some (4194304, 1) | 0x13 => some (4096, 1)
  | 0x14 => some (4096, 1) | 0x15 => some (1048576, 1) | 0x16 => some (1048576, 5) | 0x17 => some (16384, 1)
  | 0x18 => some (65536, 2) | 0x19 => some (16384, 1) | 0x1A => some (4194304, 1) | 0x1B => some (2048, 2)
  | 0x1C => some (32768, 2) | _ => none

/-- Word `k` of entry `e` of a read-back source. -/
def sourceWord (s : State) (src e k : Nat) : Word :=
  if 1 ≤ src ∧ src ≤ 0x0E then tblWord s src e k else
  match src with
  | 0x10 => stepWord s e k
  | 0x11 => bindWord s e k
  | 0x12 => moraineWord s e
  | 0x13 => queueWord s e
  | 0x14 => credWord s (e / 8) (fin8 (e % 8)) true
  | 0x15 => BitVec.ofNat 64 (tget 0 s.msgCtr e % 2 ^ 32)
  | 0x16 =>
    let w := windowFor s e
    if k == 0 then w.1.setWidth 64 else BitVec.ofNat 64 (fld w.2 (64 * (k - 1)) 64)
  | 0x17 => BitVec.ofNat 64 (bitsWhere 64 (fun i => isFenced s (64 * e + i)))
  | 0x18 => holdWord s e k
  | 0x19 => let g := getGroup s e; packFields [(48, 16, g.bseq), (31, 17, g.arrivals)]
  | 0x1A => ringWord s e
  | 0x1B =>
    match (getCore s (fin8 (e / 256))).mbx[e % 256]? with
    | some x => if k == 0 then x.desc else x.data
    | none => 0
  | 0x1C =>
    match (getCore s (fin8 (e / 4096))).stage[e % 4096]? with
    | some x => if k == 0 then packFields [(63, 1, 1), (56, 6, x.tbl), (34, 22, x.idx), (0, 3, x.word)] else x.val
    | none => 0
  | _ => 0

/-- Word `w` of a port's read-back aperture (R463). -/
def readback (s : State) (m : Fin 2) (w : Nat) : Word :=
  let sel := (getMgmt s m).rbSel
  let src := fld sel 58 6
  let n := fld sel 0 32 + w
  match sourceShape src with
  | none => 0
  | some (es, ws) => if n < es * ws && pdOn s 2 then sourceWord s src (n / ws) (n % ws) else 0

/-! ## BAR0 -/

/-- A BAR0 access is 4 or 8 bytes wide and naturally aligned (R455): `off` is its byte offset. -/
def aligned (off : Nat) (w : Width) : Bool :=
  match w with | .high => off % 8 == 4 | .whole | .low => off % 8 == 0 | _ => false

/-- A host access completes with Unsupported Request. -/
def turnAway (s : State) : State := emit s .unsupported

/-- The switch halted on PLL_UNLOCK does not answer here (R451, R489). -/
def silent (s : State) (r : Option Reg) : Bool :=
  s.clk.halted && !s.clk.pllLock && !(match r with | some x => regInSec x | none => false)

/-- The part of a register that a width covers. -/
def narrow (w : Width) (v : Word) : Word :=
  match w with | .low => v &&& 0xFFFFFFFF | .high => v >>> 32 | _ => v

/-- A dword of the MSI-X table as it reads: address low, address high, data, vector control. -/
def readMsixDword (s : State) (m : Fin 2) (o : Nat) : Nat :=
  let e := o / 16
  let x := (getMgmt s m).msix
  match o % 16 / 4 with
  | 0 => fld (tget 0 x.addr e) 0 32
  | 1 => fld (tget 0 x.addr e) 32 32
  | 2 => (tget 0 x.data e).toNat
  | _ => b2n (!tget false x.unmasked e)

/-- The 8 bytes of BAR0 at an offset above the device registers (R456): the MSI-X table, the pending-bit array, the reserved range,
the read-back aperture. -/
def bar0Word (s : State) (m : Fin 2) (off : Nat) : Word :=
  if off < 0x1008000 then
    packFields [(0, 32, readMsixDword s m (off - 0x1000000)), (32, 32, readMsixDword s m (off - 0x1000000 + 4))]
  else if off < 0x1008100 then
    BitVec.ofNat 64 (bitsWhere 64 (fun i => tget false (getMgmt s m).msix.pending (64 * ((off - 0x1008000) / 8) + i)))
  else if off < 0x2000000 then 0
  else readback s m ((off - 0x2000000) / 8)

/-- A BAR0 read by a host (R434, R455, R456, R491). -/
def hostRead (s : State) (m : Fin 2) (off : Nat) (w : Width) : State :=
  let held := (getMgmt s m).latch
  let t := dropLatch s (.mgmt m)
  let r := regAt (off / 8 * 8)
  if !aligned off w || silent s r then turnAway t
  else if 0x1000000 ≤ off then emit t (.read (narrow w (bar0Word t m (off / 8 * 8))))
  else match r with
    | none => emit t (.read 0)
    | some x =>
      let (v, u) := readClear t x (widthMask w)
      match x, w, held with
      | .devTime, .low, _ =>
        emit (setMgmt u m { getMgmt u m with latch := some ((v >>> 32).setWidth 32) }) (.read (narrow .low v))
      | .devTime, .high, some h => emit u (.read (h.setWidth 64))
      | _, _, _ => emit u (.read (narrow w v))

/-- RC_READ: a read of a register, which clears the RC fields it returns. -/
def execRcRead (by_ : Party) (off : BitVec 26) (w : Width) (s₀ : State) : Res :=
  let s := atPlace (placeReader by_) s₀
  act (partyActs s₀ by_) s₀
    (match by_ with
     | .mgmt m => hostRead s m off.toNat w
     | .core _ =>
       match regAt off.toNat, w with
       | some r, .whole => let (v, u) := readClear s r 0xFFFFFFFFFFFFFFFF; emit u (.read v)
       | _, _ => s)

/-- DEV_TIME_LOW_READ (R434). -/
def execDevTimeLowRead (m : Fin 2) (s : State) : Res :=
  act (partyActs s (.mgmt m)) s (hostRead (atPlace (placeReader (.mgmt m)) s) m 0x10 .low)

/-- READBACK_READ: it changes nothing but the DEV_TIME latch (R434, R464). -/
def execReadbackRead (m : Fin 2) (at_ : ReadbackAt) (s : State) : Res :=
  let off := 0x2000000 + 8 * at_.word.toNat + (if at_.w == .high then 4 else 0)
  act (partyActs s (.mgmt m)) s (hostRead (atPlace (placeReader (.mgmt m)) s) m off at_.w)

/-! ## MSI-X (R460) -/

/-- The message of a vector sent if it is pending, unmasked and the function sends. -/
def sendPending (s : State) (m : Fin 2) (v : Nat) : State :=
  let g := getMgmt s m
  if g.msix.enable && !g.msix.fmask && tget false g.msix.pending v && tget false g.msix.unmasked v then
    emit (setMgmt s m { g with msix := { g.msix with pending := tput false g.msix.pending v false } }) (.msix m v)
  else s

/-- A table entry's mask bit written. -/
def setVecMask (s : State) (m : Fin 2) (v : Nat) (masked : Bool) : State :=
  let g := getMgmt s m
  sendPending (setMgmt s m { g with msix := { g.msix with unmasked := tput false g.msix.unmasked v (!masked) } }) m v

/-- MSI-X Enable and Function Mask written. -/
def setMsixControl (s : State) (m : Fin 2) (enable fmask : Bool) : State :=
  let g := getMgmt s m
  let t := setMgmt s m { g with msix := { g.msix with enable, fmask } }
  (g.msix.pending.map (fun (kv : Nat × Bool) => kv.1)).foldl (fun u v => sendPending u m v) t

/-- A dword of the MSI-X table written: address low, address high, data, vector control. -/
def writeMsixDword (s : State) (m : Fin 2) (o : Nat) (v : BitVec 32) : State :=
  let e := o / 16
  let g := getMgmt s m
  let x := g.msix
  match o % 16 / 4 with
  | 0 => setMgmt s m { g with msix := { x with addr := tput 0 x.addr e (setFld (tget 0 x.addr e) 0 32 v.toNat) } }
  | 1 => setMgmt s m { g with msix := { x with addr := tput 0 x.addr e (setFld (tget 0 x.addr e) 32 32 v.toNat) } }
  | 2 => setMgmt s m { g with msix := { x with data := tput 0 x.data e v } }
  | _ => setVecMask s m e (bitOf v 0)

/-- A write to the MSI-X table. -/
def writeMsixTable (s : State) (m : Fin 2) (o : Nat) (w : Width) (v : Word) : State :=
  match w with
  | .whole => writeMsixDword (writeMsixDword s m o (v.setWidth 32)) m (o + 4) ((v >>> 32).setWidth 32)
  | _ => writeMsixDword s m o (v.setWidth 32)

/-- A 4-byte word of the configuration header (R454); what the spec does not state of it is the port's own. -/
def cfgWord (s : State) (m : Fin 2) (i : Fin 16) : BitVec 32 :=
  let c := (getMgmt s m).cfg
  match i.val with
  | 0 => 0x51201E5C
  | 1 => (Config.cfgRest 1 &&& 0xFFFF0000) ||| c.command.setWidth 32
  | 2 => BitVec.ofNat 32 (0x120000 * 256 + revisionId)
  | 4 => (c.bar0.setWidth 32 : BitVec 32) ||| 0x4
  | 5 => (c.bar0 >>> 32).setWidth 32
  | 6 => (c.bar2.setWidth 32 : BitVec 32) ||| 0xC
  | 7 => (c.bar2 >>> 32).setWidth 32
  | 8 => 0
  | 9 => 0
  | n => Config.cfgRest n

/-- The same written: the Command register and the address bits of the two BARs, 64 MiB and 1 GiB large (R454; the writable bits are
PRESUMED from PCI Express, log 127). -/
def writeCfg (s : State) (m : Fin 2) (i : Fin 16) (v : BitVec 32) : State :=
  let g := getMgmt s m
  let c := g.cfg
  setMgmt s m { g with cfg := match i.val with
    | 1 => { c with command := v.setWidth 16 &&& 0x0546 }
    | 4 => { c with bar0 := setFld c.bar0 0 32 (v &&& 0xFC000000).toNat }
    | 5 => { c with bar0 := setFld c.bar0 32 32 v.toNat }
    | 6 => { c with bar2 := setFld c.bar2 0 32 (v &&& 0xC0000000).toNat }
    | 7 => { c with bar2 := setFld c.bar2 32 32 v.toNat }
    | _ => c }

/-- MSIX_UNMASK: a write of a table entry, which lies in BAR0 (R451, R489), or an access to configuration space. -/
def execMsixUnmask (m : Fin 2) (w : MsixWrite) (s : State) : Res :=
  let t := dropLatch s (.mgmt m)
  act (partyActs s (.mgmt m)) s
    (match w with
     | .entry v masked => if silent s none then turnAway t else setVecMask t m v.val masked
     | .control e f => setMsixControl t m e f
     | .cfgRead i => emit t (.read ((cfgWord t m i).setWidth 64))
     | .cfgWrite i v => writeCfg t m i v)

/-- A BAR0 write by a host (R455, R456): registers, the port's MSI-X table; elsewhere it is ignored. -/
def hostWrite (s : State) (m : Fin 2) (off : Nat) (w : Width) (v : Word) : State :=
  let t := dropLatch s (.mgmt m)
  let r := if off < 0x1000000 then regAt (off / 8 * 8) else none
  if !aligned off w || silent s r then turnAway t
  else if 0x1000000 ≤ off && off < 0x1008000 then writeMsixTable t m (off - 0x1000000) w v
  else match r with
    | none => t
    | some x => let u := enterWrite t (.mgmt m) x; writeReg64 u (.mgmt m) x (widen u x w v)

/-- REGISTER_WRITE. -/
def execRegisterWrite (by_ : Party) (off : BitVec 26) (w : Width) (v : Word) (s : State) : Res :=
  act (partyActs s by_) s
    (match by_ with
     | .mgmt m => hostWrite s m off.toNat w v
     | .core c =>
       match regAt off.toNat, w with
       | some r, .whole => if off.toNat < 0x1000000 then writeReg64 (enterWrite s (.core c) r) (.core c) r v else s
       | _, _ => s)

/-- A host's write of a whole register that lies in BAR0, at its place in the cycle: a switch halted on PLL_UNLOCK turns it away
outside PD_SEC (R451, R489). -/
def hostReg (s t : State) (by_ : Party) (r : Reg) (v : Word) : Res :=
  act (secClocked s) s (if silent s (some r) then turnAway t else writeReg64 t by_ r v)

/-- ERR_STATUS_CLEAR. -/
def execErrStatusClear (vec : Fin 49) (v : Word) (s : State) : Res :=
  hostReg s (atPlace placeW1c s) (.mgmt 0) (.errStatus vec.val) v

/-- ERR_MASK_WRITE. -/
def execErrMaskWrite (vec : Fin 49) (v : Word) (s : State) : Res :=
  hostReg s (atPlace placeW1c s) (.mgmt 0) (.errMask vec.val) v

/-- HMBX_IN_GO: GO with CORE written to HMBX_IN_CTL of a port. -/
def execHmbxInGo (m : Fin 2) (core : CoreNo) (s : State) : Res :=
  hostReg s (dropLatch (atPlace (placeHostMbx + m) s) (.mgmt m)) (.mgmt m) (.inCtl m) (packFields [(63, 1, 1), (0, 3, core.val)])

/-- HMBX_OUT_POP. -/
def execHmbxOutPop (m : Fin 2) (s : State) : Res :=
  hostReg s (dropLatch (afterPlace placeWo s) (.mgmt m)) (.mgmt m) (.outPop m) 0x8000000000000000

/-! ## BAR2 (R457-R459) -/

/-- The regions of BAR2. -/
inductive Bar2 where
  | ctl | store | hole | firn
  deriving DecidableEq, Repr

/-- The region of an offset, and its end. -/
def bar2Region (o : Nat) : Bar2 × Nat :=
  if o < 0x1000000 then (.ctl, 0x1000000)
  else if o < 0x1400000 then (.store, 0x1400000)
  else if o < 0x4000000 then (.hole, 0x4000000)
  else (.firn, 0x40000000)

/-- The Firn byte of an offset of the aperture (R457, R458). -/
def apertureByte (s : State) (m : Fin 2) (o : Nat) : Nat := (getMgmt s m).firnBase.toNat * 65536 + (o - 0x4000000)

/-- An access to the Firn aperture that completes with Unsupported Request (R457). -/
def firnTurned (s : State) (m : Fin 2) (o n : Nat) : Bool :=
  (bar2Region (o + n - 1)).1 == .firn &&
  (!firnOn s || decide (firnSize < apertureByte s m (max o 0x4000000) + (o + n - max o 0x4000000)))

/-- What an access of the aperture reaches takes requests now (R381, R385, R389). -/
def firnTakes (s : State) (m : Fin 2) (o n : Nat) : Bool :=
  (bar2Region (o + n - 1)).1 != .firn ||
  !firnWaits s (apertureByte s m (max o 0x4000000)) (o + n - max o 0x4000000)

/-- Bytes of BAR2 from an offset on: the bytes, whether poisoned or uncorrectable data of Firn is among them (a fault being met
in its first line), and the state after. -/
def bar2Bytes (s : State) (m : Fin 2) (o n : Nat) (fault : MemFault) : Nat → List Byte × Bool × State
  | 0 => ([], false, s)
  | k + 1 =>
    if n == 0 then ([], false, s) else
    let (r, e) := bar2Region o
    let len := min n (e - o)
    let (bs, p, t) := match r with
      | .ctl => (memBytes s.ctlMem o len, false, s)
      | .store => (memBytes s.progStore (o - 0x1000000) len, false, s)
      | .hole => (List.replicate len (0 : Byte), false, s)
      | .firn => firnReadF s (apertureByte s m o) len .stream (0x13 + m.val) fault (linesOf len)
    let (cs, p', t') := bar2Bytes t m (o + len) (n - len) fault k
    (bs ++ cs, p || p', t')

/-- The event of an error that a BAR2 read meets in an on-die memory, and whether its data is lost (R424). -/
def bar2Fault (s : State) (o : Nat) (fault : MemFault) : State × Bool :=
  match (bar2Region o).1, fault with
  | .ctl, .corrected => (cmsEvt s 0 1 0 0 o, false)
  | .ctl, .uncorrectable => (cmsEvt s 1 1 0 0 o, true)
  | .store, .corrected => (cmsEvt s 0 2 0 0 (o - 0x1000000), false)
  | .store, .uncorrectable => (cmsEvt s 1 2 0 0 (o - 0x1000000), true)
  | _, _ => (s, false)

/-- BAR2_READ. -/
def execBar2Read (m : Fin 2) (off : BitVec 30) (n : Nat) (fault : MemFault) (s : State) : Res :=
  let o := off.toNat
  let r := atPlace (placeReader (.mgmt m)) s
  let t := dropLatch r (.mgmt m)
  if !partyActs s (.mgmt m) || n == 0 || 4096 < n then .next s
  else if silent s none || 0x40000000 < o + n || firnTurned s m o n then .next (turnAway t)
  else if !firnTakes s m o n then .next s
  else
    let (bs, p, u) := bar2Bytes t m o n fault 4
    let (w, lost) := bar2Fault u o fault
    if lost then let (fs, x) := freeBytes w n; .next (emit x (.bytes fs true)) else .next (emit w (.bytes bs p))

/-- A byte of control memory that a BAR2 write may reach now (R457, R474). -/
def ctlOpen (s : State) (o : Nat) : Bool :=
  !inCode s o 1 && (!s.sec.waiting || decide (0x800000 ≤ o))

/-- Bytes written to control memory where a BAR2 write may. -/
def ctlWrite (s : State) (o : Nat) : List Byte → State
  | [] => s
  | b :: rest => ctlWrite (if ctlOpen s o then { s with ctlMem := memPut s.ctlMem o b } else s) (o + 1) rest

/-- Words written to the program store, those of LOADED programs passed over (R457). -/
def storeWrite (s : State) (o : Nat) (bs : List Byte) : Nat → State
  | 0 => s
  | k + 1 =>
    if bs.isEmpty then s else
    let t := if inLoaded s o 8 then s else { s with progStore := memPutBytes s.progStore o (bs.take 8) }
    storeWrite t (o + 8) (bs.drop 8) k

/-- Bytes written to Firn extent by extent, those of regions reserved at boot passed over (R457). -/
def firnHostWrite (s : State) (a : Nat) (bs : List Byte) (req : Nat) : Nat → State
  | 0 => s
  | k + 1 =>
    if bs.isEmpty then s else
    let len := min bs.length (65536 - a % 65536)
    let t := if isReservedExt (a / 65536) then s else firnWrite s a (bs.take len) .stream req (linesOf len)
    firnHostWrite t (a + len) (bs.drop len) req k

/-- A BAR2 write region by region. -/
def bar2Put (s : State) (m : Fin 2) (o : Nat) (bs : List Byte) (words : Bool) : Nat → State
  | 0 => s
  | k + 1 =>
    if bs.isEmpty then s else
    let (r, e) := bar2Region o
    let len := min bs.length (e - o)
    let now_ := bs.take len
    let t := match r with
      | .ctl => if pdOn s 2 then ctlWrite s o now_ else s
      | .store => if pdOn s 2 && words then storeWrite s (o - 0x1000000) now_ len else s
      | .hole => s
      | .firn => firnHostWrite s (apertureByte s m o) now_ (0x13 + m.val) (len / 65536 + 2)
    bar2Put t m (o + len) (bs.drop len) words k

/-- BAR2_WRITE: of at most Max_Payload_Size bytes (R453). -/
def execBar2Write (m : Fin 2) (off : BitVec 30) (bytes : List Byte) (s : State) : Res :=
  let o := off.toNat
  let n := bytes.length
  let r := atPlace (placeBar2 + m) s
  let t := dropLatch r (.mgmt m)
  if !partyActs s (.mgmt m) || n == 0 || 512 < n then .next s
  else if silent s none || 0x40000000 < o + n || firnTurned s m o n then .next (turnAway t)
  else if s.clk.halted then .next t
  else if !firnTakes s m o n then .next s
  else .next (bar2Put t m o bytes (o % 8 == 0 && n % 8 == 0) 4)

end Sys2Proof.Machine
end

