-- ==== Sys2Proof/Machine/Scalar.lean ====
section
/-! DEFINITION. The scalar instructions of a control core (R329, R330). Each command is one instruction standing at the
core's PC with these fields. -/

namespace Sys2Proof.Machine

/-- A three-register instruction (R329). -/
def alu3 (s : State) (c : CoreNo) (d a b : BitVec 6) (f : Word → Word → Word) : Res :=
  coreInstr s c (okReg d && okReg a && okReg b)
    (fun t => retire t c d (f (readReg (getCore t c) a) (readReg (getCore t c) b)))

/-- A register and immediate instruction (R329). -/
def aluImm (s : State) (c : CoreNo) (d a : BitVec 6) (v : Word) (f : Word → Word → Word) : Res :=
  coreInstr s c (okReg d && okReg a) (fun t => retire t c d (f (readReg (getCore t c) a) v))

/-- A shift by IMM [5:0]; the IMM bits above are unused (R325). -/
def shiftImm (s : State) (c : CoreNo) (d a : BitVec 6) (imm : BitVec 32) (f : Word → Nat → Word) : Res :=
  coreInstr s c (okReg d && okReg a && decide (imm.toNat < 64))
    (fun t => retire t c d (f (readReg (getCore t c) a) imm.toNat))

/-- A comparison's result. -/
def cond1 (p : Bool) : Word := if p then 1 else 0

/-- The high 64 bits of the unsigned product. -/
def mulHigh (a b : Word) : Word := BitVec.ofNat 64 ((a.toNat * b.toNat) >>> 64)

/-- divu of R330. -/
def divU (a b : Word) : Word := if b = 0 then BitVec.allOnes 64 else a / b

/-- remu of R330. -/
def remU (a b : Word) : Word := if b = 0 then a else a % b

/-- A conditional branch (R330): the target is counted in instructions. -/
def branchOn (s : State) (c : CoreNo) (a b : BitVec 6) (imm : BitVec 32) (p : Word → Word → Bool) : Res :=
  coreInstr s c (okReg a && okReg b) (fun t =>
    let k := getCore t c
    if p (readReg k a) (readReg k b) then setCore t c { k with pc := k.pc + immS imm * 8 } else setCore t c (nextPc k))

/-- ADD. -/
def execAdd (c : CoreNo) (d a b : BitVec 6) (s : State) : Res := alu3 s c d a b (· + ·)
/-- SUB. -/
def execSub (c : CoreNo) (d a b : BitVec 6) (s : State) : Res := alu3 s c d a b (· - ·)
/-- MUL. -/
def execMul (c : CoreNo) (d a b : BitVec 6) (s : State) : Res := alu3 s c d a b (· * ·)
/-- MULHU. -/
def execMulhu (c : CoreNo) (d a b : BitVec 6) (s : State) : Res := alu3 s c d a b mulHigh
/-- DIVU. -/
def execDivu (c : CoreNo) (d a b : BitVec 6) (s : State) : Res := alu3 s c d a b divU
/-- REMU. -/
def execRemu (c : CoreNo) (d a b : BitVec 6) (s : State) : Res := alu3 s c d a b remU
/-- AND. -/
def execAnd (c : CoreNo) (d a b : BitVec 6) (s : State) : Res := alu3 s c d a b (· &&& ·)
/-- OR. -/
def execOr (c : CoreNo) (d a b : BitVec 6) (s : State) : Res := alu3 s c d a b (· ||| ·)
/-- XOR. -/
def execXor (c : CoreNo) (d a b : BitVec 6) (s : State) : Res := alu3 s c d a b (· ^^^ ·)
/-- SHL, by b [5:0]. -/
def execShl (c : CoreNo) (d a b : BitVec 6) (s : State) : Res := alu3 s c d a b (fun x y => x <<< (y.toNat % 64))
/-- SHR. -/
def execShr (c : CoreNo) (d a b : BitVec 6) (s : State) : Res := alu3 s c d a b (fun x y => x >>> (y.toNat % 64))
/-- SAR. -/
def execSar (c : CoreNo) (d a b : BitVec 6) (s : State) : Res :=
  alu3 s c d a b (fun x y => BitVec.sshiftRight x (y.toNat % 64))
/-- SLT. -/
def execSlt (c : CoreNo) (d a b : BitVec 6) (s : State) : Res := alu3 s c d a b (fun x y => cond1 (BitVec.slt x y))
/-- SLTU. -/
def execSltu (c : CoreNo) (d a b : BitVec 6) (s : State) : Res := alu3 s c d a b (fun x y => cond1 (BitVec.ult x y))

/-- ADDI. -/
def execAddi (c : CoreNo) (d a : BitVec 6) (imm : BitVec 32) (s : State) : Res := aluImm s c d a (immS imm) (· + ·)
/-- ANDI, with IMM zero-extended. -/
def execAndi (c : CoreNo) (d a : BitVec 6) (imm : BitVec 32) (s : State) : Res := aluImm s c d a (immZ imm) (· &&& ·)
/-- ORI. -/
def execOri (c : CoreNo) (d a : BitVec 6) (imm : BitVec 32) (s : State) : Res := aluImm s c d a (immZ imm) (· ||| ·)
/-- XORI. -/
def execXori (c : CoreNo) (d a : BitVec 6) (imm : BitVec 32) (s : State) : Res := aluImm s c d a (immZ imm) (· ^^^ ·)
/-- SHLI. -/
def execShli (c : CoreNo) (d a : BitVec 6) (imm : BitVec 32) (s : State) : Res := shiftImm s c d a imm (· <<< ·)
/-- SHRI. -/
def execShri (c : CoreNo) (d a : BitVec 6) (imm : BitVec 32) (s : State) : Res := shiftImm s c d a imm (· >>> ·)
/-- SARI. -/
def execSari (c : CoreNo) (d a : BitVec 6) (imm : BitVec 32) (s : State) : Res := shiftImm s c d a imm BitVec.sshiftRight
/-- SLTI. -/
def execSlti (c : CoreNo) (d a : BitVec 6) (imm : BitVec 32) (s : State) : Res :=
  aluImm s c d a (immS imm) (fun x y => cond1 (BitVec.slt x y))
/-- SLTIU. -/
def execSltiu (c : CoreNo) (d a : BitVec 6) (imm : BitVec 32) (s : State) : Res :=
  aluImm s c d a (immS imm) (fun x y => cond1 (BitVec.ult x y))
/-- MOVHI: the low half of a, and IMM as the high half. -/
def execMovhi (c : CoreNo) (d a : BitVec 6) (imm : BitVec 32) (s : State) : Res :=
  aluImm s c d a (immZ imm) (fun x y => (x &&& 0xFFFFFFFF) ||| (y <<< 32))

/-- LD (R330): FUNC [1:0] size, [2] sign, [5:3] zero. -/
def execLd (c : CoreNo) (d a : BitVec 6) (func : BitVec 6) (imm : BitVec 32) (fault : MemFault) (s : State) : Res :=
  coreInstr s c (okReg d && okReg a && decide (func.toNat < 8) && func != 7) (fun t₀ =>
    let t := atPlace (placeRead + 2 + c) t₀
    let addr := readReg (getCore t c) a + immS imm
    let n := 2 ^ (func.toNat % 4)
    if addr.toNat % n != 0 then takeExc t c .misalign addr else
    match loadValue t c addr.toNat n fault with
    | .exc x u => takeExc u c x addr
    | .waits => t
    | .val v u => retire u c d (if func.toNat / 4 == 1 then BitVec.ofInt 64 (sintOf (8 * n) v) else BitVec.ofNat 64 v))

/-- ST (R330): FUNC [1:0] size, every other FUNC bit zero. -/
def execSt (c : CoreNo) (a b : BitVec 6) (func : BitVec 6) (imm : BitVec 32) (s : State) : Res :=
  coreInstr s c (okReg a && okReg b && decide (func.toNat < 4)) (fun t₀ =>
    let t := atPlace (placeCore + c) t₀
    let k := getCore t c
    let addr := readReg k a + immS imm
    let n := 2 ^ func.toNat
    if addr.toNat % n != 0 then takeExc t c .misalign addr else
    match storeValue t c addr.toNat n (readReg k b) with
    | .exc x => takeExc t c x addr
    | .waits => t
    | .done u => setCore u c (nextPc (getCore u c)))

/-- BEQ. -/
def execBeq (c : CoreNo) (a b : BitVec 6) (imm : BitVec 32) (s : State) : Res := branchOn s c a b imm (fun x y => x == y)
/-- BNE. -/
def execBne (c : CoreNo) (a b : BitVec 6) (imm : BitVec 32) (s : State) : Res := branchOn s c a b imm (fun x y => x != y)
/-- BLT. -/
def execBlt (c : CoreNo) (a b : BitVec 6) (imm : BitVec 32) (s : State) : Res := branchOn s c a b imm BitVec.slt
/-- BGE. -/
def execBge (c : CoreNo) (a b : BitVec 6) (imm : BitVec 32) (s : State) : Res :=
  branchOn s c a b imm (fun x y => !(BitVec.slt x y))
/-- BLTU. -/
def execBltu (c : CoreNo) (a b : BitVec 6) (imm : BitVec 32) (s : State) : Res := branchOn s c a b imm BitVec.ult
/-- BGEU. -/
def execBgeu (c : CoreNo) (a b : BitVec 6) (imm : BitVec 32) (s : State) : Res :=
  branchOn s c a b imm (fun x y => !(BitVec.ult x y))

/-- JAL: d = PC + 8, and PC = PC + i × 8. -/
def execJal (c : CoreNo) (d : BitVec 6) (imm : BitVec 32) (s : State) : Res :=
  coreInstr s c (okReg d) (fun t =>
    let k := getCore t c
    setCore t c { writeReg k d (k.pc + 8) with pc := k.pc + immS imm * 8 })

/-- JALR: t = a + i, read before d is written. -/
def execJalr (c : CoreNo) (d a : BitVec 6) (imm : BitVec 32) (s : State) : Res :=
  coreInstr s c (okReg d && okReg a) (fun t =>
    let k := getCore t c
    setCore t c { writeReg k d (k.pc + 8) with pc := readReg k a + immS imm })

/-- ILLEGAL_OPCODE: a core meets a word that `decodeCore` refuses, a reserved opcode, a vector instruction, a reserved
function, a register value above 31 or an unused field that is not zero (R278, R286, R287, R325): ILLEGAL. A word that
spells an instruction of the core is that instruction's command, and leaves everything as it was here. -/
def execIllegalOpcode (c : CoreNo) (word : Word) (s : State) : Res :=
  if (decodeCore c word).isSome then .next s else coreInstr s c false id

/-- FETCH_FAULT: the PC cannot be fetched from (FETCH), or the fetched word is uncorrectable (MEM_UNCORR, R319,
R424). -/
def execFetchFault (c : CoreNo) (fault : MemFault) (s : State) : Res :=
  coreInstr s c true (fun t =>
    let pc := (getCore t c).pc
    match fault with
    | .corrected => cmsEvt t 0 1 0 0 (pc.toNat - 0x01000000)
    | .uncorrectable => takeExc (cmsEvt t 1 1 0 0 (pc.toNat - 0x01000000)) c .memUncorr pc
    | _ => t)

end Sys2Proof.Machine
end

