-- ==== Sys2Proof/Machine/VectorCmd.lean ====
section
/-! DEFINITION. The vector commands: one vector instruction on the registers and the run that a slice holds (R280, R281,
R290-R295, R333-R343, R353-R355, R372, R381). -/

namespace Sys2Proof.Machine

/-- The chunk that a slice's run works on. -/
def runChunk (r : RunCtx) : ChunkId :=
  { slot := ⟨r.slot % 16384, Nat.mod_lt _ (by decide)⟩, step := BitVec.ofNat 16 r.step, bucket := BitVec.ofNat 16 r.bucket
    chunk := BitVec.ofNat 20 r.chunk }

/-- The chunk of a run that cannot go on closes, where it is bound to the slice (R118, R295). -/
def closeRun (s : State) (sl : SliceNo) (st : RecStatus) : State :=
  let i := runChunk (getSlice s sl).run
  if (theChunk s i).slice == some sl.val && !isClosed (theChunk s i) then closeChunk s i st 0 else s

/-- An instruction of a run executed; VLD.S may meet a fault in Firn. -/
def vexecF (s : State) (sl : SliceNo) (o : VOp) (fault : MemFault) : State :=
  match o with
  | .ld g m d h off => vLd s sl g m d h off.toNat fault
  | _ => vexec s sl o

/-- The arena accesses of a cycle: every load before every store, the stores by slice (R342, R379). -/
def enterVec (s : State) (sl : SliceNo) (o : VOp) : State :=
  match o with
  | .ld .. => atPlace placeRead s
  | .st .. => atPlace (placeArena + sl) s
  | _ => s

/-- The run goes on with its next instruction (R340). -/
def nextInstr (x : Slice) : Slice := { x with run := { x.run with instr := x.run.instr + 1 } }

/-- One vector instruction on a slice. A slice that takes no work, or whose run has stopped (R295), executes nothing. An
instruction whose operands R298 rejects at load is in no LOADED program, and neither is a VEMIT in a step program (R352).
Where Firn takes no request the instruction waits (R381, R385, R389). An exception records PROG_EXC, and the chunk closes with
RETRY (R295); poisoned or uncorrectable data closes it with ARITH_CHECK (R372). -/
def vecCmd (s : State) (sl : SliceNo) (name : String) (o : VOp) (fault : MemFault) : Res :=
  if !(vLegal o) || (isEmit o && !(getSlice s sl).run.isFin) then .refused (.rejectedAtLoad name)
  else if !(isRunning s && sliceLive s sl) || runStopped (getSlice s sl) then .next s
  else
    let t := vexecF (enterVec s sl o) sl o fault
    let r := (getSlice t sl).run
    .next (if r.stalled then s
      else if r.exc.isSome then closeRun (progExcEvt t sl) sl .retry
      else if r.poisoned then closeRun t sl .arithCheck
      else onSlice t sl nextInstr)

/-- VADD (R334). -/
def execVadd (sl : SliceNo) (g : Fin 8) (t : VTy) (d : Fin 32) (a b : VSrc) (r : VRnd) (s : State) : Res :=
  vecCmd s sl "VADD" (.add g t d a b r) .none
/-- VSUB (R334). -/
def execVsub (sl : SliceNo) (g : Fin 8) (t : VTy) (d : Fin 32) (a b : VSrc) (r : VRnd) (s : State) : Res :=
  vecCmd s sl "VSUB" (.sub g t d a b r) .none
/-- VMUL (R334). -/
def execVmul (sl : SliceNo) (g : Fin 8) (t : VTy) (d : Fin 32) (a b : VSrc) (r : VRnd) (s : State) : Res :=
  vecCmd s sl "VMUL" (.mul g t d a b r) .none
/-- VFMA (R334). -/
def execVfma (sl : SliceNo) (g : Fin 8) (t : VTy) (d : Fin 32) (a b : VSrc) (r : VRnd) (s : State) : Res :=
  vecCmd s sl "VFMA" (.fma g t d a b r) .none
/-- VDIV (R334). -/
def execVdiv (sl : SliceNo) (g : Fin 8) (t : VTy) (d : Fin 32) (a b : VSrc) (r : VRnd) (s : State) : Res :=
  vecCmd s sl "VDIV" (.div g t d a b r) .none
/-- VSQRT (R334). -/
def execVsqrt (sl : SliceNo) (g : Fin 8) (t : VTy) (d : Fin 32) (a : VSrc) (r : VRnd) (s : State) : Res :=
  vecCmd s sl "VSQRT" (.sqrt g t d a r) .none
/-- VMAX (R334). -/
def execVmax (sl : SliceNo) (g : Fin 8) (t : VTy) (d : Fin 32) (a b : VSrc) (s : State) : Res :=
  vecCmd s sl "VMAX" (.max g t d a b) .none
/-- VMIN (R334). -/
def execVmin (sl : SliceNo) (g : Fin 8) (t : VTy) (d : Fin 32) (a b : VSrc) (s : State) : Res :=
  vecCmd s sl "VMIN" (.min g t d a b) .none
/-- VCMP (R336). -/
def execVcmp (sl : SliceNo) (g : Fin 8) (t : VTy) (d : Fin 8) (a b : VSrc) (c : VCond) (s : State) : Res :=
  vecCmd s sl "VCMP" (.cmp g t d a b c) .none
/-- VSEL (R337). -/
def execVsel (sl : SliceNo) (g : Fin 8) (t : VTy) (d : Fin 32) (a : VSrc) (p : Fin 8) (imm : BitVec 32) (s : State) : Res :=
  vecCmd s sl "VSEL" (.sel g t d a p imm) .none
/-- VCVT (R338). -/
def execVcvt (sl : SliceNo) (g : Fin 8) (t t' : VTy) (d : Fin 32) (a : VSrc) (r : VRnd) (s : State) : Res :=
  vecCmd s sl "VCVT" (.cvt g t t' d a r) .none
/-- VQNT (R339). -/
def execVqnt (sl : SliceNo) (g : Fin 8) (t : VTy) (d : Fin 32) (a : VSrc) (f : VFmt) (r : VRnd) (s : State) : Res :=
  vecCmd s sl "VQNT" (.qnt g t d a f r) .none
/-- VDQT (R339). -/
def execVdqt (sl : SliceNo) (g : Fin 8) (t : VTy) (d : Fin 32) (a : VSrc) (f : VFmt) (s : State) : Res :=
  vecCmd s sl "VDQT" (.dqt g t d a f) .none
/-- VLD.S (R341). -/
def execVldS (sl : SliceNo) (g : Fin 8) (m : VMode) (d : Fin 32) (h : Hint) (at_ : ArenaRead) (s : State) : Res :=
  vecCmd s sl "VLD_S" (.ld g m d h at_.off) at_.fault
/-- VST.S (R341). -/
def execVstS (sl : SliceNo) (g : Fin 8) (m : VMode) (a : VSrc) (h : Hint) (off : BitVec 30) (s : State) : Res :=
  vecCmd s sl "VST_S" (.st g m a h off) .none
/-- VEMIT (R343, R353-R355). -/
def execVemit (sl : SliceNo) (g : Fin 8) (t : VTy) (a : VSrc) (st : VStream) (s : State) : Res :=
  vecCmd s sl "VEMIT" (.emit g t a st) .none

end Sys2Proof.Machine
end

