-- ==== Sys2Proof/Machine/Dispatch.lean ====
section
/-! DEFINITION. The dispatch of the commands: one arm for each constructor of `Instr`, each one call of its meaning. -/

namespace Sys2Proof.Machine

/-- The effect of a command on the state. -/
def exec (i : Instr) (s : State) : Host.Outcome State Fault Refusal :=
  match i with
  | .frameReceive p f wire age started => Sys2Proof.Machine.execFrameReceive p f wire age started s
  | .contribDispatch pg => Sys2Proof.Machine.execContribDispatch pg s
  | .intakeAccept sl pg => Sys2Proof.Machine.execIntakeAccept sl pg s
  | .seracContribProcess sl fault => Sys2Proof.Machine.execSeracContribProcess sl fault s
  | .finRun c fault => Sys2Proof.Machine.execFinRun c fault s
  | .resultBuild c fault => Sys2Proof.Machine.execResultBuild c fault s
  | .recordSend slot step rank => Sys2Proof.Machine.execRecordSend slot step rank s
  | .messageSend dest => Sys2Proof.Machine.execMessageSend dest s
  | .deadlineExpiry slot step => Sys2Proof.Machine.execDeadlineExpiry slot step s
  | .chunkCloseAtExpiry c fault => Sys2Proof.Machine.execChunkCloseAtExpiry c fault s
  | .grpAbort slot => Sys2Proof.Machine.execGrpAbort slot s
  | .ackReceive => Sys2Proof.Machine.execAckReceive s
  | .nackReceive copyFault => Sys2Proof.Machine.execNackReceive copyFault s
  | .busyReceive => Sys2Proof.Machine.execBusyReceive s
  | .lateReceive => Sys2Proof.Machine.execLateReceive s
  | .noticeReceive => Sys2Proof.Machine.execNoticeReceive s
  | .resendTimeout dest msg copyFault => Sys2Proof.Machine.execResendTimeout dest msg copyFault s
  | .barrierArrival => Sys2Proof.Machine.execBarrierArrival s
  | .cqCredit => Sys2Proof.Machine.execCqCredit s
  | .groupctlProgramOp => Sys2Proof.Machine.execGroupctlProgramOp s
  | .groupctlReservedOp => Sys2Proof.Machine.execGroupctlReservedOp s
  | .dataToSwitch => Sys2Proof.Machine.execDataToSwitch s
  | .resultToSwitch => Sys2Proof.Machine.execResultToSwitch s
  | .transitPartialFrame sl fault => Sys2Proof.Machine.execTransitPartialFrame sl fault s
  | .partialSilenceTimeout src msg => Sys2Proof.Machine.execPartialSilenceTimeout src msg s
  | .combineContrib sl fault => Sys2Proof.Machine.execCombineContrib sl fault s
  | .combWindowSeal c => Sys2Proof.Machine.execCombWindowSeal c s
  | .combBusyRetry dest msg copyFault => Sys2Proof.Machine.execCombBusyRetry dest msg copyFault s
  | .combCtlWrite v => Sys2Proof.Machine.execCombCtlWrite v s
  | .frameStart p fault => Sys2Proof.Machine.execFrameStart p fault s
  | .frameDepart p cellLost => Sys2Proof.Machine.execFrameDepart p cellLost s
  | .creditSymbolReceive p c1 c2 c3 => Sys2Proof.Machine.execCreditSymbolReceive p c1 c2 c3 s
  | .creditRefresh p => Sys2Proof.Machine.execCreditRefresh p s
  | .initRepeat p => Sys2Proof.Machine.execInitRepeat p s
  | .initReservationFit p => Sys2Proof.Machine.execInitReservationFit p s
  | .ksTimeout k => Sys2Proof.Machine.execKsTimeout k s
  | .keystoneQuietRelease k => Sys2Proof.Machine.execKeystoneQuietRelease k s
  | .gateEntryAdvance p => Sys2Proof.Machine.execGateEntryAdvance p s
  | .gateGo p v => Sys2Proof.Machine.execGateGo p v s
  | .gateSwitchover p => Sys2Proof.Machine.execGateSwitchover p s
  | .portEnable p v => Sys2Proof.Machine.execPortEnable p v s
  | .portDisable p v => Sys2Proof.Machine.execPortDisable p v s
  | .signalDetect lane => Sys2Proof.Machine.execSignalDetect lane s
  | .trainingSetReceive lane first rest => Sys2Proof.Machine.execTrainingSetReceive lane first rest s
  | .alignmentMarkerReceive lane c0 c1 c2 c3 delay => Sys2Proof.Machine.execAlignmentMarkerReceive lane c0 c1 c2 c3 delay s
  | .fillerPairReceive p level bad => Sys2Proof.Machine.execFillerPairReceive p level bad s
  | .trainingTimeout p => Sys2Proof.Machine.execTrainingTimeout p s
  | .retryWaitExpiry p => Sys2Proof.Machine.execRetryWaitExpiry p s
  | .linkLoss p cause => Sys2Proof.Machine.execLinkLoss p cause s
  | .fastRetrainTimeout p => Sys2Proof.Machine.execFastRetrainTimeout p s
  | .holdTimeout p => Sys2Proof.Machine.execHoldTimeout p s
  | .retrain p => Sys2Proof.Machine.execRetrain p s
  | .lnkGrpSplitWrite g v => Sys2Proof.Machine.execLnkGrpSplitWrite g v s
  | .portCredWrite p vc v => Sys2Proof.Machine.execPortCredWrite p vc v s
  | .swEpWrite v => Sys2Proof.Machine.execSwEpWrite v s
  | .eyeScanGo lane v => Sys2Proof.Machine.execEyeScanGo lane v s
  | .eyeScanDone lane mismatches => Sys2Proof.Machine.execEyeScanDone lane mismatches s
  | .viaductCellReceive v toPier ok => Sys2Proof.Machine.execViaductCellReceive v toPier ok s
  | .vdctRetrain v => Sys2Proof.Machine.execVdctRetrain v s
  | .vdctRetrainDone v ok => Sys2Proof.Machine.execVdctRetrainDone v ok s
  | .timeLoadCell pier => Sys2Proof.Machine.execTimeLoadCell pier s
  | .bpmAllocGrant req link => Sys2Proof.Machine.execBpmAllocGrant req link s
  | .allocExt link => Sys2Proof.Machine.execAllocExt link s
  | .freeExt ext => Sys2Proof.Machine.execFreeExt ext s
  | .retireExt ext => Sys2Proof.Machine.execRetireExt ext s
  | .bpmCmdReserved op => Sys2Proof.Machine.execBpmCmdReserved op s
  | .neveThreadDone => Sys2Proof.Machine.execNeveThreadDone s
  | .firnTrainDone failed => Sys2Proof.Machine.execFirnTrainDone failed s
  | .firnThreadDone => Sys2Proof.Machine.execFirnThreadDone s
  | .sliceSetWrite v => Sys2Proof.Machine.execSliceSetWrite v s
  | .chunkMove c => Sys2Proof.Machine.execChunkMove c s
  | .sliceFatal sl busy => Sys2Proof.Machine.execSliceFatal sl busy s
  | .tableCommitCycle c => Sys2Proof.Machine.execTableCommitCycle c s
  | .remapCopyDone row => Sys2Proof.Machine.execRemapCopyDone row s
  | .add c d a b => Sys2Proof.Machine.execAdd c d a b s
  | .sub c d a b => Sys2Proof.Machine.execSub c d a b s
  | .mul c d a b => Sys2Proof.Machine.execMul c d a b s
  | .mulhu c d a b => Sys2Proof.Machine.execMulhu c d a b s
  | .divu c d a b => Sys2Proof.Machine.execDivu c d a b s
  | .remu c d a b => Sys2Proof.Machine.execRemu c d a b s
  | .and c d a b => Sys2Proof.Machine.execAnd c d a b s
  | .or c d a b => Sys2Proof.Machine.execOr c d a b s
  | .xor c d a b => Sys2Proof.Machine.execXor c d a b s
  | .shl c d a b => Sys2Proof.Machine.execShl c d a b s
  | .shr c d a b => Sys2Proof.Machine.execShr c d a b s
  | .sar c d a b => Sys2Proof.Machine.execSar c d a b s
  | .slt c d a b => Sys2Proof.Machine.execSlt c d a b s
  | .sltu c d a b => Sys2Proof.Machine.execSltu c d a b s
  | .addi c d a imm => Sys2Proof.Machine.execAddi c d a imm s
  | .andi c d a imm => Sys2Proof.Machine.execAndi c d a imm s
  | .ori c d a imm => Sys2Proof.Machine.execOri c d a imm s
  | .xori c d a imm => Sys2Proof.Machine.execXori c d a imm s
  | .shli c d a imm => Sys2Proof.Machine.execShli c d a imm s
  | .shri c d a imm => Sys2Proof.Machine.execShri c d a imm s
  | .sari c d a imm => Sys2Proof.Machine.execSari c d a imm s
  | .slti c d a imm => Sys2Proof.Machine.execSlti c d a imm s
  | .sltiu c d a imm => Sys2Proof.Machine.execSltiu c d a imm s
  | .movhi c d a imm => Sys2Proof.Machine.execMovhi c d a imm s
  | .ld c d a func imm fault => Sys2Proof.Machine.execLd c d a func imm fault s
  | .st c a b func imm => Sys2Proof.Machine.execSt c a b func imm s
  | .beq c a b imm => Sys2Proof.Machine.execBeq c a b imm s
  | .bne c a b imm => Sys2Proof.Machine.execBne c a b imm s
  | .blt c a b imm => Sys2Proof.Machine.execBlt c a b imm s
  | .bge c a b imm => Sys2Proof.Machine.execBge c a b imm s
  | .bltu c a b imm => Sys2Proof.Machine.execBltu c a b imm s
  | .bgeu c a b imm => Sys2Proof.Machine.execBgeu c a b imm s
  | .jal c d imm => Sys2Proof.Machine.execJal c d imm s
  | .jalr c d a imm => Sys2Proof.Machine.execJalr c d a imm s
  | .dregR c d a imm => Sys2Proof.Machine.execDregR c d a imm s
  | .dregW c a b imm => Sys2Proof.Machine.execDregW c a b imm s
  | .tblW c a b func imm => Sys2Proof.Machine.execTblW c a b func imm s
  | .tblR c d a func imm fault => Sys2Proof.Machine.execTblR c d a func imm fault s
  | .tblCommit c d => Sys2Proof.Machine.execTblCommit c d s
  | .mbxRecv c d => Sys2Proof.Machine.execMbxRecv c d s
  | .mbxSend c d a b => Sys2Proof.Machine.execMbxSend c d a b s
  | .mbxRelease c a => Sys2Proof.Machine.execMbxRelease c a s
  | .mbxCount c d => Sys2Proof.Machine.execMbxCount c d s
  | .wait c d imm => Sys2Proof.Machine.execWait c d imm s
  | .waitResume c => Sys2Proof.Machine.execWaitResume c s
  | .timeRead c d => Sys2Proof.Machine.execTimeRead c d s
  | .timeArm c a => Sys2Proof.Machine.execTimeArm c a s
  | .timeDisarm c => Sys2Proof.Machine.execTimeDisarm c s
  | .timerDue c => Sys2Proof.Machine.execTimerDue c s
  | .fenceSt c => Sys2Proof.Machine.execFenceSt c s
  | .fenceAll c => Sys2Proof.Machine.execFenceAll c s
  | .fenceDev c => Sys2Proof.Machine.execFenceDev c s
  | .vadd sl g t d a b r => Sys2Proof.Machine.execVadd sl g t d a b r s
  | .vsub sl g t d a b r => Sys2Proof.Machine.execVsub sl g t d a b r s
  | .vmul sl g t d a b r => Sys2Proof.Machine.execVmul sl g t d a b r s
  | .vfma sl g t d a b r => Sys2Proof.Machine.execVfma sl g t d a b r s
  | .vdiv sl g t d a b r => Sys2Proof.Machine.execVdiv sl g t d a b r s
  | .vsqrt sl g t d a r => Sys2Proof.Machine.execVsqrt sl g t d a r s
  | .vmax sl g t d a b => Sys2Proof.Machine.execVmax sl g t d a b s
  | .vmin sl g t d a b => Sys2Proof.Machine.execVmin sl g t d a b s
  | .vcmp sl g t d a b c => Sys2Proof.Machine.execVcmp sl g t d a b c s
  | .vsel sl g t d a p imm => Sys2Proof.Machine.execVsel sl g t d a p imm s
  | .vcvt sl g t t' d a r => Sys2Proof.Machine.execVcvt sl g t t' d a r s
  | .vqnt sl g t d a f r => Sys2Proof.Machine.execVqnt sl g t d a f r s
  | .vdqt sl g t d a f => Sys2Proof.Machine.execVdqt sl g t d a f s
  | .vldS sl g m d h at_ => Sys2Proof.Machine.execVldS sl g m d h at_ s
  | .vstS sl g m a h off => Sys2Proof.Machine.execVstS sl g m a h off s
  | .vemit sl g t a st => Sys2Proof.Machine.execVemit sl g t a st s
  | .coreStart c v => Sys2Proof.Machine.execCoreStart c v s
  | .coreStop c v => Sys2Proof.Machine.execCoreStop c v s
  | .devTimeOfsWrite v => Sys2Proof.Machine.execDevTimeOfsWrite v s
  | .devTimeLowRead m => Sys2Proof.Machine.execDevTimeLowRead m s
  | .e2eWinClr ep => Sys2Proof.Machine.execE2eWinClr ep s
  | .fenceAdd ep => Sys2Proof.Machine.execFenceAdd ep s
  | .fenceRemove ep => Sys2Proof.Machine.execFenceRemove ep s
  | .arenaCopyIn k => Sys2Proof.Machine.execArenaCopyIn k s
  | .arenaCopyOut k => Sys2Proof.Machine.execArenaCopyOut k s
  | .arenaPut slot => Sys2Proof.Machine.execArenaPut slot s
  | .arenaBadOp op slot => Sys2Proof.Machine.execArenaBadOp op slot s
  | .arenaCmdDone => Sys2Proof.Machine.execArenaCmdDone s
  | .hmbxInGo m core => Sys2Proof.Machine.execHmbxInGo m core s
  | .hmbxOutPop m => Sys2Proof.Machine.execHmbxOutPop m s
  | .flashRead v => Sys2Proof.Machine.execFlashRead v s
  | .flashWrite v => Sys2Proof.Machine.execFlashWrite v s
  | .flashCmdDone data => Sys2Proof.Machine.execFlashCmdDone data s
  | .bootMbxGo v => Sys2Proof.Machine.execBootMbxGo v s
  | .attGo => Sys2Proof.Machine.execAttGo s
  | .attDone => Sys2Proof.Machine.execAttDone s
  | .frnMarginGo st v => Sys2Proof.Machine.execFrnMarginGo st v s
  | .frnMarginDone st fails => Sys2Proof.Machine.execFrnMarginDone st fails s
  | .frnThermWrite st v => Sys2Proof.Machine.execFrnThermWrite st v s
  | .dieThermWrite v => Sys2Proof.Machine.execDieThermWrite v s
  | .errStatusClear vec v => Sys2Proof.Machine.execErrStatusClear vec v s
  | .errMaskWrite vec v => Sys2Proof.Machine.execErrMaskWrite vec v s
  | .rcRead by_ off w => Sys2Proof.Machine.execRcRead by_ off w s
  | .registerWrite by_ off w v => Sys2Proof.Machine.execRegisterWrite by_ off w v s
  | .readbackRead m w => Sys2Proof.Machine.execReadbackRead m w s
  | .bar2Read m off n fault => Sys2Proof.Machine.execBar2Read m off n fault s
  | .bar2Write m off bytes => Sys2Proof.Machine.execBar2Write m off bytes s
  | .pwrCtlWrite by_ v => Sys2Proof.Machine.execPwrCtlWrite by_ v s
  | .powerDomainReady bit => Sys2Proof.Machine.execPowerDomainReady bit s
  | .pdFault bit => Sys2Proof.Machine.execPdFault bit s
  | .powerOnReset e => Sys2Proof.Machine.execPowerOnReset e s
  | .perst0Assert => Sys2Proof.Machine.execPerst0Assert s
  | .perst1Assert => Sys2Proof.Machine.execPerst1Assert s
  | .warmReset by_ => Sys2Proof.Machine.execWarmReset by_ s
  | .thaw => Sys2Proof.Machine.execThaw s
  | .bootRomStart flash puf => Sys2Proof.Machine.execBootRomStart flash puf s
  | .bootImageChecked src => Sys2Proof.Machine.execBootImageChecked src s
  | .pllUnlock => Sys2Proof.Machine.execPllUnlock s
  | .supply rail low => Sys2Proof.Machine.execSupply rail low s
  | .dieThermalReading t => Sys2Proof.Machine.execDieThermalReading t s
  | .frnThermalReading st t => Sys2Proof.Machine.execFrnThermalReading st t s
  | .refresh ch => Sys2Proof.Machine.execRefresh ch s
  | .idcPoll st counts => Sys2Proof.Machine.execIdcPoll st counts s
  | .aliveOutToggle => Sys2Proof.Machine.execAliveOutToggle s
  | .firnBurstRead addr raw req => Sys2Proof.Machine.execFirnBurstRead addr raw req s
  | .firnWriteback line => Sys2Proof.Machine.execFirnWriteback line s
  | .smbusStatusRead => Sys2Proof.Machine.execSmbusStatusRead s
  | .smbusTempRead => Sys2Proof.Machine.execSmbusTempRead s
  | .smbusPowerRead => Sys2Proof.Machine.execSmbusPowerRead s
  | .smbusResetCauseRead => Sys2Proof.Machine.execSmbusResetCauseRead s
  | .smbusIdRead => Sys2Proof.Machine.execSmbusIdRead s
  | .smbusDeviceIdRead => Sys2Proof.Machine.execSmbusDeviceIdRead s
  | .smbusBadCommand badPec => Sys2Proof.Machine.execSmbusBadCommand badPec s
  | .idcode => Sys2Proof.Machine.execIdcode s
  | .samplePreload pins => Sys2Proof.Machine.execSamplePreload pins s
  | .extest => Sys2Proof.Machine.execExtest s
  | .extestPulse => Sys2Proof.Machine.execExtestPulse s
  | .extestTrain => Sys2Proof.Machine.execExtestTrain s
  | .highz => Sys2Proof.Machine.execHighz s
  | .clamp => Sys2Proof.Machine.execClamp s
  | .bypass code => Sys2Proof.Machine.execBypass code s
  | .tapReset => Sys2Proof.Machine.execTapReset s
  | .perstRelease m => Sys2Proof.Machine.execPerstRelease m s
  | .msixUnmask m w => Sys2Proof.Machine.execMsixUnmask m w s
  | .idleCharacterReceive lane code => Sys2Proof.Machine.execIdleCharacterReceive lane code s
  | .illegalOpcode c word => Sys2Proof.Machine.execIllegalOpcode c word s
  | .fetchFault c fault => Sys2Proof.Machine.execFetchFault c fault s

end Sys2Proof.Machine
end

