-- ==== Sys2Proof/WellFormed.lean ====
section
/-! DEFINITION. Which commands are well formed: the operands that the spec's fields admit (R287, R298, R325, R352 to
R355 for the operands of instructions; R307, R457 for the sizes of accesses). -/

namespace Sys2Proof

/-- What can be wrong with a command's operands, by name. -/
inductive Flaw where
  /-- a register field above 31 (R287) -/
  | register
  /-- a reserved size or form in FUNC (R330, R331) -/
  | func
  /-- IMM bits that the instruction does not use are not zero (R325) -/
  | immediate
  /-- a vector instruction that R298 rejects at load -/
  | vector
  /-- a BAR2 access of no bytes, or of more than a port takes (R453, R457) -/
  | size
  deriving DecidableEq, Repr

/-- The general-register fields of a core's instruction. -/
def Instr.regs : Instr → List (BitVec 6)
  | .add _ d a b | .sub _ d a b | .mul _ d a b | .mulhu _ d a b | .divu _ d a b | .remu _ d a b | .and _ d a b
  | .or _ d a b | .xor _ d a b | .shl _ d a b | .shr _ d a b | .sar _ d a b | .slt _ d a b | .sltu _ d a b => [d, a, b]
  | .addi _ d a _ | .andi _ d a _ | .ori _ d a _ | .xori _ d a _ | .shli _ d a _ | .shri _ d a _ | .sari _ d a _
  | .slti _ d a _ | .sltiu _ d a _ | .movhi _ d a _ => [d, a]
  | .ld _ d a _ _ _ => [d, a]
  | .st _ a b _ _ => [a, b]
  | .beq _ a b _ | .bne _ a b _ | .blt _ a b _ | .bge _ a b _ | .bltu _ a b _ | .bgeu _ a b _ => [a, b]
  | .jal _ d _ => [d]
  | .jalr _ d a _ => [d, a]
  | .dregR _ d a _ => [d, a]
  | .dregW _ a b _ => [a, b]
  | .tblW _ a b _ _ => [a, b]
  | .tblR _ d a _ _ _ => [d, a]
  | .tblCommit _ d => [d]
  | .mbxRecv _ d => [d]
  | .mbxSend _ d a b => [d, a, b]
  | .mbxRelease _ a => [a]
  | .mbxCount _ d => [d]
  | .wait _ d _ => [d]
  | .timeRead _ d => [d]
  | .timeArm _ a => [a]
  | _ => []

/-- FUNC of a core's instruction keeps to its form. -/
def Instr.funcOk : Instr → Bool
  | .ld _ _ _ f _ _ => decide (f.toNat < 7)
  | .st _ _ _ f _ => decide (f.toNat < 4)
  | _ => true

/-- The IMM bits a core's instruction leaves unused are zero. -/
def Instr.immOk : Instr → Bool
  | .shli _ _ _ i | .shri _ _ _ i | .sari _ _ _ i => decide (i.toNat < 64)
  | .tblW _ _ _ _ i | .wait _ _ i => decide (i.toNat < 8)
  | .tblR _ _ _ _ i _ => decide (i.toNat < 8)
  | _ => true

/-- A destination pair begins at an even register from 2 on (R316). -/
def Instr.pairOk : Instr → Bool
  | .mbxRecv _ d => d.toNat % 2 == 0 && decide (2 ≤ d.toNat)
  | _ => true

/-- The vector instruction that a vector command executes. -/
def Instr.vop : Instr → Option VOp
  | .vadd _ g t d a b r => some (.add g t d a b r)
  | .vsub _ g t d a b r => some (.sub g t d a b r)
  | .vmul _ g t d a b r => some (.mul g t d a b r)
  | .vfma _ g t d a b r => some (.fma g t d a b r)
  | .vdiv _ g t d a b r => some (.div g t d a b r)
  | .vsqrt _ g t d a r => some (.sqrt g t d a r)
  | .vmax _ g t d a b => some (.max g t d a b)
  | .vmin _ g t d a b => some (.min g t d a b)
  | .vcmp _ g t d a b c => some (.cmp g t d a b c)
  | .vsel _ g t d a p i => some (.sel g t d a p i)
  | .vcvt _ g t t' d a r => some (.cvt g t t' d a r)
  | .vqnt _ g t d a f r => some (.qnt g t d a f r)
  | .vdqt _ g t d a f => some (.dqt g t d a f)
  | .vldS _ g m d h x => some (.ld g m d h x.off)
  | .vstS _ g m a h o => some (.st g m a h o)
  | .vemit _ g t a s => some (.emit g t a s)
  | _ => none

/-- The access size of a BAR2 command is one that a port takes (R453). -/
def Instr.sizeOk : Instr → Bool
  | .bar2Read _ _ n _ => decide (0 < n) && decide (n ≤ 4096)
  | .bar2Write _ _ bs => !bs.isEmpty && decide (bs.length ≤ 512)
  | _ => true

/-- The first flaw of a command. -/
def Instr.flaw (i : Instr) : Option Flaw :=
  if !i.regs.all (fun r => decide (r.toNat < 32)) || !i.pairOk then some .register
  else if !i.funcOk then some .func
  else if !i.immOk then some .immediate
  else if !(match i.vop with | some o => Machine.vLegal o | none => true) then some .vector
  else if !i.sizeOk then some .size
  else none

/-- A command without a flaw. -/
def Instr.wellFormed (i : Instr) : Bool := i.flaw.isNone

end Sys2Proof
end

