-- ==== Sys2Proof/Safety.lean ====
section
/-! DEFINITION. The terms that the claims use: the memories' canonical form, when a core, a slice, a unit of the switch
can act, and what a step leaves as it was. -/

namespace Sys2Proof.Machine

/-- Every memory of the switch is in canonical form: control memory, the program store, Firn and the eight local
memories. -/
def State.memWf (s : State) : Prop :=
  s.ctlMem.wf = true ∧ s.progStore.wf = true ∧ s.firn.wf = true ∧ ∀ c : CoreNo, (getCore s c).localMem.wf = true

/-- A core that issues the instruction at its PC: the switch runs, PD_CTL is on, the core is RUNNING and in no commit
(R304, R323, R444), and its PC can be fetched from (R283). -/
def coreReady (s : State) (c : CoreNo) : Prop :=
  isRunning s = true ∧ pdOn s 2 = true ∧ (getCore s c).st = .running ∧ (getCore s c).committing = none ∧
  fetchable s (getCore s c).pc = true

/-- Device commands can act: the switch runs and PD_CTL is on. -/
def ctlReady (s : State) : Prop := isRunning s = true ∧ pdOn s 2 = true

/-- A slice that executes a vector instruction: it works, and its run has not stopped (R295). -/
def sliceReady (s : State) (sl : SliceNo) : Prop :=
  isRunning s = true ∧ sliceLive s sl = true ∧ runStopped (getSlice s sl) = false

/-- Nothing but the cores and what a fault event reaches has changed: every other field is as it was. -/
def onlyCores (s t : State) : Prop := t = { s with cores := t.cores }

/-- Only the fault records, with their MSI-X messages, the cores' latches, the record of the cycle and that of the outside, have
changed. -/
def onlyFaultRecords (s t : State) : Prop :=
  t = { s with cores := t.cores, errs := t.errs, mgmt := t.mgmt, out := t.out, cyc := t.cyc, clk := { s.clk with fatalSeen := t.clk.fatalSeen } }

/-- Only what the end of a cycle reaches has changed: the count of cycles and the record of the cycle; the timers that have come due; the
free lists, with the link words that free extents hold in Firn; the refusals of the work that waits for buffers; and what an event of
such a write leaves. -/
def onlyCycle (s t : State) : Prop :=
  t = { s with
    cyc := t.cyc, clk := { s.clk with cycles := t.clk.cycles, fatalSeen := t.clk.fatalSeen }, bpm := t.bpm, firn := t.firn
    firnPoison := t.firnPoison, firnErr := t.firnErr, frn := t.frn, cores := t.cores, errs := t.errs, mgmt := t.mgmt, out := t.out
    freeCtr := t.freeCtr, denied := t.denied, wants := t.wants }

/-- Every core but one is as it was. -/
def otherCores (s t : State) (c : CoreNo) : Prop := ∀ c', c' ≠ c → getCore t c' = getCore s c'

/-- The canonical form of a sparse table whose unlisted entries read as `d` of their key: keys strictly rising, no entry equal to what
an unlisted one reads as (log 13). -/
def keyedWf {α : Type} (d : Nat → α) (m : SMap α) : Prop := tsorted none m = true ∧ ∀ kv ∈ m, kv.2 ≠ d kv.1

/-- The same where all unlisted entries read alike. -/
def sparse {α : Type} [DecidableEq α] (d : α) (m : SMap α) : Prop := twf d m = true

/-- The registers of a slice, and what its run has emitted, in canonical form. -/
def sliceWf (x : Slice) : Prop := sparse 0 x.v ∧ sparse 0 x.p ∧ sparse none x.run.emitted ∧ sparse none x.run.scales

/-- What a home keeps for a group in canonical form: its rings, its steps and their chunks. -/
def groupWf (g : Group) : Prop := sparse none g.rings ∧ sparse {} g.steps ∧ ∀ st, sparse {} (getStep g st).chunks

/-- The committed tables of R308 in canonical form. -/
def tablesWf (t : Tables) : Prop :=
  sparse 0 t.gidx ∧ sparse descZero t.desc ∧ sparse 0 t.member ∧ sparse 0 t.bucket ∧ sparse 0 t.homes ∧ sparse (0, 0) t.gcnt ∧
  sparse windowReset t.window ∧ sparse 0 t.route ∧ sparse 0 t.ecmp ∧ keyedWf quotaReset t.quota ∧ sparse policerReset t.policer ∧
  sparse gateReset t.gate ∧ sparse 0 t.prog ∧ sparse 0 t.remap ∧ sparse false t.poison

/-- The free lists and the extents' states in canonical form. -/
def bpmWf (b : Bpm) : Prop :=
  sparse [] b.freed ∧ sparse 0 b.fresh ∧ sparse none b.links ∧ sparse false b.extAlloc ∧ sparse false b.retired

/-- The record of a cycle in canonical form. -/
def cycWf (c : Cyc) : Prop :=
  sparse none c.wasOff ∧ sparse none c.lost ∧ sparse false c.switched ∧ sparse 0 c.infos ∧ sparse false c.calls ∧ sparse 0 c.outs

/-- The MSI-X structures of a port in canonical form. -/
def msixWf (x : Msix) : Prop := sparse 0 x.addr ∧ sparse 0 x.data ∧ sparse false x.unmasked ∧ sparse false x.pending

/-- Every sparse table of the state in canonical form: keys strictly rising, and no listed entry equal to what an unlisted one reads as
(log 13). -/
def State.sorted (s : State) : Prop :=
  (sparse {} s.ports ∧ sparse {} s.lanes ∧ sparse {} s.groups ∧ sparse none s.combs ∧ sparse 0 s.msgCtr ∧
    sparse windowClear s.windows ∧ sparse none s.neve ∧ sparse 0 s.neveHeld ∧ sparse 0 s.firnHeld ∧ sparse 0 s.denied ∧
    sparse 0 s.drops ∧ sparse none s.copies ∧ sparse 0 s.ecmpPtr ∧ sparse (0, 0, 0) s.polTok ∧ sparse 0 s.split ∧ sparse {} s.piers ∧
    sparse false s.fences ∧ sparse false s.firnPoison ∧ sparse .none s.firnErr ∧ sparse none s.remapFrom ∧ sparse {} s.refreshes ∧
    keyedWf errReset s.errs ∧ sparse false s.clk.prefOff) ∧
  tablesWf s.tbl ∧ bpmWf s.bpm ∧ cycWf s.cyc ∧ (∀ slot, groupWf (getGroup s slot)) ∧ (∀ sl, sliceWf (getSlice s sl)) ∧
  (∀ m, msixWf (getMgmt s m).msix) ∧ ∀ k, sparse [] (getStack s k).cache

/-- A core whose commit is under way is RUNNING (R312, R322). -/
def State.coresWf (s : State) : Prop := ∀ c : CoreNo, (getCore s c).committing ≠ none → (getCore s c).st = .running

/-- What every step keeps: the memories in canonical form, the tables in order, commits on running cores alone. -/
def State.wf (s : State) : Prop := s.memWf ∧ s.sorted ∧ s.coresWf

/-- Nothing but the slices has changed, and of these one. -/
def onlySlice (s t : State) (sl : SliceNo) : Prop :=
  t = { s with slices := t.slices } ∧ ∀ k, k ≠ sl → getSlice t k = getSlice s k

/-- What a byte of Firn reads as: as the cache holds it, else as it lies in the stacks (R373). -/
def firnByte (s : State) (a : Nat) : Byte :=
  match findLine s (a / 256 * 256) with
  | some (l, _) => if bitOf l.valid (a % 256) then lineByte l.data (a % 256) else rawGet s (firnPhys s a)
  | none => rawGet s (firnPhys s a)

/-- Sound stacks with nothing cached: no burst in error, and no two bytes in one place. -/
def plainFirn (s : State) : Prop :=
  (∀ k, (getStack s k).cache = []) ∧ s.firnErr = [] ∧ ∀ a b, firnPhys s a = firnPhys s b → a = b

/-- The value of a number: a rational, or an infinity below or above them all; of a NaN, none that a claim uses. -/
def FV.value : FV → WithBot (WithTop ℚ)
  | .nan _ _ _ => ⊥
  | .inf s => if s then ⊥ else ((⊤ : WithTop ℚ) : WithBot (WithTop ℚ))
  | .fin s m e => (((((if s then -1 else 1) * (m : ℚ) * (2 : ℚ) ^ e : ℚ)) : WithTop ℚ) : WithBot (WithTop ℚ))

/-- Lane `i` of a register, or of a pair, of a type (R280). -/
def laneOf (x : Slice) (t : VTy) (n i : Nat) : Nat := (typedLanes x t n).getD i 0

/-- Lane `i` of a vector source of a type (R288, R293). -/
def srcLane (x : Slice) (t : VTy) (a : VSrc) (i : Nat) : Nat := (srcLanes x t a).getD i 0

/-- What an instruction with a vector destination leaves (R281): the governed lanes hold their results, every other lane
of the destination and every other register stays, the predicates stay, and the run goes on to its next instruction and
changes in nothing else but its flags, to which the flags of the lanes governed and in P1 are added. -/
def governed (x y : Slice) (g : Nat) (t : VTy) (d : Nat) (f : Nat → Nat × Flags) : Prop :=
  (∀ i, i < 256 → laneOf y t d i = if bitOf (pget x g) i then (f i).1 % 2 ^ vtyBits t else laneOf x t d i) ∧
  (∀ n, n ≠ d → (vtyWide t = true → n ≠ d + 1) → vget y n = vget x n) ∧
  y = { x with v := y.v, run := { x.run with flags := y.run.flags, instr := x.run.instr + 1 } } ∧
  (∀ j, bitOf y.run.flags j = (bitOf x.run.flags j ||
    (List.range 256).any fun i => bitOf (pget x g) i && bitOf (pget x 1) i && bitOf (f i).2 j))

/-- The allotments written for the ports of a port group, but for one VC of one port (R229). -/
def allotOthers (s : State) (p : Nat) (c : Fin 8) : Nat :=
  ((((List.range 4).map (fun i => 4 * (p / 4) + i)).filter (portExists s)).map (fun q =>
    ((List.range 8).map (fun n => if q == p && n == c.val then 0 else (getVc (getPort s q) (fin8 n)).allot.toNat)).sum)).sum

/-- A command answers a next state of which something holds. -/
def answers (r : Res) (P : State → Prop) : Prop := ∃ t, r = .next t ∧ P t

end Sys2Proof.Machine
end

