-- ==== Sys2Proof/Certificates/Slice0/Obligations.lean ====
section
/-! DEFINITION. The statements about the switch, in the order of the spec's files. -/

open Sys2Proof Sys2Proof.Machine

/-! ## The queue and the clock -/

/-- A step takes the command at the front of the queue and runs it on the state with the queue's rest. -/
def Obligations.StepRunsFrontCommand : Prop :=
  ∀ (c : Instr) (s : State), step { s with pending := c :: s.pending } = exec c s

/-- With an empty queue a step is one cycle of CLK_CORE: the count rises while the switch runs under PLL lock, and the timers
that are due then stay pending; a new cycle begins; the buffers freed in the old one stand on their lists, but for retired
extents and for those whose link word waits for Firn, which stay freed; work that waits for buffers and is refused counts once
in DENIED; and nothing else changes. The model's choice (notes/assumptions/2). -/
def Obligations.EmptyQueueIsOneCycle : Prop :=
  ∀ s : State, s.pending = [] → answers (step s) fun t =>
    let goes := fun x : Nat => isRetired s x = false ∧ burstWaits s (x * 65536) = false
    let ticks := s.clk.running = true ∧ s.clk.pllLock = true
    onlyCycle s t ∧
    t.cyc = { freedExts := s.cyc.freedExts.filter (fun xq => !isRetired s xq.1 && burstWaits s (xq.1 * 65536)) } ∧
    t.clk.cycles = (if ticks then s.clk.cycles + 1 else s.clk.cycles) ∧
    (∀ c, (getCore t c).timer = if ticks then timerPending t (getCore s c) else (getCore s c).timer) ∧
    (∀ x ∈ s.cyc.freedCells, x ∈ tget [] t.bpm.freed (x % 256)) ∧
    (∀ x q, s.cyc.freedExts = [(x, q)] → goes x → t.bpm.extHead = some x) ∧
    (∀ w, s.sorted → isRunning s = true → s.wants = [w] → w.job ∈ s.jobs → w.job ∉ s.cyc.refused → askFits s w.ask = false →
      ∀ q, tget 0 t.denied q = if q = askRefused s w.ask then min (tget 0 s.denied q + 1) 0xFFFF else tget 0 s.denied q) ∧
    (s.cyc.freedCells = [] → (∀ xq ∈ s.cyc.freedExts, ¬ goes xq.1) → t = { s with
      cyc := t.cyc, clk := { s.clk with cycles := t.clk.cycles }, cores := t.cores, denied := t.denied, wants := t.wants } ∧
      ∀ c, getCore t c = { getCore s c with timer := (getCore t c).timer })

/-- No command reaches into the queue: after every step that answers, the queue holds what stood behind the front. -/
def Obligations.StepsKeepQueueOrder : Prop :=
  ∀ s t : State, step s = .next t → t.pending = s.pending.tail

/-- Every step keeps every memory and every sparse table of the state in canonical form, keys strictly rising and no listed entry
equal to what an unlisted one reads as (notes/assumptions/13), and commits on running cores alone. -/
def Obligations.StepsKeepForm : Prop :=
  ∀ s t : State, s.wf → step s = .next t → t.wf

/-- The state at reset: memories and tables in their form, nothing pending, and the values that R12, R438, R440 and the
Reset columns give: cores in RESET with nothing staged, the switch held without PLL lock and PWR_OK, no domain switching, every
port OFF with EN 0, no cell of its VCs sent, owed or returned, no group's state and no step open, no error recorded and class C
masked, no MSI-X vector enabled or pending. SLICE_SET and PWR_STAT.ON are those of the grade that the straps hold before they are
first sampled, which is the model's choice (notes/assumptions/8). -/
def Obligations.ResetState : Prop :=
  let s := State.reset
  s.wf ∧ s.pending = [] ∧ s.clk.running = false ∧ s.clk.pllLock = false ∧ s.clk.pwrOk = false ∧ s.clk.halted = false ∧
  s.clk.cycles = 0 ∧ s.clk.ofs = 0 ∧ s.clk.pwrSwitching = [] ∧
  (∀ c, (getCore s c).st = .reset ∧ (getCore s c).stage = [] ∧ (getCore s c).mbx = [] ∧ (getCore s c).cmp = none) ∧
  (∀ p, (getPort s p).st = .off ∧ bitOf (getPort s p).ctl 63 = false ∧ (getPort s p).ctl = 0x10000000000A4CB8) ∧
  (∀ p c, (getVc (getPort s p) c).sent = 0 ∧ (getVc (getPort s p) c).ret = 0 ∧ (getVc (getPort s p) c).cum = 0 ∧
    (getVc (getPort s p) c).gotInit = false ∧ (getCls (getPort s p) c).q = []) ∧
  (∀ slot, (getGroup s slot).gid = none ∧ ∀ n, (getStep (getGroup s slot) n).st = .idle) ∧
  (∀ v, (getErr s v).status = 0 ∧ (getErr s v).mask = (errBits v).2.2) ∧
  (∀ m, (getMgmt s m).msix.enable = false ∧ (getMgmt s m).msix.pending = [] ∧ (getMgmt s m).latch = none) ∧
  s.fab.combCtl = 0x8000000000000A8C ∧ s.fab.e2eCtl = 0x80000000000034BC ∧ s.fab.ksCtl = 0x00041EB000000A8C ∧
  s.clk.straps = 5 ∧ s.fab.sliceSet = 0x0FFFF ∧ s.clk.pwrOn = 0x3FFFFFFF ∧
  (∀ k, (getStack s k).cache = [] ∧ (getStack s k).level = 0)

/-- A step never stops on a well-formed command that is no VEMIT outside a FIN run. -/
def Obligations.WellFormedCommandsAnswer : Prop :=
  ∀ (i : Instr) (s : State), i.wellFormed = true →
    (∀ sl g t a st, i = .vemit sl g t a st → (getSlice s sl).run.isFin = true) →
    answers (exec i s) fun _ => True

/-- A vector instruction that R298 rejects at load is refused, as no slice ever runs it. -/
def Obligations.RejectedVectorOpsAreRefused : Prop :=
  ∀ (i : Instr) (s : State), (∃ o, i.vop = some o ∧ vLegal o = false) → ∃ m, exec i s = .refused (.rejectedAtLoad m)

/-- The vector words: the decoder reads back every instruction that the encoder writes, every operand at every value. -/
def Obligations.VectorWordsRoundTrip : Prop := ∀ o : VOp, decodeVec (encodeVec o) = some o

/-- A word that decodes is the word of what it decodes to: no bit of it is ignored (R325). -/
def Obligations.VectorDecodeReadsEveryBit : Prop := ∀ (w : Word) (o : VOp), decodeVec w = some o → encodeVec o = w

/-! ## Scalar instructions (R279, R287, R319, R320, R329, R330) -/

/-- A result written with the PC's advance: the register, G0 discarded, and nothing else of the switch. -/
def Obligations.RetireWritesOneRegister : Prop :=
  ∀ (s : State) (c : CoreNo) (d : BitVec 6) (v : Word), okReg d = true →
    let t := retire s c d v
    onlyCores s t ∧ otherCores s t c ∧
    getCore t c = { getCore s c with regs := (getCore t c).regs, pc := (getCore s c).pc + 8 } ∧
    (∀ r : BitVec 6, okReg r = true →
      readReg (getCore t c) r = if r = d ∧ d ≠ 0 then v else readReg (getCore s c) r)

/-- The general registers of a control core (R279): a register holds the 64-bit value last written to it and no write
reaches another; G0 reads as zero and discards what is written. They keep their values when a core stops (WAIT 0, STOP, an
exception), through every command while it is HALTED or STOPPED but one that resets the core, and through START. After
every reset they hold zero. -/
def Obligations.GeneralRegisters : Prop :=
  (∀ (k : Core) (v : Word), readReg k 0 = 0 ∧ writeReg k 0 v = k ∧
    ∀ d r : BitVec 6, okReg d = true → okReg r = true → d ≠ 0 → readReg (writeReg k d v) r = if r = d then v else readReg k r) ∧
  (∀ (s : State) (c : CoreNo) (v addr : Word) (x : Exc),
    answers (exec (.coreStart c v) s) (fun t => (getCore t c).regs = (getCore s c).regs) ∧
    answers (exec (.coreStop c v) s) (fun t => (getCore t c).regs = (getCore s c).regs) ∧
    (getCore (takeExc s c x addr) c).regs = (getCore s c).regs ∧
    (coreReady s c → answers (exec (.wait c 0 0) s) fun t => (getCore t c).st = .halted ∧ (getCore t c).regs = (getCore s c).regs)) ∧
  (∀ (i : Instr) (s t : State) (c : CoreNo), s.coresWf → ((getCore s c).st = .halted ∨ (getCore s c).st = .stopped) → exec i s = .next t →
    (getCore t c).regs = (getCore s c).regs ∨
      ((getCore t c).st = .reset ∧ ∀ r : BitVec 6, readReg (getCore t c) r = 0)) ∧
  (∀ (s : State) (i : Instr) (by_ : Party) (g : BitVec 3),
    (i = .powerOnReset .falls ∨ (i = .powerOnReset (.rises g) ∧ s.clk.pwrOk = false) ∨
      (i = .perst0Assert ∧ (getMgmt s 0).perst = false ∧ s.clk.pwrOk = true ∧ bitOf s.clk.rstCfg 63 = true) ∨
      (i = .perst1Assert ∧ (getMgmt s 1).perst = false ∧ s.clk.pwrOk = true ∧ bitOf s.clk.rstCfg 62 = true) ∨
      (i = .warmReset by_ ∧ partyActs s by_ = true)) →
    answers (exec i s) fun t => ∀ (c : CoreNo) (r : BitVec 6), readReg (getCore t c) r = 0) ∧
  ∀ (c : CoreNo) (r : BitVec 6), readReg (getCore State.reset c) r = 0

/-- The three-register instructions of R329 complete with its results and nothing but the destination and the PC. -/
def Obligations.RegisterArithmeticResults : Prop :=
  ∀ (s : State) (c : CoreNo) (d a b : BitVec 6), coreReady s c →
    okReg d = true → okReg a = true → okReg b = true →
    let x := readReg (getCore s c) a
    let y := readReg (getCore s c) b
    exec (.add c d a b) s = .next (retire s c d (x + y)) ∧
    exec (.sub c d a b) s = .next (retire s c d (x - y)) ∧
    exec (.mul c d a b) s = .next (retire s c d (BitVec.ofNat 64 (x.toNat * y.toNat))) ∧
    exec (.mulhu c d a b) s = .next (retire s c d (BitVec.ofNat 64 (x.toNat * y.toNat / 2 ^ 64))) ∧
    exec (.divu c d a b) s =
      .next (retire s c d (if y = 0 then 0xFFFFFFFFFFFFFFFF else BitVec.ofNat 64 (x.toNat / y.toNat))) ∧
    exec (.remu c d a b) s = .next (retire s c d (if y = 0 then x else BitVec.ofNat 64 (x.toNat % y.toNat))) ∧
    exec (.and c d a b) s = .next (retire s c d (x &&& y)) ∧
    exec (.or c d a b) s = .next (retire s c d (x ||| y)) ∧
    exec (.xor c d a b) s = .next (retire s c d (x ^^^ y)) ∧
    exec (.shl c d a b) s = .next (retire s c d (x <<< (y &&& 63))) ∧
    exec (.shr c d a b) s = .next (retire s c d (x >>> (y &&& 63))) ∧
    exec (.sar c d a b) s = .next (retire s c d (x.sshiftRight (y &&& 63).toNat)) ∧
    exec (.slt c d a b) s = .next (retire s c d (if x.toInt < y.toInt then 1 else 0)) ∧
    exec (.sltu c d a b) s = .next (retire s c d (if x.toNat < y.toNat then 1 else 0))

/-- The register and immediate instructions of R329 complete with its results. -/
def Obligations.ImmediateArithmeticResults : Prop :=
  ∀ (s : State) (c : CoreNo) (d a : BitVec 6) (imm : BitVec 32), coreReady s c → okReg d = true → okReg a = true →
    let x := readReg (getCore s c) a
    let i : Word := imm.signExtend 64
    let z : Word := imm.setWidth 64
    exec (.addi c d a imm) s = .next (retire s c d (x + i)) ∧
    exec (.andi c d a imm) s = .next (retire s c d (x &&& z)) ∧
    exec (.ori c d a imm) s = .next (retire s c d (x ||| z)) ∧
    exec (.xori c d a imm) s = .next (retire s c d (x ^^^ z)) ∧
    exec (.slti c d a imm) s = .next (retire s c d (if x.toInt < i.toInt then 1 else 0)) ∧
    exec (.sltiu c d a imm) s = .next (retire s c d (if x.toNat < i.toNat then 1 else 0)) ∧
    exec (.movhi c d a imm) s = .next (retire s c d ((x &&& 0xFFFFFFFF) ||| (z <<< 32))) ∧
    (imm.toNat < 64 →
      exec (.shli c d a imm) s = .next (retire s c d (x <<< imm.toNat)) ∧
      exec (.shri c d a imm) s = .next (retire s c d (x >>> imm.toNat)) ∧
      exec (.sari c d a imm) s = .next (retire s c d (x.sshiftRight imm.toNat)))

/-- Branches and jumps: the new PC, the link register, and nothing else. -/
def Obligations.BranchAndJumpTargets : Prop :=
  ∀ (s : State) (c : CoreNo) (d a b : BitVec 6) (imm : BitVec 32), coreReady s c →
    okReg d = true → okReg a = true → okReg b = true →
    let k := getCore s c
    let x := readReg k a
    let y := readReg k b
    let i : Word := imm.signExtend 64
    let go := fun p : Bool => setCore s c { k with pc := if p then k.pc + i * 8 else k.pc + 8 }
    exec (.beq c a b imm) s = .next (go (x == y)) ∧
    exec (.bne c a b imm) s = .next (go (x != y)) ∧
    exec (.blt c a b imm) s = .next (go (decide (x.toInt < y.toInt))) ∧
    exec (.bge c a b imm) s = .next (go (decide (y.toInt ≤ x.toInt))) ∧
    exec (.bltu c a b imm) s = .next (go (decide (x.toNat < y.toNat))) ∧
    exec (.bgeu c a b imm) s = .next (go (decide (y.toNat ≤ x.toNat))) ∧
    exec (.jal c d imm) s = .next (setCore s c { writeReg k d (k.pc + 8) with pc := k.pc + i * 8 }) ∧
    exec (.jalr c d a imm) s = .next (setCore s c { writeReg k d (k.pc + 8) with pc := x + i })

/-- LD, at its place among the reads of a cycle: the value of the addressed bytes, extended as FUNC says, in the destination;
misaligned, MISALIGN; elsewhere what the memory answers. In the three on-die memories the value is the bytes there,
little-endian. -/
def Obligations.LoadResults : Prop :=
  ∀ (s : State) (c : CoreNo) (d a func : BitVec 6) (imm : BitVec 32) (fault : MemFault), coreReady s c →
    okReg d = true → okReg a = true → func.toNat < 7 →
    let r := atPlace (placeRead + 2 + c) s
    let addr := readReg (getCore s c) a + imm.signExtend 64
    let n := 2 ^ (func.toNat % 4)
    let ext := fun v : Nat => if 4 ≤ func.toNat then BitVec.ofInt 64 (sintOf (8 * n) v) else BitVec.ofNat 64 v
    (addr.toNat % n ≠ 0 → exec (.ld c d a func imm fault) s = .next (takeExc r c .misalign addr)) ∧
    (addr.toNat % n = 0 → exec (.ld c d a func imm fault) s =
      match loadValue r c addr.toNat n fault with
      | .val v t => .next (retire t c d (ext v))
      | .exc x t => .next (takeExc t c x addr)
      | .waits => .next r) ∧
    (addr.toNat % n = 0 → addr.toNat < 0x40000 → exec (.ld c d a func imm .none) s =
      .next (retire r c d (ext (leNat (memBytes (getCore s c).localMem addr.toNat n))))) ∧
    (addr.toNat % n = 0 → 0x01000000 ≤ addr.toNat → addr.toNat < 0x02000000 → exec (.ld c d a func imm .none) s =
      .next (retire r c d (ext (leNat (memBytes s.ctlMem (addr.toNat - 0x01000000) n))))) ∧
    (addr.toNat % n = 0 → 0x02000000 ≤ addr.toNat → addr.toNat < 0x02400000 → exec (.ld c d a func imm .none) s =
      .next (retire r c d (ext (leNat (memBytes s.progStore (addr.toNat - 0x02000000) n)))))

/-- ST into a core's local memory and into control memory outside the code region: the low bytes of the register stand at
the address, every other byte and everything else is as it was at the store's place in its cycle, and the PC advances. -/
def Obligations.StoreResultsAndFrame : Prop :=
  ∀ (s : State) (c : CoreNo) (a b func : BitVec 6) (imm : BitVec 32), s.memWf → coreReady s c →
    okReg a = true → okReg b = true → func.toNat < 4 →
    let r := atPlace (placeCore + c) s
    let addr := (readReg (getCore s c) a + imm.signExtend 64).toNat
    let n := 2 ^ func.toNat
    let v := readReg (getCore s c) b
    addr % n = 0 →
    (addr < 0x40000 → answers (exec (.st c a b func imm) s) fun t =>
      onlyCores r t ∧ otherCores r t c ∧
      getCore t c = { getCore r c with localMem := (getCore t c).localMem, pc := (getCore s c).pc + 8 } ∧
      ∀ j, memGet (getCore t c).localMem j =
        if addr ≤ j ∧ j < addr + n then BitVec.ofNat 8 (v.toNat / 256 ^ (j - addr)) else memGet (getCore s c).localMem j) ∧
    (0x01000000 ≤ addr → addr < 0x02000000 → inCode s (addr - 0x01000000) n = false →
      answers (exec (.st c a b func imm) s) fun t =>
        t = { r with cores := t.cores, ctlMem := t.ctlMem } ∧ otherCores r t c ∧
        getCore t c = { getCore r c with pc := (getCore s c).pc + 8 } ∧
        ∀ j, memGet t.ctlMem j =
          if addr - 0x01000000 ≤ j ∧ j < addr - 0x01000000 + n then BitVec.ofNat 8 (v.toNat / 256 ^ (j - (addr - 0x01000000)))
          else memGet s.ctlMem j)

/-- Where ST takes an exception: misaligned, MISALIGN; into the code region, into the Neve window, into an unmapped address,
into Firn reserved at boot or switched off, and into the program store with less than a doubleword or into a LOADED program,
ACCESS. -/
def Obligations.StoreExceptions : Prop :=
  ∀ (s : State) (c : CoreNo) (a b func : BitVec 6) (imm : BitVec 32), coreReady s c →
    okReg a = true → okReg b = true → func.toNat < 4 →
    let r := atPlace (placeCore + c) s
    let w := readReg (getCore s c) a + imm.signExtend 64
    let addr := w.toNat
    let n := 2 ^ func.toNat
    (addr % n ≠ 0 → exec (.st c a b func imm) s = .next (takeExc r c .misalign w)) ∧
    (addr % n = 0 →
      ((0x01000000 ≤ addr ∧ addr < 0x02000000 ∧ inCode s (addr - 0x01000000) n = true) ∨
        (0x02000000 ≤ addr ∧ addr < 0x02400000 ∧ (n ≠ 8 ∨ inLoaded s (addr - 0x02000000) 8 = true)) ∨
        (0x04000000 ≤ addr ∧ addr < 0x0E000000) ∨
        (0x40000 ≤ addr ∧ addr < 0x01000000) ∨ (0x02400000 ≤ addr ∧ addr < 0x04000000) ∨
        (0x0E000000 ≤ addr ∧ addr < 0x10000000000) ∨ 0x13000000000 ≤ addr ∨
        (0x10000000000 ≤ addr ∧ addr < 0x13000000000 ∧
          (firnOn r = false ∨ isReservedExt ((addr - 0x10000000000) / 65536) = true))) →
      exec (.st c a b func imm) s = .next (takeExc r c .access w))

/-- An exception: the core is STOPPED with the cause, its PC and registers stay, its bit of CTL_ERR_STATUS is set, the
other cores go on, and nothing else but fault records changes. -/
def Obligations.ExceptionStopsOneCore : Prop :=
  ∀ (s : State) (c : CoreNo) (x : Exc) (addr : Word), pdOn s 2 = true →
    let t := takeExc s c x addr
    onlyFaultRecords s t ∧
    (getCore t c).st = .stopped ∧ (getCore t c).cause = x.code ∧ (getCore t c).pc = (getCore s c).pc ∧
    (getCore t c).regs = (getCore s c).regs ∧ (getCore t c).stage = (getCore s c).stage ∧
    (getCore t c).mbx = (getCore s c).mbx ∧
    bitOf (getErr t 46).status c.val = true ∧
    (∀ c', c' ≠ c → getCore t c' = { getCore s c' with faultLatch := (getCore t c').faultLatch })

/-- ILLEGAL: a word that is no instruction of a core stops it (a reserved or a vector opcode, a reserved function of MBX or TIME,
a register field above 31, an unused field or IMM bit that is not zero), and so does such an operand of a command; a PC that
cannot be fetched from stops the core with FETCH; an uncorrectable instruction word with MEM_UNCORR. That a word which decodes
leaves the ILLEGAL_OPCODE command without effect, and that ADDR is the PC for ILLEGAL and FETCH, are the model's readings
(notes/assumptions/14 and notes/assumptions/15). A TBL.R of an entry whose memory is lost takes MEM_UNCORR and clears nothing (R426, and for the
tables in Firn notes/assumptions/62). -/
def Obligations.IllegalAndFetchExceptions : Prop :=
  ∀ (s : State) (c : CoreNo) (d a b : BitVec 6) (imm : BitVec 32) (w : Word), isRunning s = true → pdOn s 2 = true →
    (getCore s c).st = .running → (getCore s c).committing = none →
    let pc := (getCore s c).pc
    let opc := fld w 56 8
    let func := fld w 32 6
    (fetchable s pc = true →
      ((opc = 0 ∨ 0x80 ≤ opc ∨ (opc = 0x48 ∧ 4 ≤ func) ∨ (opc = 0x4D ∧ 3 ≤ func) ∨
        ((opc = 0x01 ∨ opc = 0x48 ∨ opc = 0x4D ∨ opc = 0x60) ∧ w.toNat % 2 ^ 32 ≠ 0) ∨
        (opc = 0x01 ∧ 32 ≤ fld w 50 6) ∨ (opc = 0x4D ∧ fld w 38 6 ≠ 0) ∨ (opc = 0x29 ∧ fld w 50 6 ≠ 0)) →
        exec (.illegalOpcode c w) s = .next (takeExc s c .illegal pc)) ∧
      (decodeCore c w = none → exec (.illegalOpcode c w) s = .next (takeExc s c .illegal pc)) ∧
      (∀ i, decodeCore c w = some i → exec (.illegalOpcode c w) s = .next s)) ∧
    (fetchable s pc = true → okReg d = false → exec (.add c d a b) s = .next (takeExc s c .illegal pc)) ∧
    (fetchable s pc = true → 64 ≤ imm.toNat → exec (.shli c d a imm) s = .next (takeExc s c .illegal pc)) ∧
    (fetchable s pc = false → ∀ f, exec (.fetchFault c f) s = .next (takeExc s c .fetch pc)) ∧
    (fetchable s pc = true → answers (exec (.fetchFault c .uncorrectable) s) fun t =>
      (getCore t c).st = .stopped ∧ (getCore t c).cause = 10 ∧ (getCore t c).pc = pc) ∧
    (∀ func id i w f, fetchable s pc = true → okReg d = true → okReg a = true → imm.toNat < 8 →
      tblPlace func (readReg (getCore s c) a) imm.toNat = some (id, i, w) → isPoisoned s id i = true →
      exec (.tblR c d a func imm f) s = .next (takeExc (atPlace (placeRead + 2 + c) s) c .memUncorr 0))

/-! ## Tables, mailboxes, events, fences, starting and stopping (R302, R307 to R318, R322) -/

/-- TBL.W stages one word: the core sees it, the committed tables and every other staged word stay; a store that is full
takes STAGE_FULL, an entry or word that does not exist TABLE, and one that nothing uses (R247, R259) is passed over. -/
def Obligations.TableWriteStages : Prop :=
  ∀ (s : State) (c : CoreNo) (a b func : BitVec 6) (imm : BitVec 32), coreReady s c →
    okReg a = true → okReg b = true → imm.toNat < 8 →
    let k := getCore s c
    let v := readReg k b
    match tblPlace func (readReg k a) imm.toNat with
    | none => exec (.tblW c a b func imm) s = .next (takeExc s c .table 0)
    | some (id, i, w) =>
      let unused := quotaHole id i || (id == 0x0B && policerHole i)
      (unused = true → exec (.tblW c a b func imm) s = .next (setCore s c (nextPc k))) ∧
      (unused = false → stagedVal k id i w = none → k.stage.length = 4096 →
        exec (.tblW c a b func imm) s = .next (takeExc s c .stageFull 0)) ∧
      (unused = false → ((stagedVal k id i w).isSome = true ∨ k.stage.length < 4096) →
        answers (exec (.tblW c a b func imm) s) fun t =>
          onlyCores s t ∧ otherCores s t c ∧
          getCore t c = { k with stage := (getCore t c).stage, pc := k.pc + 8 } ∧
          ∀ id' i' w', stagedVal (getCore t c) id' i' w' =
            if id' = id ∧ i' = i ∧ w' = w then some v else stagedVal k id' i' w')

/-- TBL.R of an entry whose memory is sound returns what the reading core sees (R310): the staged value with the word's
RO and RC bits from the committed entry where the core itself has staged the word, else the committed word; what another
core has staged makes no difference; the RC bits of the word are cleared in the committed table, and no other word of a
table changes. -/
def Obligations.TableReadValue : Prop :=
  ∀ (s : State) (c : CoreNo) (d a func : BitVec 6) (imm : BitVec 32) (id i w : Nat), s.sorted → coreReady s c →
    okReg d = true → okReg a = true → imm.toNat < 8 →
    tblPlace func (readReg (getCore s c) a) imm.toNat = some (id, i, w) →
    let r := atPlace (placeRead + 2 + c) s
    let sees := match stagedVal (getCore s c) id i w with
      | some v => (tblWord s id i w &&& ~~~(tblMask id i w)) ||| (v &&& tblMask id i w)
      | none => tblWord s id i w
    let rc : Word := if id = 6 ∨ (id = 0xB ∧ 2 ≤ w) then 0xFFFFFFFFFFFFFFFF else if id = 0xA ∧ w = 2 then 0xFFFFFFFF else 0
    isPoisoned s id i = false →
      exec (.tblR c d a func imm .none) s = .next (retire (tblClearRc r id i w) c d sees) ∧
      (∀ (c' : CoreNo) (st : List Staged), c' ≠ c →
        let s' := setCore s c' { getCore s c' with stage := st }
        exec (.tblR c d a func imm .none) s' = .next (retire (tblClearRc (atPlace (placeRead + 2 + c) s') id i w) c d sees)) ∧
      ∀ id' i' w' n m, tblShape id' = some (n, m) → w' < m → tblWord (retire (tblClearRc r id i w) c d sees) id' i' w' =
        if id' = id ∧ i' = i ∧ w' = w then tblWord s id i w &&& ~~~rc else tblWord s id' i' w'

/-- TBL.COMMIT blocks its core until the commit cycle that R311 gives it: nothing is committed yet, and the core's
registers, PC and staged words stay. In that cycle the staged words and their checks take effect at once, the result word
goes to the register, the staging store empties and the core goes on past the instruction. One staged route word alone
becomes the committed entry in its RW bits, with WORDS 1 as the whole result. -/
def Obligations.TableCommit : Prop :=
  ∀ (s : State) (c : CoreNo) (d : BitVec 6), okReg d = true →
    let k := getCore s c
    (coreReady s c →
      let r := atPlace (placeCore + c) s
      let due := max r.clk.cycles r.commitFree + commitLen r k.stage
      exec (.tblCommit c d) s =
        .next { r with commitFree := due + 1, cores := r.cores.set c { getCore r c with committing := some (d, due) } }) ∧
    (∀ due, isRunning s = true → k.committing = some (d, due) → due ≤ s.clk.cycles →
      (∀ (c' : CoreNo) (d' : BitVec 6) (n : Nat), (getCore s c').committing = some (d', n) → due ≤ n) →
      commitWaits s k.stage = false →
      let r := applyCommit (arenaAbort (syncTouched (atPlace (placeCommit + c) s) (touched k.stage 0x0C)) k.stage) k.stage checkProgram
      (answers (exec (.tableCommitCycle c) s) fun t =>
        t = { r.2 with cores := t.cores } ∧ otherCores r.2 t c ∧
        (getCore t c).stage = [] ∧ (getCore t c).committing = none ∧
        (getCore t c).pc = (getCore r.2 c).pc + 8 ∧
        (getCore t c).st = (if k.stopAfter then .halted else (getCore r.2 c).st) ∧
        (d ≠ 0 → readReg (getCore t c) d = r.1)) ∧
      (∀ (i : Nat) (v : Word), k.stage = [{ tbl := 8, idx := i, word := 0, val := v }] → s.sorted →
        answers (exec (.tableCommitCycle c) s) fun t =>
          (∀ j, tblWord t 8 j 0 =
            if j = i then (v &&& 0xC0000FFF) ||| (tblWord s 8 i 0 &&& 0x3FFFF000) else tblWord s 8 j 0) ∧
          (d ≠ 0 → readReg (getCore t c) d = 1 <<< 48)))

/-- MBX: RECV takes the oldest entry, or zeros; COUNT gives the number of entries; SEND puts an entry at the end of a
core's mailbox, its own too, or a word in the outbound mailbox of a MGMT port, with vector 49 when that was empty, or reports
it full; a destination that is none raises MBX. RELEASE gives up a held frame wherever it stands among those the core holds; a
cell that no frame it has received begins in raises MBX, that of a frame still in the mailbox too (notes/assumptions/21). -/
def Obligations.CoreMailboxFunctions : Prop :=
  ∀ (s : State) (c c' : CoreNo) (d a b : BitVec 6), coreReady s c → okReg d = true → okReg a = true → okReg b = true →
    let k := getCore s c
    let x := readReg k a
    let r := atPlace (placeCore + c) s
    exec (.mbxCount c d) s = .next (retire s c d (BitVec.ofNat 64 k.mbx.length)) ∧
    (d.toNat % 2 = 0 → 2 ≤ d.toNat →
      (k.mbx = [] → answers (exec (.mbxRecv c d) s) fun t =>
        onlyCores s t ∧ otherCores s t c ∧ readReg (getCore t c) d = 0 ∧ readReg (getCore t c) (d + 1) = 0 ∧
        (getCore t c).pc = k.pc + 8 ∧ (getCore t c).mbx = []) ∧
      (∀ e rest, k.mbx = e :: rest → answers (exec (.mbxRecv c d) s) fun t =>
        onlyCores s t ∧ otherCores s t c ∧ readReg (getCore t c) d = e.desc ∧ readReg (getCore t c) (d + 1) = e.data ∧
        (getCore t c).pc = k.pc + 8 ∧ (getCore t c).mbx = rest)) ∧
    (x.toNat = c'.val → (getCore s c').mbx.length < 256 → answers (exec (.mbxSend c d a b) s) fun t =>
      onlyCores r t ∧ (d ≠ 0 → readReg (getCore t c) d = 0) ∧ (getCore t c).pc = k.pc + 8 ∧
      (getCore t c').mbx = (getCore s c').mbx ++
        [{ desc := packFields [(60, 4, 4), (57, 3, c.val)], data := readReg k b, copy := none }] ∧
      (c' ≠ c → getCore t c' = { getCore r c' with mbx := (getCore t c').mbx })) ∧
    (∀ m : Fin 2, x.toNat = 8 + m.val →
      let g := getMgmt r m
      let u := setMgmt r m { g with out := g.out ++ [(c.val, readReg k b)] }
      (g.out.length + tget 0 r.cyc.outs m < 64 →
        exec (.mbxSend c d a b) s = .next (retire (if g.out = [] then msixPort u m 49 else u) c d 0)) ∧
      (64 ≤ g.out.length + tget 0 r.cyc.outs m → exec (.mbxSend c d a b) s = .next (retire r c d 1))) ∧
    (x.toNat = c'.val → (getCore s c').mbx.length = 256 → exec (.mbxSend c d a b) s = .next (retire r c d 1)) ∧
    (10 ≤ x.toNat → exec (.mbxSend c d a b) s = .next (takeExc r c .mbx 0)) ∧
    (∀ pre n post, k.heldFrames = pre ++ n :: post → n ∉ pre → x.toNat = n →
      exec (.mbxRelease c a) s = .next (dropRef (setCore s c { k with pc := k.pc + 8, heldFrames := pre ++ post }) 4097 n)) ∧
    (x.toNat ∉ k.heldFrames → exec (.mbxRelease c a) s = .next (takeExc s c .mbx 0))

/-- WAIT: with an event of its mask pending it returns the pending events of the mask and clears the core's FAULT latch
when the mask names it; with none it waits; with an empty mask it halts. WAIT_RESUME ends a wait whose event is
pending. -/
def Obligations.WaitAndResume : Prop :=
  ∀ (s : State) (c : CoreNo) (d : BitVec 6) (imm : BitVec 32), okReg d = true →
    let k := getCore s c
    (coreReady s c → imm.toNat < 8 →
      (imm = 0 → exec (.wait c d imm) s = .next (setCore s c { k with st := .halted, pc := k.pc + 8 })) ∧
      (imm ≠ 0 → pendingEvents s k &&& imm = 0 →
        exec (.wait c d imm) s = .next (setCore s c { k with st := .waiting, waitFor := some (d, imm), pc := k.pc + 8 })) ∧
      (pendingEvents s k &&& imm ≠ 0 → answers (exec (.wait c d imm) s) fun t =>
        onlyCores s t ∧ otherCores s t c ∧ (getCore t c).st = .running ∧ (getCore t c).pc = k.pc + 8 ∧
        (d ≠ 0 → readReg (getCore t c) d = (pendingEvents s k &&& imm).setWidth 64) ∧
        (getCore t c).faultLatch = (k.faultLatch && !bitOf imm 2))) ∧
    (isRunning s = true → k.st = .waiting → k.waitFor = some (d, imm) → pendingEvents s k &&& imm ≠ 0 →
      answers (exec (.waitResume c) s) fun t =>
        onlyCores s t ∧ otherCores s t c ∧ (getCore t c).st = .running ∧ (getCore t c).waitFor = none ∧
        (getCore t c).pc = k.pc ∧ (d ≠ 0 → readReg (getCore t c) d = (pendingEvents s k &&& imm).setWidth 64))

/-- TIME reads device time, the cycles since Thaw plus DEV_TIME_OFS; ARM and DISARM set and drop the compare value and
clear TIMER; TIMER becomes pending when device time reaches the value. The fences let the core go on: in a model whose
accesses take effect one after the other they change the PC alone. -/
def Obligations.TimeAndFences : Prop :=
  ∀ (s : State) (c : CoreNo) (d a : BitVec 6), okReg d = true → okReg a = true →
    let k := getCore s c
    (coreReady s c →
      exec (.timeRead c d) s = .next (retire s c d (BitVec.ofNat 64 s.clk.cycles + s.clk.ofs)) ∧
      exec (.timeArm c a) s = .next (setCore s c { k with cmp := some (readReg k a), timer := false, pc := k.pc + 8 }) ∧
      exec (.timeDisarm c) s = .next (setCore s c { k with cmp := none, timer := false, pc := k.pc + 8 }) ∧
      exec (.fenceSt c) s = .next (setCore s c { k with pc := k.pc + 8 }) ∧
      exec (.fenceAll c) s = .next (setCore s c { k with pc := k.pc + 8 }) ∧
      exec (.fenceDev c) s = .next (setCore s c { k with pc := k.pc + 8 })) ∧
    (∀ v, isRunning s = true → k.cmp = some v → v.toNat ≤ (devTime s).toNat →
      exec (.timerDue c) s = .next (setCore s c { k with timer := true }))

/-- START runs a core from START_PC out of RESET, HALTED or STOPPED with its staged words gone and its registers kept;
STOP halts a core that runs or waits at its next instruction boundary, a WAIT so ended leaving its register unwritten
(notes/assumptions/20); a core in a commit stops after it. A write with START and STOP both set changes nothing. -/
def Obligations.StartAndStop : Prop :=
  ∀ (s : State) (c : CoreNo) (v : Word), ctlReady s →
    let k := getCore s c
    let r := atPlace placeWrite s
    (bitOf v 62 = false → (k.st = .reset ∨ k.st = .halted ∨ k.st = .stopped) →
      answers (exec (.coreStart c v) s) fun t =>
        onlyCores r t ∧ otherCores r t c ∧ (getCore t c).st = .running ∧ (getCore t c).pc = (v.setWidth 48).setWidth 64 ∧
        (getCore t c).stage = [] ∧ (getCore t c).cause = 0 ∧ (getCore t c).regs = k.regs ∧ (getCore t c).mbx = k.mbx) ∧
    (bitOf v 62 = true → exec (.coreStart c v) s = .next r) ∧
    (bitOf v 63 = true → exec (.coreStop c v) s = .next r) ∧
    (bitOf v 62 = false → (k.st = .running ∨ k.st = .waiting) →
      exec (.coreStart c v) s = .next (setCore r c { getCore r c with startPc := v.setWidth 48 })) ∧
    (bitOf v 63 = false → k.committing = none → (k.st = .running ∨ k.st = .waiting) →
      answers (exec (.coreStop c v) s) fun t =>
        onlyCores r t ∧ otherCores r t c ∧ (getCore t c).st = .halted ∧ (getCore t c).pc = k.pc ∧
        (getCore t c).regs = k.regs ∧ (getCore t c).stage = k.stage) ∧
    (bitOf v 63 = false → k.committing ≠ none → k.st = .running →
      exec (.coreStop c v) s = .next (setCore r c { getCore r c with startPc := v.setWidth 48, stopAfter := true }))

/-- DREG.R and DREG.W: a misaligned offset raises MISALIGN and one where no register lies DREG. Of a register, the
destination takes the register's value at the read's place in the cycle, and the RC fields read are cleared; the write
acts at its own place, with the PC past the instruction. DEV_TIME reads as device time and changes nothing else; a nonce word takes
the written value and nothing but it and the PC changes. -/
def Obligations.DeviceRegisterAccess : Prop :=
  ∀ (s : State) (c : CoreNo) (d a b : BitVec 6) (imm : BitVec 32) (r : Reg), coreReady s c →
    okReg d = true → okReg a = true → okReg b = true →
    let k := getCore s c
    let off := readReg k a + imm.signExtend 64
    let q := atPlace (placeRead + 2 + c) s
    let past := setCore s c { k with pc := k.pc + 8 }
    (off.toNat % 8 ≠ 0 → exec (.dregR c d a imm) s = .next (takeExc s c .misalign off) ∧
      exec (.dregW c a b imm) s = .next (takeExc s c .misalign off)) ∧
    (off.toNat % 8 = 0 → (0x1000000 ≤ off.toNat ∨ regAt off.toNat = none) →
      exec (.dregR c d a imm) s = .next (takeExc s c .dreg off) ∧
      exec (.dregW c a b imm) s = .next (takeExc s c .dreg off)) ∧
    (off.toNat % 8 = 0 → off.toNat < 0x1000000 → regAt off.toNat = some r →
    exec (.dregR c d a imm) s =
      .next (retire (if regOn q r then clearRc q r 0xFFFFFFFFFFFFFFFF else q) c d (readReg64 q r)) ∧
    exec (.dregW c a b imm) s = .next (writeReg64 (enterWrite past (.core c) r) (.core c) r (readReg k b)) ∧
    (r = .devTime → exec (.dregR c d a imm) s = .next (retire q c d (devTime q))) ∧
    (∀ j, r = .attNonce j → j < 4 → pdOn s 1 = true → answers (exec (.dregW c a b imm) s) fun t =>
      t = { atPlace (placeWrite + 2 + c) past with sec := { s.sec with nonce := t.sec.nonce } } ∧
      (getCore t c).pc = k.pc + 8 ∧ (getCore t c).regs = k.regs ∧
      ∀ i, i < 4 → t.sec.nonce.getD i 0 = if i = j then readReg k b else s.sec.nonce.getD i 0))

/-! ## Registers and memories as a host reaches them (R417, R434, R455 to R464) -/

/-- A read of a register by a host shows its value at the read's place in the cycle and clears the RC fields of the half it
covers; one of the low half of DEV_TIME also latches the high half; nothing but the port's latch changes else. An access of 1, 2
or 16 bytes, and one that is not aligned, is an Unsupported Request, and so is one outside PD_SEC while the switch is halted on
PLL_UNLOCK. Above the registers the MSI-X table shows each entry's mask and data, the pending-bit array the vectors that wait,
the reserved range zero. -/
def Obligations.HostRegisterReads : Prop :=
  ∀ (s : State) (m : Fin 2) (off : BitVec 26), partyActs s (.mgmt m) = true →
    let q := atPlace (placeRead + m) s
    let t := setMgmt q m { getMgmt q m with latch := none }
    let x := (getMgmt s m).msix
    (∀ w, (w = .one ∨ w = .two ∨ w = .sixteen ∨ (w ≠ .high ∧ off.toNat % 8 ≠ 0) ∨ (w = .high ∧ off.toNat % 8 ≠ 4)) →
      exec (.rcRead (.mgmt m) off w) s = .next { t with out := .unsupported :: q.out }) ∧
    (∀ r w, regAt (off.toNat / 8 * 8) = some r → regInSec r = false → s.clk.halted = true → s.clk.pllLock = false →
      exec (.rcRead (.mgmt m) off w) s = .next { t with out := .unsupported :: q.out }) ∧
    (∀ r, s.clk.halted = false → off.toNat % 8 = 0 → off.toNat < 0x1000000 → regAt off.toNat = some r →
      exec (.rcRead (.mgmt m) off .whole) s =
        .next (emit (if regOn t r then clearRc t r 0xFFFFFFFFFFFFFFFF else t) (.read (readReg64 t r)))) ∧
    (∀ e : Fin 2048, s.clk.halted = false → off.toNat = 0x1000008 + 16 * e.val →
      exec (.rcRead (.mgmt m) off .whole) s = .next { t with out := .read (packFields
        [(0, 32, (tget 0 x.data e.val).toNat), (32, 32, if tget false x.unmasked e.val then 0 else 1)]) :: q.out }) ∧
    (∀ k : Fin 32, s.clk.halted = false → off.toNat = 0x1008000 + 8 * k.val →
      answers (exec (.rcRead (.mgmt m) off .whole) s) fun t' => ∃ v, t' = { t with out := .read v :: q.out } ∧
        ∀ i, i < 64 → bitOf v i = tget false x.pending (64 * k.val + i)) ∧
    (s.clk.halted = false → off.toNat % 8 = 0 → 0x1008100 ≤ off.toNat → off.toNat < 0x2000000 →
      exec (.rcRead (.mgmt m) off .whole) s = .next { t with out := .read 0 :: q.out }) ∧
    (s.clk.halted = false → pdOn s 2 = true → exec (.devTimeLowRead m) s =
      .next { setMgmt q m { getMgmt q m with latch := some ((devTime q >>> 32).setWidth 32) } with
        out := .read (devTime q &&& 0xFFFFFFFF) :: q.out })

/-- An RC read of the end-to-end counters shows them, clears all four, and leaves everything else as it was at the read's
place in the cycle. -/
def Obligations.RcReadClears : Prop :=
  ∀ (s : State) (m : Fin 2), partyActs s (.mgmt m) = true → isRunning s = true → pdOn s 2 = true →
    let q := atPlace (placeRead + m) s
    answers (exec (.rcRead (.mgmt m) 0x38 .whole) s) fun t =>
      t.out = .read (packFields [(48, 16, s.fab.abandoned), (32, 16, s.fab.resent), (16, 16, s.fab.echoed),
        (0, 16, s.fab.unmatched)]) :: q.out ∧
      t = { setMgmt q m { getMgmt q m with latch := none } with
        out := t.out, fab := { s.fab with abandoned := 0, resent := 0, echoed := 0, unmatched := 0 } }

/-- A whole write of a register by a host is the register's write, at its place in the cycle, after the port's latch is
dropped; by a core it is the register's write. -/
def Obligations.RegisterWrites : Prop :=
  ∀ (s : State) (m : Fin 2) (c : CoreNo) (off : BitVec 26) (v : Word) (r : Reg), s.clk.halted = false →
    off.toNat % 8 = 0 → off.toNat < 0x1000000 → regAt off.toNat = some r →
    let t := setMgmt s m { getMgmt s m with latch := none }
    (partyActs s (.mgmt m) = true → exec (.registerWrite (.mgmt m) off .whole v) s =
      .next (writeReg64 (enterWrite t (.mgmt m) r) (.mgmt m) r v)) ∧
    (partyActs s (.core c) = true →
      exec (.registerWrite (.core c) off .whole v) s = .next (writeReg64 (enterWrite s (.core c) r) (.core c) r v)) ∧
    (partyActs s (.mgmt m) = true → pdOn s 2 = true → r = .arenaData →
      let q := atPlace (placeWrite + m) t
      exec (.registerWrite (.mgmt m) off .whole v) s = .next { q with fab := { q.fab with arenaData := v } })

/-- Error registers: writing ones clears STATUS bits and nothing else, at a place before the cycle's events; a MASK write that
uncovers a set STATUS bit calls for the block's vector, and one that does not changes the MASK alone. -/
def Obligations.ErrorRegisterWrites : Prop :=
  ∀ (s : State) (v : Fin 49) (w : Word), secClocked s = true → s.clk.halted = false →
    pdOn s (vecDomain v.val) = true → vecRemoved s v.val = false →
    let r := atPlace placeW1c s
    let e := getErr r v.val
    let n := (e.mask &&& ~~~(errMaskable v.val)) ||| (w &&& errMaskable v.val)
    exec (.errStatusClear v w) s = .next (setErr r v.val { e with status := e.status &&& ~~~(w &&& errAll v.val) }) ∧
    (e.mask &&& ~~~n &&& e.status = 0 → exec (.errMaskWrite v w) s = .next (setErr r v.val { e with mask := n })) ∧
    (e.mask &&& ~~~n &&& e.status ≠ 0 → answers (exec (.errMaskWrite v w) s) fun t =>
      onlyFaultRecords r t ∧ (tget false r.cyc.calls v.val = false → ∀ c, (getCore t c).faultLatch = true) ∧
      (s.sorted → (getErr t v.val).mask = n))

/-- The host's mailboxes: a GO puts the word in the core's mailbox as an entry of the port's KIND, or reports FULL and
changes nothing in the core; a POP drops the oldest outbound entry. Both are BAR0 writes of the port, which drop its DEV_TIME
latch. -/
def Obligations.HostMailboxes : Prop :=
  ∀ (s : State) (m : Fin 2) (c : CoreNo), isRunning s = true → secClocked s = true → pdOn s 2 = true → pdOn s 1 = true →
    let e : MbxEntry := { desc := packFields [(60, 4, 2 + m.val)], data := (getMgmt s m).inData, copy := none }
    let r := atPlace (placeHostMbx + m) s
    let q := afterPlace placeWo s
    ((getCore s c).mbx.length < 256 → answers (exec (.hmbxInGo m c) s) fun t =>
      t = { r with cores := t.cores, mgmt := t.mgmt } ∧ otherCores r t c ∧
      getCore t c = { getCore r c with mbx := (getCore s c).mbx ++ [e] } ∧
      (getMgmt t m).inAccepted = true ∧ (getMgmt t m).inFull = false ∧ (getMgmt t m).latch = none) ∧
    ((getCore s c).mbx.length = 256 → answers (exec (.hmbxInGo m c) s) fun t =>
      t = { r with mgmt := t.mgmt } ∧ (getMgmt t m).inAccepted = false ∧ (getMgmt t m).inFull = true) ∧
    (answers (exec (.hmbxOutPop m) s) fun t =>
      t = { q with mgmt := t.mgmt, cyc := t.cyc } ∧ (∀ n, n ≠ m → getMgmt t n = getMgmt q n) ∧
      getMgmt t m = { getMgmt q m with out := (getMgmt s m).out.tail, latch := none })

/-- MSI-X of a port, whose latch each BAR0 write drops: an entry unmasked while its message is pending and the function sends is
sent once; unmasked with no message waiting, and masked, it changes its mask bit alone; with the function masked nothing is sent.
MSI-X control: enabling a function that is not masked sends every pending unmasked vector and leaves the others pending; under the
Function Mask, or disabled, it sends nothing (the pending bits under Function Mask are PCI Express's, notes/assumptions/89).
Configuration space: a read shows a word of the header, a write of BAR0, BAR2 or Command keeps its writable bits
(notes/assumptions/127). An entry of a switch halted on PLL_UNLOCK is turned away. -/
def Obligations.MsixUnmaskSends : Prop :=
  ∀ (s : State) (m : Fin 2) (v : Fin 2048), partyActs s (.mgmt m) = true →
    let g := getMgmt s m
    let x := g.msix
    let t := setMgmt s m { g with latch := none }
    let put := fun (f : Msix → Msix) => setMgmt s m { g with latch := none, msix := f x }
    let mask := fun b : Bool => put (fun y => { y with unmasked := tput false y.unmasked v.val !b })
    let quiet := x.enable = false ∨ x.fmask = true ∨ tget false x.pending v.val = false
    (s.clk.halted = false → s.sorted →
      (¬ quiet → answers (exec (.msixUnmask m (.entry v false)) s) fun u =>
        u = { s with mgmt := u.mgmt, out := .msix m v :: s.out } ∧ (∀ n, n ≠ m → getMgmt u n = getMgmt s n) ∧
        (∀ n, tget false (getMgmt u m).msix.pending n = if n = v.val then false else tget false x.pending n) ∧
        ∀ n, tget false (getMgmt u m).msix.unmasked n = if n = v.val then true else tget false x.unmasked n) ∧
      (quiet → exec (.msixUnmask m (.entry v false)) s = .next (mask false)) ∧
      exec (.msixUnmask m (.entry v true)) s = .next (mask true)) ∧
    (s.clk.halted = true → s.clk.pllLock = false → ∀ b, exec (.msixUnmask m (.entry v b)) s = .next (emit t .unsupported)) ∧
    (∀ e f, e = false ∨ f = true →
      exec (.msixUnmask m (.control e f)) s = .next (put (fun y => { y with enable := e, fmask := f }))) ∧
    (s.sorted → answers (exec (.msixUnmask m (.control true false)) s) fun u =>
      u = { s with mgmt := u.mgmt, out := u.out } ∧ (∀ n, n ≠ m → getMgmt u n = getMgmt s n) ∧
      (∀ n, Out.msix m n ∈ u.out ↔ Out.msix m n ∈ s.out ∨ (tget false x.pending n = true ∧ tget false x.unmasked n = true)) ∧
      ∀ n, tget false (getMgmt u m).msix.pending n = (tget false x.pending n && !tget false x.unmasked n)) ∧
    (∀ i : Fin 16, exec (.msixUnmask m (.cfgRead i)) s = .next (emit t (.read ((cfgWord s m i).setWidth 64)))) ∧
    (∀ (i : Fin 16) (w : BitVec 32), answers (exec (.msixUnmask m (.cfgWrite i w)) s) fun u =>
      u = setMgmt s m { g with latch := none, cfg := (getMgmt u m).cfg } ∧
      (i.val = 4 → cfgWord u m 4 = (w &&& 0xFC000000) ||| 4) ∧ (i.val = 6 → cfgWord u m 6 = (w &&& 0xC0000000) ||| 0xC) ∧
      (i.val = 5 ∨ i.val = 7 → cfgWord u m i = w) ∧
      (i.val = 1 → (cfgWord u m 1).setWidth 16 = w.setWidth 16 &&& 0x0546#16) ∧
      ∀ j, j ≠ i → cfgWord u m j = cfgWord s m j)

/-- The read-back aperture shows a word of the named source, or a half of it, as it stands at the read's place in the cycle, and
changes nothing but the port's latch; an access of another width is an Unsupported Request. -/
def Obligations.ReadbackChangesNothing : Prop :=
  ∀ (s : State) (m : Fin 2) (w : BitVec 22), partyActs s (.mgmt m) = true → s.clk.halted = false →
    let r := atPlace (placeRead + m) s
    let t := setMgmt r m { getMgmt r m with latch := none }
    exec (.readbackRead m { word := w }) s = .next (emit t (.read (readback t m w.toNat))) ∧
    exec (.readbackRead m { word := w, w := .low }) s = .next (emit t (.read (readback t m w.toNat &&& 0xFFFFFFFF))) ∧
    exec (.readbackRead m { word := w, w := .high }) s = .next (emit t (.read (readback t m w.toNat >>> 32))) ∧
    exec (.readbackRead m { word := w, w := .one }) s = .next (emit t .unsupported) ∧
    exec (.readbackRead m { word := w, w := .two }) s = .next (emit t .unsupported) ∧
    exec (.readbackRead m { word := w, w := .sixteen }) s = .next (emit t .unsupported)

/-- BAR2 over control memory: a read shows the bytes, a write of at most Max_Payload_Size puts each byte outside the code region
in place and leaves every other byte; nothing else of the switch changes but the port's latch. That a whole access answers as one
is the model's choice (notes/assumptions/88). -/
def Obligations.Bar2ControlMemory : Prop :=
  ∀ (s : State) (m : Fin 2) (off : BitVec 30) (bs : List Byte), s.memWf → partyActs s (.mgmt m) = true →
    s.clk.halted = false → pdOn s 2 = true → s.sec.waiting = false → 0 < bs.length → bs.length ≤ 4096 →
    off.toNat + bs.length ≤ 0x1000000 →
    let q := atPlace (placeRead + m) s
    let r := atPlace (placeBar2 + m) s
    (exec (.bar2Read m off bs.length .none) s =
      .next (emit (setMgmt q m { getMgmt q m with latch := none }) (.bytes (memBytes s.ctlMem off.toNat bs.length) false))) ∧
    (bs.length ≤ 512 → answers (exec (.bar2Write m off bs) s) fun t =>
      t = { r with mgmt := t.mgmt, ctlMem := t.ctlMem } ∧
      ∀ j, memGet t.ctlMem j =
        if off.toNat ≤ j ∧ j < off.toNat + bs.length ∧ inCode s j 1 = false then bs.getD (j - off.toNat) 0
        else memGet s.ctlMem j)

/-! ## Vector instructions (R280, R281, R327, R333 to R343, R353 to R355) -/

/-- The two-operand instructions: IEEE results of each governed lane rounded once by the instruction's mode for F32 and
F64, wrapping results for I32 and I64, the larger or smaller operand for VMAX and VMIN; ungoverned lanes, other registers
and everything outside the slice stay. -/
def Obligations.VectorTwoOperandResults : Prop :=
  ∀ (s : State) (sl : SliceNo) (g : Fin 8) (t : VTy) (d : Fin 32) (a b : VSrc) (r : VRnd), sliceReady s sl →
    sliceWf (getSlice s sl) → dstOk t d = true → srcOk t a = true → srcOk t b = true → rndOk t r = true →
    let x := getSlice s sl
    let m := (vrnd x r).det
    let u := srcLane x t a
    let v := srcLane x t b
    let U := fun i => decodeElt (vtyFmt t) (u i)
    let V := fun i => decodeElt (vtyFmt t) (v i)
    let N := 2 ^ vtyBits t
    let gives := fun (e : Res) (f : Nat → Nat × Flags) => answers e fun y =>
      onlySlice s y sl ∧ governed x (getSlice y sl) g.val t d.val f
    gives (exec (.vadd sl g t d a b r) s)
      (fun i => if vtyF t then roundOp (vtyFmt t) m (addFV m (U i) (V i)) else (u i + v i, 0)) ∧
    gives (exec (.vsub sl g t d a b r) s)
      (fun i => if vtyF t then roundOp (vtyFmt t) m (addFV m (U i) (V i).negate) else (u i + (N - v i % N), 0)) ∧
    gives (exec (.vmul sl g t d a b r) s)
      (fun i => if vtyF t then roundOp (vtyFmt t) m (mulFV (U i) (V i)) else (u i * v i, 0)) ∧
    (vtyF t = true → gives (exec (.vdiv sl g t d a b r) s) (fun i => roundOp (vtyFmt t) m (divFV (U i) (V i)))) ∧
    gives (exec (.vmax sl g t d a b) s) (fun i => if vtyF t then maxMin (vtyFmt t) true (u i) (v i)
      else (if sintOf (vtyBits t) (u i) < sintOf (vtyBits t) (v i) then v i else u i, 0)) ∧
    gives (exec (.vmin sl g t d a b) s) (fun i => if vtyF t then maxMin (vtyFmt t) false (u i) (v i)
      else (if sintOf (vtyBits t) (v i) < sintOf (vtyBits t) (u i) then v i else u i, 0))

/-- VFMA, VSQRT, VSEL, VCVT and VDQT complete with every operand that R298 admits: what each governed lane takes; the rest as
for the two-operand instructions. VQNT completes too: it writes the codes into the governed fields of its destination, and for
a block-scaled format the scale bytes of the blocks with a governed lane into the next register; every other field and
register stays. -/
def Obligations.VectorOneOperandResults : Prop :=
  ∀ (s : State) (sl : SliceNo) (g p : Fin 8) (t t' : VTy) (d : Fin 32) (a b : VSrc) (r : VRnd) (imm : BitVec 32) (q : VFmt),
    sliceReady s sl → sliceWf (getSlice s sl) →
    let x := getSlice s sl
    let m := (vrnd x r).det
    let u := srcLane x t a
    let U := fun i => decodeElt (vtyFmt t) (u i)
    let f := (qntFmt t q).getD .fp16
    let n := 8 <<< q.blk.toNat
    let gives := fun (e : Res) (ty : VTy) (h : Nat → Nat × Flags) => answers e fun y =>
      onlySlice s y sl ∧ governed x (getSlice y sl) g.val ty d.val h
    (vLegal (.fma g t d a b r) = true → gives (exec (.vfma sl g t d a b r) s) t (fun i => roundOp (vtyFmt t) m
      (fmaFV m (U i) (decodeElt (vtyFmt t) (srcLane x t b i)) (decodeElt (vtyFmt t) (laneOf x t d.val i))))) ∧
    (vLegal (.sqrt g t d a r) = true →
      gives (exec (.vsqrt sl g t d a r) s) t (fun i => roundOp (vtyFmt t) m (sqrtFV (U i)))) ∧
    (vLegal (.sel g t d a p imm) = true → gives (exec (.vsel sl g t d a p imm) s) t
      (fun i => (if bitOf (pget x p.val) i then u i else selConst t imm, 0))) ∧
    (vLegal (.cvt g t t' d a r) = true → gives (exec (.vcvt sl g t t' d a r) s) t'
      (fun i => cvtLane t t' (vrnd x r) (u i) (laneBits x i))) ∧
    (vLegal (.dqt g t d a q) = true →
      let sc := match a with | .v j => vget x (j.val + 1) | .ctx _ => 0
      gives (exec (.vdqt sl g t d a q) s) t (fun i =>
        let c := fld (ofLanes ((List.range 256).map (srcLane x .i32 a))) (f.width * i) f.width
        decodeToAcc (vtyFmt t) (if f.isBlock then decodeScaled f (fld sc (8 * (i / n)) 8) c else decodeElt f c))) ∧
    (vLegal (.qnt g t d a q r) = true → answers (exec (.vqnt sl g t d a q r) s) fun y =>
      let z := getSlice y sl
      let lanes := fun k => (List.range 256).filter fun i => bitOf (pget x g.val) i && i / n == k
      let blk := fun k => encodeBlock f q.ovf.toNat (vrnd x r)
        ((lanes k).map fun i => { val := U i, rbits := laneBits x i, cnt := bitOf (pget x 1) i })
      onlySlice s y sl ∧ z = { x with v := z.v, run := { x.run with flags := z.run.flags, instr := x.run.instr + 1 } } ∧
      (∀ j, j ≠ d.val → (f.isBlock = true → j ≠ d.val + 1) → vget z j = vget x j) ∧
      (∀ i, i < 256 → bitOf (pget x g.val) i = false →
        fld (vget z d.val) (f.width * i) f.width = fld (vget x d.val) (f.width * i) f.width) ∧
      (f.isBlock = false → ∀ i, i < 256 → bitOf (pget x g.val) i = true → fld (vget z d.val) (f.width * i) f.width =
        (encodeFV f q.ovf.toNat false (U i) (vrnd x r) (laneBits x i)).1 % 2 ^ f.width) ∧
      (f.isBlock = true → ∀ k, k < 256 / n →
        (fld (vget z (d.val + 1)) (8 * k) 8 = if lanes k = [] then fld (vget x (d.val + 1)) (8 * k) 8 else (blk k).scale % 256) ∧
        ∀ j i, (lanes k)[j]? = some i → fld (vget z d.val) (f.width * i) f.width = (blk k).codes.getD j 0 % 2 ^ f.width))

/-- VCMP (R336): each governed lane of Pd takes 1 or 0 as the condition holds or not, and every other lane, register and
predicate stays; P0 as the destination and the reserved condition are rejected; LT, LE, GT and GE raise IE_INVALID for a
NaN, EQ, NE and UN for a signalling NaN; into a Pd of zeros the result is the AND of the governing predicate and the
condition. Infinities and finite values compare by their extended-rational values, so that -0 = +0. -/
def Obligations.VectorCompare : Prop :=
  (∀ (s : State) (sl : SliceNo) (g pd : Fin 8) (t : VTy) (a b : VSrc) (c : VCond), sliceReady s sl →
    sliceWf (getSlice s sl) → srcOk t a = true → srcOk t b = true →
    let x := getSlice s sl
    let A := fun i => decodeElt (vtyFmt t) (srcLane x t a i)
    let B := fun i => decodeElt (vtyFmt t) (srcLane x t b i)
    let nan := fun i => (A i).isNan || (B i).isNan
    let P := fun i => sintOf (vtyBits t) (srcLane x t a i)
    let Q := fun i => sintOf (vtyBits t) (srcLane x t b i)
    let cond := fun i : Nat => match c with
      | .eq => if vtyF t then nan i = false ∧ (A i).value = (B i).value else P i = Q i
      | .ne => if vtyF t then nan i = true ∨ (A i).value ≠ (B i).value else P i ≠ Q i
      | .lt => if vtyF t then nan i = false ∧ (A i).value < (B i).value else P i < Q i
      | .le => if vtyF t then nan i = false ∧ (A i).value ≤ (B i).value else P i ≤ Q i
      | .gt => if vtyF t then nan i = false ∧ (B i).value < (A i).value else Q i < P i
      | .ge => if vtyF t then nan i = false ∧ (B i).value ≤ (A i).value else Q i ≤ P i
      | .un => if vtyF t then nan i = true else False
    let invalid := fun i : Nat => vtyF t && (match c with
      | .lt | .le | .gt | .ge => nan i
      | .eq | .ne | .un => (A i).isSnan || (B i).isSnan)
    (pd = 0 → exec (.vcmp sl g t pd a b c) s = .refused (.rejectedAtLoad "VCMP")) ∧
    (pd ≠ 0 → answers (exec (.vcmp sl g t pd a b c) s) fun y =>
      let z := getSlice y sl
      onlySlice s y sl ∧ z = { x with p := z.p, run := { x.run with flags := z.run.flags, instr := x.run.instr + 1 } } ∧
      (∀ n, n ≠ pd.val → pget z n = pget x n) ∧
      (∀ i, i < 256 → bitOf (pget x g.val) i = false → bitOf (pget z pd.val) i = bitOf (pget x pd.val) i) ∧
      (∀ i, i < 256 → bitOf (pget x g.val) i = true → (bitOf (pget z pd.val) i = true ↔ cond i)) ∧
      (pget x pd.val = 0 → ∀ i, i < 256 → (bitOf (pget z pd.val) i = true ↔ bitOf (pget x g.val) i = true ∧ cond i)) ∧
      ∀ j, bitOf z.run.flags j = (bitOf x.run.flags j || (j == 10 && (List.range 256).any fun i =>
        bitOf (pget x g.val) i && bitOf (pget x 1) i && invalid i)))) ∧
  ∀ w : Word, fld w 56 8 = 0x88 → fld w 0 3 = 7 → decodeVec w = none

/-- VLD.S and VST.S, with every operand that R298 admits: an access that the arena does not allow stops the run with ARENA,
is recorded, and its chunk closes with RETRY; one that touches bursts which take no request waits, at the run's own
instruction; otherwise they complete. A load puts the byte of each arena address into its place of the register string and changes
no other byte of a register; where poisoned or uncorrectable data is among them the chunk closes with ARITH_CHECK, else the run
goes on. A store changes no register; each governed lane's bytes stand at their addresses, and every other byte of Firn is as it
was. For plain stacks (nothing cached, no burst in error) what is loaded is what the stacks hold, and only poison closes the
chunk. -/
def Obligations.VectorArenaAccess : Prop :=
  ∀ (s : State) (sl : SliceNo) (g : Fin 8) (m : VMode) (d : Fin 32) (a : VSrc) (h : Hint) (off : BitVec 30) (fault : MemFault),
    sliceReady s sl → sliceWf (getSlice s sl) →
    let x := getSlice s sl
    let bytes := accessBytes x g.val m off.toNat
    let ok := arenaOk s x m bytes
    let addr := fun e : Nat × Nat × Nat => arenaAddr s x.run.slot e.1
    let stuck := fun (q : State) => bytes.any fun e => burstWaits q (addr e)
    let stops := fun (q : State) => Host.Outcome.next (closeRun (progExcEvt (setSlice q sl (vstop x 0x10)) sl) sl .retry)
    let past := fun z : Slice => { z with run := { z.run with instr := z.run.instr + 1 } }
    (vLegal (.ld g m d h off) = true →
      let q := atPlace placeRead s
      let rd := readLines q (bytes.map addr) h (1 + sl.val) fault
      (ok = false → exec (.vldS sl g m d h { off, fault }) s = stops q) ∧
      (ok = true → stuck q = true → exec (.vldS sl g m d h { off, fault }) s = .next s) ∧
      (ok = true → stuck q = false → ∃ z : Slice,
        exec (.vldS sl g m d h { off, fault }) s =
          .next (if rd.2.2 then closeRun (setSlice rd.1 sl z) sl .arithCheck else setSlice rd.1 sl (past z)) ∧
        z = { x with v := z.v, run := { x.run with poisoned := rd.2.2 } } ∧
        (∀ n, n ≠ d.val → (m = .w64 → n ≠ d.val + 1) → vget z n = vget x n) ∧
        (∀ hi b, hi < (if m = .w64 then 2 else 1) → b < 1024 → fld (vget z (d.val + hi)) (8 * b) 8 =
          match bytes.find? (fun e => e.2.1 == hi && e.2.2 == b) with
          | some e => (readByte rd.2.1 (addr e)).toNat
          | none => fld (vget x (d.val + hi)) (8 * b) 8)) ∧
      (plainFirn q → fault ≠ .uncorrectable →
        (∀ e ∈ bytes, readByte rd.2.1 (addr e) = firnByte q (addr e)) ∧ (∀ n, firnByte rd.1 n = firnByte q n) ∧
        (rd.2.2 = true ↔ ∃ e ∈ bytes, tget false q.firnPoison (firnPhys q (addr e) / 32) = true))) ∧
    (vLegal (.st g m a h off) = true →
      let q := atPlace (placeArena + sl) s
      let val := fun e : Nat × Nat × Nat => BitVec.ofNat 8
        (srcLane x (if m = .w64 then .i64 else .i32) a (e.2.2 / 4) / 2 ^ (32 * e.2.1) / 256 ^ (e.2.2 % 4))
      (ok = false → exec (.vstS sl g m a h off) s = stops q) ∧
      (ok = true → stuck q = true → exec (.vstS sl g m a h off) s = .next s) ∧
      (ok = true → stuck q = false → answers (exec (.vstS sl g m a h off) s) fun y =>
        onlyCycle q { y with slices := q.slices } ∧ (∀ k, k ≠ sl → getSlice y k = getSlice q k) ∧ getSlice y sl = past x ∧
        (plainFirn q → (bytes.map addr).Nodup →
          ∀ n, firnByte y n = match bytes.find? (fun e => addr e == n) with | some e => val e | none => firnByte q n)))

/-- VEMIT in a FIN run. To the RESULT stream: the governed elements of the chunk take their values, none twice; a type that is
not the run's, an element emitted before, or the other stream in use stops the run with EMIT, emits nothing, and the chunk closes
with RETRY. To the WEIGHTS stream: the governed elements take the codes of VQNT's encoding, a block its scale from its governed
lanes; a lane type, format or block size that is not the group's, OUT_DIR 1, a block that is governed in part, an element emitted
before, or the other stream in use stops the run likewise. -/
def Obligations.VectorEmission : Prop :=
  ∀ (s : State) (sl : SliceNo) (g : Fin 8) (t : VTy) (a : VSrc), sliceReady s sl → sliceWf (getSlice s sl) → srcOk t a = true →
    (getSlice s sl).run.isFin = true →
    let x := getSlice s sl
    let el := fun i : Nat => 256 * x.run.stripe + i
    let live := fun i => bitOf (pget x g.val) i && decide (el i < x.run.elems)
    let again := (List.range 256).any fun i => live i && (tget none x.run.emitted (el i)).isSome
    let stops := Host.Outcome.next (closeRun (progExcEvt (setSlice s sl (vstop x 0x11)) sl) sl .retry)
    let goes := fun (y : State) => onlySlice s y sl ∧ (getSlice y sl).v = x.v ∧ (getSlice y sl).p = x.p ∧
      (getSlice y sl).run.exc = none ∧ (getSlice y sl).run.instr = x.run.instr + 1 ∧
      ∀ n, (∀ i, i < 256 → live i = true → n ≠ el i) → tget none (getSlice y sl).run.emitted n = tget none x.run.emitted n
    let bad := t != x.run.resType || x.run.stream == 2 || again
    (bad = false → answers (exec (.vemit sl g t a .result) s) fun y => goes y ∧
      (∀ i, i < 256 → live i = true → tget none (getSlice y sl).run.emitted (el i) = some (srcLane x t a i) ∧
        (getSlice y sl).run.stream = 1)) ∧
    (bad = true → exec (.vemit sl g t a .result) s = stops) ∧
    ∀ (q : VFmt) (rn : VRnd) (f : Fmt), vLegal (.emit g t a (.weights q rn)) = true → qntFmt t q = some f →
      let b := 8 <<< q.blk.toNat
      let torn := f.isBlock && (List.range 256).any fun i => live i && (List.range b).any fun k =>
        decide (el (i / b * b + k) < x.run.elems) && !bitOf (pget x g.val) (i / b * b + k)
      let wrong := !vtyF t || q.fmt.toNat != x.run.outFmt || q.blk.toNat != x.run.outBlk || x.run.outDir || torn ||
        x.run.stream == 1 || again
      let U := fun i => decodeElt (vtyFmt t) (srcLane x t a i)
      let lanes := fun k => (List.range 256).filter fun i => live i && i / b == k
      let blk := fun k => encodeBlock f q.ovf.toNat (vrnd x rn)
        ((lanes k).map fun i => { val := U i, rbits := laneBits x i, cnt := bitOf (pget x 1) i })
      (wrong = true → exec (.vemit sl g t a (.weights q rn)) s = stops) ∧
      (wrong = false → answers (exec (.vemit sl g t a (.weights q rn)) s) fun y => goes y ∧
        let e := (getSlice y sl).run
        (∀ i, i < 256 → live i = true → e.stream = 2 ∧ (f.isBlock = false →
          tget none e.emitted (el i) = some (encodeFV f q.ovf.toNat false (U i) (vrnd x rn) (laneBits x i)).1)) ∧
        (f.isBlock = true → ∀ k, k < 256 / b → lanes k ≠ [] →
          tget none e.scales (el 0 / b + k) = some (blk k).scale ∧
          ∀ j i, (lanes k)[j]? = some i → tget none e.emitted (el i) = some ((blk k).codes.getD j 0)))

/-! ## Frames on their way in (R153, R155, R156, R159, R195, R196, R199, R206, R233, R398) -/

/-- FRAME_RECEIVE at an UP port: a bad header, a TYPE or CLASS that R153 does not permit, and an abort are counted, each in its
own counter, and the credits of its cells returned; a good frame goes to the switch itself, waits at the combiner where it may
be combined, goes to the queue of the port that the spray gives, or is dropped for its route or its hop limit; one to be
forwarded waits while an open partial holds a contribution of its port and class (notes/assumptions/54); nothing else happens to
it. Policing is off here, and no frame of its port and class waits at the combiner. -/
def Obligations.FramesReceived : Prop :=
  ∀ (s : State) (p : PortNo) (f : Frame) (age : Nat) (started : Bool), portLive s p = true → portExists s p = true →
    s.tap.taken = false →
    (fClass f < 7 → bitOf (policerOf s (8 * p.val + fClass f))[0] 63 = false ∧ bitOf (policerOf s (4096 + p.val))[0] 63 = false) →
    (tget {} s.piers (p.val / 64)).loaded.isSome = true → s.combQ.any (cameOn p.val (fClass f)) = false →
    let q := rxWire (atPlace (placeReceive s p.val) s) p f {}
    let x := getPort q p
    let more := fun n : Nat => min (n + 1) 0xFFFF
    let back := fun (t : State) => returnCredits t p (fClass f) x.ups (fCells f)
    let ts := devTime q - BitVec.ofNat 64 age
    let l : LocalC := { port := p, cls := fClass f, ups := x.ups, frame := f, ts, sof := q.clk.cycles - age }
    let cells := fun (id : Nat) (u : State) => allocCopy q (8 * p.val + fClass f) x.ups 1 (frameBytes f) (fCells f) = .ok (id, u)
    let free := heldUp s p (fClass f) = false
    let good := headerOk f = true ∧ typeClassOk f = true ∧ endFault f .clean = none
    let run := exec (.frameReceive p f {} age started) s
    (headerOk f = false → run = .next (back (setPort q p { x with hdrErr := more x.hdrErr }))) ∧
    (headerOk f = true → typeClassOk f = false → run = .next (back (setPort q p { x with frameErr := more x.frameErr }))) ∧
    (headerOk f = true → typeClassOk f = true → routeOf s (fDest f) = .self → fType f = 1 →
      exec (.frameReceive p f { fault := .aborted } age started) s = .next (back (setPort q p { x with aborted := more x.aborted }))) ∧
    (good → routeOf s (fDest f) = .invalid →
      run = .next (back { q with fab := { q.fab with noRoute := more q.fab.noRoute } })) ∧
    (good → routeOf s (fDest f) = .self → fCount f = 1 →
      (fType f = 1 → run = .next { q with dispatch := q.dispatch ++ [l] }) ∧
      (∀ id u, fType f ≠ 1 → cells id u → run = .next { u with localQ := u.localQ ++ [{ l with copy := some id }] })) ∧
    (∀ n, good → routeOf s (fDest f) = .set n → mayCombine s f = true → run = .next { q with combQ := q.combQ ++ [l] }) ∧
    (∀ n, good → routeOf s (fDest f) = .set n → mayCombine s f = false → ¬ free →
      run = .next { q with combQ := q.combQ ++ [{ l with pass := true }] }) ∧
    (∀ n, good → routeOf s (fDest f) = .set n → fHops f = 15 → free →
      run = .next (back (setPort q p { x with hopLimit := more x.hopLimit }))) ∧
    (∀ n dst ptr id u, good → free → routeOf s (fDest f) = .set n → fHops f ≠ 15 → mayCombine s f = false → fCount f = 1 →
      spray q n (fin8 (fClass f)) (fCells f) (decide (portRole x = 1)) = .to dst ptr → cells id u →
      answers run fun t =>
        t = { u with ports := t.ports, ecmpPtr := t.ecmpPtr } ∧
        (getCls (getPort t dst) (fin8 (fClass f))).q = (getCls (getPort u dst) (fin8 (fClass f))).q ++
          [{ copy := id, frame := f, src := .port p (fClass f), ups := x.ups, ts, sof := l.sof }])

/-! ## Contributions at a home (R51, R53, R57, R111, R120, R131, R206, R522) -/

/-- The dispatcher: an unknown group, a step behind the window, one beyond it and one whose expiry the
ingress timestamp has reached are refused with NOTICE, LATE, BUSY and LATE; one that was on time for an open chunk of a step
expired since is not (notes/assumptions/114). CONTRIB_DISPATCH completes on every local frame that is its port group's turn, a
bulk one in the order of starts of frame and only while no express one waits (notes/assumptions/42) and no answer waits for a
cell: a refusal is answered and counted, a duplicate
acknowledged and counted, and what no slice can take is answered NACK FULL; a contribution that is accepted makes its rank
present, binds its chunk and goes to the chunk's slice; a frame of a transit partial is taken by the rules of partials. A
running slice's intake takes the next one of a port group when it fits, and it waits when it does not. -/
def Obligations.ContributionsDispatched : Prop :=
  ∀ (s : State) (pg : Fin 128) (sl : SliceNo), isRunning s = true →
    (∀ (f : Frame) (ts : Word),
      (slotOf s (fGroup f) = none → dispatchVerdict s f ts = .refuse 7 4 none) ∧
      (∀ slot, 32768 ≤ stepDist (getGroup s slot) (fStep f) → stepVerdict s slot f ts = some (.refuse 6 3 (some (slot, .late)))) ∧
      (∀ slot, 4 ≤ stepDist (getGroup s slot) (fStep f) → stepDist (getGroup s slot) (fStep f) < 32768 →
        stepVerdict s slot f ts = some (.refuse 5 2 (some (slot, .busy)))) ∧
      (∀ slot e, stepDist (getGroup s slot) (fStep f) < 4 → (getStep (getGroup s slot) (fStep f)).st = .open_ →
        (getStep (getGroup s slot) (fStep f)).expiry = some e → e.toNat ≤ ts.toNat →
        (getStep (getGroup s slot) (fStep f)).aborted = false →
        stepVerdict s slot f ts = some (.refuse 6 3 (some (slot, .late)))) ∧
      (∀ slot e, stepDist (getGroup s slot) (fStep f) < 4 → (getStep (getGroup s slot) (fStep f)).st = .expired →
        (getStep (getGroup s slot) (fStep f)).expiry = some e → ts.toNat < e.toNat → isOpen (theChunk s (frameChunk slot f)) = true →
        stepVerdict s slot f ts = none)) ∧
    (∀ l, pickLocal s pg = some l → isExpress s l.frame = false → expressWaits s = true →
      exec (.contribDispatch { pg }) s = .next s) ∧
    (∀ l, pickLocal s pg = some l → (isExpress s l.frame = true ∨ expressWaits s = false) → answersWait s = false →
      let f := l.frame
      let q := dispatchTurn { s with dispatch := s.dispatch.erase l } pg
      let run := exec (.contribDispatch { pg }) s
      let verdict := dispatchVerdict q f l.ts
      (isExpress s f = false → ∀ x ∈ s.dispatch, x.port / 4 = pg.val → (isTransit x.frame = true → partReady s x.frame = true) →
        l.sof ≤ x.sof) ∧
      (isTransit f = true → run = .next (dispatchPartial q l)) ∧
      (isTransit f = false →
        (∀ typ reason cnt, verdict = .refuse typ reason cnt → run = .next (applyRefusal (handledLocal q l) f typ reason cnt)) ∧
        (∀ slot, verdict = .format slot →
          run = .next (applyRefusal (markFormat (handledLocal q l) slot f) f 7 8 (some (slot, .refused)))) ∧
        (∀ slot, verdict = .duplicate slot → run = .next (ackFrame (countGroup (handledLocal q l) slot .dup 1) f)) ∧
        (verdict = .noSlice → run = .next (nackFrame (handledLocal q l) f 5 0)) ∧
        (verdict = .discard → run = .next (handledLocal q l)) ∧
        (∀ slot, verdict = .accept slot → answers run fun t =>
          let i := frameChunk slot f
          t = { q with groups := t.groups, intake := t.intake, freeCtr := t.freeCtr } ∧
          (theChunk t i).present = (theChunk s i).present ||| 2 ^ fRank f ∧
          (theChunk t i).queued = (theChunk s i).queued + 1 ∧ (theChunk t i).ph = .bound ∧
          ∃ e : SerOp, t.intake = s.intake ++ [((theChunk t i).slice.getD 0, e)] ∧
            e.c = l ∧ e.cid = i ∧ e.rank = fRank f ∧ e.since = 2 * q.clk.cycles))) ∧
    (∀ (x : Nat × SerOp) (rest : List (Nat × SerOp)),
      takeFirst (fun x : Nat × SerOp => x.1 == sl.val && (x.2.c.port / 4 == pg.val || decide (512 ≤ x.2.c.port))) s.intake =
        some (x, rest) →
      let k := getSlice s sl
      let n := x.2.c.frame.payload.length
      let r := atPlace placeWork s
      let run := exec (.intakeAccept sl pg) s
      (sliceRuns s sl.val = true → inTurn s x = true → k.intakeUsed + n ≤ 32768 → answers run fun t =>
        t.intake = rest ∧
        getSlice t sl = { k with intakeUsed := k.intakeUsed + n, ops := k.ops ++ [{ x.2 with since := 2 * r.clk.cycles }] } ∧
        (∀ j, j ≠ sl → getSlice t j = getSlice s j) ∧ t.groups = s.groups ∧ t.cores = r.cores ∧ t.tbl = s.tbl) ∧
      (sliceRuns s sl.val = true → (inTurn s x = false ∨ 32768 < k.intakeUsed + n) → run = .next s) ∧
      (sliceRuns s sl.val = false → sliceTakes s (theChunk s x.2.cid) = false →
        run = .next (nackStopped (handledLocal { r with intake := rest } x.2.c) x.2)))

/-- A contribution at its slice, with no step program, in its turn. One whose tile fails is discarded before any add, answered NACK
TILE, and its rank is not present. A fault that shows closes the chunk with ARITH_CHECK, the contribution acknowledged, and so does
poisoned or uncorrectable data in what the add reads in Firn, and an add whose residues do not match. Else it is combined into the
chunk's reduction, codes on the right of the accumulator, codes in the canonical tree, or integers on the grid, each element with the
residue that travels with it, and no other chunk changes. How an adder's error enters is the model's (notes/assumptions/106). -/
def Obligations.ContributionReduced : Prop :=
  ∀ (s : State) (sl : SliceNo) (o : SerOp) (rest : List SerOp) (fault : SeracFault), s.sorted → isRunning s = true →
    sliceRuns s sl.val = true → pickOp s sl = some (o, rest) → isTransit o.c.frame = false →
    gdStepEn (descOf s o.cid.slot.val) = false →
    let f := o.c.frame
    let slot := o.cid.slot.val
    let d := descOf s slot
    let k := theChunk s o.cid
    let x := getSlice s sl
    let y := { x with ops := rest, intakeUsed := x.intakeUsed - f.payload.length }
    let q := setSlice (atPlace placeWork s) sl y
    let run := exec (.seracContribProcess sl fault) s
    let becomes := fun (k' : Chunk) => answers run fun t =>
      theChunk t o.cid = k' ∧ (∀ i, i ≠ o.cid → theChunk t i = theChunk s i) ∧ getSlice t sl = y
    let closes := fun (t : State) => run = .next (closeChunk (ackFrame t f) o.cid .arithCheck 0)
    let w := if faultMet fault false then seracFaultEvt q sl slot (gdStepProg d) fault else q
    let takes := fun (k' : Chunk) (miss : Bool) =>
      let rd := firnMeets w sl (firnReads d k k')
      (rd.1 = true → closes rd.2) ∧ (rd.1 = false → miss = true → closes (seracFaultEvt rd.2 sl slot 0 fault)) ∧
      (rd.1 = false → miss = false → complete d k' = false → becomes k')
    chunkWaits s d k = false →
    (tilesGood f = false → run = .next (nackFrame (discardOp (serEvt q sl 0 slot 0 0 0) o) f 1 0) ∧ becomes { k with
      present := if (k.present >>> o.rank) % 2 = 1 then k.present - 2 ^ o.rank else k.present
      queued := k.queued - 1 }) ∧
    (tilesGood f = true →
      f.payload.length = chunkBytes (bucketLen s d o.cid.bucket.toNat) o.cid.chunk.toNat →
      (gdExact d = true → ∀ n, largestOffset d (fElems f) f.payload = some n → n ≤ fOffset f) →
      (faultShows fault false = true → closes w) ∧
      (faultShows fault false = false → gdExact d = false → gdMode d ≠ 0 →
        let leaf := leafAcc d (fElems f) f.payload
        let sum := accAdd d k leaf.1 (slipOf fault)
        takes { k with
          acc := some sum.1, accRes := accResidues d sum.1, flags := k.flags ||| leaf.2 ||| sum.2.1
          vanished := satAdd32 k.vanished 0, queued := k.queued - 1 } sum.2.2) ∧
      (faultShows fault false = false → gdExact d = false → gdMode d = 0 →
        let leaf := leafAcc d (fElems f) f.payload
        let tree := treeAccept d (treeDepth (gdN d) + 1) k.moraine 0 o.rank { val := leaf.1, slip := slipOf fault }
        takes { k with
          moraine := placeEntries w k.moraine tree.1, acc := if tree.2.1 then some (.codes tree.2.2.val) else k.acc
          accRes := if tree.2.1 then residuesOf d tree.2.2.val else k.accRes
          flags := k.flags ||| leaf.2 ||| tree.2.2.flags, vanished := satAdd32 k.vanished 0, queued := k.queued - 1 } tree.2.2.miss) ∧
      (faultShows fault false = false → gdExact d = true →
        let es := leafGrid d (fElems f) (fOffset f) f.payload
        let sum := gridAdd d k (es.map fun e => (e.n, e.sticky)) (slipOf fault)
        takes { k with
          acc := some sum.1, accRes := accResidues d sum.1, flags := k.flags ||| flagsOr (es.map (·.flags)) ||| 0
          vanished := satAdd32 k.vanished (es.map (·.vanished)).sum, queued := k.queued - 1 } sum.2))

/-! ## Results, records and messages (R53, R62, R72, R168, R169, R184, R187, R191, R291, R350) -/

/-- A FIN run, in its turn, that ends well leaves its stream as the chunk's result, one that an exception ends closes the
chunk with RETRY, and an accumulator that reads poisoned or uncorrectable closes it with ARITH_CHECK. RESULT_BUILD, in its turn, makes one message for each rank with a window that holds the result, counts the
others in ABANDONED, and waits when buffers are short; a record takes the next place and a credit of its ring; MESSAGE_SEND
sends the next message of a destination once. -/
def Obligations.ResultsAndRecords : Prop :=
  ∀ (s : State) (c : ChunkId) (step rank : BitVec 16) (dest : BitVec 20), isRunning s = true →
    let slot := c.slot.val
    let d := descOf s slot
    let k := theChunk s c
    let sl := fin18 (k.slice.getD 0)
    let q := atPlace placeWork s
    let turn := mayServe s sl.val (gdExpress d, k.since) = true ∧ chunkWaits s d k = false
    (finDue s c = true → k.slice.isSome = true → sliceRuns s sl.val = true → turn →
      let rd := firnMeets q sl (accPlace d k)
      let vals := rootVals d k
      let run := doRun rd.2 sl (runCtx rd.2 c d vals.length 0xFFFFFFFF (popCount k.present (gdN d)) true) vals
      (rd.1 = true → exec (.finRun c .none) s = .next (closeArith rd.2 c)) ∧
      (rd.1 = false → ∀ u, run = .exc u → exec (.finRun c .none) s = .next (closeChunk u c .retry 0)) ∧
      ∀ out u, rd.1 = false → run = .fine out u → (finStream d k (getSlice u sl).run c.step.toNat).repeatScale = false →
        answers (exec (.finRun c .none) s) fun t =>
          t = { u with groups := t.groups } ∧ (theChunk t c).finDone = true ∧
          (theChunk t c).encoded = some (finStream d k (getSlice u sl).run c.step.toNat).payload ∧
          (theChunk t c).present = (theChunk u c).present ∧ (theChunk t c).ph = (theChunk u c).ph) ∧
    (∀ st, buildDue s c = some st → turn →
      let e := finalOf d k (groupIdOf s slot) c.step.toNat c.bucket.toNat c.chunk.toNat
      let rd := firnMeets q sl (if k.encoded.isSome then [] else accPlace d k)
      let s0 := { rd.2 with jobs := s.jobs.filter fun j => j != .build c }
      let rs := resultRanks s c d e.payload.length
      (rd.1 = true → exec (.resultBuild c .none) s = .next (closeArith rd.2 c)) ∧
      (rd.1 = false → e.repeatScale = false →
      (∀ r, deliverResult s0 c e = .error r → exec (.resultBuild c .none) s = .next (waitJob s0 r (.build c))) ∧
      (∀ u, deliverResult s0 c e = .ok u →
        exec (.resultBuild c .none) s = .next (closeDelivered u c st e) ∧
        ((∀ r ∈ rs, isPoisoned s ctrTable (endpointOf s d r) = false) → u.msgs.length = s.msgs.length + rs.length) ∧
        u.fab.abandoned = min (s.fab.abandoned + ((readableRanks s c d).length - rs.length)) 0xFFFF))) ∧
    (∀ n u, dueRun s slot step.toNat rank.toNat = some n → pdOn s 2 = true →
      (getStep (getGroup s slot) step.toNat).runs[n]? = some u →
      let w := windowOf s d rank.toNat
      let s0 := { atPlace placeSend s with jobs := s.jobs.filter fun j => j != .record slot step.toNat rank.toNat n }
      let ring := ringOf s slot d rank.toNat
      let mk := recordFrames s0 slot step.toNat d u rank.toNat ring.1
      rankPoisoned s d rank.toNat = false → winValid w = true → winEntries w ≠ 0 →
      (ring.2 = 0 → exec (.recordSend c.slot step rank) s = .next s0) ∧
      (∀ out id v, 0 < ring.2 → allocMessage s0 (mk 0) [[rank.toNat]] = .ok (out, id, v) →
        isPoisoned s ctrTable (endpointOf s d rank.toNat) = false →
        answers (exec (.recordSend c.slot step rank) s) fun t =>
          ringOf t slot d rank.toNat = ((ring.1 + 1) % 2 ^ 32, ring.2 - 1) ∧
          ∃ m : Msg, t.msgs = s.msgs ++ [m] ∧ m.kind = .record slot step.toNat rank.toNat ∧
            m.key.dest = endpointOf s d rank.toNat ∧ m.key.id = tget 0 s.msgCtr m.key.dest ∧ m.sent = false)) ∧
    (∀ m, nextUnsent s dest.toNat = some m → inListOrder s m = true → answers (exec (.messageSend dest) s) fun t =>
      t.msgs = s.msgs.map (fun x => if x.key == m.key then { m with sent := true } else x) ∧
      t.groups = s.groups ∧ t.copies = s.copies ∧ t.msgCtr = s.msgCtr)

/-! ## Expiry and aborts (R53, R54, R66, R67, R118, R125, R135, R184, R193) -/

/-- A step expires at its time with every earlier contribution dispatched and every partial in hand whole; its incomplete
chunks close by what is present and by LATE_POL and MIN_PRESENT; a closed chunk leaves no contribution waiting; an abort
leaves no step of the window open or expired and the barrier count at 0; a silent partial closes its chunk with RETRY. What an
evaluation reads poisoned or uncorrectable in Firn closes the chunk with ARITH_CHECK. -/
def Obligations.ExpiryAndAborts : Prop :=
  ∀ (s : State) (c : ChunkId), s.sorted → isRunning s = true →
    let slot := c.slot.val
    let d := descOf s slot
    let k := theChunk s c
    let x := getStep (getGroup s slot) c.step.toNat
    let p := popCount k.present (gdN d)
    let q := atPlace placeWork s
    (∀ e, x.st = .open_ → x.expiry = some e → e.toNat ≤ (devTime s).toNat →
      (∀ l ∈ s.dispatch, e.toNat ≤ l.ts.toNat) → (∀ kc ∈ x.chunks, kc.2.parts.all partDone = true) →
      (∃ bc ∈ homed s slot, isOpen (chunkOf x bc.1 bc.2) = true) →
      exec (.deadlineExpiry c.slot c.step) s =
        .next (onStep (atPlace placeExpiry s) slot c.step.toNat fun y => { y with st := .expired })) ∧
    (x.st = .expired → isOpen k = true → (homed s slot).contains (c.bucket.toNat, c.chunk.toNat) = true →
      runningSlices s ≠ [] → (∀ n, k.slice = some n → sliceRuns s n = true) → k.queued = 0 → k.parts.all partDone = true →
      chunkWaits s d k = false →
      let run := exec (.chunkCloseAtExpiry c .none) s
      (p = 0 → run = .next (closeChunk q c .empty 0)) ∧
      (0 < p → p < gdMinPresent d →
        run = .next (closeChunk q c .retry (if gdLatePol d = 0 then causeMinPresent else causeDeadline))) ∧
      (max (gdMinPresent d) 1 ≤ p → gdLatePol d = 1 → run = .next (closeChunk q c .retry causeDeadline)) ∧
      (max (gdMinPresent d) 1 ≤ p → gdLatePol d ≠ 1 →
        let r := rootAtExpiry d k none
        let rd := firnMeets q (fin18 (k.slice.getD 0)) ((if k.acc.isSome then accPlace d k else []) ++ entPlaces .last k.moraine)
        (rd.1 = true → run = .next (closeArith rd.2 c)) ∧
        (rd.1 = false → run = .next (settleStep (storeChunk rd.2 c d { k with
          ph := .rooted .partialRes, since := 2 * rd.2.clk.cycles, acc := r.1, accRes := (r.1.map (accResidues d)).getD []
          moraine := [], flags := k.flags ||| r.2.1 ||| causeDeadline }) slot c.step.toNat)))) ∧
    (∀ st fl, let t := closeChunk s c st fl
      t.intake = s.intake.filter (fun z => z.2.cid != c) ∧ t.msgs = s.msgs ∧
      ∀ sl, (getSlice t sl).ops = (getSlice s sl).ops.filter (fun o => o.cid != c) ∧ (getSlice t sl).v = (getSlice s sl).v) ∧
    (pdOn s 2 = true → answers (exec (.grpAbort c.slot) s) fun t =>
      (getGroup t slot).arrivals = 0 ∧ t.fab.grpAbort = BitVec.ofNat 64 slot ∧
      ∀ n ∈ windowSteps (getGroup s slot),
        (getStep (getGroup t slot) n).st ≠ .open_ ∧ (getStep (getGroup t slot) n).st ≠ .expired) ∧
    (∀ (src : BitVec 20) (msg : BitVec 32) (z : PartRx) (e : Word), findPart s src.toNat msg.toNat = some (c, z) →
      x.expiry = some e → partDone z = false →
      max e.toNat z.lastAt + (resendLimit s + 1) * timeoutOf s ≤ (devTime s).toNat →
      exec (.partialSilenceTimeout src msg) s =
        .next (closeChunk (putPart (atPlace placeSilence s) c z false) c .retry causeDeadline)) ∧
    (∀ (src : BitVec 20) (msg : BitVec 32), findPart s src.toNat msg.toNat = none → heldBack s src.toNat msg.toNat = [] →
      exec (.partialSilenceTimeout src msg) s = .next s)

/-! ## Answers to the switch's messages (R136, R166, R175, R178 to R181, R184, R185) -/

/-- What an answer, a timeout or a cleared window does to a message that has been sent: ACK and NACK STALE or REJECTED end
it, the latter two counted in ABANDONED; another NACK and a timeout resend it from its copy, up to RESEND_LIMIT, and a copy
that does not verify ends it; BUSY makes a combiner wait and double its wait; LATE and NOTICE end a combiner's partial; a NOTICE
of reason ABORTED that names a message to the switch itself takes the partial it holds of that source as abandoned; an answer
that fits nothing is counted. LATE and NOTICE are relayed only while no answer waits for a cell. An answer to what has not been
sent fits nothing, and a BUSY retry counts in RESENT (notes/assumptions/48 and notes/assumptions/54). -/
def Obligations.AnswersReceived : Prop :=
  ∀ (s : State) (m : Msg) (l : LocalC) (rest : List LocalC), s.sorted → isRunning s = true →
    findMsg s m.key = some m → m.sent = true →
    let f := l.frame
    let got := fun (typ : Nat) => takeFirst (fun x : LocalC => fType x.frame == typ) s.localQ = some (l, rest)
    let u := noteEcho (handledLocal { atPlace placeAnswer s with localQ := rest } l) f
    let dest := BitVec.ofNat 20 m.key.dest
    let id := BitVec.ofNat 32 m.key.id
    let named := ansKey f = m.key
    let limit := fld s.fab.e2eCtl 60 4
    let ends := fun (r : Res) (lost : Bool) => answers r fun t =>
      t.msgs = s.msgs.filter (fun x => x.key != m.key) ∧
      t.fab.abandoned = if lost then min (s.fab.abandoned + 1) 0xFFFF else s.fab.abandoned
    let again := fun (r : Res) (m' : Msg) => answers r fun t =>
      t.msgs = s.msgs.map (fun x => if x.key == m.key then m' else x) ∧ t.fab.resent = min (s.fab.resent + 1) 0xFFFF
    let good := fun (v : State) (first : Nat) => copyStalls v m = true ∨ (readBack v m first (m.frames.drop first)).2.1 = none
    let bad := fun (v : State) (first : Nat) => copyStalls v m = false ∧ (readBack v m first (m.frames.drop first)).2.1 ≠ none
    (got 3 → named → ends (exec .ackReceive s) false) ∧
    (got 3 → findMsg s (ansKey f) = none → answers (exec .ackReceive s) fun t =>
      t.msgs = s.msgs ∧ t.fab.unmatched = min (s.fab.unmatched + 1) 0xFFFF ∧
      t.fab.echoed = if bitOf f.w3 55 then min (s.fab.echoed + 1) 0xFFFF else s.fab.echoed) ∧
    (got 4 → named → (ansReason f = 3 ∨ ansReason f = 4) → ends (exec (.nackReceive none) s) true) ∧
    (got 4 → named → (ansReason f = 1 ∨ ansReason f = 2 ∨ ansReason f = 5) →
      let first := fld f.w3 32 16
      ((limit ≤ m.resends ∨ bad u first) → ends (exec (.nackReceive none) s) true) ∧
      (m.resends < limit → good u first → again (exec (.nackReceive none) s)
        { m with resends := m.resends + 1, sendNo := m.sendNo + 1, started := false })) ∧
    (∀ t0 n, m.key.dest < 2 ^ 20 → m.key.id < 2 ^ 32 → m.timer = some (t0, n) → t0 + n ≤ s.clk.cycles → answerHere s m = false →
      let v := putMsg (atPlace placeTimeout s) { m with timer := none }
      ((limit ≤ m.resends ∨ bad v 0) → ends (exec (.resendTimeout dest id none) s) true) ∧
      (m.resends < limit → good v 0 → again (exec (.resendTimeout dest id none) s)
        { m with resends := m.resends + 1, sendNo := m.sendNo + 1, started := false, timer := none })) ∧
    (∀ n c, m.kind = .transit n → tget none s.combs n = some c →
      (got 5 → named → answers (exec .busyReceive s) fun t =>
        tget none t.combs n = some { c with due := some (u.clk.cycles + c.wait), wait := min 86400 (2 * c.wait) } ∧
        t.msgs = s.msgs.map (fun x => if x.key == m.key then { m with timer := none } else x)) ∧
      (got 6 → named → answersWait s = false → ends (exec .lateReceive s) false ∧
        answers (exec .lateReceive s) fun t => tget none t.combs n = none) ∧
      (got 7 → named → answersWait s = false → ends (exec .noticeReceive s) false ∧
        answers (exec .noticeReceive s) fun t => tget none t.combs n = none) ∧
      (∀ t0, m.key.dest < 2 ^ 20 → m.key.id < 2 ^ 32 → c.due = some t0 → t0 ≤ s.clk.cycles →
        good (putComb (atPlace placeTimeout s) n (some { c with due := none })) 0 →
        again (exec (.combBusyRetry dest id none) s) { m with sendNo := m.sendNo + 1, started := false, timer := none } ∧
        answers (exec (.combBusyRetry dest id none) s) fun t => tget none t.combs n = some { c with due := none })) ∧
    (got 7 → answersWait s = false → findMsg s (ansKey f) = none →
      ((ansReason f ≠ 9 ∨ (ansKey f).dest ≠ s.fab.swEp.toNat) → exec .noticeReceive s = .next (unmatched u)) ∧
      (∀ i p, ansReason f = 9 → (ansKey f).dest = s.fab.swEp.toNat → findPart u (fSrc f) (ansKey f).id = some (i, p) →
        exec .noticeReceive s =
          .next (if partDone p then unmatched u else closeChunk (putPart u i p false) i .retry causeDeadline))) ∧
    (∀ ep : BitVec 20, pdOn s 2 = true → answers (exec (.e2eWinClr ep) s) fun t =>
      windowFor t ep.toNat = windowClear ∧ tget 0 t.msgCtr ep.toNat = 0 ∧ ∀ x ∈ t.msgs, x.key.dest ≠ ep.toNat)

/-! ## Barriers, GROUPCTL, DATA and RESULT at the switch (R57, R161, R172, R188, R191, R193, R196, R313) -/

/-- Messages of one frame to the switch. An arrival of the current sequence number counts; the last one advances it and
sets the count to 0; an arrival of the number before is acknowledged again, any other rejected, both without effect. A
CQ credit fills a ring up to its entries. A program operation goes to a core's mailbox. A reserved operation, DATA and
RESULT are rejected and change no group and no window. Each is taken while no answer waits for a cell. That an arrival of
MEMBER_COUNT lowered below the count waits is the model's choice (notes/assumptions/119). -/
def Obligations.GroupMessages : Prop :=
  ∀ (s : State) (l : LocalC) (rest : List LocalC) (slot : Nat), s.sorted → isRunning s = true → answersWait s = false →
    let f := l.frame
    let got := fun (p : Frame → Bool) => takeFirst (fun x : LocalC => p x.frame) s.localQ = some (l, rest)
    let whole := fKey f = true ∧ fCount f = 1 ∧ fIdx f = 0
    let isNew := classify (windowFor s (fSrc f)) (BitVec.ofNat 32 (fMsg f)) = 0 ∧ isPoisoned s winTable (fSrc f) = false
    let marked := markAcked (windowFor s (fSrc f)) (BitVec.ofNat 32 (fMsg f))
    let v := clearRx (noteFrame (handledLocal { atPlace placeAnswer s with localQ := rest } l) f).1 f
    let g := getGroup s slot
    let n := gdN (descOf s slot)
    let d := descOf s slot
    (got (fun f => fType f == 8) → ctlCheck s f true = .accept slot → whole → isNew → bitOf f.w3 63 = false →
      let run := exec .barrierArrival s
      (fStep f = g.bseq → g.arrivals + 1 ≠ n → answers run fun t =>
        getGroup t slot = { g with arrivals := g.arrivals + 1 } ∧ windowFor t (fSrc f) = marked) ∧
      (fStep f = g.bseq → g.arrivals + 1 = n → answers run fun t =>
        getGroup t slot = { g with bseq := (g.bseq + 1) % 65536, arrivals := 0 } ∧ windowFor t (fSrc f) = marked) ∧
      (fStep f ≠ g.bseq → (fStep f + 1) % 65536 = g.bseq → answers run fun t =>
        getGroup t slot = g ∧ windowFor t (fSrc f) = marked) ∧
      (fStep f ≠ g.bseq → (fStep f + 1) % 65536 ≠ g.bseq → answers run fun t =>
        getGroup t slot = g ∧ windowFor t (fSrc f) = windowFor s (fSrc f))) ∧
    (got (fun f => fType f == 9 && gcOp f == 1) → ctlCheck s f false = .accept slot → whole → isNew →
      isPoisoned s 0x07 (gdMemberBase d + fRank f) = false → answers (exec .cqCredit s) fun t =>
        let ring := ringOf s slot d (fRank f)
        ringOf t slot d (fRank f) = (ring.1, min (ring.2 + fld f.w3 0 32) (winEntries (windowOf s d (fRank f)))) ∧
        windowFor t (fSrc f) = marked) ∧
    (got (fun f => fType f == 9 && decide (0x80 ≤ gcOp f)) → whole → isNew → (rxOf s f).kept = [] → (rxOf s f).got = [] →
      let c := fin8 (gcOp f)
      let e : QEnt := { copy := 0, frame := f, src := if l.port < 512 then .port l.port l.cls else .internal, ups := l.ups }
      let w := noteMark (holdLeave (atPlace (placeMailbox + l.port / 4) { s with localQ := rest }) none e) f
      let z := clearRx (noteFrame (putRx w f { rxOf w f with kept := (rxOf w f).kept ++ [l] }) f).1 f
      ((getCore s c).mbx.length = 256 → answers (exec .groupctlProgramOp s) fun t =>
        (getCore t c).mbx = (getCore s c).mbx ∧ windowFor t (fSrc f) = windowFor s (fSrc f)) ∧
      (∀ id u, (getCore s c).mbx.length < 256 → allocCopy z 4097 0 1 (frameBytes f) (fCells f) = .ok (id, u) →
        answers (exec .groupctlProgramOp s) fun t =>
          ∃ e : MbxEntry, (getCore t c).mbx = (getCore s c).mbx ++ [e] ∧ e.copy = some id ∧ e.data = f.w3 ∧
            fld e.desc 60 4 = 1 ∧ fld e.desc 0 20 = fSrc f ∧ windowFor t (fSrc f) = marked)) ∧
    (whole →
      (got (fun f => fType f == 9 && gcOp f != 1 && decide (gcOp f < 0x80)) →
        exec .groupctlReservedOp s = .next (nackFrame v f 4 0)) ∧
      (got (fun f => fType f == 0) → exec .dataToSwitch s = .next (nackFrame v f 4 0)) ∧
      (got (fun f => fType f == 2) → exec .resultToSwitch s = .next (nackFrame v f 4 0)) ∧
      (nackFrame v f 4 0).groups = s.groups ∧ (nackFrame v f 4 0).windows = s.windows)

/-! ## Combining in passing (R22, R111, R112, R132 to R135, R139, R140, R163, R290, R296) -/

/-- A contribution that may not be combined goes on as it came; one that may opens a partial on its slice when a slot is free, or
joins the open partial of its chunk, whose integers are then combined and whose members are both covered; one that carries a
non-finite element, or that comes when WINDOW is over, seals the open partial and opens the next; one on which its step program
faults, or raises what the record is to show (notes/assumptions/93), goes on unchanged, and where the partial's first one does so
the newcomer takes its place; an adder's error that the residues show discards the partial; WINDOW and EN 0 leave no open partial;
a frame of a partial at the home is added once. -/
def Obligations.CombiningInPassing : Prop :=
  ∀ (s : State) (sl : SliceNo) (ls : List LocalC), s.sorted → isRunning s = true →
    let l := headOf ls
    let q := atPlace (placeCombine l.port) s
    let f := l.frame
    let run := exec (.combineContrib sl .none) s
    (nextComb s = some ls → combSlice s f = some sl.val → sliceRuns s sl.val = true → answersWait s = false →
      (slotOf s (fGroup f) = none → run = .next (drainAll (goOn q ls))) ∧
      (∀ slot p, slotOf s (fGroup f) = some slot → mayCombine s f = true → combPoisoned s slot f = false →
        asPart q slot ls = some p →
        (findComb s f = none → slotsUsed s slot < gdQuota (descOf s slot) → p.ranks.length < 16 → answers run fun t =>
          t.combNext = s.combNext + 1 ∧ t.groups = s.groups ∧ (∀ x ∈ ls, x ∉ t.combQ) ∧
          (∀ n, n ≠ s.combNext → tget none t.combs n = tget none s.combs n) ∧
          ∃ c, tget none t.combs s.combNext = some c ∧ c.covs = [covOf ls p] ∧ c.vals = p.vals ∧ c.t = p.t ∧
            c.held = ls ∧ c.sealed = false ∧ c.slice = sl.val ∧ c.opened = q.clk.cycles) ∧
        (∀ n c, findComb s f = some (n, c) →
          let joins := windowOver q c = false ∧ (∀ r ∈ p.ranks, r ∉ combRanks c) ∧ p.fin = true ∧ c.fin = true ∧
            (combRanks c).length + p.ranks.length ≤ 16
          let sum := fun slip => combineVals (descOf s slot) c.vals p.vals slip
          (joins → (combRanks c).length + p.ranks.length < 16 → fits32 (min c.t.toNat p.t) (sum none).1 = true →
            gdStepEn (descOf s slot) = false → answers run fun t =>
              (∀ x ∈ ls, x ∉ t.combQ) ∧ t.groups = s.groups ∧
              tget none t.combs n = some { c with
                covs := c.covs ++ [covOf ls p], held := [], vals := (sum none).1, t := ((min c.t.toNat p.t : Nat) : Int)
                ran := true }) ∧
          (∀ e delta sh, joins → gdStepEn (descOf s slot) = false → (sum (slipOf (.adder e delta sh))).2 = true →
            exec (.combineContrib sl (.adder e delta sh)) s =
              .next (drainAll (spoilComb (seracFaultEvt q sl slot 0 (.adder e delta sh)) n { c with ran := true } ls p))) ∧
          ((windowOver q c = true ∨ p.fin = false ∨ c.fin = false) →
            run = .next (drainAll (openComb (sealComb q n) slot ls p))) ∧
          (∀ u, joins → firstRun q sl slot c = .away u → run = .next (drainAll (replaceFirst u n c ls p))) ∧
          (∀ v t1 u, joins → firstRun q sl slot c = .fine v t1 → combRun t1 sl slot ls p.vals = .away u →
            run = .next (drainAll (goOn (putComb u n (some { c with vals := v, ran := true })) ls)))))) ∧
    (∀ id : ChunkId, answers (exec (.combWindowSeal id) s) fun t => ∀ n c, tget none t.combs n = some c →
      c.slot = id.slot.val → c.step = id.step.toNat → c.bucket = id.bucket.toNat → c.chunk = id.chunk.toNat →
      windowOver s c = true → c.sealed = true) ∧
    (∀ w : Word, pdOn s 2 = true → answers (exec (.combCtlWrite w) s) fun t =>
      t.fab.combCtl = (s.fab.combCtl &&& 0x7FFFFFFF00000000) ||| (w &&& 0x80000000FFFFFFFF) ∧
      (bitOf w 63 = false → ∀ n c, tget none t.combs n = some c → c.sealed = true)) ∧
    (∀ (o : SerOp) (rest : List SerOp) (p : PartRx), pickOp s sl = some (o, rest) → isTransit o.c.frame = true →
      sliceRuns s sl.val = true →
      let g := o.c.frame
      let d := descOf s o.cid.slot.val
      let k := theChunk s o.cid
      let z := getSlice s sl
      let y := setSlice (atPlace placeWork s) sl { z with ops := rest, intakeUsed := z.intakeUsed - g.payload.length }
      let sum := gridAdd d k (partialGrid (fElems g) g) none
      partOf k g = some p → chunkWaits (atPlace placeWork s) d k = false → tilesGood g = true → p.added.length + 1 < p.count →
      (firnMeets y sl (firnReads d k (partNext d k g none).1)).1 = false →
      answers (exec (.transitPartialFrame sl .none) s) fun t =>
        (theChunk t o.cid).acc = some sum.1 ∧ (theChunk t o.cid).accRes = accResidues d sum.1 ∧
        (theChunk t o.cid).present = k.present ∧ (getSlice t sl).ops = rest ∧
        ∀ j, j ≠ o.cid → theChunk t j = theChunk s j) ∧
    (∀ (pg : Fin 128) (x : LocalC) (slot : Nat) (p : PartRx), pickLocal s pg = some x → isTransit x.frame = true →
      knownPart s x.frame = some (slot, p) → fIdx x.frame ∈ p.got →
      answers (exec (.contribDispatch { pg }) s) fun t => t.intake = s.intake)

/-! ## Egress (R206, R207, R219, R220, R245, R257, R264, R265, R398) -/

/-- FRAME_START sends the head of the class that the port picks: it leaves the queue and stands on the wire with HOPS,
CMARK and HOP_CRC as R156, R235 and R159 have them (the depth is that at the start of the cycle, before fenced frames leave),
until its cycles end, and its cells are counted as sent; class 7 goes first whenever it is eligible. FRAME_DEPART frees the
wire and shows the frame while the port has its pins, or K30.7 where its cells are lost. A hold entry whose time ends is freed, unless the last frame that
it counts leaves in that very cycle. -/
def Obligations.EgressFrames : Prop :=
  ∀ (s : State) (p : PortNo) (k : HoldKey), s.sorted → portLive s p = true →
    let x := getPort s p
    let s0 := atPlace (placeStart s p) s
    let s1 := noteGuard (dropFenced (syncGate s0 p) p) p
    let run := exec (.frameStart p .none) s
    (x.sending = none →
      (∀ y, pickClass s1 (getPort s1 p) = (y, none) → run = .next (setPort s1 p y)) ∧
      (eligible s1 (getPort s1 p) 7 = true → (pickClass s1 (getPort s1 p)).2 = some 7) ∧
      (∀ y c e rest, pickClass s1 (getPort s1 p) = (y, some c) → (getCls y c).q = e :: rest →
        (verifies (setPort s1 p y) p e = true → tilesGood e.frame = true) → answers run fun t =>
        let depth := startDepth s0 (getCls (getPort s0 p) c).q e
        let mark := fld (getCls y c).pcls 32 20 != 0xFFFFF && decide (fld (getCls y c).pcls 32 20 < depth)
        (getPort t p).sending = some {
          ent := { e with frame := leaving e mark }, cls := c, ends := s1.clk.cycles + wireCycles y (wireLen e.frame) } ∧
        (getCls (getPort t p) c).q = rest ∧
        (getVc (getPort t p) c).sent = (getVc y c).sent + BitVec.ofNat 12 (fCells e.frame) ∧
        ∀ q, q ≠ p.val → getPort t q = getPort s1 q)) ∧
    (∀ w, x.sending = some w → w.ends ≤ s.clk.cycles →
      (answers (exec (.frameDepart p none) s) fun t => (getPort t p).sending = none ∧
        (s.tap.taken = false → .frame p.val w.ent.frame ∈ t.out) ∧ t.groups = s.groups ∧ t.msgs = s.msgs) ∧
      ∀ n, answers (exec (.frameDepart p (some n)) s) fun t => (getPort t p).sending = none ∧
        (s.tap.taken = false → .abort p.val ∈ t.out) ∧ t.groups = s.groups ∧ t.msgs = s.msgs) ∧
    (∀ h, findHold s k = some h → h.ends ≤ s.clk.cycles →
      (lastLeaving s h = true → exec (.ksTimeout k) s = .next s) ∧
      (lastLeaving s h = false → answers (exec (.ksTimeout k) s) fun t =>
        t.holds = s.holds.filter (fun z => z.key != h.key) ∧
        t.fab.ksTimeout = if h.ks.isSome then min (s.fab.ksTimeout + 1) 0xFFFF else s.fab.ksTimeout)) ∧
    (∀ h, findHold s k = some h → k.retx = true → h.ks.isSome = true → h.last + fld s.fab.ksCtl 0 16 ≤ s.clk.cycles →
      answers (exec (.keystoneQuietRelease k) s) fun t =>
        t.holds = s.holds.filter (fun z => z.key != h.key) ∧ t.fab.ksQuiet = min (s.fab.ksQuiet + 1) 0xFFFF)

/-! ## Gates and credits (R205 to R208, R229, R252, R270, R271, R274, R275) -/

/-- Time gates and credits of a port: what each command changes of the port and what it sends, and nothing else (a GATE_BASE after
GO is for the next GO: notes/assumptions/57). The
switchover of a GO is the first BASE + k C after its write; a switchover that was due is made before it, and a GO of the very cycle
of a switchover is applied in the next one. A credit symbol with a code error or a wrong CRC-8 counts in CRED_ERR and changes no credit. -/
def Obligations.GatesAndCredits : Prop :=
  ∀ (s : State) (p : PortNo) (v : Word) (c1 c2 c3 : Code) (vc : Fin 8), s.sorted → isRunning s = true →
    let x := getPort s p
    let g := atPlace placeGate s
    let w := v ||| 0x8000000000000000
    let d := max 1 (fld (x.gateList.getD x.gateEntry 0) 0 24)
    let n := min 64 (fld w 48 7)
    let f := atPlace placeWork s
    let sends := fun (b : State) (r : Res) (init : Bool) (val : Fin 8 → BitVec 12) (P : Port → Prop) => answers r fun t =>
      t = { b with ports := t.ports, lanes := t.lanes, out := t.out, freeCtr := t.freeCtr } ∧
      (s.tap.taken = false → ∀ c : Fin 8, Out.credit p.val c.val init (val c) ∈ t.out) ∧ P (getPort t p) ∧ ∀ o ∈ b.out, o ∈ t.out
    (x.gateList ≠ [] → x.gateEntryAt + d ≤ s.clk.cycles → exec (.gateEntryAdvance p) s =
      .next (setPort g p { x with gateEntry := (x.gateEntry + 1) % x.gateList.length, gateEntryAt := x.gateEntryAt + d })) ∧
    (portRegs s p = true →
      let q := atPlace placeWrite s
      let t := goCycle q p
      let y := getPort t p
      exec (.gateGo p v) s = .next (setPort t p { y with
        gateGuard := bitOf w 61, gatePlen := fld w 48 7, gateArmPlen := n
        gateArmed := some (switchTime y.gateBase (devTime t) (gateCycle (pendingGates t p n))) }) ∧
      y.switches = (if switchDue q p then min (x.switches + 1) 0xFFFF else x.switches) ∧
      t.clk.cycles = (if tget false (syncGate q p).cyc.switched p = true ∧ s.clk.pllLock = true then q.clk.cycles + 1 else q.clk.cycles)) ∧
    (∀ (base t : Word) (c : Nat), base.toNat ≤ t.toNat → 0 < c → t.toNat + c < 2 ^ 64 →
      let T := (switchTime base t c).toNat
      t.toNat < T ∧ T ≤ t.toNat + c ∧ (T - base.toNat) % c = 0) ∧
    (∀ T, x.gateArmed = some T → T.toNat ≤ (devTime s).toNat →
      let begun := g.clk.cycles - (devTime g - T).toNat
      exec (.gateSwitchover p) s = .next { setPort g p { x with
          gateList := pendingGates g p x.gateArmPlen, gateStart := begun, gateEntry := 0, gateEntryAt := begun
          gateArmed := none, switches := min (x.switches + 1) 0xFFFF } with
        cyc := if devTime g = T then { g.cyc with switched := tput false g.cyc.switched p true } else g.cyc }) ∧
    (s.tap.taken = false → x.st = .up → x.lt = .linked → pdOn s (22 + p.val / 64) = true →
      let run := exec (.creditSymbolReceive p c1 c2 c3) s
      let rx := rxData (rxAdvance (atPlace placeWire s) p) p [c1, c2, c3]
      let t := rx.2
      let y := getPort t p
      (rx.1 = none → run = .next (setPort t p { y with credErr := min (y.credErr + 1) 0xFFFF })) ∧
      (∀ a b c, rx.1 = some [a, b, c] →
        let z := getVc y (fin8 (fld a 5 3))
        let value := BitVec.ofNat 12 (fld a 0 4 * 256 + b.toNat)
        (crc8 [a, b] ≠ c → run = .next (setPort t p { y with credErr := min (y.credErr + 1) 0xFFFF })) ∧
        (crc8 [a, b] = c → bitOf a 4 = false → (value - z.ret).toNat ≤ (z.sent - z.ret).toNat →
          run = .next (setPort t p (setVc { y with peerCred0 := true } (fin8 (fld a 5 3)) { z with ret := value }))) ∧
        (crc8 [a, b] = c → bitOf a 4 = false → (z.sent - z.ret).toNat < (value - z.ret).toNat →
          run = .next (setPort t p { y with peerCred0 := true, credErr := min (y.credErr + 1) 0xFFFF })))) ∧
    (portLive s p = true → sends s (exec (.creditRefresh p) s) false (fun c => (getVc x c).cum) fun y =>
      y = { x with txPos := y.txPos, credPos := y.credPos }) ∧
    (x.lt = .linked → x.initSent = true → x.peerCred0 = false → x.initAt + 1350 ≤ s.clk.cycles →
      sends s (exec (.initRepeat p) s) true (inForce x) fun y =>
        y = { x with initAt := s.clk.cycles, txPos := y.txPos, credPos := y.credPos }) ∧
    (x.withheld = true → x.lt = .linked → fitsUp f p = true → x.vc.all (·.gotInit) = false →
      sends f (exec (.initReservationFit p) s) true (inForce x) fun y =>
        y = { x with withheld := false, initSent := true, initAt := f.clk.cycles, txPos := y.txPos, credPos := y.credPos }) ∧
    (portRegs s p = true →
      let others := allotOthers s p vc
      let r := atPlace placeWrite s
      (others + fld v 52 12 ≤ 2048 → exec (.portCredWrite p vc v) s =
        .next (setPort r p (setVc x vc { getVc x vc with allot := BitVec.ofNat 12 (fld v 52 12) }))) ∧
      (2048 < others + fld v 52 12 → exec (.portCredWrite p vc v) s = .next r))

/-! ## Training, alignment, rate matching (R396, R401 to R408) -/

/-- Training of a port that exists. A signal in DETECT begins POLL; a set counts toward its lane's run when it is valid and
of the same peer, and one that is not valid is ignored; markers, filler pairs and idle characters change the counts of their
lanes; the time limit of POLL and CONFIG fails the attempt, which RETRY_WAIT then repeats (a held port goes to DOWN with what it
holds discarded: notes/assumptions/59); a fast retrain that runs out begins a full attempt. Sets, markers and characters come as 10-bit codes and are read at the lane's running disparity. -/
def Obligations.LinkTraining : Prop :=
  ∀ (s : State) (lane : Fin 512) (p : PortNo) (first : Code) (rest : List Code) (delay : Nat), s.sorted →
    isRunning s = true → portExists s p = true → portOfLane s lane.val = p.val →
    let x := getPort s p
    let w := atPlace placeWire s
    let q := atPlace placeTimeout s
    let rs := readSet w lane.val (first :: rest)
    let l := getLane rs.2 lane.val
    let more := fun n : Nat => min (n + 1) 0xFFFF
    let training := exec (.trainingSetReceive lane first rest) s
    (x.lt = .detect → laneClocked s lane.val = true → answers (exec (.signalDetect lane) s) fun t =>
      t = { w with ports := t.ports, lanes := t.lanes, out := t.out } ∧ (getPort t p).lt = .poll ∧
      (getPort t p).ltSince = w.clk.cycles ∧ (getPort t p).st = x.st ∧ ∀ q, q ≠ p.val → getPort t q = getPort s q) ∧
    (laneHears s lane.val = true → rs.1 = none → training = .next rs.2) ∧
    (laneHears s lane.val = false → training = .next s) ∧
    (laneHears s lane.val = true → ∀ ts, rs.1 = some ts →
      (x.lt = .poll → rs.2.clk.cycles < x.ltSince + 27000 → training = .next (setLane rs.2 lane { l with
        lock := true, idx := BitVec.ofNat 2 ts.idx, setEp := ts.ep, setPort := ts.port
        sets := if l.setEp = ts.ep ∧ l.setPort = ts.port ∧ l.lock = true then l.sets + 1 else 1 })) ∧
      (x.lt = .eq → l.active = true → (ts.ts2 = true ∨ ts.genNow ≠ x.gen) →
        training = .next (setLane rs.2 lane { l with sets := 0 })) ∧
      (x.lt = .linked → l.active = true → ts.ts2 = false → training = .next (linkLost rs.2 p 5))) ∧
    (x.lt = .linked → laneHears s lane.val = true → (getLane s lane).active = true → ∀ c0 c1 c2 c3 : Code,
      let run := exec (.alignmentMarkerReceive lane c0 c1 c2 c3 delay) s
      let rx := rxCodes w lane.val [c0, c1, c2, c3]
      let m := getLane rx.2 lane.val
      (∀ a b c, rx.1 = [some (.k 0x7C), some (.d a), some (.d b), some (.d c)] →
        (crc8 [a, b] = c → fld a 6 2 = m.idx.toNat → delay ≤ 127 → run = .next (setLane rx.2 lane { m with
          markers := if m.errSince then 1 else m.markers + 1, errSince := false, delay := delay
          skew := BitVec.ofNat 7 delay })) ∧
        ((crc8 [a, b] ≠ c ∨ fld a 6 2 ≠ m.idx.toNat) → answers run fun t =>
          getLane t lane = { m with amErr := more m.amErr, markers := 0 } ∧ t.ports = s.ports ∧ t.groups = s.groups)) ∧
      (none ∈ rx.1 → (∀ xi ∈ rx.1.zipIdx, misplaced xi.2 xi.1 = false) → run = .next (setLane rx.2 lane { m with markers := 0 })) ∧
      (none ∈ rx.1 → m.codeErr ≤ 0xFFFF → answers run fun t => (getLane t lane).markers = 0 ∧ t.ports = s.ports ∧
        (getLane t lane).codeErr = min (m.codeErr + rx.1.zipIdx.countP (fun xi => misplaced xi.2 xi.1)) 0xFFFF)) ∧
    (s.tap.taken = false → x.lt = .linked → ∀ level : Nat,
      let mine := (lanesOfPort s p).filter fun n => (getLane s n).active
      let run := exec (.fillerPairReceive p level none) s
      (14 ≤ level → level ≤ 18 → run = .next w) ∧
      (18 < level → answers run fun t => t = { w with lanes := t.lanes } ∧
        ∀ n, getLane t n = if n ∈ mine then { getLane s n with fillDel := min ((getLane s n).fillDel + 1) 255 } else getLane s n) ∧
      (level < 14 → answers run fun t => t = { w with lanes := t.lanes } ∧
        ∀ n, getLane t n = if n ∈ mine then { getLane s n with fillIns := min ((getLane s n).fillIns + 1) 255 } else getLane s n)) ∧
    (s.tap.taken = false → x.lt = .linked → (getLane s lane).active = true → ∀ r : Code,
      let j := rxCode (rxAdvance w p) lane.val r
      let run := exec (.idleCharacterReceive lane r) s
      (j.1 = some (.k 0xBC) → run = .next j.2) ∧
      ((j.1 = none ∨ ∃ b, j.1 = some (.d b)) → answers run fun t =>
        (getLane t lane).codeErr = more (getLane s lane).codeErr ∧ t.groups = s.groups)) ∧
    (∀ why limit, ((x.lt = .poll ∧ why = 1 ∧ limit = 270000) ∨ (x.lt = .config ∧ why = 2 ∧ limit = 27000)) → x.fast = none →
      x.ltSince + limit ≤ s.clk.cycles → answers (exec (.trainingTimeout p) s) fun t =>
        (getPort t p).lt = .inactive ∧ (getPort t p).lastFail = why ∧ (getPort t p).trainFails = more x.trainFails ∧
        (getPort t p).retryAt = some (q.clk.cycles + fld x.lnkCtl 0 32) ∧
        (∀ n ∈ lanesOfPort s p, (getLane t n).active = false) ∧
        (getPort t p).st = (if x.st = .training ∨ x.st = .held then .down else x.st) ∧
        (x.st = .held → ∀ c, (getCls (getPort t p) c).q = [])) ∧
    (∀ n, x.retryAt = some n → n ≤ s.clk.cycles → x.st = .down → portRole x ≠ 3 → pdOn s (22 + p.val / 64) = true →
      answers (exec (.retryWaitExpiry p) s) fun t =>
        t = { q with ports := t.ports, lanes := t.lanes, out := t.out } ∧ (getPort t p).st = .training ∧
        (getPort t p).lt = .detect ∧ (getPort t p).retryAt = none ∧ (getPort t p).trainFails = x.trainFails) ∧
    (∀ n, x.fast = some n → n ≤ s.clk.cycles → x.lt ≠ .linked → answers (exec (.fastRetrainTimeout p) s) fun t =>
      t = { q with ports := t.ports, lanes := t.lanes, out := t.out } ∧ (getPort t p).st = x.st ∧ (getPort t p).lt = .detect ∧
      (getPort t p).fast = none)

/-! ## Ports, eye scans, Viaducts (R16 to R18, R211, R213, R214, R391, R408, R410, R414, R437, R497, R500) -/

/-- Ports: EN 1 begins training, EN 0 empties the port and turns it OFF, and ROLE 0b11 keeps it DOWN (on a port that trains or
is linked, the model's choice: notes/assumptions/109); a link loss holds an UP port for HOLD_TIME, whose end empties it;
RETRAIN acts as a link loss on a linked port and is ignored on one that is OFF or DOWN; SPLIT is written where every port of
the group was OFF at the start of the cycle, SW_EP while nothing is enabled. Of several causes of link loss in a cycle the first loses
the link and the lowest is reported. -/
def Obligations.PortStates : Prop :=
  ∀ (s : State) (p : PortNo) (v : Word) (cause : BitVec 3), s.sorted → isRunning s = true →
    let x := getPort s p
    let r := atPlace placeWrite s
    let up := v ||| 0x8000000000000000
    let ctl := fun w : Word => (x.ctl &&& 0x0FFFFFFF00000000) ||| (w &&& 0xF0000000FFFFFFFF)
    let emptied := fun (t : State) => (∀ c, (getCls (getPort t p) c).q = []) ∧ ∀ h ∈ t.holds, h.port ≠ some p.val
    let lost := fun (q : State) (r : Res) => answers r fun t =>
      (getPort t p).st = .held ∧ (getPort t p).losses = min (x.losses + 1) 0xFFFF ∧
      (getPort t p).holdEnds = some (q.clk.cycles + fld x.ctl 0 32) ∧ (getPort t p).sending = none ∧
      (getPort t p).lt = (if bitOf x.lnkCtl 60 then .eq else .detect) ∧
      ∀ c, (getCls (getPort t p) c).q = (getCls x c).q
    (portRegs s p = true →
      (x.st = .off → x.retryAt = none → fld up 61 2 ≠ 3 → pdOn s (22 + p.val / 64) = true →
        answers (exec (.portEnable p v) s) fun t =>
          t = { r with ports := t.ports, lanes := t.lanes, out := t.out, cyc := t.cyc } ∧ (getPort t p).st = .training ∧
          wasOff t p = wasOff r p ∧ (getPort t p).lt = .detect ∧ (getPort t p).ctl = ctl up ∧ ∀ q, q ≠ p.val → getPort t q = getPort s q) ∧
      (x.st ≠ .off → x.st ≠ .down → fld up 61 2 ≠ 3 → exec (.portEnable p v) s =
        .next (setPort (noteOff r p) p { x with ctl := ctl up })) ∧
      (x.st = .down → fld up 61 2 = 3 → exec (.portEnable p v) s = .next (setPort (noteOff r p) p { x with ctl := ctl up })) ∧
      (x.st ≠ .down → fld up 61 2 = 3 → answers (exec (.portEnable p v) s) fun t => (getPort t p).st = .down ∧
        (getPort t p).lt = .inactive ∧ (getPort t p).sending = none ∧ emptied t) ∧
      (answers (exec (.portDisable p v) s) fun t => (getPort t p).st = .off ∧ wasOff t p = wasOff r p ∧ (x.st ≠ .off → (getPort t p).lt = .inactive ∧
        (getPort t p).sending = none ∧ emptied t))) ∧
    (x.st = .up → x.lt = .linked → 0 < fld x.ctl 0 32 → lostHere s p = none →
      (1 ≤ cause.toNat → cause.toNat ≤ 6 → lost (atPlace placeLoss s) (exec (.linkLoss p cause) s)) ∧
      (linkRegs s p = true → lost r (exec (.retrain p) s))) ∧
    (∀ c, lostHere (atPlace placeLoss s) p = some c → 1 ≤ cause.toNat → cause.toNat ≤ 6 →
      (c.toNat ≤ cause.toNat → exec (.linkLoss p cause) s = .next (atPlace placeLoss s)) ∧
      (cause.toNat < c.toNat → answers (exec (.linkLoss p cause) s) fun t => lostHere t p = some cause ∧ t.ports = s.ports)) ∧
    (linkRegs s p = true → (x.st = .off ∨ x.st = .down) → exec (.retrain p) s = .next r) ∧
    (∀ n, x.st = .held → x.holdEnds = some n → n ≤ s.clk.cycles → answers (exec (.holdTimeout p) s) fun t =>
      (getPort t p).st = (if x.lt = .inactive then .down else .training) ∧ (getPort t p).holdEnds = none ∧ emptied t) ∧
    (∀ g : Fin 128, groupRegs s g = true →
      let off := ∀ q, q / 4 = g.val → portExists s q = true → wasOff r q = true
      (off → fld v 62 2 ≠ 3 → exec (.lnkGrpSplitWrite g v) s =
        .next { r with split := tput 0 r.split g (BitVec.ofNat 2 (fld v 62 2)) }) ∧
      ((¬ off ∨ fld v 62 2 = 3) → exec (.lnkGrpSplitWrite g v) s = .next r)) ∧
    (pdOn s 2 = true →
      let busy := (∃ kp ∈ s.ports, kp.2.st ≠ .off) ∨ ∃ kd ∈ s.tbl.desc, gdValid kd.2 = true
      (¬ busy → exec (.swEpWrite v) s = .next { r with fab := { r.fab with swEp := v.setWidth 20 } }) ∧
      (busy → exec (.swEpWrite v) s = .next r))

/-- Eye scans and Viaducts: a scan needs a locked lane and a legal generation; a Viaduct cell that fails is counted, a good
one clears the count, and the fifth failure in a row stops the Viaduct, which a retrain brings back (notes/assumptions/60; the
direction that a failed retrain reports is free: notes/assumptions/122); a time-load cell loads the Pier's count. -/
def Obligations.EyesAndViaducts : Prop :=
  ∀ (s : State) (lane : Fin 512) (w : Word) (m : BitVec 40) (v : Fin 8) (toPier ok : Bool), isRunning s = true →
    let l := getLane s lane.val
    let r := atPlace placeWrite s
    let a := atPlace placeWire s
    let q := atPlace placeWork s
    let g := w ||| 0x8000000000000000
    let c := (l.eyeCtl &&& 0x800003FFFFFFFFFF) ||| (w &&& 0x7FFFFC0000000000)
    let x := s.vdct[v]
    let n := if toPier then x.failsOut else x.failsIn
    (laneRegs s lane = true →
      (l.eyeBusy = false → (l.lock = false ∨ fld g 61 2 = 3) → exec (.eyeScanGo lane w) s = .next (setLane r lane { l with
        eyeCtl := c, eyeDone := true, eyeRefused := true, mismatch := 0 })) ∧
      (l.eyeBusy = false → l.lock = true → fld g 61 2 ≠ 3 → exec (.eyeScanGo lane w) s = .next (setLane r lane { l with
        eyeCtl := c, eyeBusy := true, eyeDone := false, eyeRefused := false })) ∧
      (l.eyeBusy = true → exec (.eyeScanGo lane w) s = .next r ∧
        exec (.eyeScanDone lane m) s = .next (setLane s lane { l with eyeBusy := false, eyeDone := true, mismatch := m }))) ∧
    (pdOn s (22 + v.val) = true → x.stopped = false →
      (exec (.viaductCellReceive v toPier true) s = .next { a with
        vdct := a.vdct.set v (if toPier then { x with failsOut := 0 } else { x with failsIn := 0 }) }) ∧
      (n < 4 → answers (exec (.viaductCellReceive v toPier false) s) fun t => onlyFaultRecords { a with vdct := t.vdct } t ∧
        t.vdct = s.vdct.set v (if toPier then { x with failsOut := n + 1 } else { x with failsIn := n + 1 })) ∧
      (4 ≤ n → answers (exec (.viaductCellReceive v toPier false) s) fun t =>
        t.vdct = s.vdct.set v { x with stopped := true, lastOk := false, failsIn := 0, failsOut := 0 })) ∧
    (pdOn s 2 = true → pdOn s (22 + v.val) = true → x.stopped = true → x.busy = false →
      exec (.vdctRetrain v) s = .next { r with vdct := s.vdct.set v { x with busy := true, failsIn := 0, failsOut := 0 } }) ∧
    (x.busy = true →
      (answers (exec (.vdctRetrainDone v true) s) fun t =>
        t = { q with vdct := t.vdct, ports := t.ports, errs := t.errs, mgmt := t.mgmt, cores := t.cores, out := t.out
                     freeCtr := t.freeCtr, cyc := t.cyc } ∧
        t.vdct = s.vdct.set v { x with busy := false, stopped := false, lastOk := true }) ∧
      (answers (exec (.vdctRetrainDone v false) s) fun t =>
        onlyFaultRecords { q with vdct := t.vdct, freeCtr := t.freeCtr } t ∧
        t.vdct = s.vdct.set v { x with busy := false, lastOk := false })) ∧
    (pdOn s (22 + v.val) = true → x.stopped = false → exec (.timeLoadCell v) s =
      .next { s with piers := tput {} s.piers v { loaded := some (s.clk.cycles, devTime s) } })

/-! ## Buffer pools and row copies (R239 to R244, R251, R253, R255, R384, R385) -/

/-- BPM_CMD, the building of the pools, a waiting request taken up, and a row copied to its spare. A command of BPM_CMD acts at
its place, one in a cycle; a freed extent joins the list when the cycle ends. A waiting request that R249 refuses goes on waiting,
and its requester's DENIED counts once in the cycle (notes/assumptions/50). A GO clears DONE only (notes/assumptions/71). -/
def Obligations.BufferPools : Prop :=
  ∀ (s : State) (x : BitVec 22) (op : BitVec 3) (req : Fin 8192) (k : Fin 4) (e : Nat), s.wf → isRunning s = true →
    pdOn s 2 = true →
    let a := afterPlace placeWo s
    let q := atPlace placeWork s
    let begun := fun (o n : Nat) => { a with bpm := { a.bpm with
      cmd := packFields [(60, 3, o), (0, 22, n)], result := a.bpm.result &&& 0x7FFFFFFFFFFFFFFF } }
    let finished := fun (b : Bpm) => { b with result := (a.bpm.result &&& 0x7FFFFFFFFFFFFFFF) ||| 0x8000000000000000 }
    let granted := fun (u : State) (n : Nat) =>
      { u with bpm := { u.bpm with result := BitVec.ofNat 64 (2 ^ 63 + n), waiting := false } }
    let t1 := begun 1 0
    let t2 := begun 2 x.toNat
    let t3 := begun 3 x.toNat
    (s.bpm.firnReady = true →
      (∀ n u, allocExts t1 4097 1 true = .ok ([n], u) → exec (.allocExt .none) s = .next (granted u n) ∧
        tget false u.bpm.extAlloc n = true) ∧
      (∀ e, allocExts t1 4097 1 true = .error e → answers (exec (.allocExt .none) s) fun t =>
        bitOf t.bpm.result 63 = true ∧ bitOf t.bpm.result 62 = true ∧ t.bpm.extAlloc = s.bpm.extAlloc ∧
        tget 0 t.denied 4097 = min (tget 0 a.denied 4097 + 1) 0xFFFF ∧ (e.cuts = [] → t.errs = a.errs))) ∧
    (s.bpm.firnReady = false →
      exec (.allocExt .none) s = .next { t1 with bpm := { t1.bpm with waiting := true } }) ∧
    (inPool x.toNat = true → tget false s.bpm.extAlloc x.toNat = true → tget false s.bpm.retired x.toNat = false →
      answers (exec (.freeExt x) s) fun t =>
        t = { t2 with bpm := t.bpm, firnHeld := t.firnHeld, cyc := t.cyc } ∧
        t.cyc.freedExts = a.cyc.freedExts ++ [(x.toNat, 4097)] ∧
        tget false t.bpm.extAlloc x.toNat = false ∧ bitOf t.bpm.result 63 = true) ∧
    (inPool x.toNat = false ∨ tget false s.bpm.extAlloc x.toNat = false → answers (exec (.freeExt x) s) fun t =>
      bitOf (getErr t 44).status (if inPool x.toNat then 2 else 0) = true ∧ t.bpm = finished t2.bpm) ∧
    (inPool x.toNat = true → exec (.retireExt x) s =
      .next { t3 with bpm := finished { t3.bpm with retired := tput false s.bpm.retired x.toNat true } }) ∧
    ((op = 0 ∨ 3 < op.toNat) → answers (exec (.bpmCmdReserved op) s) fun t =>
      bitOf (getErr t 44).status 4 = true ∧ t.bpm = finished (begun op.toNat 0).bpm) ∧
    (req.val ≠ 4097 → ∀ j rest, takeFirst (fun y => jobReq y == req.val) s.jobs = some (j, rest) →
      let w := { q with jobs := rest }
      exec (.bpmAllocGrant req .none) s = .next (tryJob w j) ∧
      (∀ f, j = .answer f → s.bpm.neveReady = true → mayNeve w 4098 (fCells f) = false →
        let t := tryJob w j
        t = { w with jobs := rest ++ [j], wants := t.wants, cyc := t.cyc, denied := t.denied } ∧
        tget 0 t.denied 4098 = (if q.cyc.refused.contains j then tget 0 q.denied 4098 else min (tget 0 q.denied 4098 + 1) 0xFFFF))) ∧
    (req.val = 4097 → s.bpm.waiting = true → s.bpm.firnReady = true → ∀ n u, allocExts q 4097 1 true = .ok ([n], u) →
      exec (.bpmAllocGrant req .none) s = .next (granted u n)) ∧
    (s.bpm.neveReady = false → pdOn s 7 = true → answers (exec .neveThreadDone s) fun t =>
      t = { s with bpm := { s.bpm with neveReady := true }, ports := t.ports, errs := t.errs, mgmt := t.mgmt
                   cores := t.cores, out := t.out, freeCtr := t.freeCtr, cyc := t.cyc } ∧
      ∀ q, (getPort t q).st = (getPort s q).st ∨ ((getPort t q).st = .up ∧ (getPort s q).lt = .linked)) ∧
    (pdOn s (3 + k.val) = true → (getStack s k).trained = false →
      (answers (exec (.firnTrainDone none) s) fun t => t = { s with frn := t.frn } ∧
        ∀ j : Fin 4, getStack t j = { getStack s j with trained := (getStack s j).trained || pdOn s (3 + j.val) }) ∧
      (answers (exec (.firnTrainDone (some k)) s) fun t =>
        (getStack t k).stuck = true ∧ bitOf (getErr t (40 + k.val)).status 9 = true)) ∧
    (firnOn s = true → s.sec.done = true → s.bpm.firnReady = false → s.frn.all (·.trained) = true →
      answers (exec .firnThreadDone s) fun t =>
        t = { q with firn := t.firn, firnThreaded := 0xF
                     bpm := { q.bpm with firnReady := true, extHead := some (poolExt 0), extAlloc := [] } }) ∧
    (∀ src, tget none s.remapFrom e = some src → remapState (remapEnt s e) = 2 →
      pdOn s (3 + (fin4 (e / 196608)).val) = true → (getStack s (fin4 (e / 196608))).stuck = false →
      answers (exec (.remapCopyDone { entry := e }) s) fun t =>
        remapState (remapEnt t e) = 1 ∧ fld (remapEnt t e) 0 28 = fld (remapEnt s e) 0 28 ∧
        (∀ i, i < 2048 → rawGet t (spareBase e + i) = rawGet q (src + i)) ∧
        ∀ a, (a < spareBase e ∨ spareBase e + 2048 ≤ a) → rawGet t a = rawGet q a)

/-! ## The slice set, arena commands, fences, time (R32, R33, R224, R363 to R365, R425, R432, R433, R498) -/

/-- SLICE_SET is taken or refused whole; a chunk moves to the least-loaded running slice with its operations, and so does a partial
at the combiner (the intake's part in it is the model's choice: notes/assumptions/115); a slice that stops empties; an arena command is
checked, runs, and ends with its code (a copy reads its source as it ends: notes/assumptions/73), and a GO while one runs is ignored;
a fence is added or removed and EPOCH counts; DEV_TIME_OFS moves device time and every expiry with it (which of them: notes/assumptions/74), and keeps what is due
pending. -/
def Obligations.SlicesArenasFences : Prop :=
  ∀ (s : State) (v : Word) (c : ChunkId) (sl : SliceNo) (slot : Fin 16384) (bad : BitVec 256)
    (op : BitVec 3) (ep : BitVec 20), isRunning s = true → pdOn s 2 = true →
    let b := afterPlace placeWo s
    let w := atPlace placeWrite s
    let named := (List.range 18).filter fun k => bitOf (v.setWidth 18) k
    let fits := named.length ≤ (if gradeS s then 16 else 12) ∧
      ∀ k ∈ named, sliceAllowed s k = true ∧ (bitOf s.fab.sliceSet k = true ∨ (getSlice s (fin18 k)).halted = false)
    let g := afterPlace placeArenaGo s
    let go := fun (n : Nat) => { g with fab := { g.fab with arenaCmd := packFields [(60, 3, n), (46, 14, slot.val)] } }
    let arena := fun (r : Res) (n : Nat) (bad : BitVec 256) =>
      (s.fab.arenaBusy.isSome = true → r = .next (go n)) ∧
      (s.fab.arenaBusy = none → ∀ code, arenaCheck (go n) n slot = .inl code →
        r = .next { go n with fab := { (go n).fab with arenaDone := true, arenaCode := code } }) ∧
      (s.fab.arenaBusy = none → ∀ a, arenaCheck (go n) n slot = .inr a → r = .next { go n with
        fab := { (go n).fab with
          arenaDone := false, arenaBusy := some (n, slot.val, a, fld s.fab.arenaArg 0 22), arenaPut := s.fab.arenaData, arenaBad := bad } })
    (fits → exec (.sliceSetWrite v) s = .next { b with fab := { b.fab with sliceSet := v.setWidth 18 } }) ∧
    (¬ fits → exec (.sliceSetWrite v) s = .next { b with fab := { b.fab with setErr := true } }) ∧
    (∀ n m, (theChunk s c).slice = some n → n < 18 → leastLoaded s = some m → m < 18 → n ≠ m → bitOf s.fab.sliceSet n = false →
      isClosed (theChunk s c) = false → s.sorted → answers (exec (.chunkMove c) s) fun t =>
        theChunk t c = { theChunk s c with slice := some m } ∧
        (getSlice t (fin18 m)).ops = (getSlice s (fin18 m)).ops ++ (getSlice s (fin18 n)).ops.filter (fun o => o.cid == c) ∧
        (getSlice t (fin18 n)).ops = (getSlice s (fin18 n)).ops.filter (fun o => o.cid != c) ∧
        t.intake = s.intake.map (fun x => if x.2.cid == c then (m, x.2) else x)) ∧
    (∀ m, (theChunk s c).slice = none → leastLoaded s = some m → s.sorted → answers (exec (.chunkMove c) s) fun t =>
      (theChunk t c) = theChunk s c ∧ ∀ x ∈ combsOf t c, bitOf s.fab.sliceSet x.2.slice = true ∨ x.2.slice = m) ∧
    (sliceLive s sl = true → answers (exec (.sliceFatal sl []) s) fun t =>
      (getSlice t sl).halted = true ∧ (getSlice t sl).ops = [] ∧ (getSlice t sl).v = (getSlice s sl).v ∧
      t.intake = s.intake.filter (fun x => x.1 != sl.val) ∧ ∀ j, j ≠ sl → getSlice t j = getSlice s j) ∧
    arena (exec (.arenaCopyIn { slot, bad }) s) 1 bad ∧ arena (exec (.arenaCopyOut { slot, bad }) s) 2 bad ∧
    arena (exec (.arenaPut slot) s) 3 0 ∧
    ((op = 0 ∨ 3 < op.toNat) → arena (exec (.arenaBadOp op slot) s) op.toNat 0 ∧ arenaCheck (go op.toNat) op.toNat slot = .inl 6) ∧
    (∀ x, s.fab.arenaBusy = some x → firnOn s = true → (∀ a ∈ arenaReach x, firnWaits s a.1 a.2 = false) →
      answers (exec .arenaCmdDone s) fun t =>
        t.fab = { s.fab with arenaBusy := none, arenaDone := true, arenaCode := 0 } ∧ t.groups = s.groups ∧ t.neve = s.neve) ∧
    (answers (exec (.fenceAdd ep) s) fun t => isFenced t ep.toNat = true ∧ t.fab.epoch = s.fab.epoch + 1 ∧
      t = { b with fab := t.fab, fences := t.fences }) ∧
    (s.sorted → answers (exec (.fenceRemove ep) s) fun t => isFenced t ep.toNat = false ∧
      t.fab.epoch = s.fab.epoch + 1 ∧ t = { b with fab := t.fab, fences := t.fences }) ∧
    (answers (exec (.devTimeOfsWrite v) s) fun t => devTime t = BitVec.ofNat 64 w.clk.cycles + v ∧
      t.clk = { w.clk with ofs := v } ∧ t.firn = w.firn ∧
      (∀ k, getCore t k = { getCore w k with timer := timerPending w (getCore w k) }) ∧
      ∀ st, (getStep (getGroup s c.slot.val) st).st ≠ .idle → (getStep (getGroup t c.slot.val) st).expiry =
        (getStep (getGroup s c.slot.val) st).expiry.map (· + (v - s.clk.ofs)))

/-! ## Firn stacks (R370 to R372, R375, R380 to R382, R388, R389) -/

/-- A Firn stack: thresholds that rise, a reading and the level it gives, a margin run begun, refused and done, a refresh
command that fell due, the dies' counts, a burst as its codewords prove, and a dirty line written back: whole where all of it
is valid, else its dirty bytes, over a burst that comes without an uncorrectable error. -/
def Obligations.FirnStacks : Prop :=
  ∀ (s : State) (k : Fin 4) (v : Word) (fails : BitVec 32) (temps : Vector Byte 4) (counts : Vector Nat 12) (ch : Fin 256)
    (addr : BitVec 38) (raw : Vector (Vector Byte 36) 8) (req : Fin 30), s.wf → isRunning s = true →
    pdOn s (3 + k.val) = true →
    let w := atPlace placeWrite s
    let q := atPlace placeWork s
    let x := getStack s k
    let y := getStack w k
    let z := getStack q k
    let th := x.thermNext
    let lv := nextLevel [fld th 56 8, fld th 48 8, fld th 40 8] (fld th 36 4) x.level (maxOf temps.toList)
    let read := { z with therm := th, temps := temps, level := lv, stuck := x.stuck || lv == 3 }
    let margin := (x.margin &&& 0x80000000FFFFFFFF) ||| (v &&& 0x7FFFFFFF00000000)
    let used := ∃ i ∈ marginEntries k (fld v 56 6), bitOf (remapEnt s i) 31 = true
    let r := tget {} s.refreshes ch.val
    let due := r.last + (if (getStack s (fin4 (ch.val / 64))).level = 0 then 872 else 436)
    let a := addr.toNat / 256 * 256
    let i := fin4 (firnDecode a).stack
    let beats := raw.toList.map fun w => judgeBeat a (w.toList.map (·.toNat))
    let burst := exec (.firnBurstRead addr raw req) s
    (fld v 56 8 < fld v 48 8 → fld v 48 8 < fld v 40 8 → exec (.frnThermWrite k v) s = .next (setStack w k { y with
      thermNext := (x.thermNext &&& 0x000000007FFFFFFF) ||| (v &&& 0xFFFFFFFF80000000) })) ∧
    ((fld v 48 8 ≤ fld v 56 8 ∨ fld v 40 8 ≤ fld v 48 8) → exec (.frnThermWrite k v) s = .next w) ∧
    (lv ≤ x.level → exec (.frnThermalReading k temps) s = .next (setStack q k read)) ∧
    (answers (exec (.frnThermalReading k temps) s) fun t => getStack t k = read ∧ ∀ j, j ≠ k → getStack t j = getStack q j) ∧
    (x.level = 3 → lv = 3) ∧
    (x.marginBusy = true → exec (.frnMarginGo k v) s = .next (setStack w k { y with margin := margin }) ∧
      (x.stuck = false → exec (.frnMarginDone k fails) s = .next (setStack s k { x with
        marginBusy := false, marginDone := true, fails := BitVec.ofNat 32 (min fails.toNat x.marginN) }))) ∧
    (x.marginBusy = false → used → exec (.frnMarginGo k v) s =
      .next (setStack w k { y with margin := margin, marginDone := true, marginRefused := true })) ∧
    (x.marginBusy = false → ¬ used → answers (exec (.frnMarginGo k v) s) fun t =>
      t = { w with frn := t.frn, firn := t.firn, firnPoison := t.firnPoison, firnErr := t.firnErr, freeCtr := t.freeCtr } ∧
      getStack t k = { y with margin := margin, marginBusy := true, marginDone := false, marginRefused := false
                              marginCh := fld v 56 6, marginN := max 1 (fld v 32 16) }) ∧
    (pdOn s (3 + ch.val / 64) = true → due ≤ s.clk.cycles → exec (.refresh ch) s =
      .next { s with refreshes := tput {} s.refreshes ch { count := r.count + 1, last := due } }) ∧
    (answers (exec (.idcPoll k counts) s) fun t => (getStack t k).dieCounts = counts ∧
      (∀ j, j ≠ k → getStack t j = getStack q j) ∧ t.firn = q.firn ∧ (counts = x.dieCounts → t = q)) ∧
    (a < firnSize → pdOn s (3 + (firnDecode a).stack) = true → burstWaits s a = false →
      ((∀ b ∈ beats, b.1 = false ∧ b.2.1 = none ∧ b.2.2.1 = false) → burst = .next (noteErr q a .none)) ∧
      ((∃ b ∈ beats, b.1 = true) → answers burst fun t =>
        (getStack t i).uncorrCnt = min ((getStack q i).uncorrCnt + 1) 0xFFFF ∧ bitOf (getErr t (40 + i.val)).status 2 = true) ∧
      ((∃ b ∈ beats, b.2.1.isSome = true) → answers burst fun t =>
        (getStack t i).corrCnt = min ((getStack q i).corrCnt + (beats.filter (·.2.1.isSome)).length) 0xFFFFFF ∧
        bitOf (getErr t (40 + i.val)).status 1 = true)) ∧
    (∀ l0 r0 l rest, findLine s a = some (l0, r0) → l0.dirty ≠ 0 → findLine q a = some (l, rest) → l.dirty ≠ 0 → burstLost q a .none = false →
      pdOn s (3 + (firnDecode a).stack) = true → burstWaits s a = false →
      let base := firnPhys q a
      answers (exec (.firnWriteback { addr }) s) fun t =>
        (l.valid = BitVec.allOnes 256 → t = { q with frn := t.frn, firn := t.firn, firnPoison := t.firnPoison, firnErr := t.firnErr }) ∧
        ∀ j, rawGet t j = if base ≤ j ∧ j < base + 256 ∧
          (l.valid = BitVec.allOnes 256 ∨ bitOf (l.dirty &&& l.valid) (j - base) = true) then lineByte l.data (j - base)
          else rawGet q j)

/-! ## Resets, power and clocks (R428, R429, R435, R438 to R452) -/

/-- Resets: what PWR_OK, the PERST pins, a warm reset and Thaw leave. A reset of the whole switch keeps nothing but what
R439 and R440 name (beside the model's queue and record, and whether the board's reference clocks run: notes/assumptions/124); a warm
one keeps the code region, the MSI-X structures and the configuration space (notes/assumptions/127). -/
def Obligations.Resets : Prop :=
  ∀ (s : State) (m : Fin 2) (by_ : Party) (grade : BitVec 3), s.wf →
    let g := getMgmt s m
    let assert := if m = 0 then Instr.perst0Assert else Instr.perst1Assert
    let fresh := fun (straps : BitVec 3) (ok : Bool) => { State.reset with
      pending := s.pending, out := s.out, freeCtr := s.freeCtr
      mgmt := s.mgmt.map (fun g => { perst := g.perst })
      clk := { straps := straps, pwrOk := ok, pwrReq := gradeDomains straps, pwrOn := gradeDomains straps
               refclk := s.clk.refclk, prefOff := s.clk.prefOff }
      fab := { sliceSet := gradeSlices straps } }
    let cause := match by_ with | .mgmt m => 3 + m.val | .core _ => 5
    let whole := fun (t : State) (cause : Nat) =>
      t.pending = s.pending ∧ t.clk.running = false ∧ t.clk.cause = cause ∧ t.clk.rstCfg = s.clk.rstCfg ∧
      t.clk.wasFatal = s.clk.fatalSeen ∧ t.clk.resets = min (s.clk.resets + 1) 0xFFFFFFFF ∧ t.clk.straps = s.clk.straps ∧
      t.cores = State.reset.cores ∧ t.ports = [] ∧ t.tbl = {} ∧ t.groups = [] ∧ t.progStore = [] ∧ t.errs = []
    exec (.powerOnReset .falls) s = .next (fresh s.clk.straps false) ∧
    (s.clk.pwrOk = false → exec (.powerOnReset (.rises grade)) s = .next (fresh grade true)) ∧
    (s.clk.refclk = false → exec .thaw s = .next s) ∧
    (s.clk.running = false → s.clk.pwrOk = true → s.clk.refclk = true → perstHolds s = false → exec .thaw s = .next { s with
      clk := { s.clk with running := true, pllLock := true, halted := false, cycles := 0 }
      sec := { s.sec with bootRom := true } }) ∧
    (g.perst = false → s.clk.pwrOk = true → bitOf s.clk.rstCfg (63 - m.val) = true → answers (exec assert s) fun t =>
      whole t (1 + m.val) ∧ t.ctlMem = [] ∧ t.firn = [] ∧ (getMgmt t m).perst = true) ∧
    (g.perst = false → s.clk.pwrOk = true → bitOf s.clk.rstCfg (63 - m.val) = false → exec assert s =
      .next (setMgmt s m { g with perst := true, msix := {}, cfg := {} })) ∧
    exec (.perstRelease m) s = .next (setMgmt s m { g with perst := false }) ∧
    (partyActs s by_ = true →
      ((s.clk.pllLock = false ∨ bitOf (getErr s 47).status 1 = true) → answers (exec (.warmReset by_) s) fun t =>
        whole t cause ∧ t.ctlMem = [] ∧ t.firn = [] ∧ t.clk.warm = false) ∧
      (s.clk.pllLock = true → bitOf (getErr s 47).status 1 = false → answers (exec (.warmReset by_) s) fun t =>
        whole t cause ∧ t.clk.warm = true ∧ (∀ m, (getMgmt t m).msix = (getMgmt (afterPlace placeWo s) m).msix ∧
          (getMgmt t m).cfg = (getMgmt s m).cfg) ∧
        (∀ a, memGet t.ctlMem a = if s.sec.codeBase ≤ a ∧ a < s.sec.codeLimit then memGet s.ctlMem a else 0) ∧
        t.sec.devId = s.sec.devId ∧ t.sec.version = s.sec.version))

/-- Power domains, clocks and temperature: a domain switched off and ready, a fault of a domain, of the PLL, of a supply
and a critical temperature, which halt the switch and end what stands on the wires; a reference clock that stops
(notes/assumptions/124); ALIVE_OUT. What a domain loses is lost as its switch-off is taken (notes/assumptions/78). -/
def Obligations.PowerAndClocks : Prop :=
  ∀ (s : State) (m : Fin 2) (v : Word) (b : Fin 30) (rail : Rail) (low : Bool) (temps : Vector Byte 32), s.sorted →
    s.clk.running = true → pdOn s 1 = true →
    let r := dropLatch (atPlace (placeWrite + m.val) s) (.mgmt m)
    let w := atPlace placeWrite s
    let q := atPlace placeWork s
    let e := atPlace placeEvent s
    let z := atPlace placeAlive s
    let write := exec (.pwrCtlWrite (.mgmt m) v) s
    let th := s.clk.thermNext
    let lv := nextLevel [fld th 56 8, fld th 48 8] (fld th 44 4) s.clk.dieLevel (maxOf temps.toList)
    let halts := fun (a : State) (r : Res) (bit : Nat) => answers r fun t =>
      t.clk.halted = true ∧ (∀ p, (getPort t p).sending = none) ∧ bitOf (getErr t 47).status bit = true ∧ t.firn = a.firn
    (partyActs s (.mgmt m) = true →
      (s.clk.pwrSwitching ≠ [] → write = .next r) ∧
      (s.clk.pwrSwitching = [] → (∀ i, 2 ≤ i → i < 30 → bitOf v i = bitOf s.clk.pwrOn i) →
        write = .next { r with clk := { r.clk with pwrReq := s.clk.pwrOn, pwrResult := 0, pwrDomain := 0 } }) ∧
      (s.clk.pwrSwitching = [] → 9 ≤ b.val → b.val < 18 → bitOf v b = false → bitOf s.clk.pwrOn b = true →
        (∀ i, 2 ≤ i → i < 30 → i ≠ b.val → bitOf v i = bitOf s.clk.pwrOn i) →
        (offAllowed s s.clk.pwrOn b = true → answers write fun t =>
          t.clk.pwrSwitching = [(b.val, false, r.clk.cycles)] ∧ t.clk.pwrResult = 0 ∧
          (∀ i, i < 30 → bitOf t.clk.pwrOn i = if i = b.val then false else bitOf s.clk.pwrOn i) ∧
          getSlice t (fin18 (2 * (b.val - 9))) = {} ∧ getSlice t (fin18 (2 * (b.val - 9) + 1)) = {} ∧ t.groups = s.groups) ∧
        (offAllowed s s.clk.pwrOn b = false → write = .next { r with
          clk := { r.clk with pwrReq := s.clk.pwrOn, pwrResult := 1, pwrDomain := b.val } }))) ∧
    (∀ n rest, s.clk.pllLock = true → takeFirst (fun x => x.1 == b.val) s.clk.pwrSwitching = some ((b.val, false, n), rest) →
      exec (.powerDomainReady b) s = .next { s with clk := { s.clk with pwrSwitching := rest } }) ∧
    (s.clk.pllLock = false → exec (.powerDomainReady b) s = .next s) ∧
    (∀ n rest, s.clk.pllLock = true → takeFirst (fun x => x.1 == b.val) s.clk.pwrSwitching = some ((b.val, true, n), rest) → 9 ≤ b.val → b.val < 22 →
      answers (exec (.powerDomainReady b) s) fun t =>
        t = { s with clk := { s.clk with pwrSwitching := rest, pwrOn := t.clk.pwrOn } } ∧
        ∀ i, i < 64 → bitOf t.clk.pwrOn i = if i = b.val then true else bitOf s.clk.pwrOn i) ∧
    (∀ on n, (b.val, on, n) ∈ s.clk.pwrSwitching → n + 4 * switchTimeOf b on ≤ s.clk.cycles →
      halts e (exec (.pdFault b) s) 4 ∧ answers (exec (.pdFault b) s) fun t => t.clk.pwrResult = 4 ∧ t.clk.pwrDomain = b.val) ∧
    (s.clk.pllLock = true → halts e (exec .pllUnlock s) 1 ∧ (answers (exec .pllUnlock s) fun t => t.clk.pllLock = false) ∧
      halts e (exec (.supply .refclkCore true) s) 1 ∧
      answers (exec (.supply .refclkCore true) s) fun t => t.clk.pllLock = false ∧ t.clk.refclk = false) ∧
    halts e (exec (.supply (.rail rail) low) s) 3 ∧
    (isRunning s = true → ∀ (v : Fin 8) (i : Fin 4), answers (exec (.supply (.pref v i) true) s) fun t =>
      t.clk.prefOff = tput false s.clk.prefOff (4 * v.val + i.val) true ∧
      ∀ p j, j < 16 → portOfLane s (16 * (4 * v.val + i.val) + j) = p → portExists s p = true → (getPort s p).st = .up →
        (getPort s p).lt = .linked → 0 < fld (getPort s p).ctl 0 32 → lostHere s p = none → (getPort t p).st = .held) ∧
    (secClocked s = true → fld v 56 8 < fld v 48 8 → exec (.dieThermWrite v) s = .next { w with clk := { w.clk with
      thermNext := (s.clk.thermNext &&& 0x0000007FFFFFFFFF) ||| (v &&& 0xFFFFFF8000000000) } }) ∧
    (secClocked s = true → fld v 48 8 ≤ fld v 56 8 → exec (.dieThermWrite v) s = .next w) ∧
    (s.clk.pllLock = true →
      (answers (exec (.dieThermalReading temps) s) fun t => t.clk.dieLevel = lv ∧ t.clk.therm = s.clk.thermNext ∧
        t.clk.dieMax.toNat = maxOf temps.toList ∧ t.firn = q.firn) ∧
      (s.clk.dieLevel < lv → lv = 2 → halts q (exec (.dieThermalReading temps) s) 2) ∧
      (s.clk.fatalSeen = true → exec .aliveOutToggle s = .next s) ∧
      (s.clk.fatalSeen = false → s.clk.aliveNext ≤ z.clk.cycles → exec .aliveOutToggle s = .next { z with
        clk := { z.clk with alive := !s.clk.alive, aliveNext := s.clk.aliveNext + 524288 } }))

/-! ## Boot, flash, attestation (R467 to R481, R502) -/

/-- The boot flash, the boot ROM and attestation: a flash command runs alone and shows its words on the wires; the ROM
waits where no candidate answers; a verified image starts core 0 at its ENTRY, a failing one leaves nothing of itself; an
attestation latches the record that ATT_DONE signs. An error in the ROM ends the boot, one in the engine the attestation with
ENGINE, and either stops the engine for what follows (the model's choice: notes/assumptions/85). The order of an image's checks
is that of notes/assumptions/80, what a warm restart shows that of notes/assumptions/81; the signer's random value is free (notes/assumptions/123). -/
def Obligations.BootFlashAttestation : Prop :=
  ∀ (s : State) (v : Word) (data img : List Byte) (puf : PufAnswer), secClocked s = true → pdOn s 1 = true →
    let x := s.sec
    let r := atPlace placeWrite s
    let q := atPlace placeWork s
    let rd := (v &&& 0x3FFFFFFFFFFFFFFF) ||| 0x8000000000000000
    let wr := v ||| 0xC000000000000000
    let kept := fun w : Word => { r with sec := { x with flashCmd := w &&& 0x7FFFFF80FFFFFFFF } }
    let runs := fun (w : Word) (bs : List Byte) => { r with
      sec := { x with flashCmd := w &&& 0x7FFFFF80FFFFFFFF, flashDone := false, flashRun := some (w &&& 0x7FFFFF80FFFFFFFF) }
      out := .spi (w &&& 0x7FFFFF80FFFFFFFF) bs :: r.out }
    ((x.flashRun.isSome = true ∨ x.done = false) →
      exec (.flashRead v) s = .next (kept rd) ∧ exec (.flashWrite v) s = .next (kept wr)) ∧
    (x.flashRun = none → x.done = true →
      (fld rd 60 2 ≠ 3 → exec (.flashRead v) s = .next (runs rd [])) ∧
      (fld wr 60 2 ≠ 3 → exec (.flashWrite v) s = .next (runs wr ((flashBytes s).take (min 256 (fld wr 39 9))))) ∧
      (fld wr 60 2 = 3 → answers (exec (.flashWrite v) s) fun t =>
        t.sec.flashDone = true ∧ t.sec.flashRun = none ∧ t.sec.flashData = x.flashData)) ∧
    (∀ w, x.flashRun = some w → answers (exec (.flashCmdDone data) s) fun t =>
      t.sec.flashDone = true ∧ t.sec.flashRun = none ∧ flashBytes t = if bitOf w 62 then flashBytes s
        else data.take (min 256 (fld w 39 9)) ++ (flashBytes s).drop (data.take (min 256 (fld w 39 9))).length) ∧
    (x.waiting = true → exec (.bootMbxGo v) s = .next { r with sec := { x with
      mbx := v &&& 0xFFFFFF, waiting := false, mbxGo := true, mbxLen := fld v 0 24 } }) ∧
    (x.waiting = false → exec (.bootMbxGo v) s = .next { r with sec := { x with mbx := v &&& 0xFFFFFF } }) ∧
    (isRunning s = true → pdOn s 2 = true → x.bootRom = true → 256 ≤ s.clk.cycles →
      (s.clk.warm = true → x.codeLimit ≠ 0 → puf ≠ .romFault → answers (exec (.bootRomStart .silent puf) s) fun t =>
        (getCore t 0).st = .running ∧ (getCore t 0).pc = BitVec.ofNat 64 (0x01000000 + x.entry) ∧ t.sec.done = true ∧
        t.sec.source = 4 ∧ t.sec.bootRom = false) ∧
      (s.clk.warm = false → x.pufDone = false → answers (exec (.bootRomStart .silent .fault) s) fun t =>
        t.sec.internal = true ∧ t.sec.pufDone = true ∧ t.sec.bootRom = false ∧ t.sec.waiting = x.waiting ∧
        ∀ c, (getCore t c).st = (getCore s c).st) ∧
      (s.clk.warm = false → gradeOk s = true → x.internal = false → puf ≠ .fault → puf ≠ .romFault →
        answers (exec (.bootRomStart .silent puf) s) fun t =>
        t.sec.waiting = true ∧ t.sec.result = 1 ∧ t.sec.pufDone = true ∧ t.sec.bootRom = false ∧
        t.sec.idValid = x.idValid ∧ ∀ c, (getCore t c).st = (getCore s c).st) ∧
      (answers (exec (.bootRomStart .silent .romFault) s) fun t =>
        t.sec.internal = true ∧ t.sec.bootRom = false ∧ ∀ c, (getCore t c).st = (getCore s c).st)) ∧
    (x.internal = true → exec (.bootImageChecked (.slotA img)) s = .next s ∧ exec .attDone s = .next s) ∧
    (isRunning s = true → pdOn s 2 = true → x.done = false → x.internal = false → ∀ n rest, x.tries = (true, n) :: rest →
      (imageResult q img img.length false = 0 → answers (exec (.bootImageChecked (.slotA img)) s) fun t =>
        (getCore t 0).st = .running ∧ (getCore t 0).pc = BitVec.ofNat 64 (0x01000000 + entryOf img) ∧ t.sec.done = true ∧
        t.sec.source = 1 ∧ t.sec.codeBase = codeBaseOf img ∧ t.sec.codeLimit = codeLimitOf img ∧
        t.sec.digest = digestOf img) ∧
      (imageResult q img img.length false ≠ 0 → answers (exec (.bootImageChecked (.slotA img)) s) fun t =>
        t.ctlMem = [] ∧ t.progStore = [] ∧ t.sec.result = imageResult q img img.length false ∧ t.sec.done = false ∧
        t.sec.tries = rest ∧ t.sec.waiting = rest.isEmpty ∧ ∀ c, (getCore t c).st = (getCore s c).st)) ∧
    (x.attBusy.isSome = true → exec .attGo s = .next r) ∧
    (x.attBusy = none → x.internal = false → x.idValid = true →
      exec .attGo s = .next { r with sec := { x with attDone := false, attBusy := some (attRecord r) } }) ∧
    (x.attBusy = none → x.internal = false → x.idValid = false → answers (exec .attGo s) fun t =>
      t.sec.attDone = true ∧ t.sec.attResult = 1 ∧ t.sec.attRec = x.attRec) ∧
    (x.attBusy = none → x.internal = true → answers (exec .attGo s) fun t => t.sec.attDone = true ∧ t.sec.attResult = 2) ∧
    (∀ y, x.attBusy = some y →
      (x.internal = false → answers (exec .attDone s) fun t => t.sec.attRec = y ∧
        t.sec.attSig = slhSign (keySeeds x.seed) (freshSigner q).1 y ∧ t.sec.attDone = true ∧ t.sec.attResult = 0 ∧ t.sec.attBusy = none) ∧
      (answers (exec (.bootImageChecked .engineFault) s) fun t => t.sec.internal = true ∧ t.sec.attRec = x.attRec ∧ t.sec.attDone = true ∧
        t.sec.attResult = 2 ∧ t.sec.attBusy = none))

/-! ## SMBus and the test access port (R484, R485) -/

/-- The management targets answer, while a reset holds the switch too, with what they name and change nothing of the switch but the
record of the outside, in the byte order of notes/assumptions/22 and notes/assumptions/84; a bad SMBus command is a SEC event
(notes/assumptions/125); a test instruction selects its register, and the test modes take the lane pins (notes/assumptions/126). -/
def Obligations.ManagementTargets : Prop :=
  ∀ (s : State) (pins : List Bool) (code : BitVec 5) (bad : SmbusIn), s.clk.pwrOk = true →
    let q := atPlace placeRead s
    let shows := fun (c : Instr) (bs : List Byte) => exec c s = .next { q with out := .smbus bs :: q.out }
    let selects := fun (c : Instr) (ir : BitVec 5) (taken driven : Bool) =>
      exec c s = .next { s with tap := { s.tap with ir := ir, taken := taken, driven := driven } }
    let badPec := ∃ p, bad.pec = some p ∧ p ≠ smbusPec [0x74, bad.cmd]
    let undefined := bad.cmd.toNat = 0 ∨ 6 < bad.cmd.toNat
    shows .smbusStatusRead [BitVec.ofNat 8 (b2n s.clk.halted + 2 * b2n s.clk.fatalSeen + 4 * s.clk.dieLevel), BitVec.ofNat 8 s.sec.result] ∧
    shows .smbusTempRead (s.clk.dieMax :: s.frn.toList.map (fun x => BitVec.ofNat 8 (maxOf x.temps.toList))) ∧
    shows .smbusPowerRead (leBytes 4 (fld s.clk.pwrOn 0 30)) ∧
    shows .smbusResetCauseRead (wordLE (packFields [(61, 3, s.clk.cause), (58, 3, s.clk.causeCore), (57, 1, b2n s.clk.wasFatal),
      (0, 32, s.clk.resets)])) ∧
    shows .smbusIdRead (wordLE (idWord s)) ∧
    (s.sec.idValid = true → shows .smbusDeviceIdRead s.sec.devId) ∧
    (s.sec.idValid = false → shows .smbusDeviceIdRead (List.replicate 32 0)) ∧
    (¬ badPec → ¬ undefined → exec (.smbusBadCommand bad) s = .next s) ∧
    (badPec ∨ undefined → pdOn s 1 = true → answers (exec (.smbusBadCommand bad) s) fun t =>
      .smbusNack ∈ t.out ∧ bitOf (getErr t 48).status 1 = true ∧ onlyFaultRecords (atPlace placeWork s) t) ∧
    exec .idcode s = .next { s with
      tap := { s.tap with ir := 1, taken := false, driven := false }
      out := .tdo ((List.range 32).map fun i => (0x151205E3 >>> i) % 2 == 1) :: s.out } ∧
    exec (.samplePreload pins) s = .next { s with tap := { ir := 2, pins := pins, taken := false, driven := false } } ∧
    selects .extest 3 true true ∧ selects .extestPulse 4 true true ∧ selects .extestTrain 5 true true ∧
    selects .highz 6 true false ∧ selects .clamp 7 true true ∧
    ((code.toNat = 0 ∨ 7 < code.toNat) → exec (.bypass code) s = .next { s with
      tap := { s.tap with ir := code, taken := false, driven := false }, out := .tdo [false] :: s.out }) ∧
    selects .tapReset 1 false false
end

