-- ==== Sys2Proof/Laws/Bits.lean ====
section
/-! SUPPORT. Sparse tables and memories: a read after a write, and the canonical form. -/

namespace Sys2Proof.Machine

/-- Every key of a table is above `lo`. -/
def keysAbove {α : Type} (lo : Nat) (m : SMap α) : Prop := ∀ kv ∈ m, lo < kv.1

theorem tsorted_some_iff {α : Type} (lo : Nat) (m : SMap α) :
    tsorted (some lo) m = true ↔ tsorted none m = true ∧ keysAbove lo m := by
  induction m generalizing lo with
  | nil => simp [tsorted, keysAbove]
  | cons kv rest ih =>
    obtain ⟨k, v⟩ := kv
    simp only [tsorted, Bool.and_eq_true, decide_eq_true_eq, keysAbove, List.mem_cons, forall_eq_or_imp]
    constructor
    · rintro ⟨h1, h2⟩
      refine ⟨h2, h1, fun a ha => ?_⟩
      exact lt_trans h1 (((ih k).1 h2).2 a ha)
    · rintro ⟨h2, h1, _⟩; exact ⟨h1, h2⟩

theorem tsorted_cons {α : Type} (k : Nat) (v : α) (m : SMap α) :
    tsorted none ((k, v) :: m) = true ↔ tsorted none m = true ∧ keysAbove k m := by
  simp only [tsorted]; exact tsorted_some_iff k m

theorem tget_above {α : Type} (d : α) (m : SMap α) (key : Nat) (h : keysAbove key m) : tget d m key = d := by
  cases m with
  | nil => rfl
  | cons kv rest =>
    obtain ⟨k, v⟩ := kv
    have hk : key < k := h (k, v) (by simp)
    simp [tget, hk, Nat.ne_of_lt hk]

theorem tget_tinsert {α : Type} (d : α) (m : SMap α) (key : Nat) (x : α) (j : Nat) :
    tget d (tinsert m key x) j = if j = key then x else tget d m j := by
  induction m with
  | nil => by_cases h : j = key <;> simp [tinsert, tget, h]
  | cons kv rest ih =>
    obtain ⟨k, v⟩ := kv
    simp only [tinsert]
    split
    · next h => subst h; by_cases h2 : j = key <;> simp [tget, h2]
    · next h1 =>
      split
      · next h =>
        by_cases h2 : j = key
        · subst h2; simp [tget]
        · simp only [tget, h2, if_false]
          by_cases h3 : j < key
          · have : j < k := by omega
            have h4 : j ≠ k := by omega
            simp [h3, this, h4]
          · simp [h3]
      · next h =>
        by_cases h2 : j = key
        · subst h2
          have h3 : ¬ j = k := h1
          simp [tget, h3, h, ih]
        · simp [tget, ih, h2]

theorem tget_terase {α : Type} (d : α) (m : SMap α) (key j : Nat) (hm : tsorted none m = true) :
    tget d (terase m key) j = if j = key then d else tget d m j := by
  induction m with
  | nil => simp [terase, tget]
  | cons kv rest ih =>
    obtain ⟨k, v⟩ := kv
    obtain ⟨hr, hk⟩ := (tsorted_cons k v rest).1 hm
    simp only [terase]
    split
    · next h =>
      subst h
      by_cases h2 : j = key
      · subst h2; simpa using tget_above d rest j hk
      · simp only [tget, h2, if_false]
        split
        · next h3 => exact tget_above d rest j (fun a ha => lt_trans h3 (hk a ha))
        · rfl
    · next h1 =>
      split
      · next h =>
        by_cases h2 : j = key
        · subst h2; simp [tget, h1, h]
        · simp [h2]
      · next h =>
        by_cases h2 : j = key
        · subst h2; simp [tget, h1, h, ih hr]
        · simp [tget, ih hr, h2]

/-- A read after a write. -/
theorem tget_tput {α : Type} [DecidableEq α] (d : α) (m : SMap α) (key : Nat) (x : α) (j : Nat) (hm : twf d m = true) :
    tget d (tput d m key x) j = if j = key then x else tget d m j := by
  have hs : tsorted none m = true := by simp only [twf, Bool.and_eq_true] at hm; exact hm.1
  unfold tput
  split
  · next h => subst h; exact tget_terase x m key j hs
  · exact tget_tinsert d m key x j

theorem mem_tinsert {α : Type} (m : SMap α) (key : Nat) (x : α) (kv : Nat × α) (h : kv ∈ tinsert m key x) :
    kv = (key, x) ∨ kv ∈ m := by
  induction m with
  | nil => simp [tinsert] at h; exact .inl h
  | cons a rest ih =>
    obtain ⟨k, v⟩ := a
    simp only [tinsert] at h
    split at h
    · rcases List.mem_cons.1 h with h | h
      · exact .inl h
      · exact .inr (List.mem_cons_of_mem _ h)
    · split at h
      · rcases List.mem_cons.1 h with h | h
        · exact .inl h
        · exact .inr h
      · rcases List.mem_cons.1 h with h | h
        · exact .inr (h ▸ List.mem_cons_self)
        · rcases ih h with h | h
          · exact .inl h
          · exact .inr (List.mem_cons_of_mem _ h)

theorem mem_terase {α : Type} (m : SMap α) (key : Nat) (kv : Nat × α) (h : kv ∈ terase m key) : kv ∈ m := by
  induction m with
  | nil => simp [terase] at h
  | cons a rest ih =>
    obtain ⟨k, v⟩ := a
    simp only [terase] at h
    split at h
    · exact List.mem_cons_of_mem _ h
    · split at h
      · exact h
      · rcases List.mem_cons.1 h with h | h
        · exact h ▸ List.mem_cons_self
        · exact List.mem_cons_of_mem _ (ih h)

theorem tsorted_tinsert {α : Type} (m : SMap α) (key : Nat) (x : α) (hm : tsorted none m = true) :
    tsorted none (tinsert m key x) = true := by
  induction m with
  | nil => simp [tinsert, tsorted]
  | cons a rest ih =>
    obtain ⟨k, v⟩ := a
    obtain ⟨hr, hk⟩ := (tsorted_cons k v rest).1 hm
    simp only [tinsert]
    split
    · next h => subst h; exact (tsorted_cons _ _ _).2 ⟨hr, hk⟩
    · next h1 =>
      split
      · next h =>
        refine (tsorted_cons _ _ _).2 ⟨hm, fun a ha => ?_⟩
        rcases List.mem_cons.1 ha with ha | ha
        · subst ha; exact h
        · exact lt_trans h (hk a ha)
      · next h =>
        refine (tsorted_cons _ _ _).2 ⟨ih hr, fun a ha => ?_⟩
        rcases mem_tinsert rest key x a ha with ha | ha
        · subst ha; show k < key; omega
        · exact hk a ha

theorem tsorted_terase {α : Type} (m : SMap α) (key : Nat) (hm : tsorted none m = true) :
    tsorted none (terase m key) = true := by
  induction m with
  | nil => simp [terase, tsorted]
  | cons a rest ih =>
    obtain ⟨k, v⟩ := a
    obtain ⟨hr, hk⟩ := (tsorted_cons k v rest).1 hm
    simp only [terase]
    split
    · exact hr
    · split
      · exact hm
      · exact (tsorted_cons _ _ _).2 ⟨ih hr, fun a ha => hk a (mem_terase rest key a ha)⟩

/-- A write keeps the canonical form. -/
theorem twf_tput {α : Type} [DecidableEq α] (d : α) (m : SMap α) (key : Nat) (x : α) (hm : twf d m = true) :
    twf d (tput d m key x) = true := by
  simp only [twf, Bool.and_eq_true, List.all_eq_true, decide_eq_true_eq] at hm ⊢
  unfold tput
  split
  · exact ⟨tsorted_terase m key hm.1, fun kv h => hm.2 kv (mem_terase m key kv h)⟩
  · next hx =>
    refine ⟨tsorted_tinsert m key x hm.1, fun kv h => ?_⟩
    rcases mem_tinsert m key x kv h with h | h
    · subst h; exact hx
    · exact hm.2 kv h

@[simp] theorem twf_nil {α : Type} [DecidableEq α] (d : α) : twf d ([] : SMap α) = true := rfl

@[simp] theorem Memory_wf_nil : Memory.wf [] = true := rfl

/-- A byte read after a byte written. -/
theorem memGet_memPut (m : Memory) (a : Nat) (b : Byte) (j : Nat) (hm : m.wf = true) :
    memGet (memPut m a b) j = if j = a then b else memGet m j := tget_tput 0 m a b j hm

/-- A write of one byte keeps the canonical form. -/
theorem memPut_wf (m : Memory) (a : Nat) (b : Byte) (hm : m.wf = true) : (memPut m a b).wf = true := twf_tput 0 m a b hm

/-- A write of bytes keeps the canonical form. -/
theorem memPutBytes_wf (m : Memory) (a : Nat) (bs : List Byte) (hm : m.wf = true) : (memPutBytes m a bs).wf = true := by
  induction bs generalizing m a with
  | nil => exact hm
  | cons b rest ih => exact ih _ _ (memPut_wf m a b hm)

/-- A byte read after bytes written. -/
theorem memGet_memPutBytes (m : Memory) (a : Nat) (bs : List Byte) (j : Nat) (hm : m.wf = true) :
    memGet (memPutBytes m a bs) j = if a ≤ j ∧ j < a + bs.length then bs.getD (j - a) 0 else memGet m j := by
  induction bs generalizing m a with
  | nil =>
    have : ¬ (a ≤ j ∧ j < a) := by omega
    simp [memPutBytes, this]
  | cons b rest ih =>
    rw [memPutBytes, ih _ _ (memPut_wf m a b hm), memGet_memPut m a b j hm]
    by_cases h1 : j = a
    · subst h1
      have h2 : ¬ (j + 1 ≤ j ∧ j < j + 1 + rest.length) := by omega
      simp
    · by_cases h2 : a ≤ j ∧ j < a + (b :: rest).length
      · have h3 : a + 1 ≤ j ∧ j < a + 1 + rest.length := by simp at h2; omega
        have h4 : j - a = (j - (a + 1)) + 1 := by omega
        simp only [h2, h3, h4, and_self, if_true, List.getD_cons_succ]
      · have h3 : ¬ (a + 1 ≤ j ∧ j < a + 1 + rest.length) := by simp at h2; omega
        simp only [h2, h3, h1, if_false]

/-- The bytes from an address on are those of the memory, one by one. -/
theorem memBytes_eq_map (m : Memory) (a n : Nat) : memBytes m a n = (List.range n).map (fun i => memGet m (a + i)) := by
  induction n generalizing a with
  | zero => rfl
  | succ n ih =>
    rw [memBytes, ih, List.range_succ_eq_map, List.map_cons, List.map_map]
    refine congrArg₂ _ (by simp) (List.map_congr_left fun i _ => ?_)
    simp [Nat.add_assoc, Nat.add_comm 1]

end Sys2Proof.Machine
end

