-- ==== Sys2Proof/Laws/State.lean ====
section
/-! SUPPORT. The fields of the state under each of its updates: one lemma per field and update, so that no proof unfolds
a record update. -/

namespace Sys2Proof.Machine

variable (s : State)

/-! ## setCore -/

@[simp] theorem setCore_pending (c : CoreNo) (x : Core) : (setCore s c x).pending = s.pending := rfl
@[simp] theorem setCore_clk (c : CoreNo) (x : Core) : (setCore s c x).clk = s.clk := rfl
@[simp] theorem setCore_cyc (c : CoreNo) (x : Core) : (setCore s c x).cyc = s.cyc := rfl
@[simp] theorem setCore_cores (c : CoreNo) (x : Core) : (setCore s c x).cores = s.cores.set c x := rfl
@[simp] theorem setCore_commitFree (c : CoreNo) (x : Core) : (setCore s c x).commitFree = s.commitFree := rfl
@[simp] theorem setCore_ctlMem (c : CoreNo) (x : Core) : (setCore s c x).ctlMem = s.ctlMem := rfl
@[simp] theorem setCore_progStore (c : CoreNo) (x : Core) : (setCore s c x).progStore = s.progStore := rfl
@[simp] theorem setCore_tbl (c : CoreNo) (x : Core) : (setCore s c x).tbl = s.tbl := rfl
@[simp] theorem setCore_fab (c : CoreNo) (x : Core) : (setCore s c x).fab = s.fab := rfl
@[simp] theorem setCore_slices (c : CoreNo) (x : Core) : (setCore s c x).slices = s.slices := rfl
@[simp] theorem setCore_groups (c : CoreNo) (x : Core) : (setCore s c x).groups = s.groups := rfl
@[simp] theorem setCore_dispatch (c : CoreNo) (x : Core) : (setCore s c x).dispatch = s.dispatch := rfl
@[simp] theorem setCore_intake (c : CoreNo) (x : Core) : (setCore s c x).intake = s.intake := rfl
@[simp] theorem setCore_combQ (c : CoreNo) (x : Core) : (setCore s c x).combQ = s.combQ := rfl
@[simp] theorem setCore_combs (c : CoreNo) (x : Core) : (setCore s c x).combs = s.combs := rfl
@[simp] theorem setCore_combNext (c : CoreNo) (x : Core) : (setCore s c x).combNext = s.combNext := rfl
@[simp] theorem setCore_localQ (c : CoreNo) (x : Core) : (setCore s c x).localQ = s.localQ := rfl
@[simp] theorem setCore_rx (c : CoreNo) (x : Core) : (setCore s c x).rx = s.rx := rfl
@[simp] theorem setCore_msgs (c : CoreNo) (x : Core) : (setCore s c x).msgs = s.msgs := rfl
@[simp] theorem setCore_jobs (c : CoreNo) (x : Core) : (setCore s c x).jobs = s.jobs := rfl
@[simp] theorem setCore_wants (c : CoreNo) (x : Core) : (setCore s c x).wants = s.wants := rfl
@[simp] theorem setCore_msgCtr (c : CoreNo) (x : Core) : (setCore s c x).msgCtr = s.msgCtr := rfl
@[simp] theorem setCore_windows (c : CoreNo) (x : Core) : (setCore s c x).windows = s.windows := rfl
@[simp] theorem setCore_neve (c : CoreNo) (x : Core) : (setCore s c x).neve = s.neve := rfl
@[simp] theorem setCore_neveHeld (c : CoreNo) (x : Core) : (setCore s c x).neveHeld = s.neveHeld := rfl
@[simp] theorem setCore_firnHeld (c : CoreNo) (x : Core) : (setCore s c x).firnHeld = s.firnHeld := rfl
@[simp] theorem setCore_denied (c : CoreNo) (x : Core) : (setCore s c x).denied = s.denied := rfl
@[simp] theorem setCore_drops (c : CoreNo) (x : Core) : (setCore s c x).drops = s.drops := rfl
@[simp] theorem setCore_copies (c : CoreNo) (x : Core) : (setCore s c x).copies = s.copies := rfl
@[simp] theorem setCore_copyNext (c : CoreNo) (x : Core) : (setCore s c x).copyNext = s.copyNext := rfl
@[simp] theorem setCore_copyExts (c : CoreNo) (x : Core) : (setCore s c x).copyExts = s.copyExts := rfl
@[simp] theorem setCore_bpm (c : CoreNo) (x : Core) : (setCore s c x).bpm = s.bpm := rfl
@[simp] theorem setCore_ecmpPtr (c : CoreNo) (x : Core) : (setCore s c x).ecmpPtr = s.ecmpPtr := rfl
@[simp] theorem setCore_polTok (c : CoreNo) (x : Core) : (setCore s c x).polTok = s.polTok := rfl
@[simp] theorem setCore_ports (c : CoreNo) (x : Core) : (setCore s c x).ports = s.ports := rfl
@[simp] theorem setCore_lanes (c : CoreNo) (x : Core) : (setCore s c x).lanes = s.lanes := rfl
@[simp] theorem setCore_split (c : CoreNo) (x : Core) : (setCore s c x).split = s.split := rfl
@[simp] theorem setCore_piers (c : CoreNo) (x : Core) : (setCore s c x).piers = s.piers := rfl
@[simp] theorem setCore_vdct (c : CoreNo) (x : Core) : (setCore s c x).vdct = s.vdct := rfl
@[simp] theorem setCore_fences (c : CoreNo) (x : Core) : (setCore s c x).fences = s.fences := rfl
@[simp] theorem setCore_holds (c : CoreNo) (x : Core) : (setCore s c x).holds = s.holds := rfl
@[simp] theorem setCore_firn (c : CoreNo) (x : Core) : (setCore s c x).firn = s.firn := rfl
@[simp] theorem setCore_firnPoison (c : CoreNo) (x : Core) : (setCore s c x).firnPoison = s.firnPoison := rfl
@[simp] theorem setCore_firnErr (c : CoreNo) (x : Core) : (setCore s c x).firnErr = s.firnErr := rfl
@[simp] theorem setCore_firnThreaded (c : CoreNo) (x : Core) : (setCore s c x).firnThreaded = s.firnThreaded := rfl
@[simp] theorem setCore_remapFrom (c : CoreNo) (x : Core) : (setCore s c x).remapFrom = s.remapFrom := rfl
@[simp] theorem setCore_frn (c : CoreNo) (x : Core) : (setCore s c x).frn = s.frn := rfl
@[simp] theorem setCore_refreshes (c : CoreNo) (x : Core) : (setCore s c x).refreshes = s.refreshes := rfl
@[simp] theorem setCore_errs (c : CoreNo) (x : Core) : (setCore s c x).errs = s.errs := rfl
@[simp] theorem setCore_mgmt (c : CoreNo) (x : Core) : (setCore s c x).mgmt = s.mgmt := rfl
@[simp] theorem setCore_sec (c : CoreNo) (x : Core) : (setCore s c x).sec = s.sec := rfl
@[simp] theorem setCore_tap (c : CoreNo) (x : Core) : (setCore s c x).tap = s.tap := rfl
@[simp] theorem setCore_freeCtr (c : CoreNo) (x : Core) : (setCore s c x).freeCtr = s.freeCtr := rfl
@[simp] theorem setCore_out (c : CoreNo) (x : Core) : (setCore s c x).out = s.out := rfl

/-! ## setSlice -/

@[simp] theorem setSlice_pending (c : SliceNo) (x : Slice) : (setSlice s c x).pending = s.pending := rfl
@[simp] theorem setSlice_clk (c : SliceNo) (x : Slice) : (setSlice s c x).clk = s.clk := rfl
@[simp] theorem setSlice_cyc (c : SliceNo) (x : Slice) : (setSlice s c x).cyc = s.cyc := rfl
@[simp] theorem setSlice_cores (c : SliceNo) (x : Slice) : (setSlice s c x).cores = s.cores := rfl
@[simp] theorem setSlice_commitFree (c : SliceNo) (x : Slice) : (setSlice s c x).commitFree = s.commitFree := rfl
@[simp] theorem setSlice_ctlMem (c : SliceNo) (x : Slice) : (setSlice s c x).ctlMem = s.ctlMem := rfl
@[simp] theorem setSlice_progStore (c : SliceNo) (x : Slice) : (setSlice s c x).progStore = s.progStore := rfl
@[simp] theorem setSlice_tbl (c : SliceNo) (x : Slice) : (setSlice s c x).tbl = s.tbl := rfl
@[simp] theorem setSlice_fab (c : SliceNo) (x : Slice) : (setSlice s c x).fab = s.fab := rfl
@[simp] theorem setSlice_slices (c : SliceNo) (x : Slice) : (setSlice s c x).slices = s.slices.set c x := rfl
@[simp] theorem setSlice_groups (c : SliceNo) (x : Slice) : (setSlice s c x).groups = s.groups := rfl
@[simp] theorem setSlice_dispatch (c : SliceNo) (x : Slice) : (setSlice s c x).dispatch = s.dispatch := rfl
@[simp] theorem setSlice_intake (c : SliceNo) (x : Slice) : (setSlice s c x).intake = s.intake := rfl
@[simp] theorem setSlice_combQ (c : SliceNo) (x : Slice) : (setSlice s c x).combQ = s.combQ := rfl
@[simp] theorem setSlice_combs (c : SliceNo) (x : Slice) : (setSlice s c x).combs = s.combs := rfl
@[simp] theorem setSlice_combNext (c : SliceNo) (x : Slice) : (setSlice s c x).combNext = s.combNext := rfl
@[simp] theorem setSlice_localQ (c : SliceNo) (x : Slice) : (setSlice s c x).localQ = s.localQ := rfl
@[simp] theorem setSlice_rx (c : SliceNo) (x : Slice) : (setSlice s c x).rx = s.rx := rfl
@[simp] theorem setSlice_msgs (c : SliceNo) (x : Slice) : (setSlice s c x).msgs = s.msgs := rfl
@[simp] theorem setSlice_jobs (c : SliceNo) (x : Slice) : (setSlice s c x).jobs = s.jobs := rfl
@[simp] theorem setSlice_wants (c : SliceNo) (x : Slice) : (setSlice s c x).wants = s.wants := rfl
@[simp] theorem setSlice_msgCtr (c : SliceNo) (x : Slice) : (setSlice s c x).msgCtr = s.msgCtr := rfl
@[simp] theorem setSlice_windows (c : SliceNo) (x : Slice) : (setSlice s c x).windows = s.windows := rfl
@[simp] theorem setSlice_neve (c : SliceNo) (x : Slice) : (setSlice s c x).neve = s.neve := rfl
@[simp] theorem setSlice_neveHeld (c : SliceNo) (x : Slice) : (setSlice s c x).neveHeld = s.neveHeld := rfl
@[simp] theorem setSlice_firnHeld (c : SliceNo) (x : Slice) : (setSlice s c x).firnHeld = s.firnHeld := rfl
@[simp] theorem setSlice_denied (c : SliceNo) (x : Slice) : (setSlice s c x).denied = s.denied := rfl
@[simp] theorem setSlice_drops (c : SliceNo) (x : Slice) : (setSlice s c x).drops = s.drops := rfl
@[simp] theorem setSlice_copies (c : SliceNo) (x : Slice) : (setSlice s c x).copies = s.copies := rfl
@[simp] theorem setSlice_copyNext (c : SliceNo) (x : Slice) : (setSlice s c x).copyNext = s.copyNext := rfl
@[simp] theorem setSlice_copyExts (c : SliceNo) (x : Slice) : (setSlice s c x).copyExts = s.copyExts := rfl
@[simp] theorem setSlice_bpm (c : SliceNo) (x : Slice) : (setSlice s c x).bpm = s.bpm := rfl
@[simp] theorem setSlice_ecmpPtr (c : SliceNo) (x : Slice) : (setSlice s c x).ecmpPtr = s.ecmpPtr := rfl
@[simp] theorem setSlice_polTok (c : SliceNo) (x : Slice) : (setSlice s c x).polTok = s.polTok := rfl
@[simp] theorem setSlice_ports (c : SliceNo) (x : Slice) : (setSlice s c x).ports = s.ports := rfl
@[simp] theorem setSlice_lanes (c : SliceNo) (x : Slice) : (setSlice s c x).lanes = s.lanes := rfl
@[simp] theorem setSlice_split (c : SliceNo) (x : Slice) : (setSlice s c x).split = s.split := rfl
@[simp] theorem setSlice_piers (c : SliceNo) (x : Slice) : (setSlice s c x).piers = s.piers := rfl
@[simp] theorem setSlice_vdct (c : SliceNo) (x : Slice) : (setSlice s c x).vdct = s.vdct := rfl
@[simp] theorem setSlice_fences (c : SliceNo) (x : Slice) : (setSlice s c x).fences = s.fences := rfl
@[simp] theorem setSlice_holds (c : SliceNo) (x : Slice) : (setSlice s c x).holds = s.holds := rfl
@[simp] theorem setSlice_firn (c : SliceNo) (x : Slice) : (setSlice s c x).firn = s.firn := rfl
@[simp] theorem setSlice_firnPoison (c : SliceNo) (x : Slice) : (setSlice s c x).firnPoison = s.firnPoison := rfl
@[simp] theorem setSlice_firnErr (c : SliceNo) (x : Slice) : (setSlice s c x).firnErr = s.firnErr := rfl
@[simp] theorem setSlice_firnThreaded (c : SliceNo) (x : Slice) : (setSlice s c x).firnThreaded = s.firnThreaded := rfl
@[simp] theorem setSlice_remapFrom (c : SliceNo) (x : Slice) : (setSlice s c x).remapFrom = s.remapFrom := rfl
@[simp] theorem setSlice_frn (c : SliceNo) (x : Slice) : (setSlice s c x).frn = s.frn := rfl
@[simp] theorem setSlice_refreshes (c : SliceNo) (x : Slice) : (setSlice s c x).refreshes = s.refreshes := rfl
@[simp] theorem setSlice_errs (c : SliceNo) (x : Slice) : (setSlice s c x).errs = s.errs := rfl
@[simp] theorem setSlice_mgmt (c : SliceNo) (x : Slice) : (setSlice s c x).mgmt = s.mgmt := rfl
@[simp] theorem setSlice_sec (c : SliceNo) (x : Slice) : (setSlice s c x).sec = s.sec := rfl
@[simp] theorem setSlice_tap (c : SliceNo) (x : Slice) : (setSlice s c x).tap = s.tap := rfl
@[simp] theorem setSlice_freeCtr (c : SliceNo) (x : Slice) : (setSlice s c x).freeCtr = s.freeCtr := rfl
@[simp] theorem setSlice_out (c : SliceNo) (x : Slice) : (setSlice s c x).out = s.out := rfl

/-! ## setPort -/

@[simp] theorem setPort_pending (c : Nat) (x : Port) : (setPort s c x).pending = s.pending := rfl
@[simp] theorem setPort_clk (c : Nat) (x : Port) : (setPort s c x).clk = s.clk := rfl
@[simp] theorem setPort_cyc (c : Nat) (x : Port) : (setPort s c x).cyc = s.cyc := rfl
@[simp] theorem setPort_cores (c : Nat) (x : Port) : (setPort s c x).cores = s.cores := rfl
@[simp] theorem setPort_commitFree (c : Nat) (x : Port) : (setPort s c x).commitFree = s.commitFree := rfl
@[simp] theorem setPort_ctlMem (c : Nat) (x : Port) : (setPort s c x).ctlMem = s.ctlMem := rfl
@[simp] theorem setPort_progStore (c : Nat) (x : Port) : (setPort s c x).progStore = s.progStore := rfl
@[simp] theorem setPort_tbl (c : Nat) (x : Port) : (setPort s c x).tbl = s.tbl := rfl
@[simp] theorem setPort_fab (c : Nat) (x : Port) : (setPort s c x).fab = s.fab := rfl
@[simp] theorem setPort_slices (c : Nat) (x : Port) : (setPort s c x).slices = s.slices := rfl
@[simp] theorem setPort_groups (c : Nat) (x : Port) : (setPort s c x).groups = s.groups := rfl
@[simp] theorem setPort_dispatch (c : Nat) (x : Port) : (setPort s c x).dispatch = s.dispatch := rfl
@[simp] theorem setPort_intake (c : Nat) (x : Port) : (setPort s c x).intake = s.intake := rfl
@[simp] theorem setPort_combQ (c : Nat) (x : Port) : (setPort s c x).combQ = s.combQ := rfl
@[simp] theorem setPort_combs (c : Nat) (x : Port) : (setPort s c x).combs = s.combs := rfl
@[simp] theorem setPort_combNext (c : Nat) (x : Port) : (setPort s c x).combNext = s.combNext := rfl
@[simp] theorem setPort_localQ (c : Nat) (x : Port) : (setPort s c x).localQ = s.localQ := rfl
@[simp] theorem setPort_rx (c : Nat) (x : Port) : (setPort s c x).rx = s.rx := rfl
@[simp] theorem setPort_msgs (c : Nat) (x : Port) : (setPort s c x).msgs = s.msgs := rfl
@[simp] theorem setPort_jobs (c : Nat) (x : Port) : (setPort s c x).jobs = s.jobs := rfl
@[simp] theorem setPort_wants (c : Nat) (x : Port) : (setPort s c x).wants = s.wants := rfl
@[simp] theorem setPort_msgCtr (c : Nat) (x : Port) : (setPort s c x).msgCtr = s.msgCtr := rfl
@[simp] theorem setPort_windows (c : Nat) (x : Port) : (setPort s c x).windows = s.windows := rfl
@[simp] theorem setPort_neve (c : Nat) (x : Port) : (setPort s c x).neve = s.neve := rfl
@[simp] theorem setPort_neveHeld (c : Nat) (x : Port) : (setPort s c x).neveHeld = s.neveHeld := rfl
@[simp] theorem setPort_firnHeld (c : Nat) (x : Port) : (setPort s c x).firnHeld = s.firnHeld := rfl
@[simp] theorem setPort_denied (c : Nat) (x : Port) : (setPort s c x).denied = s.denied := rfl
@[simp] theorem setPort_drops (c : Nat) (x : Port) : (setPort s c x).drops = s.drops := rfl
@[simp] theorem setPort_copies (c : Nat) (x : Port) : (setPort s c x).copies = s.copies := rfl
@[simp] theorem setPort_copyNext (c : Nat) (x : Port) : (setPort s c x).copyNext = s.copyNext := rfl
@[simp] theorem setPort_copyExts (c : Nat) (x : Port) : (setPort s c x).copyExts = s.copyExts := rfl
@[simp] theorem setPort_bpm (c : Nat) (x : Port) : (setPort s c x).bpm = s.bpm := rfl
@[simp] theorem setPort_ecmpPtr (c : Nat) (x : Port) : (setPort s c x).ecmpPtr = s.ecmpPtr := rfl
@[simp] theorem setPort_polTok (c : Nat) (x : Port) : (setPort s c x).polTok = s.polTok := rfl
@[simp] theorem setPort_ports (c : Nat) (x : Port) : (setPort s c x).ports = tput {} s.ports c x := rfl
@[simp] theorem setPort_lanes (c : Nat) (x : Port) : (setPort s c x).lanes = s.lanes := rfl
@[simp] theorem setPort_split (c : Nat) (x : Port) : (setPort s c x).split = s.split := rfl
@[simp] theorem setPort_piers (c : Nat) (x : Port) : (setPort s c x).piers = s.piers := rfl
@[simp] theorem setPort_vdct (c : Nat) (x : Port) : (setPort s c x).vdct = s.vdct := rfl
@[simp] theorem setPort_fences (c : Nat) (x : Port) : (setPort s c x).fences = s.fences := rfl
@[simp] theorem setPort_holds (c : Nat) (x : Port) : (setPort s c x).holds = s.holds := rfl
@[simp] theorem setPort_firn (c : Nat) (x : Port) : (setPort s c x).firn = s.firn := rfl
@[simp] theorem setPort_firnPoison (c : Nat) (x : Port) : (setPort s c x).firnPoison = s.firnPoison := rfl
@[simp] theorem setPort_firnErr (c : Nat) (x : Port) : (setPort s c x).firnErr = s.firnErr := rfl
@[simp] theorem setPort_firnThreaded (c : Nat) (x : Port) : (setPort s c x).firnThreaded = s.firnThreaded := rfl
@[simp] theorem setPort_remapFrom (c : Nat) (x : Port) : (setPort s c x).remapFrom = s.remapFrom := rfl
@[simp] theorem setPort_frn (c : Nat) (x : Port) : (setPort s c x).frn = s.frn := rfl
@[simp] theorem setPort_refreshes (c : Nat) (x : Port) : (setPort s c x).refreshes = s.refreshes := rfl
@[simp] theorem setPort_errs (c : Nat) (x : Port) : (setPort s c x).errs = s.errs := rfl
@[simp] theorem setPort_mgmt (c : Nat) (x : Port) : (setPort s c x).mgmt = s.mgmt := rfl
@[simp] theorem setPort_sec (c : Nat) (x : Port) : (setPort s c x).sec = s.sec := rfl
@[simp] theorem setPort_tap (c : Nat) (x : Port) : (setPort s c x).tap = s.tap := rfl
@[simp] theorem setPort_freeCtr (c : Nat) (x : Port) : (setPort s c x).freeCtr = s.freeCtr := rfl
@[simp] theorem setPort_out (c : Nat) (x : Port) : (setPort s c x).out = s.out := rfl

/-! ## setLane -/

@[simp] theorem setLane_pending (c : Nat) (x : Lane) : (setLane s c x).pending = s.pending := rfl
@[simp] theorem setLane_clk (c : Nat) (x : Lane) : (setLane s c x).clk = s.clk := rfl
@[simp] theorem setLane_cyc (c : Nat) (x : Lane) : (setLane s c x).cyc = s.cyc := rfl
@[simp] theorem setLane_cores (c : Nat) (x : Lane) : (setLane s c x).cores = s.cores := rfl
@[simp] theorem setLane_commitFree (c : Nat) (x : Lane) : (setLane s c x).commitFree = s.commitFree := rfl
@[simp] theorem setLane_ctlMem (c : Nat) (x : Lane) : (setLane s c x).ctlMem = s.ctlMem := rfl
@[simp] theorem setLane_progStore (c : Nat) (x : Lane) : (setLane s c x).progStore = s.progStore := rfl
@[simp] theorem setLane_tbl (c : Nat) (x : Lane) : (setLane s c x).tbl = s.tbl := rfl
@[simp] theorem setLane_fab (c : Nat) (x : Lane) : (setLane s c x).fab = s.fab := rfl
@[simp] theorem setLane_slices (c : Nat) (x : Lane) : (setLane s c x).slices = s.slices := rfl
@[simp] theorem setLane_groups (c : Nat) (x : Lane) : (setLane s c x).groups = s.groups := rfl
@[simp] theorem setLane_dispatch (c : Nat) (x : Lane) : (setLane s c x).dispatch = s.dispatch := rfl
@[simp] theorem setLane_intake (c : Nat) (x : Lane) : (setLane s c x).intake = s.intake := rfl
@[simp] theorem setLane_combQ (c : Nat) (x : Lane) : (setLane s c x).combQ = s.combQ := rfl
@[simp] theorem setLane_combs (c : Nat) (x : Lane) : (setLane s c x).combs = s.combs := rfl
@[simp] theorem setLane_combNext (c : Nat) (x : Lane) : (setLane s c x).combNext = s.combNext := rfl
@[simp] theorem setLane_localQ (c : Nat) (x : Lane) : (setLane s c x).localQ = s.localQ := rfl
@[simp] theorem setLane_rx (c : Nat) (x : Lane) : (setLane s c x).rx = s.rx := rfl
@[simp] theorem setLane_msgs (c : Nat) (x : Lane) : (setLane s c x).msgs = s.msgs := rfl
@[simp] theorem setLane_jobs (c : Nat) (x : Lane) : (setLane s c x).jobs = s.jobs := rfl
@[simp] theorem setLane_wants (c : Nat) (x : Lane) : (setLane s c x).wants = s.wants := rfl
@[simp] theorem setLane_msgCtr (c : Nat) (x : Lane) : (setLane s c x).msgCtr = s.msgCtr := rfl
@[simp] theorem setLane_windows (c : Nat) (x : Lane) : (setLane s c x).windows = s.windows := rfl
@[simp] theorem setLane_neve (c : Nat) (x : Lane) : (setLane s c x).neve = s.neve := rfl
@[simp] theorem setLane_neveHeld (c : Nat) (x : Lane) : (setLane s c x).neveHeld = s.neveHeld := rfl
@[simp] theorem setLane_firnHeld (c : Nat) (x : Lane) : (setLane s c x).firnHeld = s.firnHeld := rfl
@[simp] theorem setLane_denied (c : Nat) (x : Lane) : (setLane s c x).denied = s.denied := rfl
@[simp] theorem setLane_drops (c : Nat) (x : Lane) : (setLane s c x).drops = s.drops := rfl
@[simp] theorem setLane_copies (c : Nat) (x : Lane) : (setLane s c x).copies = s.copies := rfl
@[simp] theorem setLane_copyNext (c : Nat) (x : Lane) : (setLane s c x).copyNext = s.copyNext := rfl
@[simp] theorem setLane_copyExts (c : Nat) (x : Lane) : (setLane s c x).copyExts = s.copyExts := rfl
@[simp] theorem setLane_bpm (c : Nat) (x : Lane) : (setLane s c x).bpm = s.bpm := rfl
@[simp] theorem setLane_ecmpPtr (c : Nat) (x : Lane) : (setLane s c x).ecmpPtr = s.ecmpPtr := rfl
@[simp] theorem setLane_polTok (c : Nat) (x : Lane) : (setLane s c x).polTok = s.polTok := rfl
@[simp] theorem setLane_ports (c : Nat) (x : Lane) : (setLane s c x).ports = s.ports := rfl
@[simp] theorem setLane_lanes (c : Nat) (x : Lane) : (setLane s c x).lanes = tput {} s.lanes c x := rfl
@[simp] theorem setLane_split (c : Nat) (x : Lane) : (setLane s c x).split = s.split := rfl
@[simp] theorem setLane_piers (c : Nat) (x : Lane) : (setLane s c x).piers = s.piers := rfl
@[simp] theorem setLane_vdct (c : Nat) (x : Lane) : (setLane s c x).vdct = s.vdct := rfl
@[simp] theorem setLane_fences (c : Nat) (x : Lane) : (setLane s c x).fences = s.fences := rfl
@[simp] theorem setLane_holds (c : Nat) (x : Lane) : (setLane s c x).holds = s.holds := rfl
@[simp] theorem setLane_firn (c : Nat) (x : Lane) : (setLane s c x).firn = s.firn := rfl
@[simp] theorem setLane_firnPoison (c : Nat) (x : Lane) : (setLane s c x).firnPoison = s.firnPoison := rfl
@[simp] theorem setLane_firnErr (c : Nat) (x : Lane) : (setLane s c x).firnErr = s.firnErr := rfl
@[simp] theorem setLane_firnThreaded (c : Nat) (x : Lane) : (setLane s c x).firnThreaded = s.firnThreaded := rfl
@[simp] theorem setLane_remapFrom (c : Nat) (x : Lane) : (setLane s c x).remapFrom = s.remapFrom := rfl
@[simp] theorem setLane_frn (c : Nat) (x : Lane) : (setLane s c x).frn = s.frn := rfl
@[simp] theorem setLane_refreshes (c : Nat) (x : Lane) : (setLane s c x).refreshes = s.refreshes := rfl
@[simp] theorem setLane_errs (c : Nat) (x : Lane) : (setLane s c x).errs = s.errs := rfl
@[simp] theorem setLane_mgmt (c : Nat) (x : Lane) : (setLane s c x).mgmt = s.mgmt := rfl
@[simp] theorem setLane_sec (c : Nat) (x : Lane) : (setLane s c x).sec = s.sec := rfl
@[simp] theorem setLane_tap (c : Nat) (x : Lane) : (setLane s c x).tap = s.tap := rfl
@[simp] theorem setLane_freeCtr (c : Nat) (x : Lane) : (setLane s c x).freeCtr = s.freeCtr := rfl
@[simp] theorem setLane_out (c : Nat) (x : Lane) : (setLane s c x).out = s.out := rfl

/-! ## setGroup -/

@[simp] theorem setGroup_pending (c : Nat) (x : Group) : (setGroup s c x).pending = s.pending := rfl
@[simp] theorem setGroup_clk (c : Nat) (x : Group) : (setGroup s c x).clk = s.clk := rfl
@[simp] theorem setGroup_cyc (c : Nat) (x : Group) : (setGroup s c x).cyc = s.cyc := rfl
@[simp] theorem setGroup_cores (c : Nat) (x : Group) : (setGroup s c x).cores = s.cores := rfl
@[simp] theorem setGroup_commitFree (c : Nat) (x : Group) : (setGroup s c x).commitFree = s.commitFree := rfl
@[simp] theorem setGroup_ctlMem (c : Nat) (x : Group) : (setGroup s c x).ctlMem = s.ctlMem := rfl
@[simp] theorem setGroup_progStore (c : Nat) (x : Group) : (setGroup s c x).progStore = s.progStore := rfl
@[simp] theorem setGroup_tbl (c : Nat) (x : Group) : (setGroup s c x).tbl = s.tbl := rfl
@[simp] theorem setGroup_fab (c : Nat) (x : Group) : (setGroup s c x).fab = s.fab := rfl
@[simp] theorem setGroup_slices (c : Nat) (x : Group) : (setGroup s c x).slices = s.slices := rfl
@[simp] theorem setGroup_groups (c : Nat) (x : Group) : (setGroup s c x).groups = tput {} s.groups c x := rfl
@[simp] theorem setGroup_dispatch (c : Nat) (x : Group) : (setGroup s c x).dispatch = s.dispatch := rfl
@[simp] theorem setGroup_intake (c : Nat) (x : Group) : (setGroup s c x).intake = s.intake := rfl
@[simp] theorem setGroup_combQ (c : Nat) (x : Group) : (setGroup s c x).combQ = s.combQ := rfl
@[simp] theorem setGroup_combs (c : Nat) (x : Group) : (setGroup s c x).combs = s.combs := rfl
@[simp] theorem setGroup_combNext (c : Nat) (x : Group) : (setGroup s c x).combNext = s.combNext := rfl
@[simp] theorem setGroup_localQ (c : Nat) (x : Group) : (setGroup s c x).localQ = s.localQ := rfl
@[simp] theorem setGroup_rx (c : Nat) (x : Group) : (setGroup s c x).rx = s.rx := rfl
@[simp] theorem setGroup_msgs (c : Nat) (x : Group) : (setGroup s c x).msgs = s.msgs := rfl
@[simp] theorem setGroup_jobs (c : Nat) (x : Group) : (setGroup s c x).jobs = s.jobs := rfl
@[simp] theorem setGroup_wants (c : Nat) (x : Group) : (setGroup s c x).wants = s.wants := rfl
@[simp] theorem setGroup_msgCtr (c : Nat) (x : Group) : (setGroup s c x).msgCtr = s.msgCtr := rfl
@[simp] theorem setGroup_windows (c : Nat) (x : Group) : (setGroup s c x).windows = s.windows := rfl
@[simp] theorem setGroup_neve (c : Nat) (x : Group) : (setGroup s c x).neve = s.neve := rfl
@[simp] theorem setGroup_neveHeld (c : Nat) (x : Group) : (setGroup s c x).neveHeld = s.neveHeld := rfl
@[simp] theorem setGroup_firnHeld (c : Nat) (x : Group) : (setGroup s c x).firnHeld = s.firnHeld := rfl
@[simp] theorem setGroup_denied (c : Nat) (x : Group) : (setGroup s c x).denied = s.denied := rfl
@[simp] theorem setGroup_drops (c : Nat) (x : Group) : (setGroup s c x).drops = s.drops := rfl
@[simp] theorem setGroup_copies (c : Nat) (x : Group) : (setGroup s c x).copies = s.copies := rfl
@[simp] theorem setGroup_copyNext (c : Nat) (x : Group) : (setGroup s c x).copyNext = s.copyNext := rfl
@[simp] theorem setGroup_copyExts (c : Nat) (x : Group) : (setGroup s c x).copyExts = s.copyExts := rfl
@[simp] theorem setGroup_bpm (c : Nat) (x : Group) : (setGroup s c x).bpm = s.bpm := rfl
@[simp] theorem setGroup_ecmpPtr (c : Nat) (x : Group) : (setGroup s c x).ecmpPtr = s.ecmpPtr := rfl
@[simp] theorem setGroup_polTok (c : Nat) (x : Group) : (setGroup s c x).polTok = s.polTok := rfl
@[simp] theorem setGroup_ports (c : Nat) (x : Group) : (setGroup s c x).ports = s.ports := rfl
@[simp] theorem setGroup_lanes (c : Nat) (x : Group) : (setGroup s c x).lanes = s.lanes := rfl
@[simp] theorem setGroup_split (c : Nat) (x : Group) : (setGroup s c x).split = s.split := rfl
@[simp] theorem setGroup_piers (c : Nat) (x : Group) : (setGroup s c x).piers = s.piers := rfl
@[simp] theorem setGroup_vdct (c : Nat) (x : Group) : (setGroup s c x).vdct = s.vdct := rfl
@[simp] theorem setGroup_fences (c : Nat) (x : Group) : (setGroup s c x).fences = s.fences := rfl
@[simp] theorem setGroup_holds (c : Nat) (x : Group) : (setGroup s c x).holds = s.holds := rfl
@[simp] theorem setGroup_firn (c : Nat) (x : Group) : (setGroup s c x).firn = s.firn := rfl
@[simp] theorem setGroup_firnPoison (c : Nat) (x : Group) : (setGroup s c x).firnPoison = s.firnPoison := rfl
@[simp] theorem setGroup_firnErr (c : Nat) (x : Group) : (setGroup s c x).firnErr = s.firnErr := rfl
@[simp] theorem setGroup_firnThreaded (c : Nat) (x : Group) : (setGroup s c x).firnThreaded = s.firnThreaded := rfl
@[simp] theorem setGroup_remapFrom (c : Nat) (x : Group) : (setGroup s c x).remapFrom = s.remapFrom := rfl
@[simp] theorem setGroup_frn (c : Nat) (x : Group) : (setGroup s c x).frn = s.frn := rfl
@[simp] theorem setGroup_refreshes (c : Nat) (x : Group) : (setGroup s c x).refreshes = s.refreshes := rfl
@[simp] theorem setGroup_errs (c : Nat) (x : Group) : (setGroup s c x).errs = s.errs := rfl
@[simp] theorem setGroup_mgmt (c : Nat) (x : Group) : (setGroup s c x).mgmt = s.mgmt := rfl
@[simp] theorem setGroup_sec (c : Nat) (x : Group) : (setGroup s c x).sec = s.sec := rfl
@[simp] theorem setGroup_tap (c : Nat) (x : Group) : (setGroup s c x).tap = s.tap := rfl
@[simp] theorem setGroup_freeCtr (c : Nat) (x : Group) : (setGroup s c x).freeCtr = s.freeCtr := rfl
@[simp] theorem setGroup_out (c : Nat) (x : Group) : (setGroup s c x).out = s.out := rfl

/-! ## setStack -/

@[simp] theorem setStack_pending (c : Fin 4) (x : Stack) : (setStack s c x).pending = s.pending := rfl
@[simp] theorem setStack_clk (c : Fin 4) (x : Stack) : (setStack s c x).clk = s.clk := rfl
@[simp] theorem setStack_cyc (c : Fin 4) (x : Stack) : (setStack s c x).cyc = s.cyc := rfl
@[simp] theorem setStack_cores (c : Fin 4) (x : Stack) : (setStack s c x).cores = s.cores := rfl
@[simp] theorem setStack_commitFree (c : Fin 4) (x : Stack) : (setStack s c x).commitFree = s.commitFree := rfl
@[simp] theorem setStack_ctlMem (c : Fin 4) (x : Stack) : (setStack s c x).ctlMem = s.ctlMem := rfl
@[simp] theorem setStack_progStore (c : Fin 4) (x : Stack) : (setStack s c x).progStore = s.progStore := rfl
@[simp] theorem setStack_tbl (c : Fin 4) (x : Stack) : (setStack s c x).tbl = s.tbl := rfl
@[simp] theorem setStack_fab (c : Fin 4) (x : Stack) : (setStack s c x).fab = s.fab := rfl
@[simp] theorem setStack_slices (c : Fin 4) (x : Stack) : (setStack s c x).slices = s.slices := rfl
@[simp] theorem setStack_groups (c : Fin 4) (x : Stack) : (setStack s c x).groups = s.groups := rfl
@[simp] theorem setStack_dispatch (c : Fin 4) (x : Stack) : (setStack s c x).dispatch = s.dispatch := rfl
@[simp] theorem setStack_intake (c : Fin 4) (x : Stack) : (setStack s c x).intake = s.intake := rfl
@[simp] theorem setStack_combQ (c : Fin 4) (x : Stack) : (setStack s c x).combQ = s.combQ := rfl
@[simp] theorem setStack_combs (c : Fin 4) (x : Stack) : (setStack s c x).combs = s.combs := rfl
@[simp] theorem setStack_combNext (c : Fin 4) (x : Stack) : (setStack s c x).combNext = s.combNext := rfl
@[simp] theorem setStack_localQ (c : Fin 4) (x : Stack) : (setStack s c x).localQ = s.localQ := rfl
@[simp] theorem setStack_rx (c : Fin 4) (x : Stack) : (setStack s c x).rx = s.rx := rfl
@[simp] theorem setStack_msgs (c : Fin 4) (x : Stack) : (setStack s c x).msgs = s.msgs := rfl
@[simp] theorem setStack_jobs (c : Fin 4) (x : Stack) : (setStack s c x).jobs = s.jobs := rfl
@[simp] theorem setStack_wants (c : Fin 4) (x : Stack) : (setStack s c x).wants = s.wants := rfl
@[simp] theorem setStack_msgCtr (c : Fin 4) (x : Stack) : (setStack s c x).msgCtr = s.msgCtr := rfl
@[simp] theorem setStack_windows (c : Fin 4) (x : Stack) : (setStack s c x).windows = s.windows := rfl
@[simp] theorem setStack_neve (c : Fin 4) (x : Stack) : (setStack s c x).neve = s.neve := rfl
@[simp] theorem setStack_neveHeld (c : Fin 4) (x : Stack) : (setStack s c x).neveHeld = s.neveHeld := rfl
@[simp] theorem setStack_firnHeld (c : Fin 4) (x : Stack) : (setStack s c x).firnHeld = s.firnHeld := rfl
@[simp] theorem setStack_denied (c : Fin 4) (x : Stack) : (setStack s c x).denied = s.denied := rfl
@[simp] theorem setStack_drops (c : Fin 4) (x : Stack) : (setStack s c x).drops = s.drops := rfl
@[simp] theorem setStack_copies (c : Fin 4) (x : Stack) : (setStack s c x).copies = s.copies := rfl
@[simp] theorem setStack_copyNext (c : Fin 4) (x : Stack) : (setStack s c x).copyNext = s.copyNext := rfl
@[simp] theorem setStack_copyExts (c : Fin 4) (x : Stack) : (setStack s c x).copyExts = s.copyExts := rfl
@[simp] theorem setStack_bpm (c : Fin 4) (x : Stack) : (setStack s c x).bpm = s.bpm := rfl
@[simp] theorem setStack_ecmpPtr (c : Fin 4) (x : Stack) : (setStack s c x).ecmpPtr = s.ecmpPtr := rfl
@[simp] theorem setStack_polTok (c : Fin 4) (x : Stack) : (setStack s c x).polTok = s.polTok := rfl
@[simp] theorem setStack_ports (c : Fin 4) (x : Stack) : (setStack s c x).ports = s.ports := rfl
@[simp] theorem setStack_lanes (c : Fin 4) (x : Stack) : (setStack s c x).lanes = s.lanes := rfl
@[simp] theorem setStack_split (c : Fin 4) (x : Stack) : (setStack s c x).split = s.split := rfl
@[simp] theorem setStack_piers (c : Fin 4) (x : Stack) : (setStack s c x).piers = s.piers := rfl
@[simp] theorem setStack_vdct (c : Fin 4) (x : Stack) : (setStack s c x).vdct = s.vdct := rfl
@[simp] theorem setStack_fences (c : Fin 4) (x : Stack) : (setStack s c x).fences = s.fences := rfl
@[simp] theorem setStack_holds (c : Fin 4) (x : Stack) : (setStack s c x).holds = s.holds := rfl
@[simp] theorem setStack_firn (c : Fin 4) (x : Stack) : (setStack s c x).firn = s.firn := rfl
@[simp] theorem setStack_firnPoison (c : Fin 4) (x : Stack) : (setStack s c x).firnPoison = s.firnPoison := rfl
@[simp] theorem setStack_firnErr (c : Fin 4) (x : Stack) : (setStack s c x).firnErr = s.firnErr := rfl
@[simp] theorem setStack_firnThreaded (c : Fin 4) (x : Stack) : (setStack s c x).firnThreaded = s.firnThreaded := rfl
@[simp] theorem setStack_remapFrom (c : Fin 4) (x : Stack) : (setStack s c x).remapFrom = s.remapFrom := rfl
@[simp] theorem setStack_frn (c : Fin 4) (x : Stack) : (setStack s c x).frn = s.frn.set c x := rfl
@[simp] theorem setStack_refreshes (c : Fin 4) (x : Stack) : (setStack s c x).refreshes = s.refreshes := rfl
@[simp] theorem setStack_errs (c : Fin 4) (x : Stack) : (setStack s c x).errs = s.errs := rfl
@[simp] theorem setStack_mgmt (c : Fin 4) (x : Stack) : (setStack s c x).mgmt = s.mgmt := rfl
@[simp] theorem setStack_sec (c : Fin 4) (x : Stack) : (setStack s c x).sec = s.sec := rfl
@[simp] theorem setStack_tap (c : Fin 4) (x : Stack) : (setStack s c x).tap = s.tap := rfl
@[simp] theorem setStack_freeCtr (c : Fin 4) (x : Stack) : (setStack s c x).freeCtr = s.freeCtr := rfl
@[simp] theorem setStack_out (c : Fin 4) (x : Stack) : (setStack s c x).out = s.out := rfl

/-! ## setMgmt -/

@[simp] theorem setMgmt_pending (c : Fin 2) (x : Mgmt) : (setMgmt s c x).pending = s.pending := rfl
@[simp] theorem setMgmt_clk (c : Fin 2) (x : Mgmt) : (setMgmt s c x).clk = s.clk := rfl
@[simp] theorem setMgmt_cyc (c : Fin 2) (x : Mgmt) : (setMgmt s c x).cyc = s.cyc := rfl
@[simp] theorem setMgmt_cores (c : Fin 2) (x : Mgmt) : (setMgmt s c x).cores = s.cores := rfl
@[simp] theorem setMgmt_commitFree (c : Fin 2) (x : Mgmt) : (setMgmt s c x).commitFree = s.commitFree := rfl
@[simp] theorem setMgmt_ctlMem (c : Fin 2) (x : Mgmt) : (setMgmt s c x).ctlMem = s.ctlMem := rfl
@[simp] theorem setMgmt_progStore (c : Fin 2) (x : Mgmt) : (setMgmt s c x).progStore = s.progStore := rfl
@[simp] theorem setMgmt_tbl (c : Fin 2) (x : Mgmt) : (setMgmt s c x).tbl = s.tbl := rfl
@[simp] theorem setMgmt_fab (c : Fin 2) (x : Mgmt) : (setMgmt s c x).fab = s.fab := rfl
@[simp] theorem setMgmt_slices (c : Fin 2) (x : Mgmt) : (setMgmt s c x).slices = s.slices := rfl
@[simp] theorem setMgmt_groups (c : Fin 2) (x : Mgmt) : (setMgmt s c x).groups = s.groups := rfl
@[simp] theorem setMgmt_dispatch (c : Fin 2) (x : Mgmt) : (setMgmt s c x).dispatch = s.dispatch := rfl
@[simp] theorem setMgmt_intake (c : Fin 2) (x : Mgmt) : (setMgmt s c x).intake = s.intake := rfl
@[simp] theorem setMgmt_combQ (c : Fin 2) (x : Mgmt) : (setMgmt s c x).combQ = s.combQ := rfl
@[simp] theorem setMgmt_combs (c : Fin 2) (x : Mgmt) : (setMgmt s c x).combs = s.combs := rfl
@[simp] theorem setMgmt_combNext (c : Fin 2) (x : Mgmt) : (setMgmt s c x).combNext = s.combNext := rfl
@[simp] theorem setMgmt_localQ (c : Fin 2) (x : Mgmt) : (setMgmt s c x).localQ = s.localQ := rfl
@[simp] theorem setMgmt_rx (c : Fin 2) (x : Mgmt) : (setMgmt s c x).rx = s.rx := rfl
@[simp] theorem setMgmt_msgs (c : Fin 2) (x : Mgmt) : (setMgmt s c x).msgs = s.msgs := rfl
@[simp] theorem setMgmt_jobs (c : Fin 2) (x : Mgmt) : (setMgmt s c x).jobs = s.jobs := rfl
@[simp] theorem setMgmt_wants (c : Fin 2) (x : Mgmt) : (setMgmt s c x).wants = s.wants := rfl
@[simp] theorem setMgmt_msgCtr (c : Fin 2) (x : Mgmt) : (setMgmt s c x).msgCtr = s.msgCtr := rfl
@[simp] theorem setMgmt_windows (c : Fin 2) (x : Mgmt) : (setMgmt s c x).windows = s.windows := rfl
@[simp] theorem setMgmt_neve (c : Fin 2) (x : Mgmt) : (setMgmt s c x).neve = s.neve := rfl
@[simp] theorem setMgmt_neveHeld (c : Fin 2) (x : Mgmt) : (setMgmt s c x).neveHeld = s.neveHeld := rfl
@[simp] theorem setMgmt_firnHeld (c : Fin 2) (x : Mgmt) : (setMgmt s c x).firnHeld = s.firnHeld := rfl
@[simp] theorem setMgmt_denied (c : Fin 2) (x : Mgmt) : (setMgmt s c x).denied = s.denied := rfl
@[simp] theorem setMgmt_drops (c : Fin 2) (x : Mgmt) : (setMgmt s c x).drops = s.drops := rfl
@[simp] theorem setMgmt_copies (c : Fin 2) (x : Mgmt) : (setMgmt s c x).copies = s.copies := rfl
@[simp] theorem setMgmt_copyNext (c : Fin 2) (x : Mgmt) : (setMgmt s c x).copyNext = s.copyNext := rfl
@[simp] theorem setMgmt_copyExts (c : Fin 2) (x : Mgmt) : (setMgmt s c x).copyExts = s.copyExts := rfl
@[simp] theorem setMgmt_bpm (c : Fin 2) (x : Mgmt) : (setMgmt s c x).bpm = s.bpm := rfl
@[simp] theorem setMgmt_ecmpPtr (c : Fin 2) (x : Mgmt) : (setMgmt s c x).ecmpPtr = s.ecmpPtr := rfl
@[simp] theorem setMgmt_polTok (c : Fin 2) (x : Mgmt) : (setMgmt s c x).polTok = s.polTok := rfl
@[simp] theorem setMgmt_ports (c : Fin 2) (x : Mgmt) : (setMgmt s c x).ports = s.ports := rfl
@[simp] theorem setMgmt_lanes (c : Fin 2) (x : Mgmt) : (setMgmt s c x).lanes = s.lanes := rfl
@[simp] theorem setMgmt_split (c : Fin 2) (x : Mgmt) : (setMgmt s c x).split = s.split := rfl
@[simp] theorem setMgmt_piers (c : Fin 2) (x : Mgmt) : (setMgmt s c x).piers = s.piers := rfl
@[simp] theorem setMgmt_vdct (c : Fin 2) (x : Mgmt) : (setMgmt s c x).vdct = s.vdct := rfl
@[simp] theorem setMgmt_fences (c : Fin 2) (x : Mgmt) : (setMgmt s c x).fences = s.fences := rfl
@[simp] theorem setMgmt_holds (c : Fin 2) (x : Mgmt) : (setMgmt s c x).holds = s.holds := rfl
@[simp] theorem setMgmt_firn (c : Fin 2) (x : Mgmt) : (setMgmt s c x).firn = s.firn := rfl
@[simp] theorem setMgmt_firnPoison (c : Fin 2) (x : Mgmt) : (setMgmt s c x).firnPoison = s.firnPoison := rfl
@[simp] theorem setMgmt_firnErr (c : Fin 2) (x : Mgmt) : (setMgmt s c x).firnErr = s.firnErr := rfl
@[simp] theorem setMgmt_firnThreaded (c : Fin 2) (x : Mgmt) : (setMgmt s c x).firnThreaded = s.firnThreaded := rfl
@[simp] theorem setMgmt_remapFrom (c : Fin 2) (x : Mgmt) : (setMgmt s c x).remapFrom = s.remapFrom := rfl
@[simp] theorem setMgmt_frn (c : Fin 2) (x : Mgmt) : (setMgmt s c x).frn = s.frn := rfl
@[simp] theorem setMgmt_refreshes (c : Fin 2) (x : Mgmt) : (setMgmt s c x).refreshes = s.refreshes := rfl
@[simp] theorem setMgmt_errs (c : Fin 2) (x : Mgmt) : (setMgmt s c x).errs = s.errs := rfl
@[simp] theorem setMgmt_mgmt (c : Fin 2) (x : Mgmt) : (setMgmt s c x).mgmt = s.mgmt.set c x := rfl
@[simp] theorem setMgmt_sec (c : Fin 2) (x : Mgmt) : (setMgmt s c x).sec = s.sec := rfl
@[simp] theorem setMgmt_tap (c : Fin 2) (x : Mgmt) : (setMgmt s c x).tap = s.tap := rfl
@[simp] theorem setMgmt_freeCtr (c : Fin 2) (x : Mgmt) : (setMgmt s c x).freeCtr = s.freeCtr := rfl
@[simp] theorem setMgmt_out (c : Fin 2) (x : Mgmt) : (setMgmt s c x).out = s.out := rfl

/-! ## setErr -/

@[simp] theorem setErr_pending (c : Nat) (x : ErrBlk) : (setErr s c x).pending = s.pending := rfl
@[simp] theorem setErr_clk (c : Nat) (x : ErrBlk) : (setErr s c x).clk = s.clk := rfl
@[simp] theorem setErr_cyc (c : Nat) (x : ErrBlk) : (setErr s c x).cyc = s.cyc := rfl
@[simp] theorem setErr_cores (c : Nat) (x : ErrBlk) : (setErr s c x).cores = s.cores := rfl
@[simp] theorem setErr_commitFree (c : Nat) (x : ErrBlk) : (setErr s c x).commitFree = s.commitFree := rfl
@[simp] theorem setErr_ctlMem (c : Nat) (x : ErrBlk) : (setErr s c x).ctlMem = s.ctlMem := rfl
@[simp] theorem setErr_progStore (c : Nat) (x : ErrBlk) : (setErr s c x).progStore = s.progStore := rfl
@[simp] theorem setErr_tbl (c : Nat) (x : ErrBlk) : (setErr s c x).tbl = s.tbl := rfl
@[simp] theorem setErr_fab (c : Nat) (x : ErrBlk) : (setErr s c x).fab = s.fab := rfl
@[simp] theorem setErr_slices (c : Nat) (x : ErrBlk) : (setErr s c x).slices = s.slices := rfl
@[simp] theorem setErr_groups (c : Nat) (x : ErrBlk) : (setErr s c x).groups = s.groups := rfl
@[simp] theorem setErr_dispatch (c : Nat) (x : ErrBlk) : (setErr s c x).dispatch = s.dispatch := rfl
@[simp] theorem setErr_intake (c : Nat) (x : ErrBlk) : (setErr s c x).intake = s.intake := rfl
@[simp] theorem setErr_combQ (c : Nat) (x : ErrBlk) : (setErr s c x).combQ = s.combQ := rfl
@[simp] theorem setErr_combs (c : Nat) (x : ErrBlk) : (setErr s c x).combs = s.combs := rfl
@[simp] theorem setErr_combNext (c : Nat) (x : ErrBlk) : (setErr s c x).combNext = s.combNext := rfl
@[simp] theorem setErr_localQ (c : Nat) (x : ErrBlk) : (setErr s c x).localQ = s.localQ := rfl
@[simp] theorem setErr_rx (c : Nat) (x : ErrBlk) : (setErr s c x).rx = s.rx := rfl
@[simp] theorem setErr_msgs (c : Nat) (x : ErrBlk) : (setErr s c x).msgs = s.msgs := rfl
@[simp] theorem setErr_jobs (c : Nat) (x : ErrBlk) : (setErr s c x).jobs = s.jobs := rfl
@[simp] theorem setErr_wants (c : Nat) (x : ErrBlk) : (setErr s c x).wants = s.wants := rfl
@[simp] theorem setErr_msgCtr (c : Nat) (x : ErrBlk) : (setErr s c x).msgCtr = s.msgCtr := rfl
@[simp] theorem setErr_windows (c : Nat) (x : ErrBlk) : (setErr s c x).windows = s.windows := rfl
@[simp] theorem setErr_neve (c : Nat) (x : ErrBlk) : (setErr s c x).neve = s.neve := rfl
@[simp] theorem setErr_neveHeld (c : Nat) (x : ErrBlk) : (setErr s c x).neveHeld = s.neveHeld := rfl
@[simp] theorem setErr_firnHeld (c : Nat) (x : ErrBlk) : (setErr s c x).firnHeld = s.firnHeld := rfl
@[simp] theorem setErr_denied (c : Nat) (x : ErrBlk) : (setErr s c x).denied = s.denied := rfl
@[simp] theorem setErr_drops (c : Nat) (x : ErrBlk) : (setErr s c x).drops = s.drops := rfl
@[simp] theorem setErr_copies (c : Nat) (x : ErrBlk) : (setErr s c x).copies = s.copies := rfl
@[simp] theorem setErr_copyNext (c : Nat) (x : ErrBlk) : (setErr s c x).copyNext = s.copyNext := rfl
@[simp] theorem setErr_copyExts (c : Nat) (x : ErrBlk) : (setErr s c x).copyExts = s.copyExts := rfl
@[simp] theorem setErr_bpm (c : Nat) (x : ErrBlk) : (setErr s c x).bpm = s.bpm := rfl
@[simp] theorem setErr_ecmpPtr (c : Nat) (x : ErrBlk) : (setErr s c x).ecmpPtr = s.ecmpPtr := rfl
@[simp] theorem setErr_polTok (c : Nat) (x : ErrBlk) : (setErr s c x).polTok = s.polTok := rfl
@[simp] theorem setErr_ports (c : Nat) (x : ErrBlk) : (setErr s c x).ports = s.ports := rfl
@[simp] theorem setErr_lanes (c : Nat) (x : ErrBlk) : (setErr s c x).lanes = s.lanes := rfl
@[simp] theorem setErr_split (c : Nat) (x : ErrBlk) : (setErr s c x).split = s.split := rfl
@[simp] theorem setErr_piers (c : Nat) (x : ErrBlk) : (setErr s c x).piers = s.piers := rfl
@[simp] theorem setErr_vdct (c : Nat) (x : ErrBlk) : (setErr s c x).vdct = s.vdct := rfl
@[simp] theorem setErr_fences (c : Nat) (x : ErrBlk) : (setErr s c x).fences = s.fences := rfl
@[simp] theorem setErr_holds (c : Nat) (x : ErrBlk) : (setErr s c x).holds = s.holds := rfl
@[simp] theorem setErr_firn (c : Nat) (x : ErrBlk) : (setErr s c x).firn = s.firn := rfl
@[simp] theorem setErr_firnPoison (c : Nat) (x : ErrBlk) : (setErr s c x).firnPoison = s.firnPoison := rfl
@[simp] theorem setErr_firnErr (c : Nat) (x : ErrBlk) : (setErr s c x).firnErr = s.firnErr := rfl
@[simp] theorem setErr_firnThreaded (c : Nat) (x : ErrBlk) : (setErr s c x).firnThreaded = s.firnThreaded := rfl
@[simp] theorem setErr_remapFrom (c : Nat) (x : ErrBlk) : (setErr s c x).remapFrom = s.remapFrom := rfl
@[simp] theorem setErr_frn (c : Nat) (x : ErrBlk) : (setErr s c x).frn = s.frn := rfl
@[simp] theorem setErr_refreshes (c : Nat) (x : ErrBlk) : (setErr s c x).refreshes = s.refreshes := rfl
@[simp] theorem setErr_errs (c : Nat) (x : ErrBlk) : (setErr s c x).errs = tput (errReset c) s.errs c x := rfl
@[simp] theorem setErr_mgmt (c : Nat) (x : ErrBlk) : (setErr s c x).mgmt = s.mgmt := rfl
@[simp] theorem setErr_sec (c : Nat) (x : ErrBlk) : (setErr s c x).sec = s.sec := rfl
@[simp] theorem setErr_tap (c : Nat) (x : ErrBlk) : (setErr s c x).tap = s.tap := rfl
@[simp] theorem setErr_freeCtr (c : Nat) (x : ErrBlk) : (setErr s c x).freeCtr = s.freeCtr := rfl
@[simp] theorem setErr_out (c : Nat) (x : ErrBlk) : (setErr s c x).out = s.out := rfl

/-! ## emit -/

@[simp] theorem emit_pending (x : Out) : (emit s x).pending = s.pending := rfl
@[simp] theorem emit_clk (x : Out) : (emit s x).clk = s.clk := rfl
@[simp] theorem emit_cyc (x : Out) : (emit s x).cyc = s.cyc := rfl
@[simp] theorem emit_cores (x : Out) : (emit s x).cores = s.cores := rfl
@[simp] theorem emit_commitFree (x : Out) : (emit s x).commitFree = s.commitFree := rfl
@[simp] theorem emit_ctlMem (x : Out) : (emit s x).ctlMem = s.ctlMem := rfl
@[simp] theorem emit_progStore (x : Out) : (emit s x).progStore = s.progStore := rfl
@[simp] theorem emit_tbl (x : Out) : (emit s x).tbl = s.tbl := rfl
@[simp] theorem emit_fab (x : Out) : (emit s x).fab = s.fab := rfl
@[simp] theorem emit_slices (x : Out) : (emit s x).slices = s.slices := rfl
@[simp] theorem emit_groups (x : Out) : (emit s x).groups = s.groups := rfl
@[simp] theorem emit_dispatch (x : Out) : (emit s x).dispatch = s.dispatch := rfl
@[simp] theorem emit_intake (x : Out) : (emit s x).intake = s.intake := rfl
@[simp] theorem emit_combQ (x : Out) : (emit s x).combQ = s.combQ := rfl
@[simp] theorem emit_combs (x : Out) : (emit s x).combs = s.combs := rfl
@[simp] theorem emit_combNext (x : Out) : (emit s x).combNext = s.combNext := rfl
@[simp] theorem emit_localQ (x : Out) : (emit s x).localQ = s.localQ := rfl
@[simp] theorem emit_rx (x : Out) : (emit s x).rx = s.rx := rfl
@[simp] theorem emit_msgs (x : Out) : (emit s x).msgs = s.msgs := rfl
@[simp] theorem emit_jobs (x : Out) : (emit s x).jobs = s.jobs := rfl
@[simp] theorem emit_wants (x : Out) : (emit s x).wants = s.wants := rfl
@[simp] theorem emit_msgCtr (x : Out) : (emit s x).msgCtr = s.msgCtr := rfl
@[simp] theorem emit_windows (x : Out) : (emit s x).windows = s.windows := rfl
@[simp] theorem emit_neve (x : Out) : (emit s x).neve = s.neve := rfl
@[simp] theorem emit_neveHeld (x : Out) : (emit s x).neveHeld = s.neveHeld := rfl
@[simp] theorem emit_firnHeld (x : Out) : (emit s x).firnHeld = s.firnHeld := rfl
@[simp] theorem emit_denied (x : Out) : (emit s x).denied = s.denied := rfl
@[simp] theorem emit_drops (x : Out) : (emit s x).drops = s.drops := rfl
@[simp] theorem emit_copies (x : Out) : (emit s x).copies = s.copies := rfl
@[simp] theorem emit_copyNext (x : Out) : (emit s x).copyNext = s.copyNext := rfl
@[simp] theorem emit_copyExts (x : Out) : (emit s x).copyExts = s.copyExts := rfl
@[simp] theorem emit_bpm (x : Out) : (emit s x).bpm = s.bpm := rfl
@[simp] theorem emit_ecmpPtr (x : Out) : (emit s x).ecmpPtr = s.ecmpPtr := rfl
@[simp] theorem emit_polTok (x : Out) : (emit s x).polTok = s.polTok := rfl
@[simp] theorem emit_ports (x : Out) : (emit s x).ports = s.ports := rfl
@[simp] theorem emit_lanes (x : Out) : (emit s x).lanes = s.lanes := rfl
@[simp] theorem emit_split (x : Out) : (emit s x).split = s.split := rfl
@[simp] theorem emit_piers (x : Out) : (emit s x).piers = s.piers := rfl
@[simp] theorem emit_vdct (x : Out) : (emit s x).vdct = s.vdct := rfl
@[simp] theorem emit_fences (x : Out) : (emit s x).fences = s.fences := rfl
@[simp] theorem emit_holds (x : Out) : (emit s x).holds = s.holds := rfl
@[simp] theorem emit_firn (x : Out) : (emit s x).firn = s.firn := rfl
@[simp] theorem emit_firnPoison (x : Out) : (emit s x).firnPoison = s.firnPoison := rfl
@[simp] theorem emit_firnErr (x : Out) : (emit s x).firnErr = s.firnErr := rfl
@[simp] theorem emit_firnThreaded (x : Out) : (emit s x).firnThreaded = s.firnThreaded := rfl
@[simp] theorem emit_remapFrom (x : Out) : (emit s x).remapFrom = s.remapFrom := rfl
@[simp] theorem emit_frn (x : Out) : (emit s x).frn = s.frn := rfl
@[simp] theorem emit_refreshes (x : Out) : (emit s x).refreshes = s.refreshes := rfl
@[simp] theorem emit_errs (x : Out) : (emit s x).errs = s.errs := rfl
@[simp] theorem emit_mgmt (x : Out) : (emit s x).mgmt = s.mgmt := rfl
@[simp] theorem emit_sec (x : Out) : (emit s x).sec = s.sec := rfl
@[simp] theorem emit_tap (x : Out) : (emit s x).tap = s.tap := rfl
@[simp] theorem emit_freeCtr (x : Out) : (emit s x).freeCtr = s.freeCtr := rfl
@[simp] theorem emit_out (x : Out) : (emit s x).out = x :: s.out := rfl

/-! ## setVdct -/

@[simp] theorem setVdct_pending (c : Fin 8) (x : Vdct) : (setVdct s c x).pending = s.pending := rfl
@[simp] theorem setVdct_clk (c : Fin 8) (x : Vdct) : (setVdct s c x).clk = s.clk := rfl
@[simp] theorem setVdct_cyc (c : Fin 8) (x : Vdct) : (setVdct s c x).cyc = s.cyc := rfl
@[simp] theorem setVdct_cores (c : Fin 8) (x : Vdct) : (setVdct s c x).cores = s.cores := rfl
@[simp] theorem setVdct_commitFree (c : Fin 8) (x : Vdct) : (setVdct s c x).commitFree = s.commitFree := rfl
@[simp] theorem setVdct_ctlMem (c : Fin 8) (x : Vdct) : (setVdct s c x).ctlMem = s.ctlMem := rfl
@[simp] theorem setVdct_progStore (c : Fin 8) (x : Vdct) : (setVdct s c x).progStore = s.progStore := rfl
@[simp] theorem setVdct_tbl (c : Fin 8) (x : Vdct) : (setVdct s c x).tbl = s.tbl := rfl
@[simp] theorem setVdct_fab (c : Fin 8) (x : Vdct) : (setVdct s c x).fab = s.fab := rfl
@[simp] theorem setVdct_slices (c : Fin 8) (x : Vdct) : (setVdct s c x).slices = s.slices := rfl
@[simp] theorem setVdct_groups (c : Fin 8) (x : Vdct) : (setVdct s c x).groups = s.groups := rfl
@[simp] theorem setVdct_dispatch (c : Fin 8) (x : Vdct) : (setVdct s c x).dispatch = s.dispatch := rfl
@[simp] theorem setVdct_intake (c : Fin 8) (x : Vdct) : (setVdct s c x).intake = s.intake := rfl
@[simp] theorem setVdct_combQ (c : Fin 8) (x : Vdct) : (setVdct s c x).combQ = s.combQ := rfl
@[simp] theorem setVdct_combs (c : Fin 8) (x : Vdct) : (setVdct s c x).combs = s.combs := rfl
@[simp] theorem setVdct_combNext (c : Fin 8) (x : Vdct) : (setVdct s c x).combNext = s.combNext := rfl
@[simp] theorem setVdct_localQ (c : Fin 8) (x : Vdct) : (setVdct s c x).localQ = s.localQ := rfl
@[simp] theorem setVdct_rx (c : Fin 8) (x : Vdct) : (setVdct s c x).rx = s.rx := rfl
@[simp] theorem setVdct_msgs (c : Fin 8) (x : Vdct) : (setVdct s c x).msgs = s.msgs := rfl
@[simp] theorem setVdct_jobs (c : Fin 8) (x : Vdct) : (setVdct s c x).jobs = s.jobs := rfl
@[simp] theorem setVdct_wants (c : Fin 8) (x : Vdct) : (setVdct s c x).wants = s.wants := rfl
@[simp] theorem setVdct_msgCtr (c : Fin 8) (x : Vdct) : (setVdct s c x).msgCtr = s.msgCtr := rfl
@[simp] theorem setVdct_windows (c : Fin 8) (x : Vdct) : (setVdct s c x).windows = s.windows := rfl
@[simp] theorem setVdct_neve (c : Fin 8) (x : Vdct) : (setVdct s c x).neve = s.neve := rfl
@[simp] theorem setVdct_neveHeld (c : Fin 8) (x : Vdct) : (setVdct s c x).neveHeld = s.neveHeld := rfl
@[simp] theorem setVdct_firnHeld (c : Fin 8) (x : Vdct) : (setVdct s c x).firnHeld = s.firnHeld := rfl
@[simp] theorem setVdct_denied (c : Fin 8) (x : Vdct) : (setVdct s c x).denied = s.denied := rfl
@[simp] theorem setVdct_drops (c : Fin 8) (x : Vdct) : (setVdct s c x).drops = s.drops := rfl
@[simp] theorem setVdct_copies (c : Fin 8) (x : Vdct) : (setVdct s c x).copies = s.copies := rfl
@[simp] theorem setVdct_copyNext (c : Fin 8) (x : Vdct) : (setVdct s c x).copyNext = s.copyNext := rfl
@[simp] theorem setVdct_copyExts (c : Fin 8) (x : Vdct) : (setVdct s c x).copyExts = s.copyExts := rfl
@[simp] theorem setVdct_bpm (c : Fin 8) (x : Vdct) : (setVdct s c x).bpm = s.bpm := rfl
@[simp] theorem setVdct_ecmpPtr (c : Fin 8) (x : Vdct) : (setVdct s c x).ecmpPtr = s.ecmpPtr := rfl
@[simp] theorem setVdct_polTok (c : Fin 8) (x : Vdct) : (setVdct s c x).polTok = s.polTok := rfl
@[simp] theorem setVdct_ports (c : Fin 8) (x : Vdct) : (setVdct s c x).ports = s.ports := rfl
@[simp] theorem setVdct_lanes (c : Fin 8) (x : Vdct) : (setVdct s c x).lanes = s.lanes := rfl
@[simp] theorem setVdct_split (c : Fin 8) (x : Vdct) : (setVdct s c x).split = s.split := rfl
@[simp] theorem setVdct_piers (c : Fin 8) (x : Vdct) : (setVdct s c x).piers = s.piers := rfl
@[simp] theorem setVdct_vdct (c : Fin 8) (x : Vdct) : (setVdct s c x).vdct = s.vdct.set c x := rfl
@[simp] theorem setVdct_fences (c : Fin 8) (x : Vdct) : (setVdct s c x).fences = s.fences := rfl
@[simp] theorem setVdct_holds (c : Fin 8) (x : Vdct) : (setVdct s c x).holds = s.holds := rfl
@[simp] theorem setVdct_firn (c : Fin 8) (x : Vdct) : (setVdct s c x).firn = s.firn := rfl
@[simp] theorem setVdct_firnPoison (c : Fin 8) (x : Vdct) : (setVdct s c x).firnPoison = s.firnPoison := rfl
@[simp] theorem setVdct_firnErr (c : Fin 8) (x : Vdct) : (setVdct s c x).firnErr = s.firnErr := rfl
@[simp] theorem setVdct_firnThreaded (c : Fin 8) (x : Vdct) : (setVdct s c x).firnThreaded = s.firnThreaded := rfl
@[simp] theorem setVdct_remapFrom (c : Fin 8) (x : Vdct) : (setVdct s c x).remapFrom = s.remapFrom := rfl
@[simp] theorem setVdct_frn (c : Fin 8) (x : Vdct) : (setVdct s c x).frn = s.frn := rfl
@[simp] theorem setVdct_refreshes (c : Fin 8) (x : Vdct) : (setVdct s c x).refreshes = s.refreshes := rfl
@[simp] theorem setVdct_errs (c : Fin 8) (x : Vdct) : (setVdct s c x).errs = s.errs := rfl
@[simp] theorem setVdct_mgmt (c : Fin 8) (x : Vdct) : (setVdct s c x).mgmt = s.mgmt := rfl
@[simp] theorem setVdct_sec (c : Fin 8) (x : Vdct) : (setVdct s c x).sec = s.sec := rfl
@[simp] theorem setVdct_tap (c : Fin 8) (x : Vdct) : (setVdct s c x).tap = s.tap := rfl
@[simp] theorem setVdct_freeCtr (c : Fin 8) (x : Vdct) : (setVdct s c x).freeCtr = s.freeCtr := rfl
@[simp] theorem setVdct_out (c : Fin 8) (x : Vdct) : (setVdct s c x).out = s.out := rfl

/-! ## onFab -/

@[simp] theorem onFab_pending (f : Fabric → Fabric) : (onFab s f).pending = s.pending := rfl
@[simp] theorem onFab_clk (f : Fabric → Fabric) : (onFab s f).clk = s.clk := rfl
@[simp] theorem onFab_cyc (f : Fabric → Fabric) : (onFab s f).cyc = s.cyc := rfl
@[simp] theorem onFab_cores (f : Fabric → Fabric) : (onFab s f).cores = s.cores := rfl
@[simp] theorem onFab_commitFree (f : Fabric → Fabric) : (onFab s f).commitFree = s.commitFree := rfl
@[simp] theorem onFab_ctlMem (f : Fabric → Fabric) : (onFab s f).ctlMem = s.ctlMem := rfl
@[simp] theorem onFab_progStore (f : Fabric → Fabric) : (onFab s f).progStore = s.progStore := rfl
@[simp] theorem onFab_tbl (f : Fabric → Fabric) : (onFab s f).tbl = s.tbl := rfl
@[simp] theorem onFab_fab (f : Fabric → Fabric) : (onFab s f).fab = f s.fab := rfl
@[simp] theorem onFab_slices (f : Fabric → Fabric) : (onFab s f).slices = s.slices := rfl
@[simp] theorem onFab_groups (f : Fabric → Fabric) : (onFab s f).groups = s.groups := rfl
@[simp] theorem onFab_dispatch (f : Fabric → Fabric) : (onFab s f).dispatch = s.dispatch := rfl
@[simp] theorem onFab_intake (f : Fabric → Fabric) : (onFab s f).intake = s.intake := rfl
@[simp] theorem onFab_combQ (f : Fabric → Fabric) : (onFab s f).combQ = s.combQ := rfl
@[simp] theorem onFab_combs (f : Fabric → Fabric) : (onFab s f).combs = s.combs := rfl
@[simp] theorem onFab_combNext (f : Fabric → Fabric) : (onFab s f).combNext = s.combNext := rfl
@[simp] theorem onFab_localQ (f : Fabric → Fabric) : (onFab s f).localQ = s.localQ := rfl
@[simp] theorem onFab_rx (f : Fabric → Fabric) : (onFab s f).rx = s.rx := rfl
@[simp] theorem onFab_msgs (f : Fabric → Fabric) : (onFab s f).msgs = s.msgs := rfl
@[simp] theorem onFab_jobs (f : Fabric → Fabric) : (onFab s f).jobs = s.jobs := rfl
@[simp] theorem onFab_wants (f : Fabric → Fabric) : (onFab s f).wants = s.wants := rfl
@[simp] theorem onFab_msgCtr (f : Fabric → Fabric) : (onFab s f).msgCtr = s.msgCtr := rfl
@[simp] theorem onFab_windows (f : Fabric → Fabric) : (onFab s f).windows = s.windows := rfl
@[simp] theorem onFab_neve (f : Fabric → Fabric) : (onFab s f).neve = s.neve := rfl
@[simp] theorem onFab_neveHeld (f : Fabric → Fabric) : (onFab s f).neveHeld = s.neveHeld := rfl
@[simp] theorem onFab_firnHeld (f : Fabric → Fabric) : (onFab s f).firnHeld = s.firnHeld := rfl
@[simp] theorem onFab_denied (f : Fabric → Fabric) : (onFab s f).denied = s.denied := rfl
@[simp] theorem onFab_drops (f : Fabric → Fabric) : (onFab s f).drops = s.drops := rfl
@[simp] theorem onFab_copies (f : Fabric → Fabric) : (onFab s f).copies = s.copies := rfl
@[simp] theorem onFab_copyNext (f : Fabric → Fabric) : (onFab s f).copyNext = s.copyNext := rfl
@[simp] theorem onFab_copyExts (f : Fabric → Fabric) : (onFab s f).copyExts = s.copyExts := rfl
@[simp] theorem onFab_bpm (f : Fabric → Fabric) : (onFab s f).bpm = s.bpm := rfl
@[simp] theorem onFab_ecmpPtr (f : Fabric → Fabric) : (onFab s f).ecmpPtr = s.ecmpPtr := rfl
@[simp] theorem onFab_polTok (f : Fabric → Fabric) : (onFab s f).polTok = s.polTok := rfl
@[simp] theorem onFab_ports (f : Fabric → Fabric) : (onFab s f).ports = s.ports := rfl
@[simp] theorem onFab_lanes (f : Fabric → Fabric) : (onFab s f).lanes = s.lanes := rfl
@[simp] theorem onFab_split (f : Fabric → Fabric) : (onFab s f).split = s.split := rfl
@[simp] theorem onFab_piers (f : Fabric → Fabric) : (onFab s f).piers = s.piers := rfl
@[simp] theorem onFab_vdct (f : Fabric → Fabric) : (onFab s f).vdct = s.vdct := rfl
@[simp] theorem onFab_fences (f : Fabric → Fabric) : (onFab s f).fences = s.fences := rfl
@[simp] theorem onFab_holds (f : Fabric → Fabric) : (onFab s f).holds = s.holds := rfl
@[simp] theorem onFab_firn (f : Fabric → Fabric) : (onFab s f).firn = s.firn := rfl
@[simp] theorem onFab_firnPoison (f : Fabric → Fabric) : (onFab s f).firnPoison = s.firnPoison := rfl
@[simp] theorem onFab_firnErr (f : Fabric → Fabric) : (onFab s f).firnErr = s.firnErr := rfl
@[simp] theorem onFab_firnThreaded (f : Fabric → Fabric) : (onFab s f).firnThreaded = s.firnThreaded := rfl
@[simp] theorem onFab_remapFrom (f : Fabric → Fabric) : (onFab s f).remapFrom = s.remapFrom := rfl
@[simp] theorem onFab_frn (f : Fabric → Fabric) : (onFab s f).frn = s.frn := rfl
@[simp] theorem onFab_refreshes (f : Fabric → Fabric) : (onFab s f).refreshes = s.refreshes := rfl
@[simp] theorem onFab_errs (f : Fabric → Fabric) : (onFab s f).errs = s.errs := rfl
@[simp] theorem onFab_mgmt (f : Fabric → Fabric) : (onFab s f).mgmt = s.mgmt := rfl
@[simp] theorem onFab_sec (f : Fabric → Fabric) : (onFab s f).sec = s.sec := rfl
@[simp] theorem onFab_tap (f : Fabric → Fabric) : (onFab s f).tap = s.tap := rfl
@[simp] theorem onFab_freeCtr (f : Fabric → Fabric) : (onFab s f).freeCtr = s.freeCtr := rfl
@[simp] theorem onFab_out (f : Fabric → Fabric) : (onFab s f).out = s.out := rfl

/-! ## The next PC, and a result written -/

@[simp] theorem nextPc_st (k : Core) : (nextPc k).st = k.st := rfl
@[simp] theorem nextPc_pc (k : Core) : (nextPc k).pc = k.pc + 8 := rfl
@[simp] theorem nextPc_startPc (k : Core) : (nextPc k).startPc = k.startPc := rfl
@[simp] theorem nextPc_cause (k : Core) : (nextPc k).cause = k.cause := rfl
@[simp] theorem nextPc_regs (k : Core) : (nextPc k).regs = k.regs := rfl
@[simp] theorem nextPc_mbx (k : Core) : (nextPc k).mbx = k.mbx := rfl
@[simp] theorem nextPc_heldFrames (k : Core) : (nextPc k).heldFrames = k.heldFrames := rfl
@[simp] theorem nextPc_cmp (k : Core) : (nextPc k).cmp = k.cmp := rfl
@[simp] theorem nextPc_timer (k : Core) : (nextPc k).timer = k.timer := rfl
@[simp] theorem nextPc_faultLatch (k : Core) : (nextPc k).faultLatch = k.faultLatch := rfl
@[simp] theorem nextPc_waitFor (k : Core) : (nextPc k).waitFor = k.waitFor := rfl
@[simp] theorem nextPc_committing (k : Core) : (nextPc k).committing = k.committing := rfl
@[simp] theorem nextPc_stopAfter (k : Core) : (nextPc k).stopAfter = k.stopAfter := rfl
@[simp] theorem nextPc_stage (k : Core) : (nextPc k).stage = k.stage := rfl
@[simp] theorem nextPc_localMem (k : Core) : (nextPc k).localMem = k.localMem := rfl
@[simp] theorem writeReg_st (k : Core) (d : BitVec 6) (v : Word) : (writeReg k d v).st = k.st := by
  unfold writeReg; split <;> rfl
@[simp] theorem writeReg_pc (k : Core) (d : BitVec 6) (v : Word) : (writeReg k d v).pc = k.pc := by
  unfold writeReg; split <;> rfl
@[simp] theorem writeReg_startPc (k : Core) (d : BitVec 6) (v : Word) : (writeReg k d v).startPc = k.startPc := by
  unfold writeReg; split <;> rfl
@[simp] theorem writeReg_cause (k : Core) (d : BitVec 6) (v : Word) : (writeReg k d v).cause = k.cause := by
  unfold writeReg; split <;> rfl
@[simp] theorem writeReg_mbx (k : Core) (d : BitVec 6) (v : Word) : (writeReg k d v).mbx = k.mbx := by
  unfold writeReg; split <;> rfl
@[simp] theorem writeReg_heldFrames (k : Core) (d : BitVec 6) (v : Word) : (writeReg k d v).heldFrames = k.heldFrames := by
  unfold writeReg; split <;> rfl
@[simp] theorem writeReg_cmp (k : Core) (d : BitVec 6) (v : Word) : (writeReg k d v).cmp = k.cmp := by
  unfold writeReg; split <;> rfl
@[simp] theorem writeReg_timer (k : Core) (d : BitVec 6) (v : Word) : (writeReg k d v).timer = k.timer := by
  unfold writeReg; split <;> rfl
@[simp] theorem writeReg_faultLatch (k : Core) (d : BitVec 6) (v : Word) : (writeReg k d v).faultLatch = k.faultLatch := by
  unfold writeReg; split <;> rfl
@[simp] theorem writeReg_waitFor (k : Core) (d : BitVec 6) (v : Word) : (writeReg k d v).waitFor = k.waitFor := by
  unfold writeReg; split <;> rfl
@[simp] theorem writeReg_committing (k : Core) (d : BitVec 6) (v : Word) : (writeReg k d v).committing = k.committing := by
  unfold writeReg; split <;> rfl
@[simp] theorem writeReg_stopAfter (k : Core) (d : BitVec 6) (v : Word) : (writeReg k d v).stopAfter = k.stopAfter := by
  unfold writeReg; split <;> rfl
@[simp] theorem writeReg_stage (k : Core) (d : BitVec 6) (v : Word) : (writeReg k d v).stage = k.stage := by
  unfold writeReg; split <;> rfl
@[simp] theorem writeReg_localMem (k : Core) (d : BitVec 6) (v : Word) : (writeReg k d v).localMem = k.localMem := by
  unfold writeReg; split <;> rfl

/-! ## Parts by number -/

@[simp] theorem getCore_setCore (c : CoreNo) (x : Core) : getCore (setCore s c x) c = x := by simp [getCore, setCore]
theorem getCore_setCore_ne (c c' : CoreNo) (x : Core) (h : c' ≠ c) : getCore (setCore s c x) c' = getCore s c' := by
  have h' : c.val ≠ c'.val := fun e => h (Fin.ext e.symm)
  simp [getCore, setCore, h']
@[simp] theorem getSlice_setSlice (c : SliceNo) (x : Slice) : getSlice (setSlice s c x) c = x := by simp [getSlice, setSlice]
theorem getSlice_setSlice_ne (c c' : SliceNo) (x : Slice) (h : c' ≠ c) : getSlice (setSlice s c x) c' = getSlice s c' := by
  have h' : c.val ≠ c'.val := fun e => h (Fin.ext e.symm)
  simp [getSlice, setSlice, h']
@[simp] theorem getStack_setStack (c : Fin 4) (x : Stack) : getStack (setStack s c x) c = x := by simp [getStack, setStack]
theorem getStack_setStack_ne (c c' : Fin 4) (x : Stack) (h : c' ≠ c) : getStack (setStack s c x) c' = getStack s c' := by
  have h' : c.val ≠ c'.val := fun e => h (Fin.ext e.symm)
  simp [getStack, setStack, h']
@[simp] theorem getMgmt_setMgmt (c : Fin 2) (x : Mgmt) : getMgmt (setMgmt s c x) c = x := by simp [getMgmt, setMgmt]
theorem getMgmt_setMgmt_ne (c c' : Fin 2) (x : Mgmt) (h : c' ≠ c) : getMgmt (setMgmt s c x) c' = getMgmt s c' := by
  have h' : c.val ≠ c'.val := fun e => h (Fin.ext e.symm)
  simp [getMgmt, setMgmt, h']

end Sys2Proof.Machine
end

