-- ==== Sys2Proof/Laws/Ops.lean ====
section
/-! SUPPORT. What the shared operations do: parts of the state read after a write, the registers of a core, and the
issue of a core's instruction. -/

namespace Sys2Proof.Machine

/-! ## Parts of the state -/

/-- A sparse table read after a write, its keys in order. -/
theorem tget_tput_of_sorted {α : Type} [DecidableEq α] (d : α) (m : SMap α) (key : Nat) (x : α) (j : Nat)
    (hs : tsorted none m = true) : tget d (tput d m key x) j = if j = key then x else tget d m j := by
  unfold tput
  split
  · next h => subst h; exact tget_terase x m key j hs
  · exact tget_tinsert d m key x j

/-- A write keeps the keys in order. -/
theorem tsorted_tput {α : Type} [DecidableEq α] (d : α) (m : SMap α) (key : Nat) (x : α) (hs : tsorted none m = true) :
    tsorted none (tput d m key x) = true := by
  unfold tput
  split
  · exact tsorted_terase m key hs
  · exact tsorted_tinsert m key x hs

theorem getPort_setPort (s : State) (p q : Nat) (x : Port) (h : tsorted none s.ports = true) :
    getPort (setPort s p x) q = if q = p then x else getPort s q := tget_tput_of_sorted _ _ _ _ _ h

theorem getLane_setLane (s : State) (p q : Nat) (x : Lane) (h : tsorted none s.lanes = true) :
    getLane (setLane s p x) q = if q = p then x else getLane s q := tget_tput_of_sorted _ _ _ _ _ h

theorem getGroup_setGroup (s : State) (p q : Nat) (x : Group) (h : tsorted none s.groups = true) :
    getGroup (setGroup s p x) q = if q = p then x else getGroup s q := tget_tput_of_sorted _ _ _ _ _ h

/-! ## The registers of a core (R279) -/

@[simp] theorem readReg_zero (k : Core) : readReg k 0#6 = 0#64 := rfl

@[simp] theorem writeReg_zero (k : Core) (v : Word) : writeReg k 0#6 v = k := rfl

theorem readReg_writeReg (k : Core) (d r : BitVec 6) (v : Word) (hd : okReg d = true) (hr : okReg r = true) :
    readReg (writeReg k d v) r = if r = d ∧ d ≠ 0 then v else readReg k r := by
  simp only [okReg, decide_eq_true_eq] at hd hr
  by_cases h0 : d = 0
  · subst h0; simp
  have hd0 : d.toNat ≠ 0 := fun e => h0 (by apply BitVec.eq_of_toNat_eq; simpa using e)
  simp only [readReg, writeReg, hd0, if_false, h0, ne_eq, not_false_eq_true, and_true]
  by_cases e : r = d
  · subst e; simp [hd0, Vector.getD, hr]
  · have : d.toNat ≠ r.toNat := fun x => e (BitVec.eq_of_toNat_eq x.symm)
    simp only [e, if_false]
    by_cases z : r.toNat = 0
    · simp [z]
    · simp [z, Vector.getD, hr, this]

/-- A register write changes nothing of a core but its registers. -/
theorem writeReg_eq (k : Core) (d : BitVec 6) (v : Word) : writeReg k d v = { k with regs := (writeReg k d v).regs } := by
  unfold writeReg; split <;> rfl

/-- A core reads back the register that `retire` writes; every other register, and every other part of the core but its
PC, stays. -/
theorem getCore_retire (s : State) (c : CoreNo) (d : BitVec 6) (v : Word) :
    getCore (retire s c d v) c = nextPc (writeReg (getCore s c) d v) := by simp [retire]

theorem otherCores_setCore (s : State) (c : CoreNo) (k : Core) : otherCores s (setCore s c k) c :=
  fun c' h => getCore_setCore_ne s c c' k h

theorem onlyCores_setCore (s : State) (c : CoreNo) (k : Core) : onlyCores s (setCore s c k) := rfl

/-! ## The issue of a core's instruction -/

/-- A core that is ready executes a legal instruction. -/
theorem coreInstr_ready {s : State} {c : CoreNo} (h : coreReady s c) (k : State → State) :
    coreInstr s c true k = .next (k s) := by
  obtain ⟨h1, h2, h3, h4, h5⟩ := h
  simp [coreInstr, h1, h2, h3, h4, h5]

/-- A core that is ready and meets an illegal encoding takes ILLEGAL. -/
theorem coreInstr_illegal {s : State} {c : CoreNo} (h : coreReady s c) (k : State → State) :
    coreInstr s c false k = .next (takeExc s c .illegal (getCore s c).pc) := by
  obtain ⟨h1, h2, h3, h4, h5⟩ := h
  simp [coreInstr, h1, h2, h3, h4, h5]

/-- A core's instruction answers a next state: the state as it was, an exception, or the instruction's effect. -/
theorem coreInstr_cases (s : State) (c : CoreNo) (legal : Bool) (k : State → State) :
    coreInstr s c legal k = .next s ∨ (∃ x, coreInstr s c legal k = .next (takeExc s c x (getCore s c).pc)) ∨
      ((getCore s c).st = .running ∧ (getCore s c).committing = none ∧ legal = true ∧ coreInstr s c legal k = .next (k s)) := by
  unfold coreInstr
  split
  · next h =>
    simp only [Bool.and_eq_true, beq_iff_eq, Option.isNone_iff_eq_none] at h
    split
    · exact .inr (.inl ⟨_, rfl⟩)
    · split
      · exact .inr (.inl ⟨_, rfl⟩)
      · next hl => exact .inr (.inr ⟨h.1.1.2, h.1.2, by simpa using hl, rfl⟩)
  · exact .inl rfl

/-! ## Bits -/

theorem bitOf_eq_testBit {n : Nat} (w : BitVec n) (i : Nat) : bitOf w i = w.toNat.testBit i := by
  simp only [bitOf, fld, Nat.testBit, pow_one]
  rcases Nat.mod_two_eq_zero_or_one (w.toNat >>> i) with h | h <;>
    simp [h, Nat.one_and_eq_mod_two]

theorem bitOf_eq_getLsbD {n : Nat} (w : BitVec n) (i : Nat) : bitOf w i = w.getLsbD i := by
  rw [bitOf_eq_testBit]; rfl

/-! ## Fault events (R417-R420) -/

theorem onlyFaultRecords_refl (s : State) : onlyFaultRecords s s := rfl

theorem onlyFaultRecords_trans {s t u : State} (h : onlyFaultRecords s t) (k : onlyFaultRecords t u) : onlyFaultRecords s u := by
  unfold onlyFaultRecords at *
  rw [h] at k
  exact k

theorem msixPort_only (s : State) (m : Fin 2) (v : Nat) : onlyFaultRecords s (msixPort s m v) := by
  simp only [msixPort]
  split
  · rfl
  · split <;> rfl

theorem callVector_only (s : State) (v : Nat) : onlyFaultRecords s (callVector s v) := by
  unfold callVector
  split
  · rfl
  · generalize hr : ({ s with cyc := _ } : State) = r
    have h0 : onlyFaultRecords s r := by rw [← hr]; rfl
    exact onlyFaultRecords_trans h0 (onlyFaultRecords_trans (onlyFaultRecords_trans (msixPort_only r 0 v) (msixPort_only _ 1 v)) rfl)

/-- A fault event changes nothing but the fault records, the MSI-X messages, the cores' latches, the record of the cycle and
that of the outside. -/
theorem recordEvt_only (s : State) (v bit : Nat) (info : Word) : onlyFaultRecords s (recordEvt s v bit info) := by
  unfold recordEvt
  split
  · rfl
  · simp only
    split
    · refine onlyFaultRecords_trans ?_ (callVector_only _ v)
      split <;> rfl
    · split <;> rfl

/-- What a fault event does to a core's parts but the FAULT latch: nothing. -/
theorem getCore_callVector (s : State) (v : Nat) (c : CoreNo) :
    getCore (callVector s v) c = { getCore s c with faultLatch := (getCore (callVector s v) c).faultLatch } := by
  have hm : ∀ (t : State) (m : Fin 2) (w : Nat), getCore (msixPort t m w) c = getCore t c := by
    intro t m w
    simp only [msixPort]
    split
    · rfl
    · split <;> rfl
  unfold callVector
  split
  · rfl
  · have : ∀ t : State, getCore (faultLatches t) c = { getCore t c with faultLatch := true } := by
      intro t; simp [faultLatches, getCore]
    rw [this]
    simp only [msixBoth, hm]
    rfl

/-- A fault event leaves a core as it was but for its FAULT latch. -/
theorem getCore_recordEvt (s : State) (v bit : Nat) (info : Word) (c : CoreNo) :
    getCore (recordEvt s v bit info) c = { getCore s c with faultLatch := (getCore (recordEvt s v bit info) c).faultLatch } := by
  unfold recordEvt
  split
  · rfl
  · simp only
    split <;> split <;> first | rfl | (rw [getCore_callVector]; rfl)

/-- A block whose domain is on, and that the grade has, records an event in its STATUS, and its INFO is that of the event of
highest rank in the cycle (R419). -/
theorem getErr_recordEvt (s : State) (v bit : Nat) (info : Word) (hr : vecRemoved s v = false)
    (hd : pdOn s (vecDomain v) = true) (hb : bit < 64) :
    (getErr (recordEvt s v bit info) v).status = (getErr s v).status ||| (1#64 <<< bit) ∧
      (getErr (recordEvt s v bit info) v).mask = (getErr s v).mask ∧
      (getErr (recordEvt s v bit info) v).info =
        if tget 0 s.cyc.infos v = 0 ∨ evtRank v bit info < tget 0 s.cyc.infos v then info else (getErr s v).info := by
  generalize hw : (if tget 0 s.cyc.infos v = 0 ∨ evtRank v bit info < tget 0 s.cyc.infos v then info else (getErr s v).info) = w
  have hne : ({ (getErr s v) with status := (getErr s v).status ||| (1#64 <<< bit), info := w } : ErrBlk) ≠ errReset v := by
    intro e
    have := congrArg (fun x : ErrBlk => x.status.getLsbD bit) e
    simp [errReset, hb] at this
  have hs : ∀ t : State, t.errs = (setErr s v { (getErr s v) with
      status := (getErr s v).status ||| (1#64 <<< bit), info := w }).errs → getErr t v =
      { (getErr s v) with status := (getErr s v).status ||| (1#64 <<< bit), info := w } := by
    intro t ht
    rw [getErr, ht]
    simp only [setErr, tput, hne, if_false]
    rw [tget_tinsert]; simp
  have hc : ∀ (t : State), (callVector t v).errs = t.errs := by
    intro t
    have hm : ∀ (t : State) (m : Fin 2) (w : Nat), (msixPort t m w).errs = t.errs := by
      intro t m w
      simp only [msixPort]
      split
      · rfl
      · split <;> rfl
    unfold callVector
    split
    · rfl
    · simp only [faultLatches, msixBoth, hm]
  have hi : (if (tget 0 s.cyc.infos v == 0 || decide (evtRank v bit info + 1 ≤ tget 0 s.cyc.infos v)) = true then info
      else (getErr s v).info) = w := by
    rw [← hw]; simp
  have : getErr (recordEvt s v bit info) v =
      { (getErr s v) with status := (getErr s v).status ||| (1#64 <<< bit), info := w } := by
    apply hs
    simp only [recordEvt, hr, hd, Bool.not_true, Bool.or_self, if_false, Bool.false_eq_true, hi]
    split <;> split <;> simp [hc]
  rw [this]; exact ⟨rfl, rfl, rfl⟩

theorem bitOf_getErr_recordEvt (s : State) (v bit : Nat) (info : Word) (hr : vecRemoved s v = false)
    (hd : pdOn s (vecDomain v) = true) (hb : bit < 64) :
    bitOf (getErr (recordEvt s v bit info) v).status bit = true := by
  rw [(getErr_recordEvt s v bit info hr hd hb).1, bitOf_eq_getLsbD]
  simp [hb]

/-! ## Places in a cycle (R9, R10, R256) -/

theorem onlyCycle_trans {s t u : State} (h : onlyCycle s t) (k : onlyCycle t u) : onlyCycle s u := by
  unfold onlyCycle at *
  rw [h] at k
  exact k

theorem onlyCycle_of_faults {s t : State} (h : onlyFaultRecords s t) : onlyCycle s t := by
  unfold onlyFaultRecords at h
  unfold onlyCycle
  rw [h]

theorem firnEvt_only (s : State) (bit a beat symbol req : Nat) : onlyCycle s (firnEvt s bit a beat symbol req) :=
  onlyCycle_of_faults (recordEvt_only _ _ _ _)

/-- An update of Firn, its poison and its errors alone. -/
theorem onlyCycle_firn (s : State) (f : Memory) (p : SMap Bool) (e : SMap MemFault) :
    onlyCycle s { s with firn := f, firnPoison := p, firnErr := e } := rfl

theorem memWriteLine_only (s : State) (la : Nat) (m : BitVec 256) (d : BitVec 2048) : onlyCycle s (memWriteLine s la m d) :=
  onlyCycle_firn s _ _ _

theorem poisonRange_only (s : State) (a n : Nat) : onlyCycle s (poisonRange s a n) := onlyCycle_firn s s.firn _ s.firnErr

theorem noteFetch_only (s : State) (la req : Nat) : onlyCycle s (noteFetch s la req) := by
  unfold noteFetch
  simp only
  split
  · exact onlyCycle_firn s s.firn s.firnPoison s.firnErr
  · exact firnEvt_only _ _ _ _ _ _

theorem noteErr_only (s : State) (la : Nat) (f : MemFault) : onlyCycle s (noteErr s la f) := rfl

theorem setStack_only (s : State) (k : Fin 4) (x : Stack) : onlyCycle s (setStack s k x) := rfl

theorem firnCorr_only (s : State) (a beat symbol req k : Nat) : onlyCycle s (firnCorr s a beat symbol req k) :=
  onlyCycle_trans (setStack_only _ _ _) (firnEvt_only _ _ _ _ _ _)

theorem firnUncorr_only (s : State) (a beat req : Nat) : onlyCycle s (firnUncorr s a beat req) :=
  onlyCycle_trans (setStack_only _ _ _) (firnEvt_only _ _ _ _ _ _)

/-- A fetch changes nothing but what its events and the code's verdict leave. -/
theorem fetchBurst_only (s : State) (la req : Nat) (f : MemFault) : onlyCycle s (fetchBurst s la req f).2.2 := by
  unfold fetchBurst
  have h := noteFetch_only s la req
  simp only
  split
  · exact onlyCycle_trans h (onlyCycle_trans (t := (freshWord (noteErr (noteFetch s la req) la .corrected)).2) rfl (firnCorr_only _ _ _ _ _ _))
  · exact onlyCycle_trans h (onlyCycle_trans (t := (freshWord (noteErr (noteFetch s la req) la .uncorrectable)).2) rfl (firnUncorr_only _ _ _ _))
  · exact h

theorem writeBurst_only (s : State) (la : Nat) (m : BitVec 256) (d : BitVec 2048) (req : Nat) (f : MemFault) :
    onlyCycle s (writeBurst s la m d req f) := by
  unfold writeBurst
  split
  · exact memWriteLine_only _ _ _ _
  · simp only
    have h := fetchBurst_only s la req f
    split
    · exact onlyCycle_trans h (onlyCycle_trans (memWriteLine_only _ _ _ _) (poisonRange_only _ _ _))
    · exact onlyCycle_trans h (onlyCycle_trans (memWriteLine_only _ _ _ _) (noteErr_only _ _ _))

theorem storeLine_only (s : State) (l : Line) (req : Nat) (f : MemFault) : onlyCycle s (storeLine s l req f) := by
  unfold storeLine
  split
  · rfl
  · split
    · simp only
      split
      · exact memWriteLine_only _ _ _ _
      · exact onlyCycle_trans (memWriteLine_only _ _ _ _) (poisonRange_only _ _ _)
    · exact writeBurst_only _ _ _ _ _ _

theorem putSet_only (s : State) (la : Nat) (ls : List Line) : onlyCycle s (putSet s la ls) := rfl

theorem pushLine_only (s : State) (la : Nat) (l : Line) (req : Nat) : onlyCycle s (pushLine s la l req) := by
  unfold pushLine evict
  simp only
  split
  · exact putSet_only _ _ _
  · split
    · exact putSet_only _ _ _
    · exact onlyCycle_trans (storeLine_only _ _ _ _) (onlyCycle_trans (putSet_only _ _ _) (putSet_only _ _ _))

theorem writeLine_only (s : State) (la : Nat) (m : BitVec 256) (d : BitVec 2048) (h : Hint) (req : Nat) :
    onlyCycle s (writeLine s la m d h req) := by
  unfold writeLine
  split
  · cases h
    · exact putSet_only _ _ _
    · exact onlyCycle_trans (storeLine_only _ _ _ _) (putSet_only _ _ _)
    · exact onlyCycle_trans (storeLine_only _ _ _ _) (putSet_only _ _ _)
  · cases h
    · exact pushLine_only _ _ _ _
    · exact writeBurst_only _ _ _ _ _ _
    · exact writeBurst_only _ _ _ _ _ _

theorem firnWrite_only (h : Hint) (req n : Nat) : ∀ (s : State) (a : Nat) (bs : List Byte), onlyCycle s (firnWrite s a bs h req n) := by
  induction n with
  | zero => intro s a bs; rfl
  | succ n ih =>
    intro s a bs
    unfold firnWrite
    split
    · rfl
    · exact onlyCycle_trans (writeLine_only _ _ _ _ _ _) (ih _ _ _)

theorem cacheFault_only (s : State) (la req : Nat) (f : MemFault) : onlyCycle s (cacheFault s la req f) := by
  unfold cacheFault
  split
  · exact firnEvt_only _ _ _ _ _ _
  · simp only
    split
    · exact onlyCycle_trans (putSet_only _ _ _) (firnEvt_only _ _ _ _ _ _)
    · exact onlyCycle_trans (onlyCycle_trans (storeLine_only _ _ _ _) (poisonRange_only _ _ _))
        (onlyCycle_trans (putSet_only _ _ _) (firnEvt_only _ _ _ _ _ _))
  · rfl

/-- A read of a line changes nothing but the cache, what an eviction stores, and what its events leave. -/
theorem readLine_only (s : State) (la : Nat) (m : BitVec 256) (h : Hint) (req : Nat) (f : MemFault) :
    onlyCycle s (readLine s la m h req f).2.2 := by
  unfold readLine
  have c := cacheFault_only s la req f
  simp only
  split
  · split
    · cases h
      · exact onlyCycle_trans c (putSet_only _ _ _)
      · exact c
      · exact onlyCycle_trans c (onlyCycle_trans (storeLine_only _ _ _ _) (putSet_only _ _ _))
    · have b := onlyCycle_trans c (fetchBurst_only (cacheFault s la req f) la req f)
      cases h
      · exact onlyCycle_trans b (putSet_only _ _ _)
      · exact onlyCycle_trans b (putSet_only _ _ _)
      · exact onlyCycle_trans b (onlyCycle_trans (storeLine_only _ _ _ _) (putSet_only _ _ _))
  · have b := onlyCycle_trans c (fetchBurst_only (cacheFault s la req f) la req f)
    cases h
    · exact onlyCycle_trans b (pushLine_only _ _ _ _)
    · exact b
    · exact b

theorem firnReadF_only (h : Hint) (req n : Nat) :
    ∀ (s : State) (a k : Nat) (f : MemFault), onlyCycle s (firnReadF s a k h req f n).2.2 := by
  induction n with
  | zero => intro s a k f; rfl
  | succ n ih =>
    intro s a k f
    unfold firnReadF
    split
    · rfl
    · exact onlyCycle_trans (readLine_only _ _ _ _ _ _) (ih _ _ _ _)

theorem pushExt_only (s : State) (x : Nat) : onlyCycle s (pushExt s x) :=
  onlyCycle_trans (firnWrite_only _ _ _ _ _ _) rfl

/-- A step that keeps a relation keeps it along a list. -/
theorem foldl_only {α : Type} (f : State → α → State) (hf : ∀ s x, onlyCycle s (f s x)) :
    ∀ (xs : List α) (s : State), onlyCycle s (xs.foldl f s)
  | [], _ => rfl
  | x :: xs, s => onlyCycle_trans (hf s x) (foldl_only f hf xs (f s x))

/-- What a slice reads in Firn for an accumulator or Moraine entries changes nothing else. -/
theorem firnMeets_only (s : State) (sl : SliceNo) (rs : List (Hint × Nat × Nat)) : onlyCycle s (firnMeets s sl rs).2 := by
  have h : ∀ (rs : List (Hint × Nat × Nat)) (bt : Bool × State), onlyCycle bt.2 (rs.foldl (fun bt r =>
      let x := firnRead bt.2 r.2.1 r.2.2 r.1 (seracReq sl) (linesOf r.2.2)
      (bt.1 || x.2.1, x.2.2)) bt).2 := by
    intro rs
    induction rs with
    | nil => intro bt; rfl
    | cons r rs ih => intro bt; exact onlyCycle_trans (firnReadF_only _ _ _ _ _ _ _) (ih _)
  exact h rs (false, s)

/-- What it writes there changes nothing else. -/
theorem firnKeeps_only (s : State) (sl : SliceNo) (rs : List (Hint × Nat × Nat)) : onlyCycle s (firnKeeps s sl rs) := by
  refine foldl_only _ (fun t r => ?_) rs s
  exact onlyCycle_trans (t := (freeBytes t r.2.2).2) rfl (firnWrite_only _ _ _ _ _ _)

theorem joinFreed_only (s : State) : onlyCycle s (joinFreed s) := by
  unfold joinFreed
  refine onlyCycle_trans (foldl_only _ (fun u xq => ?_) s.cyc.freedExts s) rfl
  split
  · rfl
  · exact pushExt_only _ _

theorem countWaits_only (s : State) : onlyCycle s (countWaits s) :=
  foldl_only (fun t (w : Want) => countDenied t (askRefused s w.ask)) (fun _ _ => rfl) _ s

/-- The end of a cycle reaches nothing but the count, the record of the cycle, the timers that are due, the free lists and the
refusals of waiting work. -/
theorem nextCycle_only (s : State) : onlyCycle s (nextCycle s) := by
  have h : onlyCycle s (joinFreed (if isRunning s then countWaits s else s)) := by
    split
    · exact onlyCycle_trans (countWaits_only s) (joinFreed_only _)
    · exact joinFreed_only s
  unfold nextCycle
  generalize joinFreed (if isRunning s then countWaits s else s) = x at h ⊢
  refine onlyCycle_trans h ?_
  unfold onlyCycle
  simp only
  split <;> rfl

/-- What a command's place in the cycle can change. -/
theorem atPlace_only (p : Nat) (s : State) : onlyCycle s (atPlace p s) := by
  unfold atPlace
  simp only
  split
  · exact onlyCycle_trans (nextCycle_only s) rfl
  · rfl

theorem afterPlace_only (p : Nat) (s : State) : onlyCycle s (afterPlace p s) := by
  unfold afterPlace
  simp only
  split
  · exact onlyCycle_trans (nextCycle_only s) rfl
  · rfl

theorem laterCycle_only (s : State) : onlyCycle s (laterCycle s) := onlyCycle_trans (nextCycle_only s) rfl

/-- While the cycle has not gone beyond its place, a command falls in the cycle in progress. -/
theorem atPlace_early (p : Nat) (s : State) (h : s.cyc.place ≤ p) :
    atPlace p s = { s with cyc := { s.cyc with place := p } } := by
  simp [atPlace, Nat.not_lt.mpr h, Nat.max_eq_left h]

/-- What a table holds at a key is the unlisted value or the value of an entry. -/
theorem tget_mem_or {α : Type} (d : α) (m : SMap α) (k : Nat) : tget d m k = d ∨ ∃ kv ∈ m, tget d m k = kv.2 := by
  induction m with
  | nil => exact .inl rfl
  | cons kv rest ih =>
    obtain ⟨j, x⟩ := kv
    simp only [tget]
    split
    · exact .inr ⟨(j, x), by simp, rfl⟩
    · split
      · exact .inl rfl
      · exact ih.imp id fun ⟨y, hy, h⟩ => ⟨y, by simp [hy], h⟩

/-- The form of a table whose unlisted entries depend on their key, as a test. -/
def keyedB {α : Type} [DecidableEq α] (d : Nat → α) (m : SMap α) : Bool := tsorted none m && m.all (fun kv => decide (kv.2 ≠ d kv.1))

/-- The form of a group's tables, as a test over the entries that are listed. -/
def groupB (g : Group) : Bool := twf none g.rings && twf {} g.steps && g.steps.all (fun ks => twf {} ks.2.chunks)

/-- The form of the committed tables, as a test. -/
def tablesB (t : Tables) : Bool :=
  twf 0 t.gidx && (twf descZero t.desc && (twf 0 t.member && (twf 0 t.bucket && (twf 0 t.homes && (twf (0, 0) t.gcnt &&
  (twf windowReset t.window && (twf 0 t.route && (twf 0 t.ecmp && (keyedB quotaReset t.quota && (twf policerReset t.policer &&
  (twf gateReset t.gate && (twf 0 t.prog && (twf 0 t.remap && twf false t.poison)))))))))))))

/-- The form of the tables of the state itself, as a test. -/
def topB (s : State) : Bool :=
  twf {} s.ports && (twf {} s.lanes && (twf {} s.groups && (twf none s.combs && (twf 0 s.msgCtr && (twf windowClear s.windows &&
  (twf none s.neve && (twf 0 s.neveHeld && (twf 0 s.firnHeld && (twf 0 s.denied && (twf 0 s.drops && (twf none s.copies &&
  (twf 0 s.ecmpPtr && (twf (0, 0, 0) s.polTok && (twf 0 s.split && (twf {} s.piers && (twf false s.fences &&
  (twf false s.firnPoison && (twf .none s.firnErr && (twf none s.remapFrom && (twf {} s.refreshes && (keyedB errReset s.errs &&
  twf false s.clk.prefOff)))))))))))))))))))))

/-- The form of the free lists, the record of the cycle, and the parts that exist several times, as a test. -/
def partsB (s : State) : Bool :=
  (twf [] s.bpm.freed && (twf 0 s.bpm.fresh && (twf none s.bpm.links && (twf false s.bpm.extAlloc && twf false s.bpm.retired)))) &&
  ((twf none s.cyc.wasOff && (twf none s.cyc.lost && (twf false s.cyc.switched && (twf 0 s.cyc.infos && (twf false s.cyc.calls &&
    twf 0 s.cyc.outs))))) &&
  (s.slices.toList.all (fun x => twf 0 x.v && (twf 0 x.p && (twf none x.run.emitted && twf none x.run.scales))) &&
  (s.mgmt.toList.all (fun g => twf 0 g.msix.addr && (twf 0 g.msix.data && (twf false g.msix.unmasked && twf false g.msix.pending))) &&
  s.frn.toList.all (fun x => twf [] x.cache))))

/-- The form of every table that `State.sorted` speaks of, as a test over the entries that are listed. -/
def sortedB (s : State) : Bool := topB s && tablesB s.tbl && partsB s && s.groups.all (fun kg => groupB kg.2)

theorem keyedWf_of_keyedB {α : Type} [DecidableEq α] (d : Nat → α) (m : SMap α) (h : keyedB d m = true) : keyedWf d m := by
  simpa [keyedB, keyedWf] using h

/-- A group that passes the test has its tables in form. -/
theorem groupWf_of_groupB (g : Group) (h : groupB g = true) : groupWf g := by
  simp only [groupB, Bool.and_eq_true, List.all_eq_true] at h
  refine ⟨h.1.1, h.1.2, fun st => ?_⟩
  obtain hd | ⟨ks, hk, he⟩ := tget_mem_or ({} : StepRec) g.steps st
  · have : getStep g st = {} := hd
    rw [this]; rfl
  · have : getStep g st = ks.2 := he
    rw [this]; exact h.2 ks hk

/-- A state that passes the test over its listed entries has its tables in form. -/
theorem sorted_of_sortedB (s : State) (h : sortedB s = true) : s.sorted := by
  simp only [sortedB, Bool.and_eq_true, List.all_eq_true] at h
  obtain ⟨⟨⟨ht, hb⟩, hp⟩, hg⟩ := h
  simp only [topB, Bool.and_eq_true] at ht
  simp only [tablesB, Bool.and_eq_true] at hb
  simp only [partsB, Bool.and_eq_true, List.all_eq_true, Vector.mem_toList_iff] at hp
  obtain ⟨t1, t2, t3, t4, t5, t6, t7, t8, t9, t10, t11, t12, t13, t14, t15, t16, t17, t18, t19, t20, t21, t22, t23⟩ := ht
  obtain ⟨b1, b2, b3, b4, b5, b6, b7, b8, b9, b10, b11⟩ := hb
  obtain ⟨hf, hc, hs, hm, hk⟩ := hp
  refine ⟨⟨t1, t2, t3, t4, t5, t6, t7, t8, t9, t10, t11, t12, t13, t14, t15, t16, t17, t18, t19, t20, t21,
      keyedWf_of_keyedB _ _ t22, t23⟩,
    ⟨b1, b2, b3, b4, b5, b6, b7, b8, b9, keyedWf_of_keyedB _ _ b10, b11⟩, hf, hc, fun slot => ?_,
    fun sl => hs _ (Vector.getElem_mem sl.isLt), fun m => hm _ (Vector.getElem_mem m.isLt), fun k => hk _ (Vector.getElem_mem k.isLt)⟩
  obtain hd | ⟨kg, hk, he⟩ := tget_mem_or ({} : Group) s.groups slot
  · have : getGroup s slot = {} := hd
    rw [this]; exact groupWf_of_groupB _ (by decide)
  · have : getGroup s slot = kg.2 := he
    rw [this]; exact groupWf_of_groupB _ (hg kg hk)

end Sys2Proof.Machine
end

