-- ==== Sys2Proof/Laws/PerInstr.lean ====
section
/-! SUPPORT. The per-instruction family: a well-formed command names registers of the machine only (R287). -/

namespace Sys2Proof.Laws.Registers

/-- Every general-register field of a well-formed command is at most 31. -/
def Statement (i : Instr) : Prop := i.wellFormed = true → ∀ r ∈ i.regs, r.toNat < 32

/-- The family holds of every command, as the first check of `Instr.flaw` refuses the others. -/
theorem holds (i : Instr) : Statement i := by
  intro h r hr
  unfold Instr.wellFormed Instr.flaw at h
  by_cases hall : (i.regs.all fun r => decide (r.toNat < 32)) = true
  · exact of_decide_eq_true (List.all_eq_true.mp hall r hr)
  · simp [hall] at h

theorem frameReceive : ∀ x0 x1 x2 x3 x4, Statement (.frameReceive x0 x1 x2 x3 x4) := by intros; exact holds _
theorem contribDispatch : ∀ x0, Statement (.contribDispatch x0) := by intros; exact holds _
theorem intakeAccept : ∀ x0 x1, Statement (.intakeAccept x0 x1) := by intros; exact holds _
theorem seracContribProcess : ∀ x0 x1, Statement (.seracContribProcess x0 x1) := by intros; exact holds _
theorem finRun : ∀ x0 x1, Statement (.finRun x0 x1) := by intros; exact holds _
theorem resultBuild : ∀ x0 x1, Statement (.resultBuild x0 x1) := by intros; exact holds _
theorem recordSend : ∀ x0 x1 x2, Statement (.recordSend x0 x1 x2) := by intros; exact holds _
theorem messageSend : ∀ x0, Statement (.messageSend x0) := by intros; exact holds _
theorem deadlineExpiry : ∀ x0 x1, Statement (.deadlineExpiry x0 x1) := by intros; exact holds _
theorem chunkCloseAtExpiry : ∀ x0 x1, Statement (.chunkCloseAtExpiry x0 x1) := by intros; exact holds _
theorem grpAbort : ∀ x0, Statement (.grpAbort x0) := by intros; exact holds _
theorem ackReceive : Statement .ackReceive := holds _
theorem nackReceive : ∀ x0, Statement (.nackReceive x0) := by intros; exact holds _
theorem busyReceive : Statement .busyReceive := holds _
theorem lateReceive : Statement .lateReceive := holds _
theorem noticeReceive : Statement .noticeReceive := holds _
theorem resendTimeout : ∀ x0 x1 x2, Statement (.resendTimeout x0 x1 x2) := by intros; exact holds _
theorem barrierArrival : Statement .barrierArrival := holds _
theorem cqCredit : Statement .cqCredit := holds _
theorem groupctlProgramOp : Statement .groupctlProgramOp := holds _
theorem groupctlReservedOp : Statement .groupctlReservedOp := holds _
theorem dataToSwitch : Statement .dataToSwitch := holds _
theorem resultToSwitch : Statement .resultToSwitch := holds _
theorem transitPartialFrame : ∀ x0 x1, Statement (.transitPartialFrame x0 x1) := by intros; exact holds _
theorem partialSilenceTimeout : ∀ x0 x1, Statement (.partialSilenceTimeout x0 x1) := by intros; exact holds _
theorem combineContrib : ∀ x0 x1, Statement (.combineContrib x0 x1) := by intros; exact holds _
theorem combWindowSeal : ∀ x0, Statement (.combWindowSeal x0) := by intros; exact holds _
theorem combBusyRetry : ∀ x0 x1 x2, Statement (.combBusyRetry x0 x1 x2) := by intros; exact holds _
theorem combCtlWrite : ∀ x0, Statement (.combCtlWrite x0) := by intros; exact holds _
theorem frameStart : ∀ x0 x1, Statement (.frameStart x0 x1) := by intros; exact holds _
theorem frameDepart : ∀ x0 x1, Statement (.frameDepart x0 x1) := by intros; exact holds _
theorem creditSymbolReceive : ∀ x0 x1 x2 x3, Statement (.creditSymbolReceive x0 x1 x2 x3) := by intros; exact holds _
theorem creditRefresh : ∀ x0, Statement (.creditRefresh x0) := by intros; exact holds _
theorem initRepeat : ∀ x0, Statement (.initRepeat x0) := by intros; exact holds _
theorem initReservationFit : ∀ x0, Statement (.initReservationFit x0) := by intros; exact holds _
theorem ksTimeout : ∀ x0, Statement (.ksTimeout x0) := by intros; exact holds _
theorem keystoneQuietRelease : ∀ x0, Statement (.keystoneQuietRelease x0) := by intros; exact holds _
theorem gateEntryAdvance : ∀ x0, Statement (.gateEntryAdvance x0) := by intros; exact holds _
theorem gateGo : ∀ x0 x1, Statement (.gateGo x0 x1) := by intros; exact holds _
theorem gateSwitchover : ∀ x0, Statement (.gateSwitchover x0) := by intros; exact holds _
theorem portEnable : ∀ x0 x1, Statement (.portEnable x0 x1) := by intros; exact holds _
theorem portDisable : ∀ x0 x1, Statement (.portDisable x0 x1) := by intros; exact holds _
theorem signalDetect : ∀ x0, Statement (.signalDetect x0) := by intros; exact holds _
theorem trainingSetReceive : ∀ x0 x1 x2, Statement (.trainingSetReceive x0 x1 x2) := by intros; exact holds _
theorem alignmentMarkerReceive : ∀ x0 x1 x2 x3 x4 x5, Statement (.alignmentMarkerReceive x0 x1 x2 x3 x4 x5) := by intros; exact holds _
theorem fillerPairReceive : ∀ x0 x1 x2, Statement (.fillerPairReceive x0 x1 x2) := by intros; exact holds _
theorem trainingTimeout : ∀ x0, Statement (.trainingTimeout x0) := by intros; exact holds _
theorem retryWaitExpiry : ∀ x0, Statement (.retryWaitExpiry x0) := by intros; exact holds _
theorem linkLoss : ∀ x0 x1, Statement (.linkLoss x0 x1) := by intros; exact holds _
theorem fastRetrainTimeout : ∀ x0, Statement (.fastRetrainTimeout x0) := by intros; exact holds _
theorem holdTimeout : ∀ x0, Statement (.holdTimeout x0) := by intros; exact holds _
theorem retrain : ∀ x0, Statement (.retrain x0) := by intros; exact holds _
theorem lnkGrpSplitWrite : ∀ x0 x1, Statement (.lnkGrpSplitWrite x0 x1) := by intros; exact holds _
theorem portCredWrite : ∀ x0 x1 x2, Statement (.portCredWrite x0 x1 x2) := by intros; exact holds _
theorem swEpWrite : ∀ x0, Statement (.swEpWrite x0) := by intros; exact holds _
theorem eyeScanGo : ∀ x0 x1, Statement (.eyeScanGo x0 x1) := by intros; exact holds _
theorem eyeScanDone : ∀ x0 x1, Statement (.eyeScanDone x0 x1) := by intros; exact holds _
theorem viaductCellReceive : ∀ x0 x1 x2, Statement (.viaductCellReceive x0 x1 x2) := by intros; exact holds _
theorem vdctRetrain : ∀ x0, Statement (.vdctRetrain x0) := by intros; exact holds _
theorem vdctRetrainDone : ∀ x0 x1, Statement (.vdctRetrainDone x0 x1) := by intros; exact holds _
theorem timeLoadCell : ∀ x0, Statement (.timeLoadCell x0) := by intros; exact holds _
theorem bpmAllocGrant : ∀ x0 x1, Statement (.bpmAllocGrant x0 x1) := by intros; exact holds _
theorem allocExt : ∀ x0, Statement (.allocExt x0) := by intros; exact holds _
theorem freeExt : ∀ x0, Statement (.freeExt x0) := by intros; exact holds _
theorem retireExt : ∀ x0, Statement (.retireExt x0) := by intros; exact holds _
theorem bpmCmdReserved : ∀ x0, Statement (.bpmCmdReserved x0) := by intros; exact holds _
theorem neveThreadDone : Statement .neveThreadDone := holds _
theorem firnTrainDone : ∀ x0, Statement (.firnTrainDone x0) := by intros; exact holds _
theorem firnThreadDone : Statement .firnThreadDone := holds _
theorem sliceSetWrite : ∀ x0, Statement (.sliceSetWrite x0) := by intros; exact holds _
theorem chunkMove : ∀ x0, Statement (.chunkMove x0) := by intros; exact holds _
theorem sliceFatal : ∀ x0 x1, Statement (.sliceFatal x0 x1) := by intros; exact holds _
theorem tableCommitCycle : ∀ x0, Statement (.tableCommitCycle x0) := by intros; exact holds _
theorem remapCopyDone : ∀ x0, Statement (.remapCopyDone x0) := by intros; exact holds _
theorem add : ∀ x0 x1 x2 x3, Statement (.add x0 x1 x2 x3) := by intros; exact holds _
theorem sub : ∀ x0 x1 x2 x3, Statement (.sub x0 x1 x2 x3) := by intros; exact holds _
theorem mul : ∀ x0 x1 x2 x3, Statement (.mul x0 x1 x2 x3) := by intros; exact holds _
theorem mulhu : ∀ x0 x1 x2 x3, Statement (.mulhu x0 x1 x2 x3) := by intros; exact holds _
theorem divu : ∀ x0 x1 x2 x3, Statement (.divu x0 x1 x2 x3) := by intros; exact holds _
theorem remu : ∀ x0 x1 x2 x3, Statement (.remu x0 x1 x2 x3) := by intros; exact holds _
theorem and : ∀ x0 x1 x2 x3, Statement (.and x0 x1 x2 x3) := by intros; exact holds _
theorem or : ∀ x0 x1 x2 x3, Statement (.or x0 x1 x2 x3) := by intros; exact holds _
theorem xor : ∀ x0 x1 x2 x3, Statement (.xor x0 x1 x2 x3) := by intros; exact holds _
theorem shl : ∀ x0 x1 x2 x3, Statement (.shl x0 x1 x2 x3) := by intros; exact holds _
theorem shr : ∀ x0 x1 x2 x3, Statement (.shr x0 x1 x2 x3) := by intros; exact holds _
theorem sar : ∀ x0 x1 x2 x3, Statement (.sar x0 x1 x2 x3) := by intros; exact holds _
theorem slt : ∀ x0 x1 x2 x3, Statement (.slt x0 x1 x2 x3) := by intros; exact holds _
theorem sltu : ∀ x0 x1 x2 x3, Statement (.sltu x0 x1 x2 x3) := by intros; exact holds _
theorem addi : ∀ x0 x1 x2 x3, Statement (.addi x0 x1 x2 x3) := by intros; exact holds _
theorem andi : ∀ x0 x1 x2 x3, Statement (.andi x0 x1 x2 x3) := by intros; exact holds _
theorem ori : ∀ x0 x1 x2 x3, Statement (.ori x0 x1 x2 x3) := by intros; exact holds _
theorem xori : ∀ x0 x1 x2 x3, Statement (.xori x0 x1 x2 x3) := by intros; exact holds _
theorem shli : ∀ x0 x1 x2 x3, Statement (.shli x0 x1 x2 x3) := by intros; exact holds _
theorem shri : ∀ x0 x1 x2 x3, Statement (.shri x0 x1 x2 x3) := by intros; exact holds _
theorem sari : ∀ x0 x1 x2 x3, Statement (.sari x0 x1 x2 x3) := by intros; exact holds _
theorem slti : ∀ x0 x1 x2 x3, Statement (.slti x0 x1 x2 x3) := by intros; exact holds _
theorem sltiu : ∀ x0 x1 x2 x3, Statement (.sltiu x0 x1 x2 x3) := by intros; exact holds _
theorem movhi : ∀ x0 x1 x2 x3, Statement (.movhi x0 x1 x2 x3) := by intros; exact holds _
theorem ld : ∀ x0 x1 x2 x3 x4 x5, Statement (.ld x0 x1 x2 x3 x4 x5) := by intros; exact holds _
theorem st : ∀ x0 x1 x2 x3 x4, Statement (.st x0 x1 x2 x3 x4) := by intros; exact holds _
theorem beq : ∀ x0 x1 x2 x3, Statement (.beq x0 x1 x2 x3) := by intros; exact holds _
theorem bne : ∀ x0 x1 x2 x3, Statement (.bne x0 x1 x2 x3) := by intros; exact holds _
theorem blt : ∀ x0 x1 x2 x3, Statement (.blt x0 x1 x2 x3) := by intros; exact holds _
theorem bge : ∀ x0 x1 x2 x3, Statement (.bge x0 x1 x2 x3) := by intros; exact holds _
theorem bltu : ∀ x0 x1 x2 x3, Statement (.bltu x0 x1 x2 x3) := by intros; exact holds _
theorem bgeu : ∀ x0 x1 x2 x3, Statement (.bgeu x0 x1 x2 x3) := by intros; exact holds _
theorem jal : ∀ x0 x1 x2, Statement (.jal x0 x1 x2) := by intros; exact holds _
theorem jalr : ∀ x0 x1 x2 x3, Statement (.jalr x0 x1 x2 x3) := by intros; exact holds _
theorem dregR : ∀ x0 x1 x2 x3, Statement (.dregR x0 x1 x2 x3) := by intros; exact holds _
theorem dregW : ∀ x0 x1 x2 x3, Statement (.dregW x0 x1 x2 x3) := by intros; exact holds _
theorem tblW : ∀ x0 x1 x2 x3 x4, Statement (.tblW x0 x1 x2 x3 x4) := by intros; exact holds _
theorem tblR : ∀ x0 x1 x2 x3 x4 x5, Statement (.tblR x0 x1 x2 x3 x4 x5) := by intros; exact holds _
theorem tblCommit : ∀ x0 x1, Statement (.tblCommit x0 x1) := by intros; exact holds _
theorem mbxRecv : ∀ x0 x1, Statement (.mbxRecv x0 x1) := by intros; exact holds _
theorem mbxSend : ∀ x0 x1 x2 x3, Statement (.mbxSend x0 x1 x2 x3) := by intros; exact holds _
theorem mbxRelease : ∀ x0 x1, Statement (.mbxRelease x0 x1) := by intros; exact holds _
theorem mbxCount : ∀ x0 x1, Statement (.mbxCount x0 x1) := by intros; exact holds _
theorem wait : ∀ x0 x1 x2, Statement (.wait x0 x1 x2) := by intros; exact holds _
theorem waitResume : ∀ x0, Statement (.waitResume x0) := by intros; exact holds _
theorem timeRead : ∀ x0 x1, Statement (.timeRead x0 x1) := by intros; exact holds _
theorem timeArm : ∀ x0 x1, Statement (.timeArm x0 x1) := by intros; exact holds _
theorem timeDisarm : ∀ x0, Statement (.timeDisarm x0) := by intros; exact holds _
theorem timerDue : ∀ x0, Statement (.timerDue x0) := by intros; exact holds _
theorem fenceSt : ∀ x0, Statement (.fenceSt x0) := by intros; exact holds _
theorem fenceAll : ∀ x0, Statement (.fenceAll x0) := by intros; exact holds _
theorem fenceDev : ∀ x0, Statement (.fenceDev x0) := by intros; exact holds _
theorem vadd : ∀ x0 x1 x2 x3 x4 x5 x6, Statement (.vadd x0 x1 x2 x3 x4 x5 x6) := by intros; exact holds _
theorem vsub : ∀ x0 x1 x2 x3 x4 x5 x6, Statement (.vsub x0 x1 x2 x3 x4 x5 x6) := by intros; exact holds _
theorem vmul : ∀ x0 x1 x2 x3 x4 x5 x6, Statement (.vmul x0 x1 x2 x3 x4 x5 x6) := by intros; exact holds _
theorem vfma : ∀ x0 x1 x2 x3 x4 x5 x6, Statement (.vfma x0 x1 x2 x3 x4 x5 x6) := by intros; exact holds _
theorem vdiv : ∀ x0 x1 x2 x3 x4 x5 x6, Statement (.vdiv x0 x1 x2 x3 x4 x5 x6) := by intros; exact holds _
theorem vsqrt : ∀ x0 x1 x2 x3 x4 x5, Statement (.vsqrt x0 x1 x2 x3 x4 x5) := by intros; exact holds _
theorem vmax : ∀ x0 x1 x2 x3 x4 x5, Statement (.vmax x0 x1 x2 x3 x4 x5) := by intros; exact holds _
theorem vmin : ∀ x0 x1 x2 x3 x4 x5, Statement (.vmin x0 x1 x2 x3 x4 x5) := by intros; exact holds _
theorem vcmp : ∀ x0 x1 x2 x3 x4 x5 x6, Statement (.vcmp x0 x1 x2 x3 x4 x5 x6) := by intros; exact holds _
theorem vsel : ∀ x0 x1 x2 x3 x4 x5 x6, Statement (.vsel x0 x1 x2 x3 x4 x5 x6) := by intros; exact holds _
theorem vcvt : ∀ x0 x1 x2 x3 x4 x5 x6, Statement (.vcvt x0 x1 x2 x3 x4 x5 x6) := by intros; exact holds _
theorem vqnt : ∀ x0 x1 x2 x3 x4 x5 x6, Statement (.vqnt x0 x1 x2 x3 x4 x5 x6) := by intros; exact holds _
theorem vdqt : ∀ x0 x1 x2 x3 x4 x5, Statement (.vdqt x0 x1 x2 x3 x4 x5) := by intros; exact holds _
theorem vldS : ∀ x0 x1 x2 x3 x4 x5, Statement (.vldS x0 x1 x2 x3 x4 x5) := by intros; exact holds _
theorem vstS : ∀ x0 x1 x2 x3 x4 x5, Statement (.vstS x0 x1 x2 x3 x4 x5) := by intros; exact holds _
theorem vemit : ∀ x0 x1 x2 x3 x4, Statement (.vemit x0 x1 x2 x3 x4) := by intros; exact holds _
theorem coreStart : ∀ x0 x1, Statement (.coreStart x0 x1) := by intros; exact holds _
theorem coreStop : ∀ x0 x1, Statement (.coreStop x0 x1) := by intros; exact holds _
theorem devTimeOfsWrite : ∀ x0, Statement (.devTimeOfsWrite x0) := by intros; exact holds _
theorem devTimeLowRead : ∀ x0, Statement (.devTimeLowRead x0) := by intros; exact holds _
theorem e2eWinClr : ∀ x0, Statement (.e2eWinClr x0) := by intros; exact holds _
theorem fenceAdd : ∀ x0, Statement (.fenceAdd x0) := by intros; exact holds _
theorem fenceRemove : ∀ x0, Statement (.fenceRemove x0) := by intros; exact holds _
theorem arenaCopyIn : ∀ x0, Statement (.arenaCopyIn x0) := by intros; exact holds _
theorem arenaCopyOut : ∀ x0, Statement (.arenaCopyOut x0) := by intros; exact holds _
theorem arenaPut : ∀ x0, Statement (.arenaPut x0) := by intros; exact holds _
theorem arenaBadOp : ∀ x0 x1, Statement (.arenaBadOp x0 x1) := by intros; exact holds _
theorem arenaCmdDone : Statement .arenaCmdDone := holds _
theorem hmbxInGo : ∀ x0 x1, Statement (.hmbxInGo x0 x1) := by intros; exact holds _
theorem hmbxOutPop : ∀ x0, Statement (.hmbxOutPop x0) := by intros; exact holds _
theorem flashRead : ∀ x0, Statement (.flashRead x0) := by intros; exact holds _
theorem flashWrite : ∀ x0, Statement (.flashWrite x0) := by intros; exact holds _
theorem flashCmdDone : ∀ x0, Statement (.flashCmdDone x0) := by intros; exact holds _
theorem bootMbxGo : ∀ x0, Statement (.bootMbxGo x0) := by intros; exact holds _
theorem attGo : Statement .attGo := holds _
theorem attDone : Statement .attDone := holds _
theorem frnMarginGo : ∀ x0 x1, Statement (.frnMarginGo x0 x1) := by intros; exact holds _
theorem frnMarginDone : ∀ x0 x1, Statement (.frnMarginDone x0 x1) := by intros; exact holds _
theorem frnThermWrite : ∀ x0 x1, Statement (.frnThermWrite x0 x1) := by intros; exact holds _
theorem dieThermWrite : ∀ x0, Statement (.dieThermWrite x0) := by intros; exact holds _
theorem errStatusClear : ∀ x0 x1, Statement (.errStatusClear x0 x1) := by intros; exact holds _
theorem errMaskWrite : ∀ x0 x1, Statement (.errMaskWrite x0 x1) := by intros; exact holds _
theorem rcRead : ∀ x0 x1 x2, Statement (.rcRead x0 x1 x2) := by intros; exact holds _
theorem registerWrite : ∀ x0 x1 x2 x3, Statement (.registerWrite x0 x1 x2 x3) := by intros; exact holds _
theorem readbackRead : ∀ x0 x1, Statement (.readbackRead x0 x1) := by intros; exact holds _
theorem bar2Read : ∀ x0 x1 x2 x3, Statement (.bar2Read x0 x1 x2 x3) := by intros; exact holds _
theorem bar2Write : ∀ x0 x1 x2, Statement (.bar2Write x0 x1 x2) := by intros; exact holds _
theorem pwrCtlWrite : ∀ x0 x1, Statement (.pwrCtlWrite x0 x1) := by intros; exact holds _
theorem powerDomainReady : ∀ x0, Statement (.powerDomainReady x0) := by intros; exact holds _
theorem pdFault : ∀ x0, Statement (.pdFault x0) := by intros; exact holds _
theorem powerOnReset : ∀ x0, Statement (.powerOnReset x0) := by intros; exact holds _
theorem perst0Assert : Statement .perst0Assert := holds _
theorem perst1Assert : Statement .perst1Assert := holds _
theorem warmReset : ∀ x0, Statement (.warmReset x0) := by intros; exact holds _
theorem thaw : Statement .thaw := holds _
theorem bootRomStart : ∀ x0 x1, Statement (.bootRomStart x0 x1) := by intros; exact holds _
theorem bootImageChecked : ∀ x0, Statement (.bootImageChecked x0) := by intros; exact holds _
theorem pllUnlock : Statement .pllUnlock := holds _
theorem supply : ∀ x0 x1, Statement (.supply x0 x1) := by intros; exact holds _
theorem dieThermalReading : ∀ x0, Statement (.dieThermalReading x0) := by intros; exact holds _
theorem frnThermalReading : ∀ x0 x1, Statement (.frnThermalReading x0 x1) := by intros; exact holds _
theorem refresh : ∀ x0, Statement (.refresh x0) := by intros; exact holds _
theorem idcPoll : ∀ x0 x1, Statement (.idcPoll x0 x1) := by intros; exact holds _
theorem aliveOutToggle : Statement .aliveOutToggle := holds _
theorem firnBurstRead : ∀ x0 x1 x2, Statement (.firnBurstRead x0 x1 x2) := by intros; exact holds _
theorem firnWriteback : ∀ x0, Statement (.firnWriteback x0) := by intros; exact holds _
theorem smbusStatusRead : Statement .smbusStatusRead := holds _
theorem smbusTempRead : Statement .smbusTempRead := holds _
theorem smbusPowerRead : Statement .smbusPowerRead := holds _
theorem smbusResetCauseRead : Statement .smbusResetCauseRead := holds _
theorem smbusIdRead : Statement .smbusIdRead := holds _
theorem smbusDeviceIdRead : Statement .smbusDeviceIdRead := holds _
theorem smbusBadCommand : ∀ x0, Statement (.smbusBadCommand x0) := by intros; exact holds _
theorem idcode : Statement .idcode := holds _
theorem samplePreload : ∀ x0, Statement (.samplePreload x0) := by intros; exact holds _
theorem extest : Statement .extest := holds _
theorem extestPulse : Statement .extestPulse := holds _
theorem extestTrain : Statement .extestTrain := holds _
theorem highz : Statement .highz := holds _
theorem clamp : Statement .clamp := holds _
theorem bypass : ∀ x0, Statement (.bypass x0) := by intros; exact holds _
theorem tapReset : Statement .tapReset := holds _
theorem perstRelease : ∀ x0, Statement (.perstRelease x0) := by intros; exact holds _
theorem msixUnmask : ∀ x0 x1, Statement (.msixUnmask x0 x1) := by intros; exact holds _
theorem idleCharacterReceive : ∀ x0 x1, Statement (.idleCharacterReceive x0 x1) := by intros; exact holds _
theorem illegalOpcode : ∀ x0 x1, Statement (.illegalOpcode x0 x1) := by intros; exact holds _
theorem fetchFault : ∀ x0 x1, Statement (.fetchFault x0 x1) := by intros; exact holds _

end Sys2Proof.Laws.Registers
end

