-- ==== Sys2Proof/Tests/Slice0.lean ====
section
/-! SUPPORT. The author's own tests: the checks of well-formedness refuse an ill-formed term each, words of vector
instructions decode as the spec writes them, and the claims' hypotheses can be met. -/

namespace Sys2Proof.Tests

open Machine

/-! ## Well-formedness: an ill-formed term for each check -/

theorem test_flaw_register : (Instr.add 0 32 1 2).flaw = some .register := by decide
theorem test_flaw_pair : (Instr.mbxRecv 0 3).flaw = some .register := by decide
theorem test_flaw_func : (Instr.ld 0 1 2 7 0 .none).flaw = some .func := by decide
theorem test_flaw_immediate : (Instr.shli 0 1 2 64).flaw = some .immediate := by decide
theorem test_flaw_vector : (Instr.vcmp 0 1 .f32 0 (.v 0) (.v 2) .lt).flaw = some .vector := by decide
theorem test_flaw_size : (Instr.bar2Write 0 0 []).flaw = some .size := by decide
theorem test_flawless : (Instr.add 0 31 1 2).flaw = none := by decide

/-! ## Words of the example of R349 -/

theorem test_word_vsel : decodeVec 0x89080088_3F800000 = some (.sel 1 .f32 2 (.v 0) 2 0x3F800000) := by decide
theorem test_word_vmin : decodeVec 0x87000088_00000000 = some (.min 1 .f32 0 (.v 0) (.v 2)) := by decide
theorem test_word_vmax : decodeVec 0x860000C8_00000000 = some (.max 1 .f32 0 (.v 0) (.v 3)) := by decide

/-! ## States for the claims' hypotheses -/

/-- The switch as it runs: thawed, the PLL locked, every domain of a ZX5120-S on, device time 1000. -/
def on : State := { State.reset with clk := { State.reset.clk with running := true, pllLock := true, pwrOk := true, cycles := 1000 } }
/-- The running switch with a code region of 4 KiB, core 0 as given. -/
def core0 (k : Core) : State := setCore { on with sec := { on.sec with codeLimit := 0x1000 } } 0 k
/-- A running core with an address above every memory in G1 and 1 in G2. -/
def run0 : Core := { st := .running, pc := 0x01000000, regs := ((Vector.replicate 32 0).set 1 0x13000000000).set 2 1 }
/-- A mailbox entry. -/
def entry : MbxEntry := { desc := 1, data := 2, copy := none }
/-- The address that a register and IMM of that core give. -/
def adr (a : BitVec 6) (imm : BitVec 32) : Nat := (readReg (getCore (core0 run0) 0) a + imm.signExtend 64).toNat

theorem test_meets_StepsKeepForm : on.wf ∧ step on = .next (idleCycle on) ∧ on.pending = [] :=
  ⟨⟨by unfold State.memWf; decide, sorted_of_sortedB _ (by decide), by unfold State.coresWf; decide⟩, rfl, rfl⟩
/-- An answer that waits for more cells than its quota entry allows. -/
def wanting : State :=
  { on with jobs := [.answer {}], wants := [{ job := .answer {}, ask := { cells := (4098, 1000000) } }], cyc := { freedExts := [(6, 4096)] } }
theorem test_meets_EmptyQueueIsOneCycle : on.pending = [] ∧ wanting.sorted ∧ isRunning wanting = true ∧
    askFits wanting { cells := (4098, 1000000) } = false ∧ isRetired wanting 6 = false ∧ burstWaits wanting (6 * 65536) = false ∧
    isRetired { wanting with bpm := { wanting.bpm with retired := [(6, true)] } } 6 = true :=
  ⟨rfl, sorted_of_sortedB _ (by decide), by decide +kernel⟩
theorem test_meets_StepsKeepQueueOrder : step on = .next (idleCycle on) := rfl
theorem test_meets_VectorDecodeReadsEveryBit : decodeVec 0x860000C8_00000000 = some (.max 1 .f32 0 (.v 0) (.v 3)) := by decide
theorem test_meets_ExceptionStopsOneCore : pdOn on 2 = true := by decide
theorem test_meets_RcReadClears : partyActs on (.mgmt 0) = true ∧ partyActs on (.mgmt 1) = true ∧ isRunning on = true ∧ pdOn on 2 = true ∧
    on.clk.halted = false := by decide
theorem test_meets_WellFormedCommandsAnswer : (Instr.timerDue 0).wellFormed = true ∧ (Instr.vemit 0 1 .f32 (.v 0) .result).wellFormed = true ∧
    (getSlice (setSlice on 0 { run := { isFin := true } }) 0).run.isFin = true := by decide
theorem test_meets_RejectedVectorOpsAreRefused :
    (Instr.vcmp 0 1 .f32 0 (.v 0) (.v 2) .lt).vop = some (.cmp 1 .f32 0 (.v 0) (.v 2) .lt) ∧
      vLegal (.cmp 1 .f32 0 (.v 0) (.v 2) .lt) = false := by decide

/-! ## Control cores -/

/-- What the statements about register instructions of a core, and of the writing of one register, ask. -/
theorem test_meets_coreReady : coreReady (core0 run0) 0 ∧ okReg 0 = true ∧ okReg 31 = true ∧ (63#32).toNat < 64 := by
  unfold coreReady; decide
theorem test_meets_GeneralRegisters : (core0 { run0 with st := .halted }).coresWf ∧ (core0 { run0 with st := .stopped }).coresWf ∧
    exec (.timeRead 0 1) (core0 { run0 with st := .halted }) = .next (core0 { run0 with st := .halted }) ∧
    exec (.timeRead 0 1) (core0 { run0 with st := .stopped }) = .next (core0 { run0 with st := .stopped }) ∧
    on.clk.pwrOk = true ∧ (getMgmt on 0).perst = false ∧ (getMgmt on 1).perst = false ∧ bitOf on.clk.rstCfg 63 = true ∧
    bitOf ({ on.clk with rstCfg := 0xC000000000000000 } : Clk).rstCfg 62 = true ∧ partyActs on (.mgmt 0) = true ∧ partyActs (core0 run0) (.core 0) = true ∧
    State.reset.clk.pwrOk = false :=
  ⟨by unfold State.coresWf; decide, by unfold State.coresWf; decide, rfl, rfl, by decide⟩
theorem test_meets_LoadResults : (6#6).toNat < 7 ∧ adr 0 1 % 8 ≠ 0 ∧ (adr 0 0x3FFF8 % 8 = 0 ∧ adr 0 0x3FFF8 < 0x40000) ∧
    (adr 0 0x01000000 % 8 = 0 ∧ 0x01000000 ≤ adr 0 0x01000000) ∧ (adr 0 0x01FFFFF8 % 8 = 0 ∧ adr 0 0x01FFFFF8 < 0x02000000) ∧
    (adr 0 0x02000000 % 8 = 0 ∧ 0x02000000 ≤ adr 0 0x02000000) ∧ (adr 0 0x023FFFF8 % 8 = 0 ∧ adr 0 0x023FFFF8 < 0x02400000) := by
  decide
theorem test_meets_StoreResultsAndFrame : (core0 run0).memWf ∧ (3#6).toNat < 4 ∧ (adr 0 0x3FFF8 % 8 = 0 ∧ adr 0 0x3FFF8 < 0x40000) ∧
    adr 0 0x01001000 % 8 = 0 ∧ 0x01000000 ≤ adr 0 0x01001000 ∧ adr 0 0x01001000 < 0x02000000 ∧
    inCode (core0 run0) (adr 0 0x01001000 - 0x01000000) 8 = false := by unfold State.memWf; decide
theorem test_meets_StoreExceptions : adr 0 1 % 2 ≠ 0 ∧
    (adr 0 0x01000FF8 % 8 = 0 ∧ inCode (core0 run0) (adr 0 0x01000FF8 - 0x01000000) 8 = true) ∧
    (adr 0 0x02000004 % 4 = 0 ∧ 0x02000000 ≤ adr 0 0x02000004 ∧ adr 0 0x023FFFFC < 0x02400000 ∧ 2 ^ (2#6).toNat ≠ 8) ∧
    inLoaded { on with tbl := { on.tbl with prog := [(0, (0x8000000100000000 : Word))] } } 0 8 = false ∧
    (adr 0 0x04000000 % 8 = 0 ∧ 0x04000000 ≤ adr 0 0x04000000) ∧ adr 0 0x0DFFFFF8 < 0x0E000000 ∧
    (adr 0 0x40000 % 8 = 0 ∧ adr 0 0x40000 = 0x40000) ∧ (adr 0 0x00FFFFF8 % 8 = 0 ∧ adr 0 0x00FFFFF8 < 0x01000000) ∧
    (adr 0 0x02400000 = 0x02400000 ∧ adr 0 0x03FFFFF8 < 0x04000000) ∧ (adr 0 0x0E000000 = 0x0E000000 ∧ adr 0 0x7FFFFFF8 < 0x10000000000) ∧
    (adr 1 0 % 8 = 0 ∧ 0x13000000000 ≤ adr 1 0) := by decide
/-- A core that stores to the first byte of Firn on a switch without its stacks. -/
theorem test_meets_StoreExceptions_firn :
    let s := setCore { on with sec := { on.sec with codeLimit := 0x1000 }, clk := { on.clk with pwrOn := 0x3FFFFF87 } } 0
      { run0 with regs := run0.regs.set 1 0x10000000000 }
    coreReady s 0 ∧ (readReg (getCore s 0) 1).toNat = 0x10000000000 ∧ firnOn (atPlace placeCore s) = false := by
  unfold coreReady; decide
theorem test_meets_IllegalAndFetchExceptions : isRunning (core0 run0) = true ∧ pdOn (core0 run0) 2 = true ∧
    fetchable (core0 run0) run0.pc = true ∧ fetchable (core0 run0) 0x01001000 = false ∧ 0x80 ≤ fld (0x80FFFFFFFFFFFFFF : Word) 56 8 ∧
    (fld (0x4800000400000000 : Word) 56 8 = 0x48 ∧ 4 ≤ fld (0x4800000400000000 : Word) 32 6) ∧
    (fld (0x4D00000300000000 : Word) 56 8 = 0x4D ∧ 3 ≤ fld (0x4D00000300000000 : Word) 32 6) ∧
    decodeCore 0 0x0100000100000001 = none ∧ decodeCore 0 0x0104208000000000 = some (.add 0 1 2 2) ∧
    okReg 32 = false ∧ 64 ≤ (64#32).toNat ∧ tblPlace 8 (readReg (getCore (core0 run0) 0) 2) 0 = some (8, 1, 0) ∧
    isPoisoned { core0 run0 with tbl := { (core0 run0).tbl with poison := [(8 * 2 ^ 32 + 1, true)] } } 8 1 = true := by decide

/-! ## Tables, mailboxes, events, starting and stopping -/

theorem test_meets_TableWriteStages : tblPlace 63 0 0 = none ∧ tblPlace 8 0 0 = some (8, 0, 0) ∧ tblPlace 10 4099 0 = some (10, 4099, 0) ∧
    quotaHole 10 4099 = true ∧ quotaHole 8 0 = false ∧ stagedVal run0 8 0 0 = none ∧
    (List.replicate 4096 ({ tbl := 9, idx := 0, word := 0, val := 0 } : Staged)).length = 4096 ∧
    (stagedVal { run0 with stage := [{ tbl := 8, idx := 0, word := 0, val := 5 }] } 8 0 0).isSome = true ∧ (7#32).toNat < 8 := by decide +kernel
theorem test_meets_TableReadValue : (core0 run0).sorted ∧ tblPlace 8 (readReg (getCore (core0 run0) 0) 2) 0 = some (8, 1, 0) ∧
    isPoisoned (core0 run0) 8 1 = false :=
  ⟨sorted_of_sortedB _ (by decide), by decide⟩
/-- Core 0 in a commit of one route word, due at once. -/
def commits : State := core0 { run0 with committing := some (1, 1000), stage := [{ tbl := 8, idx := 7, word := 0, val := 5 }] }
theorem test_meets_TableCommit : isRunning commits = true ∧ (getCore commits 0).committing = some (1, 1000) ∧ 1000 ≤ commits.clk.cycles ∧
    (∀ (c' : CoreNo) (d' : BitVec 6) (n : Nat), (getCore commits c').committing = some (d', n) → 1000 ≤ n) ∧
    commitWaits commits (getCore commits 0).stage = false ∧ commits.sorted := by
  have h : ∀ c' : CoreNo, (getCore commits c').committing = none ∨ (getCore commits c').committing = some (1, 1000) := by decide
  exact ⟨by decide, by decide, by decide, fun c' d' n e => by have := h c'; simp_all, by decide +kernel, sorted_of_sortedB _ (by decide)⟩
theorem test_meets_CoreMailboxFunctions : (2#6).toNat % 2 = 0 ∧ (getCore (core0 run0) 0).mbx = [] ∧
    (getCore (core0 { run0 with mbx := [entry] }) 0).mbx = [entry] ∧ (readReg (getCore (core0 run0) 0) 2).toNat = (1 : CoreNo).val ∧
    (getCore (core0 run0) 1).mbx.length < 256 ∧
    (getCore (setCore (core0 run0) 1 { mbx := List.replicate 256 entry }) 1).mbx.length = 256 ∧
    (readReg (getCore (core0 run0) 0) 2).toNat = (0 : CoreNo).val + 1 ∧ (readReg (getCore (core0 run0) 0) 0).toNat = (0 : CoreNo).val ∧
    (∀ m : Fin 2, (readReg { run0 with regs := run0.regs.set 3 (BitVec.ofNat 64 (8 + m.val)) } 3).toNat = 8 + m.val) ∧
    ((getMgmt (core0 run0) 1).out.length + tget 0 (core0 run0).cyc.outs 1 < 64 ∧
      64 ≤ (getMgmt (setMgmt on 1 { out := List.replicate 64 (0, 0) }) 1).out.length) ∧
    10 ≤ (readReg (getCore (core0 run0) 0) 1).toNat ∧ (getCore (core0 { run0 with heldFrames := [4, 1] }) 0).heldFrames = [4] ++ 1 :: [] ∧
    1 ∉ [4] ∧
    (readReg (getCore (core0 run0) 0) 2).toNat ∉ (getCore (core0 run0) 0).heldFrames := by decide +kernel
theorem test_meets_WaitAndResume : pendingEvents (core0 run0) run0 &&& 1 = 0 ∧
    pendingEvents (core0 run0) { run0 with mbx := [entry] } &&& 1 ≠ 0 ∧
    (getCore (core0 { run0 with st := .waiting, waitFor := some (3, 1), mbx := [entry] }) 0).waitFor = some (3, 1) ∧ (7#32).toNat < 8 := by
  decide
theorem test_meets_TimeAndFences : (getCore (core0 { run0 with cmp := some 1000 }) 0).cmp = some 1000 ∧
    (1000 : Word).toNat ≤ (devTime (core0 { run0 with cmp := some 1000 })).toNat := by decide
theorem test_meets_StartAndStop : ctlReady on ∧ bitOf (0x8000000001000000 : Word) 62 = false ∧ (getCore on 0).st = .reset ∧
    (getCore (core0 run0) 0).st = .running ∧ bitOf (0x4000000000000000 : Word) 63 = false ∧
    (bitOf (0xC000000000000000 : Word) 62 = true ∧ bitOf (0xC000000000000000 : Word) 63 = true) ∧ (getCore (core0 run0) 0).committing = none ∧
    (getCore commits 0).committing ≠ none ∧ (getCore commits 0).st = .running := by unfold ctlReady; decide
theorem test_meets_DeviceRegisterAccess : adr 0 1 % 8 ≠ 0 ∧ adr 0 0x01000000 % 8 = 0 ∧ 0x1000000 ≤ adr 0 0x01000000 ∧ regAt 0xFFFFF8 = none ∧
    regAt (adr 0 0x10) = some .devTime ∧ regAt (adr 0 0x10260) = some (.attNonce 0) ∧ regAt (adr 0 0x10278) = some (.attNonce 3) ∧
    pdOn (core0 run0) 1 = true := by decide

/-! ## Hosts -/

theorem test_meets_HostRegisterReads : partyActs on (.mgmt 1) = true ∧ on.clk.halted = false ∧ (0x10#26).toNat % 8 = 0 ∧
    regAt (0x10#26).toNat = some .devTime ∧ (0x12#26).toNat % 8 ≠ 0 ∧ (0x10#26).toNat % 8 ≠ 4 ∧ regInSec .devTime = false ∧
    (let s : State := { on with clk := { on.clk with halted := true, pllLock := false } }
     partyActs s (.mgmt 1) = true ∧ s.clk.halted = true ∧ s.clk.pllLock = false) ∧
    (0x1007FF8#26).toNat = 0x1000008 + 16 * (2047 : Fin 2048).val ∧ (0x10080F8#26).toNat = 0x1008000 + 8 * (31 : Fin 32).val ∧
    ((0x1008100#26).toNat % 8 = 0 ∧ 0x1008100 ≤ (0x1008100#26).toNat ∧ (0x1FFFFF8#26).toNat < 0x2000000) ∧ pdOn on 2 = true ∧ isRunning on = true := by decide
theorem test_meets_RegisterWrites : partyActs (core0 run0) (.core 0) = true ∧ (core0 run0).clk.halted = false ∧
    partyActs on (.mgmt 1) = true ∧ pdOn on 2 = true ∧ (0x1018#26).toNat % 8 = 0 ∧ (0x1018#26).toNat < 0x1000000 ∧
    regAt (0x1018#26).toNat = some .arenaData := by decide
/-- A recorded, masked correction of the manager's block. -/
def masked : State := { on with errs := [(44, { status := 0x10, mask := 0x30, info := 0 })] }
theorem test_meets_ErrorRegisterWrites : secClocked on = true ∧ on.clk.halted = false ∧ pdOn on (vecDomain 44) = true ∧ vecRemoved on 44 = false ∧ (getErr on 44).status = 0 ∧ masked.sorted ∧
    (getErr masked 44).mask &&& ~~~(((getErr masked 44).mask &&& ~~~(errMaskable 44)) ||| (0 &&& errMaskable 44)) &&&
      (getErr masked 44).status ≠ 0 := by
  refine ⟨?_, ?_, ?_, ?_, ?_, sorted_of_sortedB _ ?_, ?_⟩ <;> decide
theorem test_meets_HostMailboxes : isRunning on = true ∧ secClocked on = true ∧ pdOn on 2 = true ∧ pdOn on 1 = true ∧ (getCore on 3).mbx.length < 256 ∧
    (getCore (setCore on 3 { mbx := List.replicate 256 entry }) 3).mbx.length = 256 := by decide +kernel
/-- A port with a pending, masked message. -/
def pends : State := setMgmt on 1 { msix := { enable := true, fmask := false, pending := [(2047, true)] } }
theorem test_meets_MsixUnmaskSends : partyActs pends (.mgmt 1) = true ∧ (getMgmt pends 1).msix.enable = true ∧
    (getMgmt pends 1).msix.fmask = false ∧ tget false (getMgmt pends 1).msix.pending 2047 = true ∧ pends.sorted ∧ pends.clk.halted = false ∧
    tget false (getMgmt pends 1).msix.pending 0 = false ∧
    (let s : State := { pends with clk := { pends.clk with halted := true, pllLock := false } }
     partyActs s (.mgmt 1) = true ∧ s.clk.halted = true ∧ s.clk.pllLock = false) :=
  by refine ⟨?_, ?_, ?_, ?_, sorted_of_sortedB _ ?_, ?_⟩ <;> decide
theorem test_meets_Bar2ControlMemory : on.memWf ∧ on.sec.waiting = false ∧ 0 < (List.replicate 4096 (0 : Byte)).length ∧
    (List.replicate 4096 (0 : Byte)).length ≤ 4096 ∧ (List.replicate 512 (0 : Byte)).length ≤ 512 ∧ (0xFFF000#30).toNat + 4096 ≤ 0x1000000 := by
  unfold State.memWf; decide +kernel

/-! ## Vector instructions -/

/-- FP16 as VQNT and VDQT name it. -/
def half : VFmt := { fmt := 2, blk := 0, ovf := 0 }
theorem test_meets_VectorTwoOperandResults : sliceReady on 17 ∧ sliceWf (getSlice on 17) ∧ dstOk .f64 30 = true ∧ srcOk .f64 (.v 30) = true ∧
    srcOk .f64 (.ctx .presentF) = true ∧ rndOk .f64 .dyn = true ∧ rndOk .i32 .rne = true ∧ vtyF .f32 = true := by
  unfold sliceReady sliceWf sparse; decide +kernel
theorem test_meets_VectorOneOperandResults : srcOk .f32 (.v 31) = true ∧ cvtRounds .f64 .f32 = true ∧ dstOk .f32 31 = true ∧
    vLegal (.qnt 1 .f32 3 (.v 2) half .sr) = true ∧ qntFmt .f32 half = some .fp16 ∧ Fmt.fp16.isBlock = false ∧
    vLegal (.dqt 1 .f32 3 (.v 2) half) = true ∧ vLegal (.fma 1 .f64 2 (.v 4) (.v 30) .dyn) = true ∧ vLegal (.sqrt 1 .f32 3 (.v 2) .dyn) = true ∧
    vLegal (.sel 1 .i64 2 (.v 4) 7 5) = true ∧ vLegal (.cvt 1 .f64 .f32 3 (.v 2) .sr) = true ∧ sliceReady on 0 ∧ sliceWf (getSlice on 0) := by
  unfold sliceReady sliceWf sparse; decide +kernel
theorem test_meets_VectorCompare : pget (getSlice on 0) 7 = 0 ∧ fld (0x8800000000000007 : Word) 56 8 = 0x88 ∧
    fld (0x8800000000000007 : Word) 0 3 = 7 := by decide +kernel
/-- A running FIN run on slice 0 of a group whose arena is extent 0, with one lane governed by P1. -/
def running (stuck : Bool) : State := setGroup (setStack (setSlice
  { on with tbl := { on.tbl with desc := [(0, #v[0, 0, 0, 0, 0, packFields [(21, 22, 1)], 0, 0])] } }
  0 { p := [(1, 1)], run := { isFin := true, elems := 1, resType := .f32 } }) 0 { stuck }) 0 { arena := [0] }
theorem test_meets_VectorArenaAccess : vLegal (.ld 1 .w32 0 .keep 0) = true ∧ vLegal (.st 1 .w32 (.v 0) .keep 0) = true ∧
    (∀ b, sliceReady (running b) 0 ∧ sliceWf (getSlice (running b) 0) ∧
      arenaOk (running b) (getSlice (running b) 0) .w32 (accessBytes (getSlice (running b) 0) 1 .w32 0) = true ∧
      ((accessBytes (getSlice (running b) 0) 1 .w32 0).any fun e => burstWaits (running b) (arenaAddr (running b) 0 e.1)) = b) ∧
    arenaOk (running false) (getSlice (running false) 0) .w32 (accessBytes (getSlice (running false) 0) 1 .w32 65536) = false ∧
    ((accessBytes (getSlice (running false) 0) 1 .w32 0).map fun e => arenaAddr (running false) 0 e.1).Nodup := by
  unfold sliceReady sliceWf sparse; decide +kernel
/-- With no row remapped the stacks hold each byte at its address. -/
theorem firnPhys_of_no_remap (s : State) (h : s.tbl.remap = []) (a : Nat) : firnPhys s a = a := by
  have none_ : ∀ n row i, spareOf s row i n = none := by
    intro n
    induction n with
    | zero => intro row i; rfl
    | succ n ih => intro row i; simp [spareOf, remapEnt, h, tget, show bitOf (0#32) 31 = false from rfl, ih]
  simp only [firnPhys, rowBase, none_]; omega
theorem test_meets_VectorArenaAccess_plain : plainFirn (running false) ∧ plainFirn (atPlace placeRead (running false)) ∧
    plainFirn (atPlace (placeArena + 0) (running false)) := by
  refine ⟨⟨by decide, rfl, fun a b h => ?_⟩, ⟨by decide, rfl, fun a b h => ?_⟩, ⟨by decide, rfl, fun a b h => ?_⟩⟩ <;>
    rwa [firnPhys_of_no_remap _ rfl, firnPhys_of_no_remap _ rfl] at h
theorem test_meets_VectorEmission : (getSlice (running false) 0).run.isFin = true ∧ bitOf (pget (getSlice (running false) 0) 1) 0 = true ∧
    ((List.range 256).any fun i => (tget none (getSlice (running false) 0).run.emitted i).isSome) = false ∧
    (VTy.f64 != (getSlice (running false) 0).run.resType) = true ∧ vLegal (.emit 1 .f32 (.v 0) (.weights half .rne)) = true ∧
    qntFmt .f32 half = some .fp16 ∧ (half.fmt.toNat != (getSlice (running false) 0).run.outFmt) = true ∧
    (getSlice (setSlice on 0 { run := { isFin := true, outFmt := 2 } }) 0).run.outFmt = half.fmt.toNat := by decide +kernel

/-! ## Frames and groups -/

/-- A descriptor: MODE, OP, FP32 throughout, two members, one bucket, this switch the only home, `quota` chunks of quota. -/
def desc (mode op quota : Nat) : Desc := #v[
  packFields [(63, 1, 1), (60, 2, mode), (56, 4, op), (50, 6, 1), (44, 6, 1), (38, 6, 1)],
  packFields [(47, 17, 2), (8, 17, 1)], packFields [(27, 17, 1), (3, 24, 4)], packFields [(41, 7, 1), (40, 1, 1), (16, 18, quota)],
  packFields [(32, 32, 100), (0, 21, 1)], 0, packFields [(48, 16, 1)], 0]
/-- Port 0 UP and linked, with a peer's allotment on every VC. -/
def up0 : Port := { st := .up, lt := .linked, ups := 1, vc := Vector.replicate 8 { allot := 0x30, force := 0x30, peer := 0x30 } }
/-- The running switch with its pools built, extent 6 alone on the Firn list, port 0 UP, set 0 leading to it, endpoint 9 behind set 0, and group 5 in slot 0:
endpoints 1 and 2 are its members, its one chunk holds one element. -/
def grouped (d : Desc) : State := { on with
  bpm := { on.bpm with neveReady := true, firnReady := true, extHead := some 6 }, firn := [(6 * 65536 + 7, 0x80)], ports := [(0, up0)], piers := [(0, { loaded := some (0, 0) })]
  tbl := { on.tbl with
    gidx := [(5, 0x8000)], desc := [(0, d)], bucket := [(0, 4)], member := [(0, 0x0000100000000000), (1, 0x0000200000000000)]
    route := [(0, 0xC0000000), (1, 0x80000000), (2, 0x80000000), (9, 0x80000000)], ecmp := [(0, 1)]
    window := [(0, #v[0, 0, 0x40001, 4096]), (1, #v[0, 0, 0x40001, 4096])] }
  groups := [(0, { gid := some 5, lens := [4] })] }
/-- A frame with its header words, HCHECK, tile checksums and HOP_CRC. -/
def frame (w0 w2 w3 : List (Nat × Nat × Nat)) (payload : List Byte) : Frame := sealFrame {
  w0 := packFields ((55, 1, 1) :: w0), w1 := packFields [(32, 32, 1), (0, 16, 1)], w2 := packFields w2, w3 := packFields w3
  w4 := packFields [(51, 13, payload.length)], payload, tiles := tilesOf payload }
/-- The number 1.0 in FP32. -/
def one32 : List Byte := [0, 0, 0x80, 0x3F]
/-- A contribution of rank 0 or 1 to a group's chunk, addressed to an endpoint; to this switch. -/
def contribTo (dest group rank step : Nat) : Frame :=
  frame [(60, 4, 1), (56, 4, 1), (28, 20, dest), (8, 20, rank + 1)] [(48, 16, group), (32, 16, step), (0, 16, rank)] [(38, 6, 1), (0, 24, 1)] one32
def contrib (group rank step : Nat) : Frame := contribTo 0 group rank step
/-- DATA from endpoint 1 to an endpoint. -/
def data (dest : Nat) : Frame := frame [(60, 4, 0), (56, 4, 1), (28, 20, dest), (8, 20, 1)] [] [] one32
/-- A local frame as it waits, with an ingress timestamp. -/
def waiting (f : Frame) (ts : Word) : LocalC := { port := 0, cls := fClass f, ups := 1, frame := f, ts }

/-- A frame of a transit partial of ranks 0 and 1 in two frames. -/
def transit0 : Frame := sealFrame {
  w0 := packFields [(60, 4, 1), (56, 4, 1), (8, 20, 3)], w1 := packFields [(32, 32, 4), (0, 16, 2)]
  w2 := packFields [(48, 16, 5)], w3 := packFields [(38, 6, 0x18), (0, 24, 1)], w4 := packFields [(51, 13, 4), (46, 5, 2)]
  payload := one32, tiles := tilesOf one32 }
theorem test_meets_FramesReceived : let s := grouped (desc 2 0 4)
    portLive s 0 = true ∧ portExists s 0 = true ∧ s.tap.taken = false ∧ bitOf (policerOf s 1)[0] 63 = false ∧ bitOf (policerOf s 4096)[0] 63 = false ∧
    (tget {} s.piers 0).loaded.isSome = true ∧ s.combQ.any (cameOn 0 1) = false ∧ headerOk {} = false ∧
    (headerOk (frame [(60, 4, 15)] [] [] []) = true ∧ typeClassOk (frame [(60, 4, 15)] [] [] []) = false) ∧
    (∀ f ∈ [data 0, data 3, data 9, contrib 5 0 0, reHop { data 9 with w0 := (data 9).w0 ||| packFields [(48, 4, 15)] }],
      headerOk f = true ∧ typeClassOk f = true ∧ fCount f = 1 ∧ endFault f .clean = none) ∧
    fHops (reHop { data 9 with w0 := (data 9).w0 ||| packFields [(48, 4, 15)] }) = 15 ∧ fHops (data 9) = 0 ∧
    routeOf s 0 = .self ∧ routeOf s 3 = .invalid ∧ routeOf s 9 = .set 0 ∧ mayCombine s (data 9) = false ∧
    heldUp s 0 1 = false ∧
    (let q := rxWire (atPlace (placeReceive s 0) s) 0 (data 9) {}
     spray q 0 1 (fCells (data 9)) false = .to 0 none ∧
      (match allocCopy q 1 1 1 (frameBytes (data 9)) (fCells (data 9)) with | .ok _ => true | .error _ => false) = true) ∧
    (let f := contribTo 9 5 0 0
     mayCombine (grouped (desc 1 0 4)) f = true ∧ headerOk f = true ∧ typeClassOk f = true ∧ endFault f .clean = none ∧
      routeOf (grouped (desc 1 0 4)) (fDest f) = .set 0) := by decide +kernel

/-- Step 0 of group 5 open since device time 0, to expire at 900, its chunk with rank 0 present. -/
def opened : State :=
  let k : Chunk := { ph := .bound, slice := some 0, present := 1, slotHeld := true }
  setGroup (grouped (desc 2 0 4)) 0 { gid := some 5, lens := [4], steps := [(0, { st := .open_, expiry := some 900, chunks := [(0, k)] })] }
/-- The operation of a contribution of rank 1 to that chunk. -/
def op1 (f : Frame) : SerOp := { c := waiting f 800, cid := ⟨0, 0, 0, 0⟩, rank := 1, express := false, since := 0 }
theorem test_meets_ContributionsDispatched :
    isRunning opened = true ∧ slotOf opened (fGroup (contrib 6 0 0)) = none ∧ 32768 ≤ stepDist (getGroup opened 0) 65535 ∧
    (4 ≤ stepDist (getGroup opened 0) 4 ∧ stepDist (getGroup opened 0) 32767 < 32768) ∧
    (stepDist (getGroup opened 0) 0 < 4 ∧ (getStep (getGroup opened 0) 0).st = .open_ ∧
      (getStep (getGroup opened 0) 0).expiry = some 900 ∧ (getStep (getGroup opened 0) 0).aborted = false) ∧
    (∀ x ∈ [(contrib 6 0 0, Verdict.refuse 7 4 none), (contrib 5 0 0, .duplicate 0), (contrib 5 1 0, .accept 0),
        (frame [(60, 4, 1), (56, 4, 1), (8, 20, 2)] [(48, 16, 5), (0, 16, 1)] [(38, 6, 2), (0, 24, 1)] one32, .format 0)],
      let s := { opened with dispatch := [waiting x.1 800] }
      pickLocal s 0 = some (waiting x.1 800) ∧ isExpress s x.1 = false ∧ isTransit x.1 = false ∧
      dispatchVerdict (dispatchTurn { s with dispatch := s.dispatch.erase (waiting x.1 800) } 0) x.1 800 = x.2) ∧
    (let s := { opened with fab := { opened.fab with sliceSet := 0 }, dispatch := [waiting (contrib 5 1 0) 800] }
     dispatchVerdict (dispatchTurn { s with dispatch := [] } 0) (contrib 5 1 0) 800 = .noSlice) ∧
    (let s := { opened with tbl := { opened.tbl with poison := [(0x03 * 2 ^ 32 + 1, true)] } }
     dispatchVerdict (dispatchTurn s 0) (contrib 5 1 0) 800 = .discard) ∧
    (pickLocal { opened with dispatch := [waiting transit0 0] } 0 = some (waiting transit0 0) ∧ isTransit transit0 = true) ∧
    (let x := ((0 : Nat), op1 (contrib 5 1 0))
     let s := { opened with intake := [x] }
     takeFirst (fun x : Nat × SerOp => x.1 == 0 && (x.2.c.port / 4 == 0 || decide (512 ≤ x.2.c.port))) s.intake = some (x, []) ∧
      sliceRuns s 0 = true ∧ inTurn s x = true ∧ (getSlice s 0).intakeUsed + one32.length ≤ 32768 ∧ 32768 < 32768 + one32.length) ∧
    (let s := { opened with fab := { opened.fab with sliceSet := 0 } }
     sliceRuns s 0 = false ∧ sliceTakes s (theChunk s ⟨0, 0, 0, 0⟩) = false) := by decide +kernel

/-- Slice 0 with one operation of rank 1, its chunk's other rank still missing; a slice can hold more than one of them. -/
def atSlice (d : Desc) (f : Frame) : State :=
  let k : Chunk := { ph := .bound, slice := some 0, present := 2, queued := 1 }
  setSlice { opened with
    tbl := { opened.tbl with desc := [(0, d)] }
    groups := [(0, { gid := some 5, lens := [4], steps := [(0, { st := .open_, chunks := [(0, k)] })] })] } 0 { ops := [op1 f] }
theorem test_meets_ContributionReduced :
    (∀ mode ∈ [0, 1, 2], let s := atSlice (desc mode 0 4) (contrib 5 1 0)
      let d := desc mode 0 4
      let k := theChunk s ⟨0, 0, 0, 0⟩
      sortedB s = true ∧ isRunning s = true ∧ sliceRuns s 0 = true ∧ pickOp s 0 = some (op1 (contrib 5 1 0), []) ∧
      isTransit (contrib 5 1 0) = false ∧ descOf s 0 = d ∧ gdStepEn d = false ∧ chunkWaits s d k = false ∧
      (faultShows .regParity false = true ∧ faultShows .none false = false ∧ faultMet .regParity false = true) ∧
      (tilesGood { contrib 5 1 0 with tiles := [0] } = false ∧ tilesGood (contrib 5 1 0) = true) ∧
      (contrib 5 1 0).payload.length = chunkBytes (bucketLen s d 0) 0 ∧ gdExact d = (mode == 1) ∧ gdMode d = mode ∧
      complete d { k with queued := 0 } = false) ∧ largestOffset (desc 1 0 4) 1 one32 = none := by decide +kernel

/-! ## Results, records, expiry, answers -/

/-- The one chunk of group 5 in step 0. -/
def cid : ChunkId := ⟨0, 0, 0, 0⟩
/-- Group 5 under a descriptor with a step 0. -/
def stepped (d : Desc) (x : StepRec) : State := { grouped d with groups := [(0, { gid := some 5, lens := [4], steps := [(0, x)] })] }
/-- A step with the chunk as given. -/
def withChunk (st : StepSt) (k : Chunk) : StepRec := { st, expiry := some 900, chunks := [(0, k)] }
/-- A chunk of both ranks with its root. -/
def rooted : Chunk := { ph := .rooted .ok, slice := some 0, present := 3, acc := some (.codes [0x3F800000]), slotHeld := true }
/-- A FUSED group whose FIN program, one VEMIT, is loaded. -/
def fused : State := let s := stepped (desc 2 4 4) (withChunk .delivering rooted)
  { s with progStore := memPutBytes [] 0 (wordLE (encodeVec (.emit 1 .f32 (.v 0) .result)))
           tbl := { s.tbl with prog := [(0, packFields [(63, 1, 1), (60, 2, 1), (16, 13, 1)])] } }
/-- A SUM group with its root, and one with a record to send to rank 0. -/
def summed : State := stepped (desc 2 0 4) (withChunk .delivering rooted)
def run1 : RunRec :=
  { bucket := 0, first := 0, last := 0, count := 1, present := 2, status := .ok, flags := 0, vanished := 0, zeros := 0, closeTime := 0, todo := [0] }
def recorded : State := stepped (desc 2 0 4) { st := .delivering, runs := [run1] }
/-- What the FIN run of the fused chunk ends with. -/
def fusedRun : RunEnd := let d := desc 2 4 4
  doRun (atPlace placeWork fused) 0 (runCtx (atPlace placeWork fused) cid d (rootVals d rooted).length 0xFFFFFFFF (popCount rooted.present (gdN d)) true)
    (rootVals d rooted)
/-- A message of the switch to endpoint 1, sent. -/
def sent1 (kind : MsgKind) : Msg := { key := { dest := 1, id := 7 }, kind, frames := [], neve := [], copy := none, sent := true, timer := some (0, 1000) }
theorem test_meets_ResultsAndRecords_fin : (finDue fused cid = true ∧ (theChunk fused cid).slice = some 0 ∧ sliceRuns fused 0 = true ∧
      mayServe fused 0 (gdExpress (desc 2 4 4), 0) = true ∧ chunkWaits fused (desc 2 4 4) (theChunk fused cid) = false) ∧
    (match fusedRun with
      | .fine _ u => !(finStream (desc 2 4 4) rooted (getSlice u 0).run 0).repeatScale
      | _ => false) = true ∧
    (let s := { fused with progStore := memPutBytes [] 0 (wordLE (encodeVec (.ld 0 .w32 1 .keep 0))) }
     match doRun (atPlace placeWork s) 0 (runCtx (atPlace placeWork s) cid (desc 2 4 4) 1 0xFFFFFFFF 2 true) (rootVals (desc 2 4 4) rooted) with
      | .exc _ => true
      | _ => false) = true := by decide +kernel

theorem test_meets_ResultsAndRecords :
    (let e := finalOf (desc 2 0 4) rooted 5 0 0 0
     let q := atPlace placeWork summed
     let q' := atPlace placeWork { summed with bpm := on.bpm }
     isRunning summed = true ∧ buildDue summed cid = some .ok ∧ mayServe summed 0 (false, 0) = true ∧ e.repeatScale = false ∧
      (match deliverResult { q' with jobs := [] } cid e with | .error _ => true | _ => false) = true ∧
      (match deliverResult { q with jobs := [] } cid e with | .ok _ => true | _ => false) = true ∧
      (resultRanks summed cid (desc 2 0 4) e.payload.length).all (fun r => !isPoisoned summed ctrTable (endpointOf summed (desc 2 0 4) r)) = true) ∧
    (let s0 := { atPlace placeSend recorded with jobs := [] }
     dueRun recorded 0 0 0 = some 0 ∧ pdOn recorded 2 = true ∧ (getStep (getGroup recorded 0) 0).runs[0]? = some run1 ∧
      rankPoisoned recorded (desc 2 0 4) 0 = false ∧ winValid (windowOf recorded (desc 2 0 4) 0) = true ∧
      winEntries (windowOf recorded (desc 2 0 4) 0) ≠ 0 ∧ 0 < (ringOf recorded 0 (desc 2 0 4) 0).2 ∧
      (ringOf (putRing recorded 0 0 (3, 0)) 0 (desc 2 0 4) 0).2 = 0 ∧
      (match allocMessage s0 (recordFrames s0 0 0 (desc 2 0 4) run1 0 (ringOf recorded 0 (desc 2 0 4) 0).1 0) [[0]] with
        | .ok _ => true | _ => false) = true ∧
      isPoisoned recorded ctrTable (endpointOf recorded (desc 2 0 4) 0) = false) ∧
    (let m := { sent1 (.release 0) with sent := false }
     nextUnsent { on with msgs := [m] } 1 = some m ∧ inListOrder { on with msgs := [m] } m = true) := by decide +kernel

/-- A partial of endpoint 1 that has fallen silent. -/
def silent : PartRx := { src := 1, msg := 2, dest := 0, ranks := [1], count := 2, got := [0], lastAt := 0 }
/-- A chunk of the expired step with some ranks present. -/
def expired (d : Desc) (present : Nat) : State :=
  stepped d (withChunk .expired { ph := .bound, slice := some 0, present := present, slotHeld := true })
theorem test_meets_ExpiryAndAborts : opened.sorted ∧ isRunning opened = true ∧ (getStep (getGroup opened 0) 0).st = .open_ ∧
    (900 : Word).toNat ≤ (devTime opened).toNat ∧ (∀ l ∈ opened.dispatch, (900 : Word).toNat ≤ l.ts.toNat) ∧
    (homed opened 0).contains (0, 0) = true ∧ isOpen (theChunk opened cid) = true ∧
    (∀ p ∈ [0, 1, 3], let s := expired (desc 2 0 4) p
      (getStep (getGroup s 0) 0).st = .expired ∧ isOpen (theChunk s cid) = true ∧ (homed s 0).contains (0, 0) = true ∧
      runningSlices s ≠ [] ∧ sliceRuns s 0 = true ∧ (theChunk s cid).queued = 0 ∧ (theChunk s cid).parts = []) ∧
    (popCount 0 (gdN (desc 2 0 4)) = 0 ∧ gdMinPresent (desc 2 0 4) = 1 ∧ popCount 1 (gdN (desc 2 0 4)) = 1 ∧ gdLatePol (desc 2 0 4) = 0) ∧
    (popCount 1 2 < gdMinPresent (#v[0, packFields [(8, 17, 2)], 0, 0, packFields [(30, 2, 1)], 0, 0, 0] : Desc) ∧
      gdLatePol (#v[0, packFields [(8, 17, 2)], 0, 0, packFields [(30, 2, 1)], 0, 0, 0] : Desc) = 1) ∧
    (let s := stepped (desc 2 0 4) (withChunk .expired { ph := .bound, slice := some 0, parts := [silent] })
     findPart { s with clk := { s.clk with cycles := 10000000 } } 1 2 = some (cid, silent) ∧
     max 900 0 + (resendLimit s + 1) * timeoutOf s ≤ 10000000) :=
  ⟨sorted_of_sortedB _ (by decide +kernel), by decide +kernel⟩

/-- An answer of a type and reason to that message, as it waits; and the switch with the message and the answer. -/
def answer (typ reason dest : Nat) : LocalC := waiting (mkAnswer typ 1 0 7 dest reason true 0 0 0) 0
/-- A sealed partial of endpoint 2 alone, its back-off over. -/
def comb1 : Comb := { slot := 0, group := 5, step := 0, bucket := 0, chunk := 0, home := 1, elems := 1
                      covs := [{ ranks := [0, 1], src := 2, msg := 3, cls := 1, cmark := false }], held := [], vals := [1], t := 0, cls := 1
                      opened := 0, sealed := true, key := some { dest := 1, id := 7 }, due := some 1000 }
/-- The switch with a message of a kind, and an answer to it. -/
def answered (kind : MsgKind) (resends : Nat) (l : LocalC) : State := { grouped (desc 1 0 4) with
  msgs := [{ sent1 kind with resends }], localQ := [l], combs := [(0, some comb1)] }
theorem test_meets_AnswersReceived :
    (∀ typ ∈ [3, 4, 5, 6, 7], ∀ reason ∈ [1, 3], ∀ resends ∈ [0, 15], let s := answered (.transit 0) resends (answer typ reason 1)
      sortedB s = true ∧ isRunning s = true ∧ findMsg s { dest := 1, id := 7 } = some { sent1 (.transit 0) with resends } ∧
      takeFirst (fun x : LocalC => fType x.frame == typ) s.localQ = some (answer typ reason 1, []) ∧
      ansKey (answer typ reason 1).frame = { dest := 1, id := 7 } ∧ ansReason (answer typ reason 1).frame = reason ∧
      tget none s.combs 0 = some comb1) ∧
    findMsg (answered (.release 0) 0 (answer 3 0 9)) (ansKey (answer 3 0 9).frame) = none ∧
    (0 < fld on.fab.e2eCtl 60 4 ∧ fld on.fab.e2eCtl 60 4 ≤ 15) ∧ 0 + 1000 ≤ on.clk.cycles ∧ comb1.due = some 1000 ∧ pdOn on 2 = true := by
  decide +kernel

/-- A BARRIER or GROUPCTL frame of rank 0 of group 5. -/
def ctl (typ op bseq : Nat) : Frame :=
  frame [(60, 4, typ), (56, 4, 1), (8, 20, 1)] [(48, 16, 5), (40, 8, op), (32, 16, bseq), (0, 16, 0)] [] []
theorem test_meets_GroupMessages : let s := grouped (desc 2 0 4)
    s.sorted ∧ isRunning s = true ∧ (∀ f ∈ [ctl 8 0 0, ctl 9 1 0, ctl 9 0x80 0, ctl 9 2 0, data 0, frame [(60, 4, 2), (56, 4, 1), (8, 20, 1)] [] [] []],
      fKey f = true ∧ fCount f = 1 ∧ fIdx f = 0 ∧ classify (windowFor s (fSrc f)) (BitVec.ofNat 32 (fMsg f)) = 0 ∧
      isPoisoned s winTable (fSrc f) = false ∧ (rxOf s f).kept = [] ∧ (rxOf s f).got = []) ∧
    (∀ x ∈ [(ctl 8 0 0, true), (ctl 9 1 0, false)], (match ctlCheck s x.1 x.2 with | .accept n => n == 0 | _ => false) = true) ∧
    bitOf (ctl 8 0 0).w3 63 = false ∧ (fType (ctl 8 0 0) = 8 ∧ fType (data 0) = 0) ∧
    (fStep (ctl 8 0 0) = (getGroup s 0).bseq ∧ (getGroup s 0).arrivals + 1 ≠ gdN (descOf s 0) ∧ 1 + 1 = gdN (descOf s 0)) ∧
    ((fStep (ctl 8 0 65535) + 1) % 65536 = (getGroup s 0).bseq ∧ fStep (ctl 8 0 65535) ≠ (getGroup s 0).bseq) ∧
    ((fStep (ctl 8 0 1) + 1) % 65536 ≠ (getGroup s 0).bseq ∧ fStep (ctl 8 0 1) ≠ (getGroup s 0).bseq) ∧
    (fType (ctl 9 1 0) = 9 ∧ gcOp (ctl 9 1 0) = 1 ∧ isPoisoned s 0x07 (gdMemberBase (descOf s 0) + fRank (ctl 9 1 0)) = false) ∧
    (let f := ctl 9 0x80 0
     let e : QEnt := { copy := 0, frame := f, src := .port 0 1, ups := 1 }
     let w := noteMark (holdLeave (atPlace (placeMailbox + 0) s) none e) f
     let z := clearRx (noteFrame (putRx w f { rxOf w f with kept := (rxOf w f).kept ++ [waiting f 0] }) f).1 f
     0x80 ≤ gcOp f ∧ fClass f = 1 ∧ (getCore s (fin8 (gcOp f))).mbx.length < 256 ∧
      (match allocCopy z 4097 0 1 (frameBytes f) (fCells f) with | .ok _ => true | .error _ => false) = true) ∧
    (gcOp (ctl 9 2 0) ≠ 1 ∧ gcOp (ctl 9 2 0) < 0x80) := ⟨sorted_of_sortedB _ (by decide +kernel), by decide +kernel⟩

/-! ## Combining, egress, gates -/

/-- EXACT with a grid of 2^-22, on which 1.0 lies. -/
def exact1 : Desc := (desc 1 0 4).set 0 ((desc 1 0 4)[0] ||| packFields [(15, 8, 128)])
/-- An EXACT group, its home behind endpoint 9, with a contribution of rank 0 at the combiner, and partials as given. -/
def combining (cs : SMap (Option Comb)) (f : Frame) : State :=
  let s := grouped exact1
  { s with tbl := { s.tbl with homes := [(0, 9)] }, combQ := [waiting f 0], combs := cs }
/-- An open partial of rank 1 at the combiner. -/
def joinable : Comb := { comb1 with
  sealed := false, opened := 1000, covs := [{ ranks := [1], src := 2, msg := 3, cls := 1, cmark := false }], home := 9, vals := [2 ^ 20] }
/-- That partial as it is received, and the chunk that receives it. -/
def part0 : PartRx := { src := 3, msg := 4, dest := 0, ranks := [0, 1], count := 2, got := [], lastAt := 0 }
def receiving : State := { stepped (desc 1 0 4) (withChunk .open_ { ph := .bound, slice := some 0, parts := [part0] }) with
  dispatch := [waiting transit0 0] }
theorem test_meets_CombiningInPassing :
    (let s := combining [] (contrib 6 0 0)
     s.sorted ∧ isRunning s = true ∧ nextComb s = some [waiting (contrib 6 0 0) 0] ∧ sliceRuns s 0 = true ∧
      slotOf s (fGroup (contrib 6 0 0)) = none) ∧
    (let f := contribTo 9 5 0 0
     ∀ cs ∈ [[], [(0, some joinable)]], let s := combining cs f
      nextComb s = some [waiting f 0] ∧ slotOf s (fGroup f) = some 0 ∧ mayCombine s f = true ∧ combPoisoned s 0 f = false ∧
      combSlice s f = some 0 ∧ answersWait s = false ∧
      (asPart (atPlace (placeCombine 0) s) 0 [waiting f 0]).any (fun p => p.fin && decide (p.ranks = [0]) &&
        fits32 (min 0 p.t) (combineVals exact1 [2 ^ 20] p.vals none).1 &&
        (combineVals exact1 [2 ^ 20] p.vals (slipOf (.adder 0 1 0))).2) = true ∧
      (findComb s f = if cs.isEmpty then none else some (0, joinable)) ∧ slotsUsed s 0 < gdQuota exact1) ∧
    (let q := atPlace (placeCombine 0) (combining [(0, some joinable)] (contribTo 9 5 0 0))
     windowOver q joinable = false ∧ windowOver { q with clk := { q.clk with cycles := 10000 } } joinable = true) ∧
    (combRanks joinable = [1] ∧ joinable.slot = 0 ∧ joinable.fin = true) ∧
    heldUp (combining [(0, some { joinable with held := [waiting (contribTo 9 5 0 0) 0] })] (data 9)) 0 1 = true ∧
    windowOver { on with clk := { on.clk with cycles := 10000 } } comb1 = true ∧ pdOn on 2 = true ∧ bitOf (0 : Word) 63 = false ∧
    (let o : SerOp := { c := waiting transit0 0, cid := ⟨0, 0, 0, 0⟩, rank := 0, express := false, since := 0 }
     let s := setSlice receiving 0 { ops := [o] }
     isRunning s = true ∧ pickOp s 0 = some (o, []) ∧ isTransit transit0 = true ∧ sliceRuns s 0 = true ∧
      partOf (theChunk s o.cid) transit0 = some part0 ∧ chunkWaits (atPlace placeWork s) (descOf s 0) (theChunk s o.cid) = false ∧
      tilesGood transit0 = true ∧ part0.added.length + 1 < part0.count ∧
      (firnMeets s 0 (firnReads (desc 1 0 4) (theChunk s o.cid) (partNext (desc 1 0 4) (theChunk s o.cid) transit0 none).1)).1 = false) ∧
    (let again := { part0 with got := [0] }
     let x := withChunk .open_ { ph := .bound, slice := some 0, parts := [again] }
     let s := setGroup receiving 0 { gid := some 5, lens := [4], steps := [(0, x)] }
     pickLocal s 0 = some (waiting transit0 0) ∧ knownPart s transit0 = some (0, again) ∧
      fIdx transit0 = 0) := by
  refine ⟨⟨sorted_of_sortedB _ (by decide +kernel), by decide +kernel⟩, ?_⟩
  decide +kernel
/-- Group 5 with a step program of one instruction, a load from an arena that it does not have. -/
def faulting : State :=
  let s := combining [] (contribTo 9 5 0 0)
  { s with
    tbl := { s.tbl with desc := [(0, exact1.set 5 (packFields [(53, 1, 1)]))], prog := [(0, packFields [(63, 1, 1), (60, 2, 1), (16, 13, 1)])] }
    progStore := (wordLE (encodeVec (.ld 0 .w32 1 .keep 0))).zipIdx.map fun x => (x.2, x.1) }
theorem test_meets_CombiningInPassing_program : gdStepEn (descOf faulting 0) = true ∧ gdStepEn (desc 1 0 4) = false ∧
    (match combRun faulting 0 0 [] [2 ^ 20] with | .fine _ _ => true | _ => false) = true ∧
    (match combRun faulting 0 0 [waiting (contribTo 9 5 0 0) 0] [7] with | .away _ => true | _ => false) = true ∧
    (match firstRun faulting 0 0 { joinable with held := [waiting (contribTo 9 5 0 0) 0] } with | .away _ => true | _ => false) = true ∧
    (match firstRun faulting 0 0 { joinable with ran := true } with | .fine _ _ => true | _ => false) = true := by decide +kernel

/-- The switch with port 0 as given. -/
def port0 (x : Port) : State := { grouped (desc 2 0 4) with ports := [(0, x)] }
/-- A queued frame, and port 0 with it in a class. -/
def ent : QEnt := { copy := 0, frame := data 9, src := .port 0 1, ups := 1 }
def queued (c : Fin 8) : Port := setCls up0 c { getCls up0 c with q := [ent] }
/-- A hold entry with its Keystone frame. -/
def hold1 (retx : Bool) : HoldEnt :=
  { key := ⟨1, 9, 1, retx⟩, port := some 0, frames := 2, left := 0, ks := some ent, ends := 1000, last := 0 }
theorem test_meets_EgressFrames :
    (∀ c ∈ [(1 : Fin 8), 7], let s := port0 (queued c)
      let s1 := noteGuard (dropFenced (syncGate (atPlace (placeStart s 0) s) 0) 0) 0
      let y := (pickClass s1 (getPort s1 0)).1
      sortedB s = true ∧ portLive s 0 = true ∧ (getPort s 0).sending = none ∧ (pickClass s1 (getPort s1 0)).2 = some c ∧
      eligible s1 (getPort s1 0) c = true ∧ (getCls y c).q = [ent] ∧ verifies (setPort s1 0 y) 0 ent = false) ∧
    (let s1 := noteGuard (dropFenced (syncGate (atPlace (placeStart (port0 up0) 0) (port0 up0)) 0) 0) 0
     (pickClass s1 (getPort s1 0)).2 = none ∧ (getPort (port0 up0) 0).sending = none) ∧
    (getPort (port0 { up0 with sending := some { ent, cls := 1, ends := 1000 } }) 0).sending = some { ent, cls := 1, ends := 1000 } ∧
    (∀ r, let s := { port0 up0 with holds := [hold1 r] }
      findHold s ⟨1, 9, 1, r⟩ = some (hold1 r) ∧ lastLeaving s (hold1 r) = false) ∧ (hold1 true).ends ≤ on.clk.cycles ∧
    (let e : QEnt := { ent with frame := reHop { data 9 with w0 := (data 9).w0 &&& ~~~(packFields [(55, 1, 1)]) } }
     lastLeaving (port0 { up0 with sending := some { ent := e, cls := 1, ends := 1000 } }) { hold1 false with key := holdKey e.frame } = true) ∧
    ((hold1 true).ks.isSome = true ∧ (hold1 true).last + fld { on.fab with ksCtl := 0x00041EB000000010 }.ksCtl 0 16 ≤ on.clk.cycles) := by
  decide +kernel

/-- Characters as a lane at negative running disparity sends them. -/
def codesOf (cs : List Sym) : List Code := (laneCode {} cs).1
theorem test_meets_GatesAndCredits : isRunning (port0 up0) = true ∧
    (let x := { up0 with gateList := [0xFF000001], gateArmed := some 1000 }
     x.gateList ≠ [] ∧ x.gateEntryAt + 1 ≤ (port0 x).clk.cycles ∧ (1000 : Word).toNat ≤ (devTime (port0 x)).toNat ∧
      switchDue (atPlace placeWrite (port0 x)) 0 = true) ∧
    portRegs (port0 up0) 0 = true ∧ switchDue (atPlace placeWrite (port0 up0)) 0 = false ∧
    ((0 : Word).toNat ≤ (5 : Word).toNat ∧ 0 < 7 ∧ (5 : Word).toNat + 7 < 2 ^ 64) ∧
    ((port0 up0).tap.taken = false ∧ up0.st = .up ∧ up0.lt = .linked ∧ pdOn (port0 up0) 22 = true ∧ portLive (port0 up0) 0 = true) ∧
    (let got := fun cs : List Sym => (rxData (rxAdvance (atPlace placeWire (port0 up0)) 0) 0 (codesOf cs)).1
     got [.d 0, .d 0, .d 0] = some [0, 0, 0] ∧ got [.d 0, .d 0, .d 1] = some [0, 0, 1] ∧ got [.d 0, .d 1, .d 7] = some [0, 1, 7] ∧
      got [.d 0, .k kAbort, .d 0] = none) ∧
    crc8 [0, 0] ≠ 1 ∧ (crc8 [0, 0] = 0 ∧ bitOf (0 : Byte) 4 = false ∧
      ((0 : BitVec 12) - (getVc up0 0).ret).toNat ≤ ((getVc up0 0).sent - (getVc up0 0).ret).toNat) ∧
    (crc8 [0, 1] = 7 ∧ ((getVc up0 0).sent - (getVc up0 0).ret).toNat < ((1 : BitVec 12) - (getVc up0 0).ret).toNat) ∧
    (let x : Port := { lt := .linked, st := .training, initSent := true }
     x.lt = .linked ∧ x.initSent = true ∧ x.peerCred0 = false ∧ x.initAt + 1350 ≤ 1350) ∧
    (let x : Port := { lt := .linked, st := .training, withheld := true }
     x.withheld = true ∧ x.lt = .linked ∧ fitsUp (atPlace placeWork (port0 x)) 0 = true ∧ x.vc.all (·.gotInit) = false) ∧
    (allotOthers (port0 up0) 0 0 + fld (0x0300000000000000 : Word) 52 12 ≤ 2048 ∧
      2048 < allotOthers (port0 up0) 0 0 + fld (0xFFF0000000000000 : Word) 52 12) := by decide +kernel

/-! ## Ports and lanes, Viaducts -/

/-- Port 0 and lane 0 as given, at a cycle. -/
def link (x : Port) (l : Lane) (cycle : Nat) : State :=
  { on with ports := tput {} [] 0 x, lanes := tput {} [] 0 l, clk := { on.clk with cycles := cycle } }
/-- A training set of 16 characters with a right check. -/
def set16 (b : List Byte) : List Code := codesOf ([.k kComma] ++ (b ++ [crc8 b]).map .d ++ [.k kComma])
/-- TS1 and TS2 of lane index 0, one lane wide. -/
def ts1 : List Code := set16 [0x4A, 0x11, 0, 0, 0, 0, 0, 2, 0, 3, 0, 0, 0]
def ts2 : List Code := set16 [0x45, 0x11, 0, 0, 0, 0, 0, 2, 0, 3, 0, 0, 0]
theorem test_meets_LinkTraining : (∀ lt ∈ [LT.detect, .poll, .config, .eq, .linked], let s := link { lt, gen := 1 } { active := true } 1000
      sortedB s = true ∧ isRunning s = true ∧ portExists s 0 = true ∧ portOfLane s 0 = 0 ∧ (getPort s 0).lt = lt ∧ (getLane s 0).active = true ∧
      s.tap.taken = false ∧ laneClocked s 0 = true ∧ laneHears s 0 = (lt != .detect)) ∧
    (let w := atPlace placeWire (link { lt := .poll } {} 1000)
     (readSet w 0 [0]).1 = none ∧ ts1 ≠ [] ∧ ts2 ≠ [] ∧ ((readSet w 0 ts1).1.map (·.ts2)) = some false ∧ ((readSet w 0 ts2).1.map (·.ts2)) = some true ∧
      (readSet w 0 ts1).2.clk.cycles < (getPort w 0).ltSince + 27000 ∧ ((readSet w 0 ts1).1.map (·.genNow)) = some 0 ∧
      (rxCodes w 0 (codesOf [.k kMark, .d 0, .d 0, .d 0])).1 = [some (.k 0x7C), some (.d 0), some (.d 0), some (.d 0)] ∧
      (rxCodes w 0 (codesOf [.k kMark, .d 0xC0, .d 0, .d 0])).1 = [some (.k 0x7C), some (.d 0xC0), some (.d 0), some (.d 0)] ∧
      (none ∈ (rxCodes w 0 [0, 0, 0, 0]).1 ∧ (∀ xi ∈ (rxCodes w 0 [0, 0, 0, 0]).1.zipIdx, misplaced xi.2 xi.1 = false) ∧
        (getLane (rxCodes w 0 [0, 0, 0, 0]).2 0).codeErr ≤ 0xFFFF) ∧
      (∀ x ∈ [Sym.k 0xBC, .d 7], codesOf [x] ≠ [] ∧ (rxCode (rxAdvance w 0) 0 ((codesOf [x]).headD 0)).1 = some x) ∧
      (rxCode (rxAdvance w 0) 0 0).1 = none) ∧
    (crc8 [0, 0] = 0 ∧ fld (0 : Byte) 6 2 = (0 : BitVec 2).toNat ∧ fld (0xC0 : Byte) 6 2 ≠ (0 : BitVec 2).toNat) ∧
    (∀ x ∈ [(LT.poll, 270000), (.config, 27000)], let s := link { lt := x.1, st := .training } {} x.2
      (getPort s 0).lt = x.1 ∧ (getPort s 0).fast = none ∧ (getPort s 0).ltSince + x.2 ≤ s.clk.cycles) ∧
    (let x : Port := { st := .down, retryAt := some 1000, ctl := 0x90000000000A4CB8 }
     x.retryAt = some 1000 ∧ 1000 ≤ (link x {} 1000).clk.cycles ∧ x.st = .down ∧ portRole x ≠ 3 ∧ pdOn (link x {} 1000) 22 = true) ∧
    (let x : Port := { lt := .eq, fast := some 1000 }
     x.fast = some 1000 ∧ 1000 ≤ (link x {} 1000).clk.cycles ∧ x.lt ≠ .linked) := by decide +kernel
theorem test_meets_PortStates :
    (let s := link {} {} 1000
     sortedB s = true ∧ portRegs s 0 = true ∧ linkRegs s 0 = true ∧ (getPort s 0).st = .off ∧ (getPort s 0).retryAt = none ∧
      fld (0x8000000000000000 : Word) 61 2 ≠ 3 ∧ fld (0xE000000000000000 : Word) 61 2 = 3 ∧ pdOn s 22 = true) ∧
    ((getPort (link { st := .down } {} 1000) 0).st = .down ∧ portRegs (link { st := .down } {} 1000) 0 = true) ∧
    (up0.st ≠ .off ∧ up0.st ≠ .down ∧ up0.st = .up ∧ up0.lt = .linked ∧ 0 < fld up0.ctl 0 32) ∧
    (let x : Port := { st := .held, holdEnds := some 1000 }
     x.st = .held ∧ x.holdEnds = some 1000 ∧ 1000 ≤ (link x {} 1000).clk.cycles) ∧
    (up0.st = .up → lostHere (port0 up0) 0 = none) ∧
    (let s := { port0 up0 with cyc := { lost := [(0, some 3)] } }
     lostHere (atPlace placeLoss s) 0 = some 3 ∧ (3 : BitVec 3).toNat ≤ 6 ∧ (1 : BitVec 3).toNat < (3 : BitVec 3).toNat) ∧
    (∀ g ∈ [(0 : Fin 128), 127], groupRegs on g = true ∧ (∀ i < 4, wasOff (atPlace placeWrite on) (4 * g.val + i) = true)) ∧
    wasOff (atPlace placeWrite { on with cyc := { wasOff := [(0, some false)] } }) 0 = false ∧
    (fld (0 : Word) 62 2 ≠ 3 ∧ fld (0xC000000000000000 : Word) 62 2 = 3) ∧ (getPort (port0 up0) 0).st ≠ .off ∧
    (pdOn on 2 = true ∧ on.ports = [] ∧ on.tbl.desc = []) ∧ (∃ kp ∈ (port0 up0).ports, kp.2.st ≠ .off) := by decide +kernel
theorem test_meets_EyesAndViaducts : (∀ lane ∈ [(0 : Fin 512), 511], laneRegs on lane = true ∧ (getLane on lane.val).eyeBusy = false) ∧
    ((getLane on 0).lock = false ∧ fld (0x8000000000000000 : Word) 61 2 ≠ 3 ∧ fld (0xE000000000000000 : Word) 61 2 = 3) ∧
    ((getLane (link {} { lock := true } 0) 0).lock = true ∧ (getLane (link {} { eyeBusy := true } 0) 0).eyeBusy = true) ∧
    (∀ v : Fin 8, pdOn on (22 + v.val) = true ∧ (on.vdct[v]).stopped = false ∧ (on.vdct[v]).failsIn < 4) ∧
    4 ≤ ((setVdct on 7 { failsIn := 4 }).vdct[7]).failsIn ∧
    (((setVdct on 7 { stopped := true }).vdct[7]).stopped = true ∧ ((setVdct on 7 { stopped := true }).vdct[7]).busy = false ∧
      ((setVdct on 7 { busy := true }).vdct[7]).busy = true) := by decide +kernel

/-! ## Buffer pools, slices, arenas, Firn -/

/-- The running switch with its pools built; extent `x` is allocated to the control complex, and extent 6 is free, its link
word with the bit of a free extent that ends its list. -/
def pooled (x : Nat) : State := { on with
  firn := [(6 * 65536 + 7, 0x80)], bpm := { on.bpm with neveReady := true, firnReady := true, extHead := some 6, extAlloc := [(x, true)] } }
/-- Wherever the regions reserved at boot lie, extent 0 or extent 3328 is one of the pool's. -/
theorem test_in_pool : inPool 0 = true ∨ inPool 3328 = true := by
  by_cases h : Config.firnReservedFirst = 0
  · exact .inr (by simp [inPool, isReservedExt, extTotal, extReserved, h])
  · exact .inl (by simp [inPool, isReservedExt, extTotal]; omega)
theorem test_meets_BufferPools : (pooled 5).wf ∧ isRunning (pooled 5) = true ∧ pdOn (pooled 5) 2 = true ∧
    (match allocExts (pooled 5) 4097 1 true with | .ok (xs, _) => decide (xs = [6]) | .error _ => false) = true ∧
    (match allocExts { pooled 5 with bpm := { (pooled 5).bpm with extHead := none } } 4097 1 true with
      | .ok _ => false | .error e => decide (e.cuts = [])) = true ∧
    on.bpm.firnReady = false ∧ tget false (pooled 5).bpm.extAlloc 6 = false ∧
    (let s := { grouped (desc 2 0 4) with jobs := [.answer (data 9)] }
     takeFirst (fun y => jobReq y == 4098) s.jobs = some (.answer (data 9), []) ∧ s.bpm.neveReady = true) ∧
    (let s := { grouped (desc 2 0 4) with tbl := { (grouped (desc 2 0 4)).tbl with quota := [(4098, #v[0, 0, 0])] } }
     mayNeve (atPlace placeWork s) 4098 (fCells (data 9)) = false) ∧
    ({ pooled 5 with bpm := { (pooled 5).bpm with waiting := true } } : State).bpm.waiting = true ∧
    (on.bpm.neveReady = false ∧ pdOn on 7 = true ∧ ∀ k : Fin 4, pdOn on (3 + k.val) = true ∧ (getStack on k).trained = false) := by
  refine ⟨⟨by unfold State.memWf; decide, sorted_of_sortedB _ (by decide), by unfold State.coresWf; decide⟩, ?_⟩
  decide +kernel
theorem test_meets_BufferPools_extents : (∃ x : BitVec 22, inPool x.toNat = true ∧
      tget false (pooled x.toNat).bpm.extAlloc x.toNat = true ∧ tget false (pooled x.toNat).bpm.retired x.toNat = false) ∧
    (∃ x : BitVec 22, inPool x.toNat = false) := by
  refine ⟨?_, 0x3FFFFF, rfl⟩
  rcases test_in_pool with h | h
  · exact ⟨0, h, by decide⟩
  · exact ⟨3328, h, by decide⟩
theorem test_meets_BufferPools_firn :
    (let s := { on with sec := { on.sec with done := true }, frn := on.frn.map fun x => { x with trained := true } }
     firnOn s = true ∧ s.sec.done = true ∧ s.bpm.firnReady = false ∧ s.frn.all (·.trained) = true) ∧
    (let s := { on with remapFrom := [(786431, some 4096)], tbl := { on.tbl with remap := [(786431, 0xA0000001)] } }
     tget none s.remapFrom 786431 = some 4096 ∧ remapState (remapEnt s 786431) = 2 ∧
      pdOn s (3 + (fin4 (786431 / 196608)).val) = true ∧ (getStack s (fin4 (786431 / 196608))).stuck = false) := by
  decide +kernel

/-- A chunk of group 5 bound to slice 17, which has left the set. -/
def moved : State := stepped (desc 2 0 4) (withChunk .open_ { ph := .bound, slice := some 17 })
theorem test_meets_SlicesArenasFences : isRunning moved = true ∧ pdOn moved 2 = true ∧
    (((List.range 18).filter fun k => bitOf ((0x3FFFC#64).setWidth 18) k).length ≤ 16 ∧
      ∀ k ∈ (List.range 18).filter fun k => bitOf ((0x3FFFC#64).setWidth 18) k, sliceAllowed on k = true ∧
        (bitOf on.fab.sliceSet k = true ∨ (getSlice on (fin18 k)).halted = false)) ∧
    16 < ((List.range 18).filter fun k => bitOf ((0x3FFFF#64).setWidth 18) k).length ∧
    ((theChunk moved cid).slice = some 17 ∧ leastLoaded moved = some 0 ∧ bitOf moved.fab.sliceSet 17 = false ∧
      isClosed (theChunk moved cid) = false) ∧ sliceLive moved 0 = true ∧ sliceLive moved 17 = true ∧
    (moved.fab.arenaBusy = none ∧ arenaCheck moved 1 0 = .inl 2) ∧
    (let s := onFab moved fun f => { f with arenaBusy := some (3, 0, 7, 0) }
     s.fab.arenaBusy = some (3, 0, 7, 0) ∧ firnOn s = true ∧ ∀ a ∈ arenaReach (3, 0, 7, 0), firnWaits s a.1 a.2 = false) ∧
    (let s := combining [(0, some joinable)] (data 9)
     sortedB s = true ∧ (theChunk s cid).slice = none ∧ (leastLoaded s).isSome = true ∧ (combsOf s cid).length = 1) ∧
    sortedB moved = true ∧ (getStep (getGroup moved 0) 0).st ≠ .idle ∧ (3 < (7#3).toNat) := by decide +kernel
/-- Group 5 with an arena of one extent, the command's argument and an allocated extent as given. -/
def arenaOf (x : Nat) : State :=
  let s := setGroup { pooled x with tbl := (grouped (desc 2 0 4)).tbl } 0 { arena := [7] }
  { s with fab := { s.fab with arenaArg := BitVec.ofNat 64 x } }
theorem test_meets_SlicesArenasFences_arena : arenaCheck (arenaOf 0) 3 0 = .inr 7 ∧
    ∃ x, arenaCheck (arenaOf x) 1 0 = .inr 7 ∧ arenaCheck (arenaOf x) 2 0 = .inr 7 := by
  refine ⟨by decide +kernel, ?_⟩
  rcases test_in_pool with h | h
  · have e : fld (arenaOf 0).fab.arenaArg 0 22 = 0 := by decide
    exact ⟨0, by unfold arenaCheck; simp only [e, h]; decide +kernel, by unfold arenaCheck; simp only [e, h]; decide +kernel⟩
  · have e : fld (arenaOf 3328).fab.arenaArg 0 22 = 3328 := by decide
    exact ⟨3328, by unfold arenaCheck; simp only [e, h]; decide +kernel, by unfold arenaCheck; simp only [e, h]; decide +kernel⟩

theorem test_meets_FirnStacks :
    (let s := setStack on 3 { margin := 0 }
     s.memWf ∧ s.coresWf ∧ sortedB s = true ∧ isRunning s = true ∧ pdOn s (3 + (3 : Fin 4).val) = true) ∧
    (fld (0x0102030000000000 : Word) 56 8 < fld (0x0102030000000000 : Word) 48 8 ∧
      fld (0x0102030000000000 : Word) 48 8 < fld (0x0102030000000000 : Word) 40 8) ∧ fld (0 : Word) 48 8 ≤ fld (0 : Word) 56 8 ∧
    nextLevel [85, 95, 105] 3 0 20 ≤ 0 ∧ (getStack (setStack on 0 { level := 3 }) 0).level = 3 ∧
    ((getStack (setStack on 0 { marginBusy := true }) 0).marginBusy = true ∧ (getStack (setStack on 0 { marginBusy := true }) 0).stuck = false ∧ (getStack on 0).marginBusy = false) ∧
    (let s := { on with tbl := { on.tbl with remap := [(15, 0x80000000)] } }
     15 ∈ marginEntries 0 (fld (0 : Word) 56 6) ∧ bitOf (remapEnt s 15) 31 = true) ∧
    ((marginEntries 0 0).all fun i => !bitOf (remapEnt on i) 31) = true ∧ (tget {} on.refreshes 255 : Refresh).last + 872 ≤ on.clk.cycles ∧
    (let good : Vector Byte 36 := Vector.replicate 36 0
     let bad := ((good.set 0 1).set 1 2).set 2 4
     (0x2FFFFFFF00 : Nat) < firnSize ∧ (0 : Nat) / 256 * 256 < firnSize ∧ pdOn on (3 + (firnDecode 0).stack) = true ∧ burstWaits on 0 = false ∧
      (judgeBeat 0 (good.toList.map (·.toNat))).1 = false ∧ (judgeBeat 0 (good.toList.map (·.toNat))).2.1 = none ∧
      (judgeBeat 0 (good.toList.map (·.toNat))).2.2.1 = false ∧ (judgeBeat 0 (bad.toList.map (·.toNat))).1 = true ∧
      (judgeBeat 0 ((good.set 5 9).toList.map (·.toNat))).2.1 = some 5) ∧
    (let l : Line := { addr := 0, data := 7, valid := 1, dirty := 1 }
     let s := setStack on 0 { cache := [(0, [l])] }
     findLine s 0 = some (l, []) ∧ findLine (atPlace placeWork s) 0 = some (l, []) ∧ l.dirty ≠ 0 ∧ burstLost (atPlace placeWork s) 0 .none = false ∧ burstWaits s 0 = false) := by
  unfold State.memWf State.coresWf; decide +kernel

/-! ## Resets, power, boot, management -/

theorem test_meets_Resets : on.wf ∧ State.reset.clk.pwrOk = false ∧
    (let s := { State.reset with clk := { State.reset.clk with pwrOk := true } }
     s.clk.running = false ∧ s.clk.pwrOk = true ∧ s.clk.refclk = true ∧ perstHolds s = false) ∧
    ({ on.clk with refclk := false } : Clk).refclk = false ∧
    ((getMgmt on 0).perst = false ∧ on.clk.pwrOk = true ∧ bitOf on.clk.rstCfg 63 = true ∧ bitOf on.clk.rstCfg 62 = false) ∧
    (partyActs on (.mgmt 1) = true ∧ partyActs (core0 run0) (.core 0) = true ∧ on.clk.pllLock = true ∧ bitOf (getErr on 47).status 1 = false) ∧
    bitOf (getErr { on with errs := [(47, { status := 2, mask := 1, info := 0 })] } 47).status 1 = true := by
  refine ⟨⟨by unfold State.memWf; decide, sorted_of_sortedB _ (by decide), by unfold State.coresWf; decide⟩, by decide +kernel⟩
theorem test_meets_PowerAndClocks : sortedB on = true ∧ pdOn on 1 = true ∧ partyActs on (.mgmt 0) = true ∧ on.clk.pwrSwitching = [] ∧
    ((List.range 30).all fun i => bitOf (0x3FFFFFFF : Word) i == bitOf on.clk.pwrOn i) = true ∧
    (bitOf (0x3FFDFFFF : Word) 17 = false ∧ bitOf on.clk.pwrOn 17 = true ∧
      ((List.range 30).all fun i => i == 17 || bitOf (0x3FFDFFFF : Word) i == bitOf on.clk.pwrOn i) = true ∧
      offAllowed on on.clk.pwrOn 17 = true ∧ offAllowed on on.clk.pwrOn 9 = false) := by decide +kernel
theorem test_meets_PowerAndClocks_switching : ∀ b : Bool,
    let s : State := { on with clk := { on.clk with pwrSwitching := [(9, b, 0)], cycles := 4 * switchTimeOf 9 b } }
    s.clk.pwrSwitching ≠ [] ∧ takeFirst (fun x => x.1 == 9) s.clk.pwrSwitching = some ((9, b, 0), []) ∧
      (9, b, 0) ∈ s.clk.pwrSwitching ∧ 0 + 4 * switchTimeOf 9 b ≤ s.clk.cycles := by
  intro b; cases b <;> decide
theorem test_meets_PowerAndClocks_levels : on.clk.pllLock = true ∧ secClocked on = true ∧ ({ on.clk with fatalSeen := true } : Clk).fatalSeen = true ∧
    ({ on.clk with pllLock := false } : Clk).pllLock = false ∧
    (let s := port0 up0
     isRunning s = true ∧ portOfLane s (16 * (4 * (0 : Fin 8).val + (0 : Fin 4).val) + 3) = 0 ∧ portExists s 0 = true ∧ (getPort s 0).st = .up ∧
      (getPort s 0).lt = .linked ∧ 0 < fld (getPort s 0).ctl 0 32 ∧ lostHere s 0 = none) ∧
    (fld (0x0102000000000000 : Word) 56 8 < fld (0x0102000000000000 : Word) 48 8 ∧ fld (0 : Word) 48 8 ≤ fld (0 : Word) 56 8) ∧
    (on.clk.dieLevel < 2 ∧ nextLevel [100, 110] 3 0 120 = 2) ∧ (on.clk.fatalSeen = false ∧ on.clk.aliveNext ≤ 524288) := by decide +kernel
theorem test_meets_BootFlashAttestation : secClocked on = true ∧ pdOn on 1 = true ∧
    (({ on.sec with waiting := true } : Sec).waiting = true ∧ on.sec.waiting = false ∧ on.sec.pufDone = false ∧ ({ on.sec with internal := true } : Sec).internal = true) ∧
    (({ on.sec with flashRun := some 0 } : Sec).flashRun.isSome = true ∧ on.sec.done = false) ∧
    (on.sec.flashRun = none ∧ ({ on.sec with done := true } : Sec).done = true ∧ fld (0x8000000000000000 : Word) 60 2 ≠ 3 ∧
      fld (0xF000000000000000 : Word) 60 2 = 3) ∧
    (({ on.sec with bootRom := true, codeLimit := 4096 } : Sec).codeLimit ≠ 0 ∧ 256 ≤ on.clk.cycles ∧ on.clk.warm = false ∧
      gradeOk on = true ∧ ({ on.clk with warm := true } : Clk).warm = true) ∧
    (({ on.sec with tries := [(true, 1)] } : Sec).tries = (true, 1) :: [] ∧ imageResult (atPlace placeWork on) [] 0 false ≠ 0) ∧
    (({ on.sec with attBusy := some [] } : Sec).attBusy.isSome = true ∧ on.sec.attBusy = none ∧ on.sec.internal = false ∧
      on.sec.idValid = false ∧ ({ on.sec with idValid := true } : Sec).idValid = true) := by decide +kernel
/-- A vendor-signed image with one CODE section of eight bytes at 0, the region [0, 4096), and a signature of zeros. -/
def image : List Byte :=
  ([0x5A, 0x58, 0x35, 0x31, 1, 0, 0, 0] ++ List.replicate 9 0 ++ [0xFF, 1, 0, 0xF8, 0x74, 0, 0, 0, 0, 0, 0, 0, 0x10, 0, 0] ++
    List.replicate 96 0 ++ [1, 0, 0, 0, 0x90, 0, 0, 0, 8, 0, 0, 0, 0, 0, 0, 0] ++ List.replicate 8 0) ++ List.replicate 29792 0
/-- No image is known to be the vendor's, since the vendor's key is free; this one passes every other check, so it is taken if its
signer is the vendor and the scheme takes its signature. -/
theorem test_meets_BootFlashAttestation_image
    (signer : shake256 (signerPk image) 32 = Config.vendorHash)
    (sig : slhVerify (signerPk image) (digestOf image) ((image.drop (sigStart image)).take 29792) = true) :
    imageResult (atPlace placeWork on) image image.length false = 0 := by
  have l : image.length = 29944 := by
    simp only [image, List.length_append, List.length_replicate, List.length_cons, List.length_nil]
  have m : magicOk image = true := by unfold magicOk; rw [l]; decide +kernel
  have p : stepOk image = true := by decide +kernel
  have y : layoutOk image 29944 false = true := by decide +kernel
  have k : imgNat image 6 1 = 0 := by decide +kernel
  simp [imageResult, l, m, p, y, k, signer, sig]
theorem test_meets_ManagementTargets : on.sec.idValid = false ∧ pdOn on 1 = true ∧ on.clk.pwrOk = true ∧ (0#5).toNat = 0 ∧ 7 < (8#5).toNat ∧
    smbusPec [0x74, 1] ≠ 0 ∧ (7 : Byte).toNat > 6 ∧ (1 : Byte).toNat ≤ 6 := by decide

end Sys2Proof.Tests
end

section
/-! PROOFS. TBL.R across the end of a cycle (R310, R251, R256): the statement reads the committed word before the read takes its place in
a cycle; where that place lies in the next cycle, the end of the cycle counts a refusal of waiting work in DENIED first. -/

namespace Sys2Proof.Machine

/-- A running switch whose cycle has gone beyond the place of reads. Core 0 is about to read word 2 of quota entry 4098 (G2), and an
answer waits for more cells than that entry allows, so that the end of the cycle counts its refusal in DENIED. -/
def readAfterRefusal : State :=
  { clk := { ({} : Clk) with running := true, pllLock := true, pwrOk := true, cycles := 1000 }
    sec := { codeLimit := 0x1000 }
    cyc := { place := placeWork }
    jobs := [.answer {}]
    wants := [{ job := .answer {}, ask := { cells := (4098, 1000000) } }]
    cores := (Vector.replicate 8 {}).set 0
      { st := .running, pc := 0x01000000, regs := (Vector.replicate 32 0).set 2 4098 } }

/-- A general register of a core in the state that a command answers. -/
def answeredReg (r : Res) (c : CoreNo) (n : BitVec 6) : Option Word :=
  match r with
  | .next t => some (readReg (getCore t c) n)
  | .fault _ => none
  | .refused _ => none

/-- A result retired into a register but G0 is what that register then reads as. -/
theorem answeredReg_retire (s : State) (c : CoreNo) (d : BitVec 6) (v : Word) (hd : okReg d = true) (h0 : d ≠ 0) :
    answeredReg (.next (retire s c d v)) c d = some v := by
  change some (readReg (getCore (retire s c d v) c) d) = some v
  have hpc : readReg (nextPc (writeReg (getCore s c) d v)) d = readReg (writeReg (getCore s c) d v) d := rfl
  rw [getCore_retire, hpc, readReg_writeReg _ d d v hd hd, if_pos ⟨rfl, h0⟩]

theorem readAfterRefusal_sorted : readAfterRefusal.sorted := sorted_of_sortedB _ (by decide)

theorem readAfterRefusal_ready : coreReady readAfterRefusal 0 := by unfold coreReady; decide

theorem readAfterRefusal_place : tblPlace 10 (readReg (getCore readAfterRefusal 0) 2) (2#32).toNat = some (10, 4098, 2) := by decide

/-- Before the command DENIED of the entry is 0, and so is the whole word. -/
theorem readAfterRefusal_before : tblWord readAfterRefusal 10 4098 2 = 0 ∧ stagedVal (getCore readAfterRefusal 0) 10 4098 2 = none := by
  decide +kernel

/-- The command reads DENIED as 1. -/
theorem readAfterRefusal_answers : answeredReg (exec (.tblR 0 1 2 10 2 .none) readAfterRefusal) 0 1 = some 0x10000 := by decide +kernel

/-- Refutes O21: the statement takes the value from the state before the command, but a TBL.R that comes after its place in the cycle
falls in the next cycle, and the end of the old one counts the refusal of a waiting answer in DENIED of the word that is read. -/
theorem not_tableReadValue : ¬ Obligations.TableReadValue := by
  unfold Obligations.TableReadValue
  intro h
  obtain ⟨hval, -, -⟩ := h readAfterRefusal 0 1 2 10 2 10 4098 2 readAfterRefusal_sorted readAfterRefusal_ready (by decide) (by decide)
    (by decide) readAfterRefusal_place (by decide)
  obtain ⟨hword, hstage⟩ := readAfterRefusal_before
  simp only [hstage, hword] at hval
  have hread := readAfterRefusal_answers
  rw [hval, answeredReg_retire _ 0 1 0 (by decide) (by decide)] at hread
  exact absurd hread (by decide)

end Sys2Proof.Machine
end

section
/-! PROOFS. The general registers across commands (R279): every function of the model that a command calls leaves the general registers of
all cores as they are, but for the instructions, which write those of the core that runs them, and the resets, which clear them all. A core
that is HALTED or STOPPED runs no instruction, so a command keeps its registers or resets it. -/

namespace Sys2Proof.Machine

/-! ### What the proofs speak of -/

/-- The general registers of the eight control cores (R279). -/
@[reducible, simp] def genRegs (s : State) : Vector (Vector Word 32) 8 := s.cores.map Core.regs

@[simp] theorem genRegs_ite (p : Prop) [Decidable p] (s t : State) :
    genRegs (if p then s else t) = if p then genRegs s else genRegs t := by split <;> rfl

@[simp] theorem genRegs_foldl {α : Type} (f : State → α → State) (hf : ∀ s x, genRegs (f s x) = genRegs s)
    (xs : List α) (s : State) : genRegs (xs.foldl f s) = genRegs s := by
  induction xs generalizing s with
  | nil => rfl
  | cons x xs ih => rw [List.foldl_cons, ih, hf]

@[simp] theorem genRegs_foldl_fst {α β : Type} (f : State × β → α → State × β) (hf : ∀ b x, genRegs (f b x).1 = genRegs b.1)
    (xs : List α) (b : State × β) : genRegs (xs.foldl f b).1 = genRegs b.1 := by
  induction xs generalizing b with
  | nil => rfl
  | cons x xs ih => rw [List.foldl_cons, ih, hf]

@[simp] theorem genRegs_foldl_snd {α β : Type} (f : β × State → α → β × State) (hf : ∀ b x, genRegs (f b x).2 = genRegs b.2)
    (xs : List α) (b : β × State) : genRegs (xs.foldl f b).2 = genRegs b.2 := by
  induction xs generalizing b with
  | nil => rfl
  | cons x xs ih => rw [List.foldl_cons, ih, hf]

@[simp] theorem genRegs_setCore (s : State) (c : CoreNo) (k : Core) (h : k.regs = (getCore s c).regs) :
    genRegs (setCore s c k) = genRegs s := by
  simp [h, getCore, Vector.map_set, ← Vector.getElem_map Core.regs, -Vector.getElem_map]

theorem ok_of_ite_error {α ε : Type} {p : Prop} [Decidable p] {e : ε} {r : Except ε α} {x : α}
    (h : (if p then .error e else r) = .ok x) : r = .ok x := by
  split at h
  · contradiction
  · exact h

theorem eq_or_of_ite_some {α : Type} {p : Prop} [Decidable p] {u t : α} {r : Option α}
    (h : (if p then some u else r) = some t) : u = t ∨ r = some t := by
  split at h
  · exact .inl (Option.some.inj h)
  · exact .inr h

/-- The state that a command answers, if it answers one, has the general registers of the state before. -/
def answerKeepsRegs (s : State) (r : Res) : Prop := ∀ t, r = .next t → genRegs t = genRegs s

@[simp] theorem answerKeepsRegs_next (s t : State) : answerKeepsRegs s (.next t) ↔ genRegs t = genRegs s :=
  ⟨fun h => h t rfl, fun h _ e => Host.Outcome.next.inj e ▸ h⟩

@[simp] theorem answerKeepsRegs_refused (s : State) (m : Refusal) : answerKeepsRegs s (.refused m) := fun _ h => by cases h

@[simp] theorem answerKeepsRegs_act (s t : State) (ok : Bool) (h : genRegs t = genRegs s) : answerKeepsRegs s (act ok s t) := by
  cases ok
  · exact (answerKeepsRegs_next s s).2 rfl
  · exact (answerKeepsRegs_next s t).2 h

@[simp] theorem answerKeepsRegs_ite (p : Prop) [Decidable p] (s : State) (a b : Res) :
    answerKeepsRegs s (if p then a else b) ↔ if p then answerKeepsRegs s a else answerKeepsRegs s b := by split <;> rfl

/-! ### Operations over the state -/

@[simp] theorem genRegs_latchTimers (s : State) : genRegs (latchTimers s) = genRegs s := by simp [latchTimers]

@[simp] theorem genRegs_msixPort (s : State) (m : Fin 2) (v : Nat) : genRegs (msixPort s m v) = genRegs s := by simp [msixPort]

@[simp] theorem genRegs_msixBoth (s : State) (v : Nat) : genRegs (msixBoth s v) = genRegs s := by simp [msixBoth]

@[simp] theorem genRegs_faultLatches (s : State) : genRegs (faultLatches s) = genRegs s := by simp [faultLatches]

@[simp] theorem genRegs_callVector (s : State) (v : Nat) : genRegs (callVector s v) = genRegs s := by simp [callVector]

@[simp] theorem genRegs_recordEvt (s : State) (v bit : Nat) (info : Word) :
    genRegs (recordEvt s v bit info) = genRegs s := by simp [recordEvt]

@[simp] theorem genRegs_freshWord (s : State) : genRegs (freshWord s).2 = genRegs s := by simp [freshWord]

@[simp] theorem genRegs_freeBytes (s : State) (n : Nat) : genRegs (freeBytes s n).2 = genRegs s := by simp [freeBytes]

@[simp] theorem genRegs_takeExc (s : State) (c : CoreNo) (x : Exc) (addr : Word) : genRegs (takeExc s c x addr) = genRegs s := by
  simp [takeExc, -setCore_cores]

/-! ### Firn -/

@[simp] theorem genRegs_firnEvt (s : State) (bit a beat symbol req : Nat) :
    genRegs (firnEvt s bit a beat symbol req) = genRegs s := by simp [firnEvt]

@[simp] theorem genRegs_firnCorr (s : State) (a beat symbol req k : Nat) :
    genRegs (firnCorr s a beat symbol req k) = genRegs s := by simp [firnCorr]

@[simp] theorem genRegs_firnUncorr (s : State) (a beat req : Nat) : genRegs (firnUncorr s a beat req) = genRegs s := by simp [firnUncorr]

@[simp] theorem genRegs_noteErr (s : State) (la : Nat) (f : MemFault) : genRegs (noteErr s la f) = genRegs s := by simp [noteErr]

@[simp] theorem genRegs_memWriteLine (s : State) (la : Nat) (m : BitVec 256) (d : BitVec 2048) :
    genRegs (memWriteLine s la m d) = genRegs s := by simp [memWriteLine]

@[simp] theorem genRegs_poisonRange (s : State) (a n : Nat) : genRegs (poisonRange s a n) = genRegs s := by simp [poisonRange]

@[simp] theorem genRegs_noteFetch (s : State) (la req : Nat) : genRegs (noteFetch s la req) = genRegs s := by simp [noteFetch]

@[simp] theorem genRegs_fetchBurst (s : State) (la req : Nat) (f : MemFault) : genRegs (fetchBurst s la req f).2.2 = genRegs s := by
  unfold fetchBurst
  split <;> simp

@[simp] theorem genRegs_writeBurst (s : State) (la : Nat) (m : BitVec 256) (d : BitVec 2048) (req : Nat) (f : MemFault) :
    genRegs (writeBurst s la m d req f) = genRegs s := by simp [writeBurst]

@[simp] theorem genRegs_storeLine (s : State) (l : Line) (req : Nat) (f : MemFault) :
    genRegs (storeLine s l req f) = genRegs s := by simp [storeLine]

@[simp] theorem genRegs_putSet (s : State) (la : Nat) (ls : List Line) : genRegs (putSet s la ls) = genRegs s := by simp [putSet]

@[simp] theorem genRegs_evict (s : State) (la req : Nat) : genRegs (evict s la req) = genRegs s := by
  unfold evict
  dsimp only
  split
  · rfl
  · split <;> simp

@[simp] theorem genRegs_pushLine (s : State) (la : Nat) (l : Line) (req : Nat) :
    genRegs (pushLine s la l req) = genRegs s := by simp [pushLine]

@[simp] theorem genRegs_keepPlace (s : State) (la : Nat) (l : Line) : genRegs (keepPlace s la l) = genRegs s := by simp [keepPlace]

@[simp] theorem genRegs_dropLine (s : State) (la : Nat) : genRegs (dropLine s la) = genRegs s := by simp [dropLine]

@[simp] theorem genRegs_cacheFault (s : State) (la req : Nat) (f : MemFault) : genRegs (cacheFault s la req f) = genRegs s := by
  unfold cacheFault
  split <;> simp

@[simp] theorem genRegs_readLine (s : State) (la : Nat) (m : BitVec 256) (h : Hint) (req : Nat) (f : MemFault) :
    genRegs (readLine s la m h req f).2.2 = genRegs s := by
  unfold readLine
  dsimp only
  split
  · split
    · split <;> simp
    · split <;> simp
  · split <;> simp

@[simp] theorem genRegs_writeLine (s : State) (la : Nat) (m : BitVec 256) (d : BitVec 2048) (h : Hint) (req : Nat) :
    genRegs (writeLine s la m d h req) = genRegs s := by
  unfold writeLine
  (repeat' split) <;> simp

@[simp] theorem genRegs_firnReadF (s : State) (a n : Nat) (h : Hint) (req : Nat) (f : MemFault) (k : Nat) :
    genRegs (firnReadF s a n h req f k).2.2 = genRegs s := by
  induction k generalizing s a n f with
  | zero => rfl
  | succ k ih =>
    unfold firnReadF
    split
    · rfl
    · exact (ih ..).trans (genRegs_readLine ..)

@[simp] theorem genRegs_firnRead (s : State) (a n : Nat) (h : Hint) (req k : Nat) :
    genRegs (firnRead s a n h req k).2.2 = genRegs s := by simp [firnRead]

@[simp] theorem genRegs_firnWrite (s : State) (a : Nat) (bs : List Byte) (h : Hint) (req k : Nat) :
    genRegs (firnWrite s a bs h req k) = genRegs s := by
  induction k generalizing s a bs with
  | zero => rfl
  | succ k ih =>
    unfold firnWrite
    split
    · rfl
    · exact (ih ..).trans (genRegs_writeLine ..)

/-! ### The address map of a core -/

@[simp] theorem genRegs_cmsEvt (s : State) (bit mem core table loc : Nat) :
    genRegs (cmsEvt s bit mem core table loc) = genRegs s := by simp [cmsEvt]

@[simp] theorem genRegs_nevEvt (s : State) (bit addr : Nat) : genRegs (nevEvt s bit addr) = genRegs s := by simp [nevEvt]

/-! ### Line coding -/

@[simp] theorem genRegs_streamCodes (s : State) (p : Nat) (xs : List Sym) : genRegs (streamCodes s p xs).2 = genRegs s := by
  induction xs generalizing s with
  | nil => rfl
  | cons x xs ih => exact ih _

@[simp] theorem genRegs_emitLine (s : State) (o : Out) : genRegs (emitLine s o) = genRegs s := by simp [emitLine]

@[simp] theorem genRegs_sendStream (s : State) (p : Nat) (xs : List Sym) : genRegs (sendStream s p xs) = genRegs s := by simp [sendStream]

@[simp] theorem genRegs_sendCreditSymbol (s : State) (p vc : Nat) (init : Bool) (value : BitVec 12) :
    genRegs (sendCreditSymbol s p vc init value) = genRegs s := by simp [sendCreditSymbol]

@[simp] theorem genRegs_codeErrEvt (s : State) (lane : Nat) : genRegs (codeErrEvt s lane) = genRegs s := by simp [codeErrEvt]

@[simp] theorem genRegs_rxCode (s : State) (lane : Nat) (c : Code) : genRegs (rxCode s lane c).2 = genRegs s := by
  unfold rxCode
  dsimp only
  split <;> simp

@[simp] theorem genRegs_rxCodes (s : State) (lane : Nat) (cs : List Code) : genRegs (rxCodes s lane cs).2 = genRegs s := by
  induction cs generalizing s with
  | nil => rfl
  | cons c cs ih => exact (ih _).trans (genRegs_rxCode ..)

@[simp] theorem genRegs_rxAdvance (s : State) (p : Nat) : genRegs (rxAdvance s p) = genRegs s := by simp [rxAdvance]

@[simp] theorem genRegs_rxData (s : State) (p : Nat) (cs : List Code) : genRegs (rxData s p cs).2 = genRegs s := by
  induction cs generalizing s with
  | nil => rfl
  | cons c cs ih =>
    unfold rxData
    dsimp only
    split <;> simp [ih]

@[simp] theorem genRegs_rxFrame (s : State) (p : Nat) (bs : List Byte) : genRegs (rxFrame s p bs) = genRegs s := by
  induction bs generalizing s with
  | nil => rfl
  | cons b bs ih => simp [rxFrame, ih]

/-! ### The buffer pools -/

@[simp] theorem genRegs_sendCredit (s : State) (p : Nat) (v : Fin 8) : genRegs (sendCredit s p v) = genRegs s := by simp [sendCredit]

@[simp] theorem genRegs_returnCredits (s : State) (p c ups cells : Nat) :
    genRegs (returnCredits s p c ups cells) = genRegs s := by simp [returnCredits]

@[simp] theorem genRegs_countDenied (s : State) (q : Nat) : genRegs (countDenied s q) = genRegs s := by simp [countDenied]

@[simp] theorem genRegs_bpmEvt (s : State) (bit pool req addr : Nat) : genRegs (bpmEvt s bit pool req addr) = genRegs s := by simp [bpmEvt]

@[simp] theorem genRegs_bpmNote (s : State) (bit pool : Nat) (req : Option Nat) :
    genRegs (bpmNote s bit pool req) = genRegs s := by simp [bpmNote]

@[simp] theorem genRegs_writeExtLink (s : State) (x : Nat) (w : Word) : genRegs (writeExtLink s x w) = genRegs s := by simp [writeExtLink]

@[simp] theorem genRegs_pushExt (s : State) (x : Nat) : genRegs (pushExt s x) = genRegs s := by simp [pushExt]

@[simp] theorem genRegs_joinFreed (s : State) : genRegs (joinFreed s) = genRegs s := by simp [joinFreed]

@[simp] theorem genRegs_countWaits (s : State) : genRegs (countWaits s) = genRegs s := by simp [countWaits]

@[simp] theorem genRegs_nextCycle (s : State) : genRegs (nextCycle s) = genRegs s := by simp [nextCycle]

@[simp] theorem genRegs_atPlace (p : Nat) (s : State) : genRegs (atPlace p s) = genRegs s := by simp [atPlace]

@[simp] theorem genRegs_afterPlace (p : Nat) (s : State) : genRegs (afterPlace p s) = genRegs s := by simp [afterPlace]

@[simp] theorem genRegs_laterCycle (s : State) : genRegs (laterCycle s) = genRegs s := by simp [laterCycle]

@[simp] theorem genRegs_grantTurn (s : State) (q frames cells exts : Nat) :
    genRegs (grantTurn s q frames cells exts) = genRegs s := by simp [grantTurn]

@[simp] theorem genRegs_cutEvt (s : State) (c : Cut) : genRegs (cutEvt s c) = genRegs s := by
  unfold cutEvt
  split <;> simp

@[simp] theorem genRegs_applyCut (s : State) (c : Cut) : genRegs (applyCut s c) = genRegs s := by
  unfold applyCut
  split <;> simp

@[simp] theorem genRegs_applyCuts (s : State) (e : Short) : genRegs (applyCuts s e) = genRegs s := by simp [applyCuts]

theorem genRegs_grantCopy {s t : State} {q ups ref cells n : Nat} {bytes : List Byte} {cuts : List Cut}
    (h : grantCopy s q ups ref bytes cells = .ok (n, cuts, t)) : genRegs t = genRegs s := by
  replace h := ok_of_ite_error (ok_of_ite_error h)
  dsimp only at h
  split at h
  · have h := ok_of_ite_error h
    cases h
    simp
  · contradiction

theorem genRegs_allocCopy {s t : State} {q ups ref cells n : Nat} {bytes : List Byte}
    (h : allocCopy s q ups ref bytes cells = .ok (n, t)) : genRegs t = genRegs s := by
  unfold allocCopy at h
  split at h
  · next hg => cases h; exact genRegs_grantCopy hg
  · contradiction

@[simp] theorem genRegs_freeCopy (s : State) (id : Nat) (c : NeveCopy) : genRegs (freeCopy s id c) = genRegs s := by simp [freeCopy]

@[simp] theorem genRegs_dropRef (s : State) (q id : Nat) : genRegs (dropRef s q id) = genRegs s := by
  unfold dropRef
  split <;> simp

theorem genRegs_popExt {s t : State} {kept fuel x : Nat} {cuts : List Cut}
    (h : popExt s kept fuel = .ok (x, cuts, t)) : genRegs t = genRegs s := by
  induction fuel generalizing s t x cuts with
  | zero => contradiction
  | succ fuel ih =>
    unfold popExt at h
    split at h
    · contradiction
    · dsimp only at h
      split at h
      · split at h
        · contradiction
        · next hp =>
          cases h
          refine (ih hp).trans ?_
          split <;> simp
      · cases h
        split <;> simp

theorem genRegs_takeExts {s t : State} {q kept n : Nat} {turn : Bool} {xs : List Nat} {cuts : List Cut}
    (h : takeExts s q turn kept n = .ok (xs, cuts, t)) : genRegs t = genRegs s := by
  induction n generalizing s t kept xs cuts with
  | zero => cases h; rfl
  | succ n ih =>
    unfold takeExts at h
    split at h
    · contradiction
    · next hp =>
      split at h
      · contradiction
      · next hr =>
        cases h
        refine (ih hr).trans ((genRegs_popExt hp).trans ?_)
        split <;> simp

theorem genRegs_allocExts {s t : State} {q n : Nat} {turn : Bool} {xs : List Nat}
    (h : allocExts s q n turn = .ok (xs, t)) : genRegs t = genRegs s := by
  unfold allocExts at h
  split at h
  · cases h; rfl
  · replace h := ok_of_ite_error (ok_of_ite_error h)
    split at h
    · contradiction
    · next hx =>
      cases h
      refine Eq.trans ?_ (genRegs_takeExts hx)
      split <;> simp

@[simp] theorem genRegs_uncharge (s : State) (q : Nat) : genRegs (uncharge s q) = genRegs s := by simp [uncharge]

@[simp] theorem genRegs_freeExtent (s : State) (q x : Nat) : genRegs (freeExtent s q x) = genRegs s := by
  unfold freeExtent
  (repeat' split) <;> simp

@[simp] theorem genRegs_freeExtents (s : State) (q : Nat) (xs : List Nat) :
    genRegs (freeExtents s q xs) = genRegs s := by simp [freeExtents]

@[simp] theorem genRegs_breakLink (s : State) (l : LinkFault) (pool : Nat) : genRegs (breakLink s l pool) = genRegs s := by
  unfold breakLink
  (repeat' split) <;> simp

/-! ### Tables and commits -/

@[simp] theorem genRegs_tblClearRc (s : State) (id i w : Nat) : genRegs (tblClearRc s id i w) = genRegs s := by
  unfold tblClearRc
  split <;> simp

@[simp] theorem genRegs_tblStore (s : State) (id i w : Nat) (v : Word) : genRegs (tblStore s id i w v) = genRegs s := by simp [tblStore]

@[simp] theorem genRegs_releaseGroup (s : State) (slot : Nat) : genRegs (releaseGroup s slot) = genRegs s := by simp [releaseGroup]

@[simp] theorem genRegs_failDef (s : State) (slot : Nat) (d : Desc) (st : Nat) :
    genRegs (failDef s slot d st) = genRegs s := by simp [failDef]

theorem genRegs_reserveDef {s t : State} {slot : Nat} {d : Desc} {old : Option Desc}
    (h : reserveDef s slot d old = .ok t) : genRegs t = genRegs s := by
  unfold reserveDef at h
  replace h := ok_of_ite_error (ok_of_ite_error h)
  split at h
  · contradiction
  · next hx =>
    cases h
    refine (genRegs_allocExts hx).trans ?_
    simp

@[simp] theorem genRegs_putDesc (s : State) (slot : Nat) (d : Desc) : genRegs (putDesc s slot d) = genRegs s := by simp [putDesc]

@[simp] theorem genRegs_defineGroup (s : State) (slot : Nat) (old d : Desc) : genRegs (defineGroup s slot old d).2 = genRegs s := by
  unfold defineGroup
  dsimp only
  split
  · simp
  · next hr =>
    have ht := genRegs_reserveDef hr
    split <;> simpa using ht

@[simp] theorem genRegs_commitDesc (s : State) (slot : Nat) (old d : Desc) : genRegs (commitDesc s slot old d).2 = genRegs s := by
  unfold commitDesc
  dsimp only
  split
  · simp
  · split
    · simp
    · split <;> simp

@[simp] theorem genRegs_storeAll (s : State) (stg : List Staged) (ids : List Nat) :
    genRegs (storeAll s stg ids) = genRegs s := by simp [storeAll]

@[simp] theorem genRegs_commitTok (s : State) (i : Nat) (old new : Vector Word 4) :
    genRegs (commitTok s i old new) = genRegs s := by simp [commitTok]

@[simp] theorem genRegs_resetRings (old s : State) : genRegs (resetRings old s) = genRegs s := by simp [resetRings]

@[simp] theorem genRegs_settleBank (s old : State) (stg : List Staged) (b : Nat) : genRegs (settleBank s old stg b) = genRegs s := by
  unfold settleBank
  dsimp only
  split <;> simp

@[simp] theorem genRegs_applyCommit (s : State) (stg : List Staged) (check : State → Nat → Word → Bool) :
    genRegs (applyCommit s stg check).2 = genRegs s := by
  simp [applyCommit, apply_ite Prod.fst]

/-! ### Routing, the keystone hold and the egress queues -/

@[simp] theorem genRegs_putHold (s : State) (k : HoldKey) (h : Option HoldEnt) : genRegs (putHold s k h) = genRegs s := by
  unfold putHold
  split <;> simp

@[simp] theorem genRegs_pushQueue (s : State) (p : Nat) (e : QEnt) : genRegs (pushQueue s p e) = genRegs s := by simp [pushQueue]

@[simp] theorem genRegs_pushLocal (s : State) (e : QEnt) : genRegs (pushLocal s e) = genRegs s := by simp [pushLocal]

@[simp] theorem genRegs_letGo (s : State) (port : Option Nat) (kinc : Bool) (e : QEnt) : genRegs (letGo s port kinc e) = genRegs s := by
  unfold letGo
  (repeat' split) <;> simp

@[simp] theorem genRegs_holdKeystone (s : State) (h : HoldEnt) (e : QEnt) : genRegs (holdKeystone s h e) = genRegs s := by
  unfold holdKeystone
  (repeat' split) <;> simp

@[simp] theorem genRegs_holdArrive (s : State) (port : Option Nat) (e : QEnt) : genRegs (holdArrive s port e).1 = genRegs s := by
  unfold holdArrive
  dsimp only
  split
  · rfl
  · split
    · rfl
    · split
      · simp
      · split <;> simp

@[simp] theorem genRegs_enqueue (s : State) (port : Option Nat) (e : QEnt) : genRegs (enqueue s port e) = genRegs s := by
  have hold := genRegs_holdArrive s port e
  unfold enqueue
  split
  · next h => rw [h] at hold; exact hold
  · next h => rw [h] at hold; cases port <;> simpa using hold

@[simp] theorem genRegs_releaseHold (s : State) (h : HoldEnt) (kinc : Bool) : genRegs (releaseHold s h kinc) = genRegs s := by
  unfold releaseHold
  split <;> simp

@[simp] theorem genRegs_holdLeave (s : State) (port : Option Nat) (e : QEnt) : genRegs (holdLeave s port e) = genRegs s := by
  unfold holdLeave
  (repeat' split) <;> simp

@[simp] theorem genRegs_putPtr (s : State) (n : Nat) (ptr : Option Nat) : genRegs (putPtr s n ptr) = genRegs s := by
  unfold putPtr
  split <;> simp

@[simp] theorem genRegs_placeReplica (s : State) (q : Nat) (e : QEnt) : genRegs (placeReplica s q e) = genRegs s := by
  unfold placeReplica
  split
  · simp
  · simp
  · dsimp only
    split <;> simp

@[simp] theorem genRegs_waitJob (s : State) (e : Short) (j : Job) : genRegs (waitJob s e j) = genRegs s := by
  unfold waitJob
  split <;> simp

@[simp] theorem genRegs_sendAnswer (s : State) (f : Frame) : genRegs (sendAnswer s f) = genRegs s := by
  unfold sendAnswer
  split
  · simp
  · next h => simpa using genRegs_allocCopy h

@[simp] theorem genRegs_returnLocal (s : State) (l : LocalC) : genRegs (returnLocal s l) = genRegs s := by
  unfold returnLocal
  split <;> simp

@[simp] theorem genRegs_handledLocal (s : State) (l : LocalC) : genRegs (handledLocal s l) = genRegs s := by simp [handledLocal]

@[simp] theorem genRegs_putRx (s : State) (f : Frame) (r : RxMsg) : genRegs (putRx s f r) = genRegs s := by simp [putRx]

@[simp] theorem genRegs_noteMark (s : State) (f : Frame) : genRegs (noteMark s f) = genRegs s := by simp [noteMark]

@[simp] theorem genRegs_clearRx (s : State) (f : Frame) : genRegs (clearRx s f) = genRegs s := by simp [clearRx]

@[simp] theorem genRegs_answerCtx (s : State) (typ : Nat) (f : Frame) (reason firstMissing : Nat) (ctx : Word) (chunk : Nat) :
    genRegs (answerCtx s typ f reason firstMissing ctx chunk) = genRegs s := by simp [answerCtx]

@[simp] theorem genRegs_ackFrame (s : State) (f : Frame) : genRegs (ackFrame s f) = genRegs s := by simp [ackFrame]

@[simp] theorem genRegs_nackFrame (s : State) (f : Frame) (reason firstMissing : Nat) :
    genRegs (nackFrame s f reason firstMissing) = genRegs s := by simp [nackFrame]

@[simp] theorem genRegs_refuseContrib (s : State) (typ : Nat) (f : Frame) (reason : Nat) :
    genRegs (refuseContrib s typ f reason) = genRegs s := by simp [refuseContrib]

@[simp] theorem genRegs_noticeCtl (s : State) (f : Frame) (reason : Nat) : genRegs (noticeCtl s f reason) = genRegs s := by simp [noticeCtl]

/-! ### Vector instructions on a slice -/

@[simp] theorem genRegs_readLines (s : State) (as : List Nat) (h : Hint) (req : Nat) (fault : MemFault) :
    genRegs (readLines s as h req fault).1 = genRegs s :=
  by
  simp [readLines]

@[simp] theorem genRegs_writeLines (s : State) (bs : List (Nat × Byte)) (h : Hint) (req : Nat) :
    genRegs (writeLines s bs h req) = genRegs s := by simp [writeLines]

@[simp] theorem genRegs_vLd (s : State) (sl : SliceNo) (g : Nat) (m : VMode) (d : Nat) (h : Hint) (off : Nat) (fault : MemFault) :
    genRegs (vLd s sl g m d h off fault) = genRegs s := by simp [vLd]

@[simp] theorem genRegs_vSt (s : State) (sl : SliceNo) (g : Nat) (m : VMode) (a : VSrc) (h : Hint) (off : Nat) :
    genRegs (vSt s sl g m a h off) = genRegs s := by simp [vSt]

@[simp] theorem genRegs_onSlice (s : State) (sl : SliceNo) (f : Slice → Slice) : genRegs (onSlice s sl f) = genRegs s := by simp [onSlice]

@[simp] theorem genRegs_vexec (s : State) (sl : SliceNo) (o : VOp) : genRegs (vexec s sl o) = genRegs s := by
  unfold vexec
  split <;> simp

@[simp] theorem genRegs_runOps (s : State) (sl : SliceNo) (ops : List VOp) (i : Nat) : genRegs (runOps s sl ops i) = genRegs s := by
  induction ops generalizing s i with
  | nil => rfl
  | cons o rest ih =>
    unfold runOps
    dsimp only
    split <;> simp [ih]

@[simp] theorem genRegs_runStripes (s : State) (sl : SliceNo) (ops : List VOp) (vals : Array Nat) (n k : Nat) (out : List (List Nat)) :
    genRegs (runStripes s sl ops vals n k out).1 = genRegs s := by
  induction k generalizing s out with
  | zero => rfl
  | succ k ih =>
    unfold runStripes
    dsimp only
    split
    · simp
    · exact (ih ..).trans (by simp)

@[simp] theorem genRegs_runProgram (s : State) (sl : SliceNo) (ctx : RunCtx) (vals : List Nat) :
    genRegs (runProgram s sl ctx vals).1 = genRegs s := by simp [runProgram]

@[simp] theorem genRegs_serEvt (s : State) (sl : SliceNo) (bit slot prog instr : Nat) (cause : BitVec 8) :
    genRegs (serEvt s sl bit slot prog instr cause) = genRegs s := by simp [serEvt]

/-! ### Steps and chunks at a home -/

@[simp] theorem genRegs_putChunk (s : State) (slot st b c : Nat) (k : Chunk) :
    genRegs (putChunk s slot st b c k) = genRegs s := by simp [putChunk]

@[simp] theorem genRegs_onChunk (s : State) (i : ChunkId) (f : Chunk → Chunk) : genRegs (onChunk s i f) = genRegs s := by simp [onChunk]

@[simp] theorem genRegs_onStep (s : State) (slot st : Nat) (f : StepRec → StepRec) :
    genRegs (onStep s slot st f) = genRegs s := by simp [onStep]

@[simp] theorem genRegs_bindChunk (s : State) (i : ChunkId) (d : Desc) (k : Nat) :
    genRegs (bindChunk s i d k) = genRegs s := by simp [bindChunk]

@[simp] theorem genRegs_openSteps (s : State) (slot st : Nat) (d : Desc) (ts : Word) :
    genRegs (openSteps s slot st d ts) = genRegs s := by simp [openSteps]

@[simp] theorem genRegs_countGroup (s : State) (slot : Nat) (c : GCnt) (n : Nat) :
    genRegs (countGroup s slot c n) = genRegs s := by simp [countGroup]

@[simp] theorem genRegs_buildRecords (s : State) (slot st b : Nat) :
    genRegs (buildRecords s slot st b) = genRegs s := by simp [buildRecords]

@[simp] theorem genRegs_settleStep (s : State) (slot st : Nat) : genRegs (settleStep s slot st) = genRegs s := by simp [settleStep]

@[simp] theorem genRegs_chunkDone (s : State) (i : ChunkId) : genRegs (chunkDone s i) = genRegs s := by simp [chunkDone]

@[simp] theorem genRegs_dropOps (s : State) (i : ChunkId) : genRegs (dropOps s i) = genRegs s := by simp [dropOps]

@[simp] theorem genRegs_answerPart (s : State) (p : PartRx) (typ reason firstMissing : Nat) (ctx : Word) (chunk : Nat) :
    genRegs (answerPart s p typ reason firstMissing ctx chunk) = genRegs s := by simp [answerPart]

@[simp] theorem genRegs_keepAccepted (s : State) (p : PartRx) (aborted : Bool) :
    genRegs (keepAccepted s p aborted) = genRegs s := by simp [keepAccepted]

@[simp] theorem genRegs_closeChunk (s : State) (i : ChunkId) (st : RecStatus) (fl : Flags) :
    genRegs (closeChunk s i st fl) = genRegs s := by simp [closeChunk]

@[simp] theorem genRegs_closeArith (s : State) (i : ChunkId) : genRegs (closeArith s i) = genRegs s := by simp [closeArith]

@[simp] theorem genRegs_poisonEntry (s : State) (id i : Nat) : genRegs (poisonEntry s id i) = genRegs s := by
  unfold poisonEntry
  (repeat' split) <;> simp

@[simp] theorem genRegs_lookupFault (s : State) (id i : Nat) (lost : Bool) :
    genRegs (lookupFault s id i lost) = genRegs s := by simp [lookupFault]

@[simp] theorem genRegs_meetLookups (s : State) (ids : List Nat) (xs : List TblFault) :
    genRegs (meetLookups s ids xs) = genRegs s := by simp [meetLookups]

@[simp] theorem genRegs_accEvt (s : State) (bit a : Nat) : genRegs (accEvt s bit a) = genRegs s := by simp [accEvt]

@[simp] theorem genRegs_seracFaultEvt (s : State) (sl : SliceNo) (slot prog : Nat) (f : SeracFault) :
    genRegs (seracFaultEvt s sl slot prog f) = genRegs s := by
  unfold seracFaultEvt
  split <;> simp

@[simp] theorem genRegs_firnMeets (s : State) (sl : SliceNo) (rs : List (Hint × Nat × Nat)) : genRegs (firnMeets s sl rs).2 = genRegs s :=
  by
  simp [firnMeets]

@[simp] theorem genRegs_firnKeeps (s : State) (sl : SliceNo) (rs : List (Hint × Nat × Nat)) :
    genRegs (firnKeeps s sl rs) = genRegs s := by simp [firnKeeps]

@[simp] theorem genRegs_meetFaults (s : State) (sl : SliceNo) (slot prog : Nat) (f : SeracFault) (runs : Bool) (reads : List (Hint × Nat × Nat)) :
    genRegs (meetFaults s sl slot prog f runs reads).2 = genRegs s := by simp [meetFaults]

@[simp] theorem genRegs_tryComplete (s : State) (i : ChunkId) : genRegs (tryComplete s i) = genRegs s := by simp [tryComplete]

/-! ### Contributions at a home -/

@[simp] theorem genRegs_markFormat (s : State) (slot : Nat) (f : Frame) : genRegs (markFormat s slot f) = genRegs s := by simp [markFormat]

@[simp] theorem genRegs_applyRefusal (s : State) (f : Frame) (typ reason : Nat) (cnt : Option (Nat × GCnt)) :
    genRegs (applyRefusal s f typ reason cnt) = genRegs s := by
  unfold applyRefusal
  split <;> simp

@[simp] theorem genRegs_toSlice (s : State) (i : ChunkId) (l : LocalC) : genRegs (toSlice s i l) = genRegs s := by simp [toSlice]

@[simp] theorem genRegs_openFor (s : State) (i : ChunkId) (d : Desc) (ts : Word) :
    genRegs (openFor s i d ts) = genRegs s := by simp [openFor]

@[simp] theorem genRegs_acceptContrib (s : State) (slot : Nat) (l : LocalC) :
    genRegs (acceptContrib s slot l) = genRegs s := by simp [acceptContrib]

@[simp] theorem genRegs_applyVerdict (s : State) (l : LocalC) (v : Verdict) : genRegs (applyVerdict s l v) = genRegs s := by
  unfold applyVerdict
  split <;> simp

@[simp] theorem genRegs_refusePartial (s : State) (f : Frame) (v : Verdict) (ranks : List Nat) :
    genRegs (refusePartial s f v ranks) = genRegs s := by
  unfold refusePartial
  (repeat' split) <;> simp

@[simp] theorem genRegs_refusedFrame (s : State) (f : Frame) (r : RxMsg) (v : Verdict) (ranks : List Nat) :
    genRegs (refusedFrame s f r v ranks) = genRegs s := by
  unfold refusedFrame
  dsimp only
  split
  · simp
  · split
    · simp
    · split <;> simp

@[simp] theorem genRegs_putPart (s : State) (i : ChunkId) (p : PartRx) (keep : Bool) :
    genRegs (putPart s i p keep) = genRegs s := by simp [putPart]

@[simp] theorem genRegs_answerIfDone (s : State) (i : ChunkId) (p : PartRx) :
    genRegs (answerIfDone s i p) = genRegs s := by simp [answerIfDone]

@[simp] theorem genRegs_takePartFrame (s : State) (l : LocalC) (slot : Nat) (p : PartRx) : genRegs (takePartFrame s l slot p) = genRegs s := by
  unfold takePartFrame
  dsimp only
  split
  · simp
  · split <;> simp

@[simp] theorem genRegs_dispatchPartial (s : State) (l : LocalC) : genRegs (dispatchPartial s l) = genRegs s := by
  unfold dispatchPartial
  dsimp only
  split
  · simp
  · split
    · simp
    · split
      · simp
      · split <;> simp

@[simp] theorem genRegs_dispatchTurn (s : State) (pg : Nat) : genRegs (dispatchTurn s pg) = genRegs s := by simp [dispatchTurn]

@[simp] theorem genRegs_dispatchOne (s : State) (pg : Nat) (l : LocalC) (lookups : List TblFault) :
    genRegs (dispatchOne s pg l lookups) = genRegs s := by simp [dispatchOne]

@[simp] theorem execContribDispatch_keepsRegs (at_ : DispatchIn) (s : State) : answerKeepsRegs s (execContribDispatch at_ s) := by
  unfold execContribDispatch
  split <;> simp

@[simp] theorem genRegs_discardOp (s : State) (o : SerOp) : genRegs (discardOp s o) = genRegs s := by simp [discardOp]

@[simp] theorem genRegs_discardPart (s : State) (i : ChunkId) (p : PartRx) (f : Frame) :
    genRegs (discardPart s i p f) = genRegs s := by simp [discardPart]

@[simp] theorem genRegs_nackStopped (s : State) (o : SerOp) : genRegs (nackStopped s o) = genRegs s := by
  unfold nackStopped
  dsimp only
  split
  · simp
  · split <;> simp

@[simp] theorem execIntakeAccept_keepsRegs (sl : SliceNo) (pg : Fin 128) (s : State) : answerKeepsRegs s (execIntakeAccept sl pg s) := by
  unfold execIntakeAccept
  dsimp only
  split
  · simp
  · split <;> simp

@[simp] theorem genRegs_progExcEvt (s : State) (sl : SliceNo) : genRegs (progExcEvt s sl) = genRegs s := by simp [progExcEvt]

/-- The general registers as a run leaves them, where it leaves a state. -/
def RunEnd.keepsRegs (s : State) : RunEnd → Prop
  | .fine _ t => genRegs t = genRegs s
  | .exc t => genRegs t = genRegs s
  | .arith t => genRegs t = genRegs s
  | .waits => True
  | .noProgram => True

theorem doRun_keepsRegs (s : State) (sl : SliceNo) (ctx : RunCtx) (vals : List Nat) : (doRun s sl ctx vals).keepsRegs s := by
  unfold doRun
  split
  · trivial
  · dsimp only
    split
    · trivial
    · split
      · simp [RunEnd.keepsRegs]
      · split <;> simp [RunEnd.keepsRegs]

@[simp] theorem genRegs_storeChunk (s : State) (i : ChunkId) (d : Desc) (k' : Chunk) :
    genRegs (storeChunk s i d k') = genRegs s := by simp [storeChunk]

@[simp] theorem genRegs_finishAdd (s : State) (o : SerOp) : genRegs (finishAdd s o) = genRegs s := by simp [finishAdd]

@[simp] theorem genRegs_closeInHand (s : State) (o : SerOp) (st : RecStatus) :
    genRegs (closeInHand s o st) = genRegs s := by simp [closeInHand]

@[simp] theorem genRegs_enterLeaf (s : State) (sl : SliceNo) (o : SerOp) (d : Desc) (l : Leaf) (fault : SeracFault) :
    genRegs (enterLeaf s sl o d l fault) = genRegs s := by simp [enterLeaf]

theorem genRegs_runLeaf {s t : State} {sl : SliceNo} {o : SerOp} {d : Desc} {k : Nat} {l : Leaf} {fault : SeracFault}
    (h : runLeaf s sl o d k l fault = some t) : genRegs t = genRegs s := by
  have hrun := doRun_keepsRegs s sl (runCtx s o.cid d k o.rank 1 false) (leafVals d l)
  unfold runLeaf at h
  dsimp only at h
  split at h
  · contradiction
  · split at h
    · obtain rfl := Option.some.inj h; simp
    · split at h
      · contradiction
      · obtain rfl := Option.some.inj h; simp
      all_goals
        next hd =>
          rw [hd] at hrun
          obtain rfl := Option.some.inj h
          simpa [RunEnd.keepsRegs] using hrun

theorem genRegs_processOp {s t : State} {sl : SliceNo} {o : SerOp} {fault : SeracFault}
    (h : processOp s sl o fault = some t) : genRegs t = genRegs s := by
  unfold processOp at h
  dsimp only at h
  split at h
  · contradiction
  · obtain rfl | h := eq_or_of_ite_some h
    · simp
    obtain rfl | h := eq_or_of_ite_some h
    · simp
    obtain rfl | h := eq_or_of_ite_some h
    · simp
    split at h
    · simpa using genRegs_runLeaf h
    · obtain rfl := Option.some.inj h
      simp

@[simp] theorem genRegs_addPart (s : State) (i : ChunkId) (d : Desc) (p : PartRx) (f : Frame) (k' : Chunk) :
    genRegs (addPart s i d p f k') = genRegs s := by simp [addPart]

@[simp] theorem genRegs_tilePart (s : State) (sl : SliceNo) (i : ChunkId) (p : PartRx) (f : Frame) :
    genRegs (tilePart s sl i p f) = genRegs s := by simp [tilePart]

theorem genRegs_processPart {s t : State} {sl : SliceNo} {o : SerOp} {fault : SeracFault}
    (h : processPart s sl o fault = some t) : genRegs t = genRegs s := by
  unfold processPart at h
  dsimp only at h
  split at h
  · contradiction
  split at h
  · obtain rfl := Option.some.inj h; simp
  split at h
  · obtain rfl := Option.some.inj h; simp
  split at h
  · obtain rfl := Option.some.inj h; simp
  split at h <;> (obtain rfl := Option.some.inj h; simp)

theorem serveNext_keepsRegs (sl : SliceNo) (part : Bool) (k : State → SerOp → Option State) (s : State)
    (hk : ∀ t o u, k t o = some u → genRegs u = genRegs t) : answerKeepsRegs s (serveNext sl part k s) := by
  unfold serveNext
  split
  · simp
  · split
    · simp
    · split
      · simp
      · dsimp only
        rw [answerKeepsRegs_next]
        cases hr : k _ _ with
        | none => rfl
        | some u => exact (hk _ _ _ hr).trans (by simp)

@[simp] theorem execSeracContribProcess_keepsRegs (sl : SliceNo) (fault : SeracFault) (s : State) :
    answerKeepsRegs s (execSeracContribProcess sl fault s) := serveNext_keepsRegs _ _ _ _ fun _ _ _ => genRegs_processOp

@[simp] theorem execTransitPartialFrame_keepsRegs (sl : SliceNo) (fault : SeracFault) (s : State) :
    answerKeepsRegs s (execTransitPartialFrame sl fault s) := serveNext_keepsRegs _ _ _ _ fun _ _ _ => genRegs_processPart

@[simp] theorem genRegs_finishFin (s : State) (c : ChunkId) (d : Desc) (r : RunCtx) :
    genRegs (finishFin s c d r) = genRegs s := by simp [finishFin]

@[simp] theorem execFinRun_keepsRegs (c : ChunkId) (fault : SeracFault) (s : State) : answerKeepsRegs s (execFinRun c fault s) := by
  unfold execFinRun
  dsimp only
  split
  · simp
  · split
    · simp
    · split
      · simp
      · generalize hw : (meetFaults (atPlace placeWork s) _ _ _ _ _ _).2 = w
        have hreg : genRegs w = genRegs s := by rw [← hw]; simp
        generalize runCtx w c _ _ _ _ _ = ctx
        have hrun := doRun_keepsRegs w (fin18 ((theChunk s c).slice.getD 0)) ctx (rootVals (descOf s c.slot.val) (theChunk s c))
        split
        · simp
        · simpa using hreg
        all_goals
          next hd =>
            rw [hd] at hrun
            simpa using Eq.trans hrun hreg

@[simp] theorem execDeadlineExpiry_keepsRegs (slot : Fin 16384) (step : BitVec 16) (s : State) :
    answerKeepsRegs s (execDeadlineExpiry slot step s) := by simp [execDeadlineExpiry]

@[simp] theorem genRegs_closeShort (s : State) (c : ChunkId) (d : Desc) (p : Nat) :
    genRegs (closeShort s c d p) = genRegs s := by simp [closeShort]

@[simp] theorem genRegs_rootChunk (s : State) (sl : SliceNo) (c : ChunkId) (d : Desc) (fault : SeracFault) :
    genRegs (rootChunk s sl c d fault) = genRegs s := by simp [rootChunk]

@[simp] theorem execChunkCloseAtExpiry_keepsRegs (c : ChunkId) (fault : SeracFault) (s : State) :
    answerKeepsRegs s (execChunkCloseAtExpiry c fault s) := by
  simp [execChunkCloseAtExpiry, apply_ite Prod.snd]

@[simp] theorem genRegs_abortChunk (s : State) (i : ChunkId) : genRegs (abortChunk s i) = genRegs s := by simp [abortChunk]

@[simp] theorem genRegs_abortGroup (s : State) (slot : Nat) : genRegs (abortGroup s slot) = genRegs s := by simp [abortGroup]

@[simp] theorem execGrpAbort_keepsRegs (slot : Fin 16384) (s : State) : answerKeepsRegs s (execGrpAbort slot s) := by simp [execGrpAbort]

@[simp] theorem genRegs_dropHeldBack (s : State) (src msg : Nat) (close : Bool) : genRegs (dropHeldBack s src msg close) = genRegs s := by
  unfold dropHeldBack
  split
  · rfl
  · dsimp only
    split <;> simp

@[simp] theorem execPartialSilenceTimeout_keepsRegs (src : BitVec 20) (msg : BitVec 32) (s : State) :
    answerKeepsRegs s (execPartialSilenceTimeout src msg s) := by
  unfold execPartialSilenceTimeout
  split <;> simp

@[simp] theorem genRegs_writeSliceSet (s : State) (v : Word) : genRegs (writeSliceSet s v) = genRegs s := by simp [writeSliceSet]

@[simp] theorem execSliceSetWrite_keepsRegs (v : Word) (s : State) :
    answerKeepsRegs s (execSliceSetWrite v s) := by simp [execSliceSetWrite]

/-! ### Messages that the switch sends -/

theorem genRegs_allocUnits {s t : State} {n ref id : Nat} {us : List (Nat × Nat)} (h : allocUnits s n ref = .ok (id, us, t)) :
    genRegs t = genRegs s := by
  unfold allocUnits at h
  split at h
  · contradiction
  · next hx =>
    simp only [Except.ok.injEq, Prod.mk.injEq] at h
    obtain ⟨-, -, rfl⟩ := h
    simpa using genRegs_allocExts hx

theorem genRegs_storeCopy {s t : State} {fs : List Frame} {ref : Nat} {id : Option Nat} (h : storeCopy s fs ref = .ok (id, t)) :
    genRegs t = genRegs s := by
  unfold storeCopy at h
  dsimp only at h
  split at h
  · cases h; rfl
  · split at h
    · contradiction
    · next hx =>
      replace h := ok_of_ite_error h
      simp only [Except.ok.injEq, Prod.mk.injEq] at h
      obtain ⟨-, rfl⟩ := h
      simpa using genRegs_allocUnits hx

@[simp] theorem genRegs_dropCopy (s : State) (id : Nat) : genRegs (dropCopy s id) = genRegs s := by
  unfold dropCopy
  split <;> simp

@[simp] theorem genRegs_readTile (s : State) (m : Msg) (n k len : Nat) :
    genRegs (readTile s m n k len).2.2.2 = genRegs s := by simp [readTile]

@[simp] theorem genRegs_readTiles (s : State) (m : Msg) (n k t len fuel : Nat) :
    genRegs (readTiles s m n k t len fuel).2.2.2 = genRegs s := by
  induction fuel generalizing s t with
  | zero => rfl
  | succ fuel ih => simp [readTiles, ih]

@[simp] theorem genRegs_readBack (s : State) (m : Msg) (i : Nat) (fs : List Frame) : genRegs (readBack s m i fs).2.2 = genRegs s := by
  induction fs generalizing s i with
  | nil => rfl
  | cons f fs ih =>
    unfold readBack
    split
    · rfl
    · exact (ih ..).trans (genRegs_readTiles ..)

theorem genRegs_allocFrames {s t : State} {q ref : Nat} {fs : List Frame} {ids : List Nat} {cuts : List Cut}
    (h : allocFrames s q ref fs = .ok (ids, cuts, t)) : genRegs t = genRegs s := by
  induction fs generalizing s t ids cuts with
  | nil => cases h; rfl
  | cons f fs ih =>
    unfold allocFrames at h
    split at h
    · contradiction
    · next hg =>
      split at h
      · contradiction
      · next hr =>
        cases h
        exact (ih hr).trans (genRegs_grantCopy hg)

@[simp] theorem genRegs_dropBuffers (s : State) (neve : List Nat) (copy : Option Nat) : genRegs (dropBuffers s neve copy) = genRegs s := by
  unfold dropBuffers
  split <;> simp

@[simp] theorem genRegs_addMsg (s : State) (dest : Nat) (kind : MsgKind) (mk : Nat → List Frame) (neve : List Nat) (copy : Option Nat) :
    genRegs (addMsg s dest kind mk neve copy) = genRegs s := by simp [addMsg]

@[simp] theorem genRegs_putMsg (s : State) (m : Msg) : genRegs (putMsg s m) = genRegs s := by simp [putMsg]

@[simp] theorem genRegs_countAbandoned (s : State) (n : Nat) : genRegs (countAbandoned s n) = genRegs s := by simp [countAbandoned]

@[simp] theorem genRegs_finishMsg (s : State) (m : Msg) : genRegs (finishMsg s m) = genRegs s := by
  unfold finishMsg
  (repeat' split) <;> simp

@[simp] theorem genRegs_abandonMsg (s : State) (m : Msg) : genRegs (abandonMsg s m) = genRegs s := by
  unfold abandonMsg
  (repeat' split) <;> simp

@[simp] theorem genRegs_failCopy (s : State) (m : Msg) (idx t : Nat) : genRegs (failCopy s m idx t) = genRegs s := by simp [failCopy]

@[simp] theorem genRegs_resendNow (s : State) (note : State → State) (m : Msg) (first n : Nat) (copyFault : Option (Fin 16))
    (hnote : ∀ u, genRegs (note u) = genRegs u) : genRegs (resendNow s note m first n copyFault) = genRegs s := by
  unfold resendNow
  split
  · simp [hnote]
  · dsimp only
    split
    · simp
    · split
      · simp [hnote]
      · next ha => simpa [hnote] using genRegs_allocFrames ha

@[simp] theorem genRegs_resendMsg (s : State) (m : Msg) (first n : Nat) (copyFault : Option (Fin 16)) :
    genRegs (resendMsg s m first n copyFault) = genRegs s := by simp [resendMsg]

@[simp] theorem execMessageSend_keepsRegs (dest : BitVec 20) (s : State) : answerKeepsRegs s (execMessageSend dest s) := by
  unfold execMessageSend
  split <;> simp

@[simp] theorem genRegs_noteStart (s : State) (e : QEnt) : genRegs (noteStart s e) = genRegs s := by
  unfold noteStart
  (repeat' split) <;> simp

@[simp] theorem execResendTimeout_keepsRegs (dest : BitVec 20) (msg : BitVec 32) (copyFault : Option (Fin 16)) (s : State) :
    answerKeepsRegs s (execResendTimeout dest msg copyFault s) := by
  unfold execResendTimeout
  (repeat' split) <;> simp

/-! ### Results and records -/

theorem genRegs_allocLots {s t : State} {fs : List Frame} {lots : List (List Nat)} {out : List (List Nat × List Nat)} {cuts : List Cut}
    (h : allocLots s fs lots = .ok (out, cuts, t)) : genRegs t = genRegs s := by
  induction lots generalizing s t out cuts with
  | nil => cases h; rfl
  | cons g gs ih =>
    unfold allocLots at h
    split at h
    · contradiction
    · next hg =>
      split at h
      · contradiction
      · next hr =>
        cases h
        exact (ih hr).trans (genRegs_allocFrames hg)

theorem genRegs_allocMessage {s t : State} {fs : List Frame} {lots : List (List Nat)} {out : List (List Nat × List Nat)} {id : Option Nat}
    (h : allocMessage s fs lots = .ok (out, id, t)) : genRegs t = genRegs s := by
  unfold allocMessage at h
  split at h
  · contradiction
  · next hl =>
    split at h
    · contradiction
    · next hs =>
      cases h
      exact (genRegs_storeCopy hs).trans (genRegs_allocLots hl)

theorem genRegs_deliverResult {s t : State} {i : ChunkId} {e : Final} (h : deliverResult s i e = .ok t) : genRegs t = genRegs s := by
  unfold deliverResult at h
  dsimp only at h
  split at h
  · cases h; simp
  · split at h
    · contradiction
    · next ha => cases h; simpa using genRegs_allocMessage ha

@[simp] theorem genRegs_closeDelivered (s : State) (i : ChunkId) (st : RecStatus) (e : Final) :
    genRegs (closeDelivered s i st e) = genRegs s := by simp [closeDelivered]

@[simp] theorem genRegs_buildResult (s : State) (i : ChunkId) (st : RecStatus) : genRegs (buildResult s i st) = genRegs s := by
  unfold buildResult
  dsimp only
  split
  · simp
  · split
    · next hd => simpa using genRegs_deliverResult hd
    · simp

@[simp] theorem execResultBuild_keepsRegs (c : ChunkId) (fault : SeracFault) (s : State) :
    answerKeepsRegs s (execResultBuild c fault s) := by
  unfold execResultBuild
  split <;> simp

@[simp] theorem genRegs_putRing (s : State) (slot r : Nat) (v : Nat × Nat) : genRegs (putRing s slot r v) = genRegs s := by simp [putRing]

@[simp] theorem genRegs_runDone (s : State) (slot st n r : Nat) : genRegs (runDone s slot st n r) = genRegs s := by simp [runDone]

theorem genRegs_sendRecord {s t : State} {slot st n r : Nat} (h : sendRecord s slot st n r = .ok t) : genRegs t = genRegs s := by
  unfold sendRecord at h
  dsimp only at h
  split at h
  · cases h; rfl
  split at h
  · cases h; simp
  split at h
  · cases h; simp
  split at h
  · cases h; simp
  split at h
  · cases h; rfl
  split at h
  · contradiction
  · next ha => cases h; simpa using genRegs_allocMessage ha

@[simp] theorem genRegs_trySendRecord (s : State) (slot st n r : Nat) : genRegs (trySendRecord s slot st n r) = genRegs s := by
  unfold trySendRecord
  dsimp only
  split
  · next hr => simpa using genRegs_sendRecord hr
  · simp

@[simp] theorem execRecordSend_keepsRegs (slot : Fin 16384) (step rank : BitVec 16) (s : State) :
    answerKeepsRegs s (execRecordSend slot step rank s) := by
  unfold execRecordSend
  split <;> simp

theorem genRegs_sendRelease {s t : State} {slot bseq r : Nat} (h : sendRelease s slot bseq r = .ok t) : genRegs t = genRegs s := by
  unfold sendRelease at h
  dsimp only at h
  split at h
  · cases h; rfl
  · split at h
    · contradiction
    · next ha => cases h; simpa using genRegs_allocFrames ha

@[simp] theorem genRegs_sendReleases (s : State) (slot bseq : Nat) (rs : List Nat) : genRegs (sendReleases s slot bseq rs) = genRegs s := by
  induction rs generalizing s with
  | nil => rfl
  | cons r rs ih =>
    unfold sendReleases
    split
    · next hr => exact (ih _).trans (genRegs_sendRelease hr)
    · simp

/-! ### Egress ports -/

@[simp] theorem genRegs_switchGates (s : State) (p late : Nat) : genRegs (switchGates s p late) = genRegs s := by simp [switchGates]

@[simp] theorem genRegs_switchOver (s : State) (p late : Nat) : genRegs (switchOver s p late) = genRegs s := by simp [switchOver]

@[simp] theorem genRegs_syncGate (s : State) (p : Nat) : genRegs (syncGate s p) = genRegs s := by simp [syncGate]

@[simp] theorem genRegs_syncGates (s : State) : genRegs (syncGates s) = genRegs s := by simp [syncGates]

@[simp] theorem genRegs_jumpGates (s : State) : genRegs (jumpGates s) = genRegs s := by simp [jumpGates]

@[simp] theorem genRegs_skipFenced (s : State) (e : QEnt) : genRegs (skipFenced s e) = genRegs s := by
  unfold skipFenced
  dsimp only
  split
  · simp
  · split
    · simp
    · split <;> simp

@[simp] theorem genRegs_dropFencedHead (s : State) (p : Nat) (c : Fin 8) (n : Nat) : genRegs (dropFencedHead s p c n) = genRegs s := by
  induction n generalizing s with
  | zero => rfl
  | succ n ih =>
    unfold dropFencedHead
    dsimp only
    split
    · rfl
    · split
      · simp [ih]
      · rfl

@[simp] theorem genRegs_dropFenced (s : State) (p : Nat) : genRegs (dropFenced s p) = genRegs s := by simp [dropFenced]

@[simp] theorem genRegs_noteGuard (s : State) (p : Nat) : genRegs (noteGuard s p) = genRegs s := by
  refine genRegs_foldl _ (fun t n => ?_) _ s
  dsimp only
  split
  · rfl
  · split <;> rfl

@[simp] theorem genRegs_startFrame (s : State) (p : Nat) (x : Port) (c : Fin 8) (e : QEnt) (rest : List QEnt) (depth : Nat) :
    genRegs (startFrame s p x c e rest depth) = genRegs s := by simp [startFrame]

@[simp] theorem genRegs_swqEvt (s : State) (bit p : Nat) (c : Fin 8) : genRegs (swqEvt s bit p c) = genRegs s := by simp [swqEvt]

@[simp] theorem genRegs_headFault (s : State) (p : Nat) (c : Fin 8) (e : QEnt) (fault : EgressFault) :
    genRegs (headFault s p c e fault).1 = genRegs s := by
  unfold headFault
  split <;> simp

@[simp] theorem genRegs_dropHead (s : State) (e : QEnt) (fault : EgressFault) : genRegs (dropHead s e fault) = genRegs s := by
  unfold dropHead
  dsimp only
  split <;> simp

@[simp] theorem genRegs_gateFault (s : State) (p : Nat) (fault : EgressFault) : genRegs (gateFault s p fault) = genRegs s := by
  unfold gateFault
  split <;> simp

@[simp] theorem execFrameStart_keepsRegs (p : PortNo) (fault : EgressFault) (s : State) : answerKeepsRegs s (execFrameStart p fault s) := by
  unfold execFrameStart
  split
  · simp
  · dsimp only
    split
    · simp
    · split
      · simp
      · split <;> simp

@[simp] theorem genRegs_sendFrame (s : State) (p : Nat) (f : Frame) : genRegs (sendFrame s p f) = genRegs s := by simp [sendFrame]

@[simp] theorem genRegs_abortFrame (s : State) (p : Nat) (f : Frame) : genRegs (abortFrame s p f) = genRegs s := by simp [abortFrame]

@[simp] theorem genRegs_haltSwitch (s : State) : genRegs (haltSwitch s) = genRegs s := genRegs_foldl _ (fun t kp => by split <;> simp) s.ports s

@[simp] theorem execFrameDepart_keepsRegs (p : PortNo) (cellLost : Option (BitVec 7)) (s : State) :
    answerKeepsRegs s (execFrameDepart p cellLost s) := by
  unfold execFrameDepart
  dsimp only
  split
  · simp
  · cases cellLost <;> simp

@[simp] theorem execGateEntryAdvance_keepsRegs (p : PortNo) (s : State) :
    answerKeepsRegs s (execGateEntryAdvance p s) := by simp [execGateEntryAdvance]

@[simp] theorem genRegs_goCycle (s : State) (p : Nat) : genRegs (goCycle s p) = genRegs s := by simp [goCycle]

@[simp] theorem genRegs_writeGateCtl (s : State) (p : Nat) (v : Word) : genRegs (writeGateCtl s p v) = genRegs s := by simp [writeGateCtl]

@[simp] theorem execGateGo_keepsRegs (p : PortNo) (v : Word) (s : State) : answerKeepsRegs s (execGateGo p v s) := by simp [execGateGo]

@[simp] theorem execGateSwitchover_keepsRegs (p : PortNo) (s : State) :
    answerKeepsRegs s (execGateSwitchover p s) := by simp [execGateSwitchover]

@[simp] theorem execKsTimeout_keepsRegs (k : HoldKey) (s : State) : answerKeepsRegs s (execKsTimeout k s) := by
  unfold execKsTimeout
  split <;> simp

@[simp] theorem execKeystoneQuietRelease_keepsRegs (k : HoldKey) (s : State) : answerKeepsRegs s (execKeystoneQuietRelease k s) := by
  unfold execKeystoneQuietRelease
  split <;> simp

/-! ### Frames on their way in -/

@[simp] theorem genRegs_countDrop (s : State) (p : Nat) (d : Drop) : genRegs (countDrop s p d) = genRegs s := by simp [countDrop]

@[simp] theorem genRegs_dropFrame (s : State) (p : Nat) (f : Frame) (d : Drop) :
    genRegs (dropFrame s p f d) = genRegs s := by simp [dropFrame]

@[simp] theorem genRegs_markOne (s : State) (i : Nat) (colour f : Nat) (stage2 : Bool) : genRegs (markOne s i colour f stage2).2 = genRegs s := by
  simp [markOne, apply_ite Prod.snd]

@[simp] theorem genRegs_police (s : State) (p : Nat) (f : Frame) : genRegs (police s p f).1 = genRegs s := by
  unfold police
  dsimp only
  split
  · rfl
  · split
    · simp
    · split <;> simp
    · simp

theorem genRegs_takeIn {s t : State} {l : LocalC} {n : Nat} (h : takeIn s l = .ok (n, t)) : genRegs t = genRegs s :=
  genRegs_allocCopy (by rwa [takeIn] at h)

@[simp] theorem genRegs_refuseIn (s₀ : State) (e : Short) (l : LocalC) : genRegs (refuseIn s₀ e l) = genRegs s₀ := by simp [refuseIn]

@[simp] theorem genRegs_creditIn (s : State) (l : LocalC) : genRegs (creditIn s l) = genRegs s := by simp [creditIn]

@[simp] theorem genRegs_forwardTo (s : State) (l : LocalC) (n : Nat) : genRegs (forwardTo s l n) = genRegs s := by
  unfold forwardTo
  dsimp only
  split
  · simp
  · simp
  · split
    · simp
    · next ht => simpa using genRegs_takeIn ht

@[simp] theorem genRegs_forward (s : State) (l : LocalC) (n : Nat) : genRegs (forward s l n) = genRegs s := by simp [forward]

@[simp] theorem genRegs_unrouted (s : State) (l : LocalC) : genRegs (unrouted s l) = genRegs s := by simp [unrouted]

@[simp] theorem genRegs_arriveHere (s : State) (l : LocalC) : genRegs (arriveHere s l) = genRegs s := by
  unfold arriveHere
  split
  · simp
  · split
    · simp
    · next ht => simpa using genRegs_takeIn ht

@[simp] theorem genRegs_routeOn (s : State) (l : LocalC) : genRegs (routeOn s l) = genRegs s := by
  unfold routeOn
  split <;> simp

@[simp] theorem genRegs_drainComb (s : State) (p c n : Nat) : genRegs (drainComb s p c n) = genRegs s := by
  induction n generalizing s with
  | zero => rfl
  | succ n ih =>
    unfold drainComb
    split
    · rfl
    · split <;> simp [ih]

@[simp] theorem genRegs_routeFrame (s : State) (l : LocalC) : genRegs (routeFrame s l) = genRegs s := by
  unfold routeFrame
  split <;> simp

@[simp] theorem genRegs_reachBad (s : State) (q : Option Nat) (e : QEnt) : genRegs (reachBad s q e) = genRegs s := by
  unfold reachBad
  dsimp only
  split <;> simp

@[simp] theorem genRegs_dropHeld (s : State) (l : LocalC) (id : Nat) (d : Drop) :
    genRegs (dropHeld s l id d) = genRegs s := by simp [dropHeld]

@[simp] theorem genRegs_startBad (s : State) (l : LocalC) (q id : Nat) (d : Drop) : genRegs (startBad s l q id d) = genRegs s := by
  have hold := genRegs_holdArrive s (some q) (portEnt l id)
  unfold startBad
  dsimp only
  split
  · simp
  · next hh =>
    rw [hh] at hold
    split <;> simpa using hold

@[simp] theorem genRegs_badFrame (s : State) (l : LocalC) (d : Drop) (started : Bool) : genRegs (badFrame s l d started) = genRegs s := by
  unfold badFrame
  dsimp only
  split
  · simp
  · split
    · simp
    · split
      · simp
      · next ht => simpa using genRegs_takeIn ht
  · split
    · simp
    · split
      · simp
      · split
        · split
          · simp
          · next ht => simpa using genRegs_takeIn ht
        · simp

@[simp] theorem genRegs_stampOf (s : State) (p age : Nat) : genRegs (stampOf s p age).2 = genRegs s := by
  unfold stampOf
  split <;> simp

@[simp] theorem genRegs_takeSymbol (s : State) (p : Nat) (cs : List Code) : genRegs (takeSymbol s p cs) = genRegs s := by simp [takeSymbol]

@[simp] theorem genRegs_rxOne (s : State) (p : Nat) (b : Option Byte) (bad : Bool) : genRegs (rxOne s p b bad) = genRegs s := by
  unfold rxOne
  (repeat' split) <;> simp

@[simp] theorem genRegs_rxBody (s : State) (p n : Nat) (w : WireIn) (bs : List (Option Byte)) : genRegs (rxBody s p n w bs) = genRegs s := by
  induction bs generalizing s n with
  | nil => rfl
  | cons b bs ih => simp [rxBody, ih]

@[simp] theorem genRegs_rxWire (s : State) (p : Nat) (f : Frame) (w : WireIn) : genRegs (rxWire s p f w) = genRegs s := by simp [rxWire]

@[simp] theorem genRegs_receive (s : State) (p : PortNo) (f : Frame) (wire : WireIn) (age : Nat) (started : Bool) :
    genRegs (receive s p f wire age started) = genRegs s := by
  unfold receive
  dsimp only
  split
  · simp
  · split
    · simp
    · have hpol := genRegs_police (stampOf (meetLookups (rxWire s p f wire) [8, 9, 10, 11] wire.lookups) p age).2 p f
      split
      · next hp => rw [hp] at hpol; simpa using hpol
      · next hp =>
        rw [hp] at hpol
        split <;> simpa using hpol

@[simp] theorem execFrameReceive_keepsRegs (p : PortNo) (f : Frame) (wire : WireIn) (age : Nat) (started : Bool) (s : State) :
    answerKeepsRegs s (execFrameReceive p f wire age started s) := by simp [execFrameReceive]

/-! ### Combining in passing -/

@[simp] theorem genRegs_forwardAll (s : State) (ls : List LocalC) : genRegs (forwardAll s ls) = genRegs s := by simp [forwardAll]

@[simp] theorem genRegs_goOn (s : State) (ls : List LocalC) : genRegs (goOn s ls) = genRegs s := by simp [goOn]

@[simp] theorem genRegs_takeOut (s : State) (ls : List LocalC) : genRegs (takeOut s ls) = genRegs s := by simp [takeOut]

@[simp] theorem genRegs_putComb (s : State) (n : Nat) (c : Option Comb) : genRegs (putComb s n c) = genRegs s := by simp [putComb]

theorem genRegs_sendPartial {s t : State} {n : Nat} {c : Comb} (h : sendPartial s n c = .ok t) : genRegs t = genRegs s := by
  unfold sendPartial at h
  split at h
  · contradiction
  · next ha => cases h; simpa using genRegs_allocMessage ha

@[simp] theorem genRegs_trySendPartial (s : State) (n : Nat) (c : Comb) : genRegs (trySendPartial s n c) = genRegs s := by
  unfold trySendPartial
  split
  · next hs => exact genRegs_sendPartial hs
  · simp

@[simp] theorem genRegs_sealComb (s : State) (n : Nat) : genRegs (sealComb s n) = genRegs s := by
  unfold sealComb
  split <;> simp

@[simp] theorem genRegs_ackJoined (s : State) (ls : List LocalC) : genRegs (ackJoined s ls) = genRegs s := by
  unfold ackJoined
  split <;> simp

@[simp] theorem genRegs_openComb (s : State) (slot : Nat) (ls : List LocalC) (p : Part) :
    genRegs (openComb s slot ls p) = genRegs s := by simp [openComb]

@[simp] theorem genRegs_joinComb (s : State) (n : Nat) (c : Comb) (ls : List LocalC) (p : Part) (sum : List Int) :
    genRegs (joinComb s n c ls p sum) = genRegs s := by simp [joinComb]

@[simp] theorem genRegs_relay (s : State) (c : Comb) (typ reason : Nat) : genRegs (relay s c typ reason) = genRegs s := by
  unfold relay
  refine genRegs_foldl _ (fun t v => ?_) _ _
  split <;> simp

@[simp] theorem genRegs_dropPartial (s : State) (n : Nat) (c : Comb) : genRegs (dropPartial s n c) = genRegs s := by simp [dropPartial]

@[simp] theorem genRegs_spoilComb (s : State) (n : Nat) (c : Comb) (ls : List LocalC) (p : Part) :
    genRegs (spoilComb s n c ls p) = genRegs s := by simp [spoilComb]

/-- The general registers as a combiner's run leaves them, where it leaves a state. -/
def CombRun.keepsRegs (s : State) : CombRun → Prop
  | .fine _ t => genRegs t = genRegs s
  | .away t => genRegs t = genRegs s
  | .spoiled t => genRegs t = genRegs s
  | .waits => True

theorem combRun_keepsRegs (s : State) (sl : SliceNo) (slot : Nat) (ls : List LocalC) (vals : List Int) :
    (combRun s sl slot ls vals).keepsRegs s := by
  have hrun := doRun_keepsRegs s sl (runCtx s (frameChunk slot (headOf ls).frame) (descOf s slot) (fElems (headOf ls).frame)
    (fRank (headOf ls).frame) 1 false) (vals.map (uintOf 64))
  unfold combRun
  dsimp only
  split
  · rfl
  · split
    · trivial
    · split
      · next hd =>
        rw [hd] at hrun
        split <;> exact hrun
      · next hd => rw [hd] at hrun; exact hrun
      · next hd => rw [hd] at hrun; exact hrun
      · rfl
      · trivial

@[simp] theorem genRegs_replaceFirst (s : State) (n : Nat) (c : Comb) (ls : List LocalC) (p : Part) :
    genRegs (replaceFirst s n c ls p) = genRegs s := by simp [replaceFirst]

theorem firstRun_keepsRegs (s : State) (sl : SliceNo) (slot : Nat) (c : Comb) : (firstRun s sl slot c).keepsRegs s := by
  unfold firstRun
  split
  · rfl
  · exact combRun_keepsRegs ..

@[simp] theorem genRegs_joinSum (s : State) (sl : SliceNo) (fault : SeracFault) (slot n : Nat) (c : Comb) (ls : List LocalC) (p : Part) :
    genRegs (joinSum s sl fault slot n c ls p) = genRegs s := by simp [joinSum]

theorem genRegs_joinRuns {s t : State} {sl : SliceNo} {fault : SeracFault} {slot n : Nat} {c : Comb} {ls : List LocalC} {p : Part}
    (h : joinRuns s sl fault slot n c ls p = some t) : genRegs t = genRegs s := by
  have hfirst := firstRun_keepsRegs s sl slot c
  unfold joinRuns at h
  split at h
  · contradiction
  · next hf => rw [hf] at hfirst; obtain rfl := Option.some.inj h; simpa [CombRun.keepsRegs] using hfirst
  · next hf => rw [hf] at hfirst; obtain rfl := Option.some.inj h; simpa [CombRun.keepsRegs] using hfirst
  · next v u hf =>
    rw [hf] at hfirst
    have hsecond := combRun_keepsRegs u sl slot ls p.vals
    dsimp only at h
    split at h
    · contradiction
    all_goals
      next hc =>
        rw [hc] at hsecond
        obtain rfl := Option.some.inj h
        simpa using Eq.trans hsecond hfirst

theorem genRegs_tryJoin {s t : State} {sl : SliceNo} {fault : SeracFault} {slot n : Nat} {c : Comb} {ls : List LocalC} {p : Part}
    (h : tryJoin s sl fault slot n c ls p = some t) : genRegs t = genRegs s := by
  unfold tryJoin at h
  dsimp only at h
  split at h
  · obtain rfl := Option.some.inj h; simp
  · simpa using genRegs_joinRuns h

theorem genRegs_combineOne {s t : State} {sl : SliceNo} {fault : SeracFault} {ls : List LocalC}
    (h : combineOne s sl fault ls = some t) : genRegs t = genRegs s := by
  unfold combineOne at h
  dsimp only at h
  split at h
  · obtain rfl := Option.some.inj h; simp
  split at h
  · obtain rfl := Option.some.inj h; simp
  split at h
  · obtain rfl := Option.some.inj h; simp
  split at h
  · obtain rfl := Option.some.inj h; simp
  split at h
  · obtain rfl := Option.some.inj h; simp
  split at h
  · exact genRegs_tryJoin h
  · obtain rfl := Option.some.inj h; simp

@[simp] theorem genRegs_drainAll (s : State) : genRegs (drainAll s) = genRegs s := by simp [drainAll]

@[simp] theorem execCombineContrib_keepsRegs (sl : SliceNo) (fault : SeracFault) (s : State) :
    answerKeepsRegs s (execCombineContrib sl fault s) := by
  unfold execCombineContrib
  dsimp only
  split
  · simp
  · refine answerKeepsRegs_act _ _ _ ?_
    split
    · rfl
    · next hc => simpa using genRegs_combineOne hc

@[simp] theorem genRegs_sealAll (s : State) (xs : List (Nat × Comb)) : genRegs (sealAll s xs) = genRegs s := by simp [sealAll]

@[simp] theorem execCombWindowSeal_keepsRegs (c : ChunkId) (s : State) : answerKeepsRegs s (execCombWindowSeal c s) := by
  unfold execCombWindowSeal
  split <;> simp

@[simp] theorem execCombBusyRetry_keepsRegs (dest : BitVec 20) (msg : BitVec 32) (copyFault : Option (Fin 16)) (s : State) :
    answerKeepsRegs s (execCombBusyRetry dest msg copyFault s) := by
  unfold execCombBusyRetry
  (repeat' split) <;> simp

@[simp] theorem genRegs_writeCombCtl (s : State) (v : Word) : genRegs (writeCombCtl s v) = genRegs s := by simp [writeCombCtl]

@[simp] theorem execCombCtlWrite_keepsRegs (v : Word) (s : State) : answerKeepsRegs s (execCombCtlWrite v s) := by simp [execCombCtlWrite]

@[simp] theorem execChunkMove_keepsRegs (c : ChunkId) (s : State) : answerKeepsRegs s (execChunkMove c s) := by
  unfold execChunkMove
  dsimp only
  split <;> simp

@[simp] theorem genRegs_spoilBusy (sl : SliceNo) (s : State) (i : ChunkId) : genRegs (spoilBusy sl s i) = genRegs s := by simp [spoilBusy]

@[simp] theorem execSliceFatal_keepsRegs (sl : SliceNo) (busy : List ChunkId) (s : State) :
    answerKeepsRegs s (execSliceFatal sl busy s) := by simp [execSliceFatal]

/-! ### Other frames addressed to the switch -/

theorem genRegs_takeLocal {s t : State} {p : Frame → Bool} {l : LocalC} (h : takeLocal s p = some (l, t)) : genRegs t = genRegs s := by
  unfold takeLocal at h
  split at h
  · contradiction
  · cases h; simp

@[simp] theorem onLocal_keepsRegs (s : State) (p : Frame → Bool) (k : State → LocalC → State) (hk : ∀ t l, genRegs (k t l) = genRegs t) :
    answerKeepsRegs s (onLocal s p k) := by
  unfold onLocal
  split
  · simp
  · next ht => exact answerKeepsRegs_act _ _ _ ((hk _ _).trans (by simpa using genRegs_takeLocal ht))

@[simp] theorem onAsking_keepsRegs (s : State) (p : Frame → Bool) (k : State → LocalC → State) (hk : ∀ t l, genRegs (k t l) = genRegs t) :
    answerKeepsRegs s (onAsking s p k) := by
  unfold onAsking
  split
  · simp
  · exact onLocal_keepsRegs _ _ _ hk

@[simp] theorem genRegs_noteEcho (s : State) (f : Frame) : genRegs (noteEcho s f) = genRegs s := by simp [noteEcho]

@[simp] theorem genRegs_unmatched (s : State) : genRegs (unmatched s) = genRegs s := by simp [unmatched]

@[simp] theorem execAckReceive_keepsRegs (s : State) : answerKeepsRegs s (execAckReceive s) := by
  refine onLocal_keepsRegs _ _ _ fun t l => ?_
  dsimp only
  split <;> simp

@[simp] theorem execNackReceive_keepsRegs (copyFault : Option (Fin 16)) (s : State) : answerKeepsRegs s (execNackReceive copyFault s) := by
  refine onLocal_keepsRegs _ _ _ fun t l => ?_
  dsimp only
  split
  · simp
  · split <;> simp

@[simp] theorem execBusyReceive_keepsRegs (s : State) : answerKeepsRegs s (execBusyReceive s) := by
  refine onLocal_keepsRegs _ _ _ fun t l => ?_
  dsimp only
  split
  · simp
  · split <;> simp

@[simp] theorem execLateReceive_keepsRegs (s : State) : answerKeepsRegs s (execLateReceive s) := by
  refine onAsking_keepsRegs _ _ _ fun t l => ?_
  dsimp only
  split
  · simp
  · split <;> simp

@[simp] theorem genRegs_abandonedBy (s : State) (src id : Nat) : genRegs (abandonedBy s src id) = genRegs s := by
  unfold abandonedBy
  split <;> simp

@[simp] theorem execNoticeReceive_keepsRegs (s : State) : answerKeepsRegs s (execNoticeReceive s) := by
  refine onAsking_keepsRegs _ _ _ fun t l => ?_
  dsimp only
  split <;> simp

@[simp] theorem genRegs_ackMarked (s : State) (f : Frame) : genRegs (ackMarked s f) = genRegs s := by simp [ackMarked]

@[simp] theorem genRegs_noteFrame (s : State) (f : Frame) : genRegs (noteFrame s f).1 = genRegs s := by simp [noteFrame]

@[simp] theorem genRegs_whenWhole (s : State) (f : Frame) (k : State → State) (hk : ∀ t, genRegs (k t) = genRegs t) :
    genRegs (whenWhole s f k) = genRegs s := by
  have hnote := genRegs_noteFrame s f
  unfold whenWhole
  split
  · next h => rw [h] at hnote; exact hnote
  · next h => rw [h] at hnote; simpa [hk] using hnote
  · next h => rw [h] at hnote; simpa using hnote

@[simp] theorem genRegs_throughWindow (s : State) (f : Frame) (k drop : State → State) (hk : ∀ t, genRegs (k t) = genRegs t)
    (hdrop : ∀ t, genRegs (drop t) = genRegs t) : genRegs (throughWindow s f k drop) = genRegs s := by
  unfold throughWindow
  dsimp only
  split
  · simp [hdrop]
  · split
    · simp [hk]
    · split <;> simp [hdrop]
    · split <;> simp [hdrop]

@[simp] theorem genRegs_arrive (s : State) (f : Frame) (slot : Nat) : genRegs (arrive s f slot) = genRegs s := by simp [arrive]

@[simp] theorem execBarrierArrival_keepsRegs (s : State) : answerKeepsRegs s (execBarrierArrival s) := by
  refine onAsking_keepsRegs _ _ _ fun t l => ?_
  dsimp only
  split <;> simp

@[simp] theorem execCqCredit_keepsRegs (s : State) : answerKeepsRegs s (execCqCredit s) := by
  refine onAsking_keepsRegs _ _ _ fun t l => genRegs_throughWindow _ _ _ _ (fun u => ?_) fun _ => rfl
  dsimp only
  split <;> simp

theorem genRegs_mbxPut {s t : State} {c : CoreNo} {e : MbxEntry} (h : mbxPut s c e = some t) : genRegs t = genRegs s := by
  unfold mbxPut at h
  dsimp only at h
  split at h
  · obtain rfl := Option.some.inj h; exact genRegs_setCore _ _ _ rfl
  · contradiction

theorem genRegs_placeEntry {s t : State} {c : CoreNo} {l : LocalC} (h : placeEntry s c l = .ok t) : genRegs t = genRegs s := by
  unfold placeEntry at h
  dsimp only at h
  replace h := ok_of_ite_error h
  split at h
  · contradiction
  · next ha =>
    split at h
    · contradiction
    · next hp =>
      cases h
      simpa using (genRegs_mbxPut hp).trans (genRegs_allocCopy ha)

theorem genRegs_placeFrames {s t : State} {ls : List LocalC} (h : placeFrames s ls = .ok t) : genRegs t = genRegs s := by
  induction ls generalizing s with
  | nil => cases h; rfl
  | cons l ls ih =>
    unfold placeFrames at h
    split at h
    · contradiction
    · next hp => exact (ih h).trans (genRegs_placeEntry hp)

@[simp] theorem genRegs_programOp (s : State) (f : Frame) (kept : List LocalC) : genRegs (programOp s f kept) = genRegs s := by
  unfold programOp
  split
  · next hp => simpa using genRegs_placeFrames hp
  · simp

@[simp] theorem genRegs_takeProgramFrame (s : State) (l : LocalC) : genRegs (takeProgramFrame s l) = genRegs s := by simp [takeProgramFrame]

@[simp] theorem execGroupctlProgramOp_keepsRegs (s : State) : answerKeepsRegs s (execGroupctlProgramOp s) := by
  unfold execGroupctlProgramOp
  split <;> simp

@[simp] theorem genRegs_rejectWhole (s : State) (f : Frame) : genRegs (rejectWhole s f) = genRegs s := by simp [rejectWhole]

@[simp] theorem execGroupctlReservedOp_keepsRegs (s : State) :
    answerKeepsRegs s (execGroupctlReservedOp s) := by simp [execGroupctlReservedOp]

@[simp] theorem execDataToSwitch_keepsRegs (s : State) : answerKeepsRegs s (execDataToSwitch s) := by simp [execDataToSwitch]

@[simp] theorem execResultToSwitch_keepsRegs (s : State) : answerKeepsRegs s (execResultToSwitch s) := by simp [execResultToSwitch]

@[simp] theorem genRegs_forgetPart (s : State) (ip : ChunkId × PartRx) : genRegs (forgetPart s ip) = genRegs s := by simp [forgetPart]

@[simp] theorem genRegs_clearWindow (s : State) (ep : Nat) : genRegs (clearWindow s ep) = genRegs s := by simp [clearWindow]

@[simp] theorem genRegs_writeWinClr (s : State) (v : Word) : genRegs (writeWinClr s v) = genRegs s := by simp [writeWinClr]

@[simp] theorem execE2eWinClr_keepsRegs (ep : BitVec 20) (s : State) : answerKeepsRegs s (execE2eWinClr ep s) := by simp [execE2eWinClr]

@[simp] theorem genRegs_tryJob (s : State) (j : Job) : genRegs (tryJob s j) = genRegs s := by
  unfold tryJob
  (repeat' split) <;> simp

@[simp] theorem genRegs_allocForCtl (s : State) : genRegs (allocForCtl s) = genRegs s := by
  unfold allocForCtl
  split
  · next ha => simpa using genRegs_allocExts ha
  · dsimp only
    split <;> simp

@[simp] theorem execBpmAllocGrant_keepsRegs (req : Fin 8192) (link : LinkFault) (s : State) :
    answerKeepsRegs s (execBpmAllocGrant req link s) := by
  unfold execBpmAllocGrant
  (repeat' split) <;> simp

/-! ### Ports and lanes -/

@[simp] theorem genRegs_sendAll (s : State) (p : Nat) (init : Bool) : genRegs (sendAll s p init) = genRegs s := by simp [sendAll]

@[simp] theorem genRegs_withholdInit (s : State) (p : Nat) : genRegs (withholdInit s p) = genRegs s := by simp [withholdInit]

@[simp] theorem genRegs_tryUp (s : State) (p : Nat) : genRegs (tryUp s p) = genRegs s := by simp [tryUp]

@[simp] theorem genRegs_tryUps (s : State) (ps : List Nat) : genRegs (tryUps s ps) = genRegs s := by simp [tryUps]

@[simp] theorem genRegs_sendInits (s : State) (p : Nat) : genRegs (sendInits s p) = genRegs s := by simp [sendInits]

@[simp] theorem genRegs_beginInit (s : State) (p : Nat) : genRegs (beginInit s p) = genRegs s := by simp [beginInit]

@[simp] theorem execCreditSymbolReceive_keepsRegs (p : PortNo) (c1 c2 c3 : Code) (s : State) :
    answerKeepsRegs s (execCreditSymbolReceive p c1 c2 c3 s) := by simp [execCreditSymbolReceive]

@[simp] theorem execCreditRefresh_keepsRegs (p : PortNo) (s : State) :
    answerKeepsRegs s (execCreditRefresh p s) := by simp [execCreditRefresh]

@[simp] theorem execInitRepeat_keepsRegs (p : PortNo) (s : State) : answerKeepsRegs s (execInitRepeat p s) := by simp [execInitRepeat]

@[simp] theorem execInitReservationFit_keepsRegs (p : PortNo) (s₀ : State) :
    answerKeepsRegs s₀ (execInitReservationFit p s₀) := by simp [execInitReservationFit]

@[simp] theorem genRegs_writePortCred (s : State) (p : Nat) (c : Fin 8) (v : Word) :
    genRegs (writePortCred s p c v) = genRegs s := by simp [writePortCred]

@[simp] theorem execPortCredWrite_keepsRegs (p : PortNo) (vc : Fin 8) (v : Word) (s : State) :
    answerKeepsRegs s (execPortCredWrite p vc v s) := by simp [execPortCredWrite]

@[simp] theorem genRegs_discard (s : State) (p : Nat) (copy : Nat) : genRegs (discard s p copy) = genRegs s := by simp [discard]

@[simp] theorem genRegs_discardQueues (s : State) (p : Nat) : genRegs (discardQueues s p) = genRegs s := by simp [discardQueues]

@[simp] theorem genRegs_loseSending (s : State) (p : Nat) : genRegs (loseSending s p) = genRegs s := by
  unfold loseSending
  dsimp only
  split <;> simp

@[simp] theorem genRegs_foldl_setLane (g : State → Nat → Lane) (ls : List Nat) (s : State) :
    genRegs (ls.foldl (fun t l => setLane t l (g t l)) s) = genRegs s :=
  genRegs_foldl (fun t l => setLane t l (g t l)) (fun _ _ => rfl) ls s

@[simp] theorem genRegs_mapLanes (s : State) (ls : List Nat) (f : Lane → Lane) : genRegs (mapLanes s ls f) = genRegs s :=
  genRegs_foldl_setLane _ ls s

@[simp] theorem genRegs_sendSets (s : State) (p : Nat) (lanes : List Nat) (ts2 : Bool) :
    genRegs (sendSets s p lanes ts2) = genRegs s := by simp [sendSets]

@[simp] theorem genRegs_enterDetect (s : State) (p : Nat) : genRegs (enterDetect s p) = genRegs s := by simp [enterDetect]

@[simp] theorem genRegs_enterPoll (s : State) (p : Nat) : genRegs (enterPoll s p) = genRegs s := by simp [enterPoll]

@[simp] theorem genRegs_startTraining (s : State) (p : Nat) : genRegs (startTraining s p) = genRegs s := by simp [startTraining]

@[simp] theorem genRegs_pierEvt (s : State) (bit lane cause : Nat) : genRegs (pierEvt s bit lane cause) = genRegs s := by simp [pierEvt]

@[simp] theorem genRegs_trainFail (s : State) (p why : Nat) : genRegs (trainFail s p why) = genRegs s := by simp [trainFail]

@[simp] theorem execSignalDetect_keepsRegs (lane : Fin 512) (s : State) :
    answerKeepsRegs s (execSignalDetect lane s) := by simp [execSignalDetect]

@[simp] theorem genRegs_seekSet (s : State) (lane : Nat) (set : List Code) : genRegs (seekSet s lane set).2 = genRegs s := by
  unfold seekSet
  dsimp only
  split <;> rfl

@[simp] theorem genRegs_readSet (s : State) (lane : Nat) (set : List Code) : genRegs (readSet s lane set).2 = genRegs s := by
  unfold readSet
  split <;> simp

@[simp] theorem genRegs_pollDone (s : State) (p : Nat) : genRegs (pollDone s p) = genRegs s := by
  unfold pollDone
  split <;> simp

@[simp] theorem genRegs_enterVerify (s : State) (p : Nat) : genRegs (enterVerify s p) = genRegs s := by simp [enterVerify]

@[simp] theorem genRegs_enterEq (s : State) (p : Nat) : genRegs (enterEq s p) = genRegs s := by simp [enterEq]

@[simp] theorem genRegs_configDone (s : State) (p l0 : Nat) (t : TrainSet) : genRegs (configDone s p l0 t) = genRegs s := by
  simp [configDone]

@[simp] theorem genRegs_eqDone (s : State) (p : Nat) : genRegs (eqDone s p) = genRegs s := by simp [eqDone]

@[simp] theorem genRegs_leaveUp (s : State) (p : Nat) : genRegs (leaveUp s p) = genRegs s := by simp [leaveUp]

@[simp] theorem genRegs_loseLink (s : State) (p : Nat) : genRegs (loseLink s p) = genRegs s := by simp [loseLink]

@[simp] theorem genRegs_linkLost (s : State) (p cause : Nat) : genRegs (linkLost s p cause) = genRegs s := by
  unfold linkLost
  split <;> simp

@[simp] theorem execLinkLoss_keepsRegs (p : PortNo) (cause : BitVec 3) (s : State) :
    answerKeepsRegs s (execLinkLoss p cause s) := by simp [execLinkLoss]

@[simp] theorem genRegs_trainSet (s : State) (lane : Nat) (ts : Option TrainSet) : genRegs (trainSet s lane ts) = genRegs s := by
  unfold trainSet
  dsimp only
  split
  · rfl
  · split <;> simp

@[simp] theorem execTrainingSetReceive_keepsRegs (lane : Fin 512) (first : Code) (rest : List Code) (s : State) :
    answerKeepsRegs s (execTrainingSetReceive lane first rest s) := by simp [execTrainingSetReceive]

@[simp] theorem genRegs_amErr (s : State) (lane : Nat) : genRegs (amErr s lane) = genRegs s := by simp [amErr]

@[simp] theorem genRegs_verifyDone (s : State) (p : Nat) : genRegs (verifyDone s p) = genRegs s := by simp [verifyDone]

@[simp] theorem genRegs_goodMarker (s : State) (lane delay : Nat) : genRegs (goodMarker s lane delay) = genRegs s := by simp [goodMarker]

@[simp] theorem genRegs_takeMarker (s : State) (lane delay : Nat) (codes : List Code) : genRegs (takeMarker s lane delay codes) = genRegs s := by
  unfold takeMarker
  dsimp only
  split <;> simp

@[simp] theorem execAlignmentMarkerReceive_keepsRegs (lane : Fin 512) (c0 c1 c2 c3 : Code) (delay : Nat) (s : State) :
    answerKeepsRegs s (execAlignmentMarkerReceive lane c0 c1 c2 c3 delay s) := by simp [execAlignmentMarkerReceive]

@[simp] theorem execFillerPairReceive_keepsRegs (p : PortNo) (level : Nat) (bad : Option (Fin 512)) (s : State) :
    answerKeepsRegs s (execFillerPairReceive p level bad s) := by
  unfold execFillerPairReceive
  split <;> simp

@[simp] theorem genRegs_idleChar (s : State) (lane : Nat) (code : Code) : genRegs (idleChar s lane code) = genRegs s := by
  unfold idleChar
  dsimp only
  split <;> simp

@[simp] theorem execIdleCharacterReceive_keepsRegs (lane : Fin 512) (code : Code) (s : State) :
    answerKeepsRegs s (execIdleCharacterReceive lane code s) := by simp [execIdleCharacterReceive]

@[simp] theorem genRegs_limitReached (s : State) (p : Nat) : genRegs (limitReached s p) = genRegs s := by
  unfold limitReached
  dsimp only
  split <;> simp

@[simp] theorem execTrainingTimeout_keepsRegs (p : PortNo) (s : State) : answerKeepsRegs s (execTrainingTimeout p s) := by
  unfold execTrainingTimeout
  dsimp only
  split <;> simp

@[simp] theorem execRetryWaitExpiry_keepsRegs (p : PortNo) (s : State) : answerKeepsRegs s (execRetryWaitExpiry p s) := by
  unfold execRetryWaitExpiry
  dsimp only
  split <;> simp

@[simp] theorem execFastRetrainTimeout_keepsRegs (p : PortNo) (s : State) : answerKeepsRegs s (execFastRetrainTimeout p s) := by
  unfold execFastRetrainTimeout
  split <;> simp

@[simp] theorem execHoldTimeout_keepsRegs (p : PortNo) (s : State) : answerKeepsRegs s (execHoldTimeout p s) := by
  unfold execHoldTimeout
  dsimp only
  split <;> simp

@[simp] theorem genRegs_retrainPort (s : State) (p : Nat) : genRegs (retrainPort s p) = genRegs s := by simp [retrainPort]

@[simp] theorem execRetrain_keepsRegs (p : PortNo) (s : State) : answerKeepsRegs s (execRetrain p s) := by simp [execRetrain]

@[simp] theorem genRegs_writeLnkCtl (s : State) (p : Nat) (v : Word) : genRegs (writeLnkCtl s p v) = genRegs s := by simp [writeLnkCtl]

@[simp] theorem genRegs_takeDown (s : State) (p : Nat) (st : PState) : genRegs (takeDown s p st) = genRegs s := by simp [takeDown]

@[simp] theorem genRegs_portOff (s : State) (p : Nat) : genRegs (portOff s p) = genRegs s := by simp [portOff]

@[simp] theorem genRegs_noteOff (s : State) (p : Nat) : genRegs (noteOff s p) = genRegs s := by simp [noteOff]

@[simp] theorem genRegs_writePortCtl (s₀ : State) (p : Nat) (v : Word) :
    genRegs (writePortCtl s₀ p v) = genRegs s₀ := by simp [writePortCtl]

@[simp] theorem execPortEnable_keepsRegs (p : PortNo) (v : Word) (s : State) :
    answerKeepsRegs s (execPortEnable p v s) := by simp [execPortEnable]

@[simp] theorem execPortDisable_keepsRegs (p : PortNo) (v : Word) (s : State) :
    answerKeepsRegs s (execPortDisable p v s) := by simp [execPortDisable]

@[simp] theorem genRegs_writeSplit (s : State) (g : Nat) (v : Word) : genRegs (writeSplit s g v) = genRegs s := by simp [writeSplit]

@[simp] theorem execLnkGrpSplitWrite_keepsRegs (g : Fin 128) (v : Word) (s : State) :
    answerKeepsRegs s (execLnkGrpSplitWrite g v s) := by simp [execLnkGrpSplitWrite]

@[simp] theorem genRegs_writeSwEp (s : State) (v : Word) : genRegs (writeSwEp s v) = genRegs s := by simp [writeSwEp]

@[simp] theorem execSwEpWrite_keepsRegs (v : Word) (s : State) : answerKeepsRegs s (execSwEpWrite v s) := by simp [execSwEpWrite]

@[simp] theorem genRegs_writeEyeCtl (s : State) (lane : Nat) (v : Word) :
    genRegs (writeEyeCtl s lane v) = genRegs s := by simp [writeEyeCtl]

@[simp] theorem execEyeScanGo_keepsRegs (lane : Fin 512) (v : Word) (s : State) :
    answerKeepsRegs s (execEyeScanGo lane v s) := by simp [execEyeScanGo]

@[simp] theorem execEyeScanDone_keepsRegs (lane : Fin 512) (mismatches : BitVec 40) (s : State) :
    answerKeepsRegs s (execEyeScanDone lane mismatches s) := answerKeepsRegs_act _ _ _ rfl

@[simp] theorem genRegs_vdctEvt (s : State) (v : Fin 8) (bit : Nat) (toPier : Bool) :
    genRegs (vdctEvt s v bit toPier) = genRegs s := by simp [vdctEvt]

@[simp] theorem genRegs_stopVdct (s : State) (v : Fin 8) (toPier : Bool) : genRegs (stopVdct s v toPier) = genRegs s := by simp [stopVdct]

@[simp] theorem execViaductCellReceive_keepsRegs (v : Fin 8) (toPier : Bool) (ok : Bool) (s : State) :
    answerKeepsRegs s (execViaductCellReceive v toPier ok s) := by simp [execViaductCellReceive]

@[simp] theorem genRegs_writeVdctCtl (s : State) (v : Fin 8) (w : Word) : genRegs (writeVdctCtl s v w) = genRegs s := by simp [writeVdctCtl]

@[simp] theorem execVdctRetrain_keepsRegs (v : Fin 8) (s : State) : answerKeepsRegs s (execVdctRetrain v s) := by simp [execVdctRetrain]

@[simp] theorem execVdctRetrainDone_keepsRegs (v : Fin 8) (ok : Bool) (s : State) :
    answerKeepsRegs s (execVdctRetrainDone v ok s) := by simp [execVdctRetrainDone]

@[simp] theorem execTimeLoadCell_keepsRegs (pier : Fin 8) (s : State) :
    answerKeepsRegs s (execTimeLoadCell pier s) := by simp [execTimeLoadCell]

/-! ### Commands of the buffer pools and of Firn -/

@[simp] theorem genRegs_bpmFinish (s : State) : genRegs (bpmFinish s) = genRegs s := by simp [bpmFinish]

@[simp] theorem genRegs_retireExtent (s : State) (x : Nat) : genRegs (retireExtent s x) = genRegs s := by simp [retireExtent]

@[simp] theorem genRegs_bpmGo (s : State) (op ext : Nat) (link : LinkFault) : genRegs (bpmGo s op ext link) = genRegs s := by
  unfold bpmGo
  split <;> simp

@[simp] theorem genRegs_writeBpmCmd (s : State) (v : Word) (link : LinkFault) :
    genRegs (writeBpmCmd s v link) = genRegs s := by simp [writeBpmCmd]

@[simp] theorem execAllocExt_keepsRegs (link : LinkFault) (s : State) : answerKeepsRegs s (execAllocExt link s) := by simp [execAllocExt]

@[simp] theorem execFreeExt_keepsRegs (ext : BitVec 22) (s : State) : answerKeepsRegs s (execFreeExt ext s) := by simp [execFreeExt]

@[simp] theorem execRetireExt_keepsRegs (ext : BitVec 22) (s : State) : answerKeepsRegs s (execRetireExt ext s) := by simp [execRetireExt]

@[simp] theorem execBpmCmdReserved_keepsRegs (op : BitVec 3) (s : State) :
    answerKeepsRegs s (execBpmCmdReserved op s) := by simp [execBpmCmdReserved]

@[simp] theorem execNeveThreadDone_keepsRegs (s : State) : answerKeepsRegs s (execNeveThreadDone s) := by simp [execNeveThreadDone]

@[simp] theorem genRegs_stackEvt (s : State) (k : Fin 4) (bit : Nat) : genRegs (stackEvt s k bit) = genRegs s := by simp [stackEvt]

@[simp] theorem genRegs_trainFailed (s : State) (k : Fin 4) : genRegs (trainFailed s k) = genRegs s := by simp [trainFailed]

@[simp] theorem execFirnTrainDone_keepsRegs (failed : Option (Fin 4)) (s : State) : answerKeepsRegs s (execFirnTrainDone failed s) := by
  unfold execFirnTrainDone
  split <;> simp

@[simp] theorem genRegs_copyRow (s : State) (src dst : Nat) (row : RowCopy) :
    genRegs (copyRow s src dst row) = genRegs s := by simp [copyRow]

@[simp] theorem genRegs_copyBurstEvt (s : State) (a : Nat) (f : MemFault) : genRegs (copyBurstEvt s a f) = genRegs s := by
  unfold copyBurstEvt
  dsimp only
  split <;> simp

@[simp] theorem genRegs_copyEvts (s : State) (row : RowCopy) (src : Nat) : genRegs (copyEvts s row src) = genRegs s := by
  unfold copyEvts
  split <;> simp

@[simp] theorem execRemapCopyDone_keepsRegs (row : RowCopy) (s : State) : answerKeepsRegs s (execRemapCopyDone row s) := by
  unfold execRemapCopyDone
  split <;> simp

@[simp] theorem genRegs_threadSpares (s : State) : genRegs (threadSpares s) = genRegs s := by simp [threadSpares]

@[simp] theorem genRegs_threadFirn (s : State) : genRegs (threadFirn s) = genRegs s := by simp [threadFirn]

@[simp] theorem execFirnThreadDone_keepsRegs (s : State) : answerKeepsRegs s (execFirnThreadDone s) := by simp [execFirnThreadDone]

@[simp] theorem genRegs_patternRow (s : State) (entry : Nat) : genRegs (patternRow s entry) = genRegs s := by simp [patternRow]

@[simp] theorem genRegs_writeMargin (s : State) (k : Fin 4) (v : Word) : genRegs (writeMargin s k v) = genRegs s := by simp [writeMargin]

@[simp] theorem execFrnMarginGo_keepsRegs (st : Fin 4) (v : Word) (s : State) :
    answerKeepsRegs s (execFrnMarginGo st v s) := by simp [execFrnMarginGo]

@[simp] theorem execFrnMarginDone_keepsRegs (st : Fin 4) (fails : BitVec 32) (s : State) :
    answerKeepsRegs s (execFrnMarginDone st fails s) := answerKeepsRegs_act _ _ _ rfl

@[simp] theorem genRegs_writeTherm (s : State) (k : Fin 4) (v : Word) : genRegs (writeTherm s k v) = genRegs s := by simp [writeTherm]

@[simp] theorem execFrnThermWrite_keepsRegs (st : Fin 4) (v : Word) (s : State) :
    answerKeepsRegs s (execFrnThermWrite st v s) := by simp [execFrnThermWrite]

@[simp] theorem execFrnThermalReading_keepsRegs (st : Fin 4) (t : Vector Byte 4) (s : State) :
    answerKeepsRegs s (execFrnThermalReading st t s) := by simp [execFrnThermalReading]

@[simp] theorem execRefresh_keepsRegs (ch : Fin 256) (s : State) : answerKeepsRegs s (execRefresh ch s) := by simp [execRefresh]

@[simp] theorem genRegs_addIdc (s : State) (k : Fin 4) (d n : Nat) : genRegs (addIdc s k d n) = genRegs s := by simp [addIdc]

@[simp] theorem execIdcPoll_keepsRegs (st : Fin 4) (counts : Vector Nat 12) (s : State) : answerKeepsRegs s (execIdcPoll st counts s) :=
  answerKeepsRegs_act _ _ _ ((genRegs_foldl _ (fun _ _ => genRegs_addIdc ..) _ _).trans (genRegs_atPlace ..))

@[simp] theorem genRegs_poisonEntries (s : State) (a : Nat) : genRegs (poisonEntries s a) = genRegs s := by simp [poisonEntries]

@[simp] theorem execFirnBurstRead_keepsRegs (addr : BitVec 38) (raw : Vector (Vector Byte 36) 8) (req : Fin 30) (s : State) :
    answerKeepsRegs s (execFirnBurstRead addr raw req s) := by
  unfold execFirnBurstRead
  dsimp only
  refine answerKeepsRegs_act _ _ _ ?_
  simp only [genRegs_ite, genRegs_poisonEntries, ite_self, genRegs_noteErr]
  split
  · split
    · split <;> simp
    · rw [genRegs_firnEvt]
      split <;> simp
  · rw [genRegs_firnUncorr]
    split
    · split <;> simp
    · rw [genRegs_firnEvt]
      split <;> simp

@[simp] theorem execFirnWriteback_keepsRegs (line : LineRead) (s : State) : answerKeepsRegs s (execFirnWriteback line s) := by
  unfold execFirnWriteback
  dsimp only
  split
  · simp
  · refine answerKeepsRegs_act _ _ _ ?_
    split <;> simp

/-! ### The control cores beside their scalar instructions -/

@[simp] theorem genRegs_firnTblFault (s : State) (c : CoreNo) (fault : MemFault) : genRegs (firnTblFault s c fault) = genRegs s := by
  unfold firnTblFault
  dsimp only
  split <;> simp

@[simp] theorem genRegs_syncTouched (s : State) (entries : List Nat) : genRegs (syncTouched s entries) = genRegs s := by simp [syncTouched]

@[simp] theorem genRegs_tblFault (s : State) (c : CoreNo) (id i : Nat) (fault : MemFault) :
    genRegs (tblFault s c id i fault).1 = genRegs s := by
  unfold tblFault
  (repeat' split) <;> simp

@[simp] theorem genRegs_copyBursts (s : State) (src dst i n : Nat) : genRegs (copyBursts s src dst i n) = genRegs s := by
  induction n generalizing s i with
  | zero => rfl
  | succ n ih => simp [copyBursts, ih]

@[simp] theorem genRegs_arenaWork (s : State) (n : Nat) : genRegs (arenaWork s n) = genRegs s := by
  unfold arenaWork
  split <;> simp

@[simp] theorem genRegs_arenaEnd (s : State) (code : Nat) : genRegs (arenaEnd s code) = genRegs s := by simp [arenaEnd]

@[simp] theorem genRegs_arenaAbort (s : State) (stg : List Staged) : genRegs (arenaAbort s stg) = genRegs s := by
  unfold arenaAbort
  split <;> simp

theorem genRegs_outPut {s t : State} {m : Fin 2} {c : CoreNo} {v : Word} (h : outPut s m c v = some t) : genRegs t = genRegs s := by
  unfold outPut at h
  dsimp only at h
  split at h
  · obtain rfl := Option.some.inj h; simp
  · contradiction

@[simp] theorem execTimerDue_keepsRegs (c : CoreNo) (s : State) : answerKeepsRegs s (execTimerDue c s) :=
  answerKeepsRegs_act _ _ _ (genRegs_setCore _ _ _ rfl)

@[simp] theorem startCore_regs (k : Core) : (startCore k).regs = k.regs := by unfold startCore; split <;> rfl

@[simp] theorem stopCore_regs (k : Core) : (stopCore k).regs = k.regs := by
  unfold stopCore
  split
  · split <;> rfl
  · rfl
  · rfl

@[simp] theorem genRegs_writeCoreCtl (s : State) (c : CoreNo) (v : Word) : genRegs (writeCoreCtl s c v) = genRegs s := by
  unfold writeCoreCtl
  split
  · rfl
  · refine genRegs_setCore _ _ _ ?_
    split
    · simp
    · split <;> simp

@[simp] theorem execCoreStart_keepsRegs (c : CoreNo) (v : Word) (s : State) :
    answerKeepsRegs s (execCoreStart c v s) := by simp [execCoreStart]

@[simp] theorem execCoreStop_keepsRegs (c : CoreNo) (v : Word) (s : State) :
    answerKeepsRegs s (execCoreStop c v s) := by simp [execCoreStop]

@[simp] theorem genRegs_arenaGo (s : State) (op slot : Nat) (bad : BitVec 256) : genRegs (arenaGo s op slot bad) = genRegs s := by
  unfold arenaGo
  (repeat' split) <;> simp

@[simp] theorem genRegs_arenaWrite (s : State) (v : Word) (bad : BitVec 256) :
    genRegs (arenaWrite s v bad) = genRegs s := by simp [arenaWrite]

@[simp] theorem genRegs_writeArenaCmd (s : State) (v : Word) : genRegs (writeArenaCmd s v) = genRegs s := by simp [writeArenaCmd]

@[simp] theorem arenaCmd_keepsRegs (s : State) (op : Nat) (slot : Nat) (bad : BitVec 256) :
    answerKeepsRegs s (arenaCmd s op slot bad) := by simp [arenaCmd]

@[simp] theorem execArenaCopyIn_keepsRegs (k : ArenaCopy) (s : State) : answerKeepsRegs s (execArenaCopyIn k s) := by simp [execArenaCopyIn]

@[simp] theorem execArenaCopyOut_keepsRegs (k : ArenaCopy) (s : State) :
    answerKeepsRegs s (execArenaCopyOut k s) := by simp [execArenaCopyOut]

@[simp] theorem execArenaPut_keepsRegs (slot : Fin 16384) (s : State) : answerKeepsRegs s (execArenaPut slot s) := by simp [execArenaPut]

@[simp] theorem execArenaBadOp_keepsRegs (op : BitVec 3) (slot : Fin 16384) (s : State) :
    answerKeepsRegs s (execArenaBadOp op slot s) := by simp [execArenaBadOp]

@[simp] theorem execArenaCmdDone_keepsRegs (s : State) : answerKeepsRegs s (execArenaCmdDone s) := by
  unfold execArenaCmdDone
  split <;> simp

@[simp] theorem genRegs_writeFenceCmd (s : State) (v : Word) : genRegs (writeFenceCmd s v) = genRegs s := by simp [writeFenceCmd]

@[simp] theorem execFenceAdd_keepsRegs (ep : BitVec 20) (s : State) : answerKeepsRegs s (execFenceAdd ep s) := by simp [execFenceAdd]

@[simp] theorem execFenceRemove_keepsRegs (ep : BitVec 20) (s : State) :
    answerKeepsRegs s (execFenceRemove ep s) := by simp [execFenceRemove]

@[simp] theorem genRegs_shiftTimes (s : State) (d : Word) : genRegs (shiftTimes s d) = genRegs s := by simp [shiftTimes]

@[simp] theorem genRegs_writeTimeOfs (s : State) (v : Word) : genRegs (writeTimeOfs s v) = genRegs s := by simp [writeTimeOfs]

@[simp] theorem execDevTimeOfsWrite_keepsRegs (v : Word) (s : State) :
    answerKeepsRegs s (execDevTimeOfsWrite v s) := by simp [execDevTimeOfsWrite]

/-! ### Clocks, resets and power domains -/

/-- Every core as a reset leaves it: RESET, every general register zero (R279, R440). -/
def coresReset (t : State) : Prop := t.cores = Vector.replicate 8 {}

/-- The general registers are as they were, or every core has been reset. -/
def regsKeptOrReset (s t : State) : Prop := genRegs t = genRegs s ∨ coresReset t

theorem regsKeptOrReset.after {s t u : State} (h : regsKeptOrReset t u) (hst : genRegs t = genRegs s) : regsKeptOrReset s u :=
  h.imp_left (·.trans hst)

theorem coresReset_fundamentalReset (s : State) (cause core : Nat) : coresReset (fundamentalReset s cause core) := rfl

@[simp] theorem genRegs_zeroReserved (s : State) : genRegs (zeroReserved s) = genRegs s := by simp [zeroReserved]

theorem coresReset_warmAlone (s : State) (cause core : Nat) : coresReset (warmAlone s cause core) := rfl

theorem coresReset_doWarm (s : State) (by_ : Party) : coresReset (doWarm s by_) := by
  unfold doWarm
  dsimp only
  split
  · exact coresReset_fundamentalReset ..
  · exact coresReset_warmAlone ..

@[simp] theorem genRegs_resetMgmt (s : State) (m : Fin 2) : genRegs (resetMgmt s m) = genRegs s := by simp [resetMgmt]

theorem perstAssert_regsKeptOrReset (s : State) (m : Fin 2) : regsKeptOrReset s (perstAssert s m) := by
  unfold perstAssert
  dsimp only
  split
  · exact .inl rfl
  · split
    · exact .inl rfl
    · split
      · exact .inr (coresReset_fundamentalReset ..)
      · exact .inl (by simp)

@[simp] theorem execPerstRelease_keepsRegs (m : Fin 2) (s : State) : answerKeepsRegs s (execPerstRelease m s) := by simp [execPerstRelease]

@[simp] theorem genRegs_dropLatch (s : State) (by_ : Party) : genRegs (dropLatch s by_) = genRegs s := by
  unfold dropLatch
  split <;> simp

@[simp] theorem execThaw_keepsRegs (s : State) : answerKeepsRegs s (execThaw s) := by simp [execThaw]

theorem clearErrs_cores (s : State) (lo n : Nat) : (clearErrs s lo n).cores = s.cores := by
  unfold clearErrs
  generalize List.range n = xs
  induction xs generalizing s with
  | nil => rfl
  | cons x xs ih => rw [List.foldl_cons, ih, setErr_cores]

theorem coresReset_ctlOff (s : State) : coresReset (ctlOff s) := rfl

theorem frnOff_cores (s : State) (k : Fin 4) : (frnOff s k).cores = s.cores := by simp [frnOff, clearErrs_cores]

theorem nevOff_cores (s : State) (h : Nat) : (nevOff s h).cores = s.cores := by simp [nevOff, clearErrs_cores]

theorem serOff_cores (s : State) (k : Nat) : (serOff s k).cores = s.cores := by simp [serOff, clearErrs_cores]

theorem swqOff_cores (s : State) (q : Nat) : (swqOff s q).cores = s.cores := by simp [swqOff, clearErrs_cores]

theorem foldl_setPort_cores (f : Port → Port) (ps : List Nat) (s : State) :
    (ps.foldl (fun t p => setPort t p (f (getPort t p))) s).cores = s.cores := by
  induction ps generalizing s with
  | nil => rfl
  | cons p ps ih => rw [List.foldl_cons, ih, setPort_cores]

theorem pierOff_cores (s : State) (v : Fin 8) : (pierOff s v).cores = s.cores := by
  simp [pierOff, foldl_setPort_cores, clearErrs_cores]

theorem domainOff_cores (s : State) (b : Nat) : (domainOff s b).cores = s.cores ∨ coresReset (domainOff s b) := by
  unfold domainOff
  split
  · exact .inr (coresReset_ctlOff s)
  · refine .inl ?_
    split
    · exact frnOff_cores ..
    · split
      · exact nevOff_cores ..
      · split
        · exact serOff_cores ..
        · split
          · exact swqOff_cores ..
          · exact pierOff_cores ..

theorem tryOff_cores (v : Word) (x : PwrWrite) (b : Nat) : (tryOff v x b).s.cores = x.s.cores ∨ coresReset (tryOff v x b).s := by
  unfold tryOff
  split
  · exact .inl rfl
  · split
    · refine .inl ?_
      unfold refuse
      rfl
    · exact domainOff_cores x.s b

theorem tryOn_cores (v : Word) (x : PwrWrite) (b : Nat) : (tryOn v x b).s.cores = x.s.cores := by
  unfold tryOn
  split
  · rfl
  · split
    · rfl
    · split <;> rfl

theorem foldl_tryOff_cores (v : Word) (bs : List Nat) (x : PwrWrite) :
    (bs.foldl (tryOff v) x).s.cores = x.s.cores ∨ coresReset (bs.foldl (tryOff v) x).s := by
  induction bs generalizing x with
  | nil => exact .inl rfl
  | cons b bs ih =>
    obtain hrest | hrest := ih (tryOff v x b)
    · exact (tryOff_cores v x b).imp hrest.trans hrest.trans
    · exact .inr hrest

theorem foldl_tryOn_cores (v : Word) (bs : List Nat) (x : PwrWrite) : (bs.foldl (tryOn v) x).s.cores = x.s.cores := by
  induction bs generalizing x with
  | nil => rfl
  | cons b bs ih => rw [List.foldl_cons, ih, tryOn_cores]

/-- Switching domains off and then on leaves the cores alone, or resets them where the domain of the cores goes off (R443). -/
theorem tryOn_tryOff_regsKeptOrReset {t : State} {v : Word} {on off : List Nat} {x : PwrWrite}
    (h : t.cores = (on.foldl (tryOn v) (off.foldl (tryOff v) x)).s.cores) : regsKeptOrReset x.s t := by
  rw [foldl_tryOn_cores] at h
  obtain hoff | hoff := foldl_tryOff_cores v off x
  · exact .inl (congrArg (Vector.map Core.regs) (h.trans hoff))
  · exact .inr (h.trans hoff)

theorem writePwrCtl_regsKeptOrReset (s : State) (by_ : Party) (v : Word) : regsKeptOrReset s (writePwrCtl s by_ v) := by
  unfold writePwrCtl
  split
  · exact .inl rfl
  · exact tryOn_tryOff_regsKeptOrReset (x := ⟨s, s.clk.pwrOn, none⟩) rfl

@[simp] theorem genRegs_loadRemap (s : State) : genRegs (loadRemap s) = genRegs s := by simp [loadRemap]

@[simp] theorem genRegs_domainReady (s : State) (b : Nat) : genRegs (domainReady s b) = genRegs s := by simp [domainReady]

@[simp] theorem execPowerDomainReady_keepsRegs (bit : Fin 30) (s : State) : answerKeepsRegs s (execPowerDomainReady bit s) := by
  unfold execPowerDomainReady
  split <;> simp

@[simp] theorem genRegs_clkEvt (s : State) (bit : Nat) (fs : List (Nat × Nat × Nat)) :
    genRegs (clkEvt s bit fs) = genRegs s := by simp [clkEvt]

@[simp] theorem execPdFault_keepsRegs (bit : Fin 30) (s : State) : answerKeepsRegs s (execPdFault bit s) := by simp [execPdFault]

@[simp] theorem genRegs_unlock (s : State) : genRegs (unlock s) = genRegs s := by simp [unlock]

@[simp] theorem execPllUnlock_keepsRegs (s : State) : answerKeepsRegs s (execPllUnlock s) := by simp [execPllUnlock]

@[simp] theorem genRegs_setRefclk (s : State) (on : Bool) : genRegs (setRefclk s on) = genRegs s := by simp [setRefclk]

@[simp] theorem genRegs_setPref (s : State) (i : Nat) (on : Bool) : genRegs (setPref s i on) = genRegs s := by simp [setPref]

@[simp] theorem execSupply_keepsRegs (pin : SupplyPin) (low : Bool) (s : State) : answerKeepsRegs s (execSupply pin low s) := by
  unfold execSupply
  split <;> simp

@[simp] theorem genRegs_writeDieTherm (s : State) (v : Word) : genRegs (writeDieTherm s v) = genRegs s := by simp [writeDieTherm]

@[simp] theorem execDieThermWrite_keepsRegs (v : Word) (s : State) :
    answerKeepsRegs s (execDieThermWrite v s) := by simp [execDieThermWrite]

@[simp] theorem execDieThermalReading_keepsRegs (t : Vector Byte 32) (s : State) :
    answerKeepsRegs s (execDieThermalReading t s) := by simp [execDieThermalReading]

@[simp] theorem execAliveOutToggle_keepsRegs (s : State) : answerKeepsRegs s (execAliveOutToggle s) := by simp [execAliveOutToggle]

/-! ### Boot, flash, attestation, SMBus and the test access port -/

@[simp] theorem genRegs_secEvt (s : State) (bit code source : Nat) : genRegs (secEvt s bit code source) = genRegs s := by simp [secEvt]

@[simp] theorem genRegs_attEnd (s : State) (result : Nat) : genRegs (attEnd s result) = genRegs s := by simp [attEnd]

@[simp] theorem genRegs_internalEvt (s : State) (code : Nat) : genRegs (internalEvt s code) = genRegs s := by simp [internalEvt]

@[simp] theorem genRegs_placeSections (s : State) (img : List Byte) : genRegs (placeSections s img) = genRegs s :=
  genRegs_foldl _ (fun t x => by split <;> rfl) (sectionsOf img) s

@[simp] theorem genRegs_startCore0 (s : State) (entry : Nat) : genRegs (startCore0 s entry) = genRegs s := genRegs_setCore _ _ _ rfl

@[simp] theorem genRegs_bootDone (s : State) : genRegs (bootDone s) = genRegs s := by simp [bootDone]

@[simp] theorem genRegs_deriveId (s : State) (helper : List Byte) (enrolled : Bool) :
    genRegs (deriveId s helper enrolled) = genRegs s := by simp [deriveId]

@[simp] theorem genRegs_pufStep (s : State) (flash : FlashAnswer) (puf : PufAnswer) : genRegs (pufStep s flash puf) = genRegs s := by
  unfold pufStep
  (repeat' split) <;> simp

@[simp] theorem genRegs_bootWait (s : State) (result : Nat) : genRegs (bootWait s result) = genRegs s := by simp [bootWait]

@[simp] theorem genRegs_bootSearch (s : State) (flash : FlashAnswer) : genRegs (bootSearch s flash) = genRegs s := by
  unfold bootSearch
  (repeat' split) <;> simp

@[simp] theorem execBootRomStart_keepsRegs (flash : FlashAnswer) (puf : PufAnswer) (s : State) :
    answerKeepsRegs s (execBootRomStart flash puf s) := by simp [execBootRomStart]

@[simp] theorem genRegs_bootFail (s : State) (code source : Nat) : genRegs (bootFail s code source) = genRegs s := by simp [bootFail]

@[simp] theorem genRegs_bootGood (s : State) (img : List Byte) (source : Nat) :
    genRegs (bootGood s img source) = genRegs s := by simp [bootGood]

@[simp] theorem genRegs_trySlot (s : State) (img : List Byte) (source : Nat) (rest : List (Bool × Nat)) :
    genRegs (trySlot s img source rest) = genRegs s := by
  unfold trySlot
  split <;> simp

@[simp] theorem genRegs_engineFault (s : State) : genRegs (engineFault s) = genRegs s := by simp [engineFault]

@[simp] theorem execBootImageChecked_keepsRegs (src : ImgSource) (s : State) : answerKeepsRegs s (execBootImageChecked src s) := by
  unfold execBootImageChecked
  dsimp only
  split
  · simp
  · split
    · simp
    · split
      · simp
      · simp
      · split
        · simp
        · split <;> simp
      · simp

@[simp] theorem genRegs_writeBootMbx (s : State) (v : Word) : genRegs (writeBootMbx s v) = genRegs s := by simp [writeBootMbx]

@[simp] theorem execBootMbxGo_keepsRegs (v : Word) (s : State) : answerKeepsRegs s (execBootMbxGo v s) := by simp [execBootMbxGo]

@[simp] theorem genRegs_flashEnd (s : State) : genRegs (flashEnd s) = genRegs s := by simp [flashEnd]

@[simp] theorem genRegs_writeFlashCmd (s : State) (v : Word) : genRegs (writeFlashCmd s v) = genRegs s := by simp [writeFlashCmd]

@[simp] theorem execFlashRead_keepsRegs (v : Word) (s : State) : answerKeepsRegs s (execFlashRead v s) := by simp [execFlashRead]

@[simp] theorem execFlashWrite_keepsRegs (v : Word) (s : State) : answerKeepsRegs s (execFlashWrite v s) := by simp [execFlashWrite]

@[simp] theorem genRegs_putFlash (s : State) (bs : List Byte) : genRegs (putFlash s bs) = genRegs s := by simp [putFlash]

@[simp] theorem execFlashCmdDone_keepsRegs (data : List Byte) (s : State) : answerKeepsRegs s (execFlashCmdDone data s) := by
  unfold execFlashCmdDone
  split <;> simp

@[simp] theorem genRegs_attStart (s : State) : genRegs (attStart s) = genRegs s := by simp [attStart]

@[simp] theorem execAttGo_keepsRegs (s : State) : answerKeepsRegs s (execAttGo s) := by simp [execAttGo]

@[simp] theorem genRegs_freshSigner (s : State) : genRegs (freshSigner s).2 = genRegs s := by simp [freshSigner]

@[simp] theorem execAttDone_keepsRegs (s : State) : answerKeepsRegs s (execAttDone s) := by
  unfold execAttDone
  split <;> simp

@[simp] theorem smbusAnswer_keepsRegs (s : State) (bs : List Byte) : answerKeepsRegs s (smbusAnswer s bs) := by simp [smbusAnswer]

@[simp] theorem execSmbusStatusRead_keepsRegs (s : State) : answerKeepsRegs s (execSmbusStatusRead s) := by simp [execSmbusStatusRead]

@[simp] theorem execSmbusTempRead_keepsRegs (s : State) : answerKeepsRegs s (execSmbusTempRead s) := by simp [execSmbusTempRead]

@[simp] theorem execSmbusPowerRead_keepsRegs (s : State) : answerKeepsRegs s (execSmbusPowerRead s) := by simp [execSmbusPowerRead]

@[simp] theorem execSmbusResetCauseRead_keepsRegs (s : State) :
    answerKeepsRegs s (execSmbusResetCauseRead s) := by simp [execSmbusResetCauseRead]

@[simp] theorem execSmbusIdRead_keepsRegs (s : State) : answerKeepsRegs s (execSmbusIdRead s) := by simp [execSmbusIdRead]

@[simp] theorem execSmbusDeviceIdRead_keepsRegs (s : State) : answerKeepsRegs s (execSmbusDeviceIdRead s) := by simp [execSmbusDeviceIdRead]

@[simp] theorem execSmbusBadCommand_keepsRegs (x : SmbusIn) (s : State) :
    answerKeepsRegs s (execSmbusBadCommand x s) := by simp [execSmbusBadCommand]

@[simp] theorem genRegs_tapSelect (s : State) (code : BitVec 5) : genRegs (tapSelect s code) = genRegs s := by simp [tapSelect]

@[simp] theorem execIdcode_keepsRegs (s : State) : answerKeepsRegs s (execIdcode s) := by simp [execIdcode]

@[simp] theorem execSamplePreload_keepsRegs (pins : List Bool) (s : State) :
    answerKeepsRegs s (execSamplePreload pins s) := by simp [execSamplePreload]

@[simp] theorem execExtest_keepsRegs (s : State) : answerKeepsRegs s (execExtest s) := by simp [execExtest]

@[simp] theorem execExtestPulse_keepsRegs (s : State) : answerKeepsRegs s (execExtestPulse s) := by simp [execExtestPulse]

@[simp] theorem execExtestTrain_keepsRegs (s : State) : answerKeepsRegs s (execExtestTrain s) := by simp [execExtestTrain]

@[simp] theorem execHighz_keepsRegs (s : State) : answerKeepsRegs s (execHighz s) := by simp [execHighz]

@[simp] theorem execClamp_keepsRegs (s : State) : answerKeepsRegs s (execClamp s) := by simp [execClamp]

@[simp] theorem execBypass_keepsRegs (code : BitVec 5) (s : State) : answerKeepsRegs s (execBypass code s) := by simp [execBypass]

@[simp] theorem execTapReset_keepsRegs (s : State) : answerKeepsRegs s (execTapReset s) := by simp [execTapReset]

/-! ### The register map -/

@[simp] theorem genRegs_clearRc (s : State) (r : Reg) (m : Word) : genRegs (clearRc s r m) = genRegs s := by
  unfold clearRc
  split <;> simp

@[simp] theorem genRegs_readClear (s : State) (r : Reg) (m : Word) : genRegs (readClear s r m).2 = genRegs s := by simp [readClear]

@[simp] theorem genRegs_clearStatus (s : State) (v : Nat) (w : Word) : genRegs (clearStatus s v w) = genRegs s := by simp [clearStatus]

@[simp] theorem genRegs_writeMask (s : State) (v : Nat) (w : Word) : genRegs (writeMask s v w) = genRegs s := by simp [writeMask]

@[simp] theorem genRegs_writeGrpAbort (s : State) (v : Word) : genRegs (writeGrpAbort s v) = genRegs s := by simp [writeGrpAbort]

@[simp] theorem genRegs_hostSend (s : State) (m : Fin 2) (c : CoreNo) : genRegs (hostSend s m c) = genRegs s := by
  unfold hostSend
  dsimp only
  split
  · next hp => simpa using genRegs_mbxPut hp
  · rfl

@[simp] theorem genRegs_writeInCtl (s : State) (m : Fin 2) (v : Word) : genRegs (writeInCtl s m v) = genRegs s := by simp [writeInCtl]

@[simp] theorem genRegs_writeOutPop (s : State) (m : Fin 2) (v : Word) : genRegs (writeOutPop s m v) = genRegs s := by simp [writeOutPop]

@[simp] theorem genRegs_writeSchPcls (s : State) (p : Nat) (c : Fin 8) (v : Word) :
    genRegs (writeSchPcls s p c v) = genRegs s := by simp [writeSchPcls]

@[simp] theorem genRegs_writeSchPort (s : State) (p : Nat) (v : Word) : genRegs (writeSchPort s p v) = genRegs s := by simp [writeSchPort]

@[simp] theorem genRegs_writeSwqPcls (s : State) (p : Nat) (c : Fin 8) (v : Word) :
    genRegs (writeSwqPcls s p c v) = genRegs s := by simp [writeSwqPcls]

@[simp] theorem genRegs_writeFabric (s : State) (r : Reg) (v : Word) : genRegs (writeFabric s r v) = genRegs s := by
  unfold writeFabric
  split <;> simp

@[simp] theorem genRegs_writeUnits (s : State) (r : Reg) (v : Word) : genRegs (writeUnits s r v) = genRegs s := by
  unfold writeUnits
  split <;> simp

theorem writeSec_regsKeptOrReset (s : State) (by_ : Party) (r : Reg) (v : Word) : regsKeptOrReset s (writeSec s by_ r v) := by
  unfold writeSec
  split
  case h_2 =>
    split
    · exact .inr (coresReset_doWarm ..)
    · exact .inl rfl
  case h_4 => exact writePwrCtl_regsKeptOrReset ..
  all_goals exact .inl (by simp)

@[simp] theorem genRegs_writePort (s : State) (r : Reg) (v : Word) : genRegs (writePort s r v) = genRegs s := by
  unfold writePort
  split <;> simp

theorem writeReg64_regsKeptOrReset (s : State) (by_ : Party) (r : Reg) (v : Word) : regsKeptOrReset s (writeReg64 s by_ r v) := by
  unfold writeReg64
  split
  · exact .inl rfl
  · split
    · exact .inl (by simp)
    · exact .inl (by simp)
    · exact writeSec_regsKeptOrReset ..
    · exact .inl (by simp)

@[simp] theorem genRegs_enterWrite (s : State) (by_ : Party) (r : Reg) : genRegs (enterWrite s by_ r) = genRegs s := by
  unfold enterWrite
  split <;> simp

/-! ### Access to registers and memories -/

@[simp] theorem genRegs_turnAway (s : State) : genRegs (turnAway s) = genRegs s := by simp [turnAway]

@[simp] theorem genRegs_hostRead (s : State) (m : Fin 2) (off : Nat) (w : Width) : genRegs (hostRead s m off w) = genRegs s := by
  unfold hostRead
  dsimp only
  split
  · simp
  · split
    · simp
    · split
      · simp
      · split <;> simp

@[simp] theorem execRcRead_keepsRegs (by_ : Party) (off : BitVec 26) (w : Width) (s₀ : State) :
    answerKeepsRegs s₀ (execRcRead by_ off w s₀) := by
  unfold execRcRead
  (repeat' split) <;> simp

@[simp] theorem execDevTimeLowRead_keepsRegs (m : Fin 2) (s : State) :
    answerKeepsRegs s (execDevTimeLowRead m s) := by simp [execDevTimeLowRead]

@[simp] theorem execReadbackRead_keepsRegs (m : Fin 2) (at_ : ReadbackAt) (s : State) :
    answerKeepsRegs s (execReadbackRead m at_ s) := by simp [execReadbackRead]

@[simp] theorem genRegs_sendPending (s : State) (m : Fin 2) (v : Nat) : genRegs (sendPending s m v) = genRegs s := by simp [sendPending]

@[simp] theorem genRegs_setVecMask (s : State) (m : Fin 2) (v : Nat) (masked : Bool) :
    genRegs (setVecMask s m v masked) = genRegs s := by simp [setVecMask]

@[simp] theorem genRegs_setMsixControl (s : State) (m : Fin 2) (enable fmask : Bool) :
    genRegs (setMsixControl s m enable fmask) = genRegs s := by simp [setMsixControl]

@[simp] theorem genRegs_writeMsixDword (s : State) (m : Fin 2) (o : Nat) (v : BitVec 32) :
    genRegs (writeMsixDword s m o v) = genRegs s := by
  unfold writeMsixDword
  split <;> simp

@[simp] theorem genRegs_writeMsixTable (s : State) (m : Fin 2) (o : Nat) (w : Width) (v : Word) :
    genRegs (writeMsixTable s m o w v) = genRegs s := by
  unfold writeMsixTable
  split <;> simp

@[simp] theorem genRegs_writeCfg (s : State) (m : Fin 2) (i : Fin 16) (v : BitVec 32) :
    genRegs (writeCfg s m i v) = genRegs s := by simp [writeCfg]

@[simp] theorem execMsixUnmask_keepsRegs (m : Fin 2) (w : MsixWrite) (s : State) : answerKeepsRegs s (execMsixUnmask m w s) := by
  unfold execMsixUnmask
  split <;> simp

theorem hostWrite_regsKeptOrReset (s : State) (m : Fin 2) (off : Nat) (w : Width) (v : Word) : regsKeptOrReset s (hostWrite s m off w v) := by
  unfold hostWrite
  generalize (if off < 0x1000000 then regAt (off / 8 * 8) else none) = r
  dsimp only
  split
  · exact .inl (by simp)
  · split
    · exact .inl (by simp)
    · split
      · exact .inl (by simp)
      · exact (writeReg64_regsKeptOrReset ..).after (by simp)

@[simp] theorem genRegs_bar2Bytes (s : State) (m : Fin 2) (o n : Nat) (fault : MemFault) (k : Nat) :
    genRegs (bar2Bytes s m o n fault k).2.2 = genRegs s := by
  induction k generalizing s o n with
  | zero => rfl
  | succ k ih =>
    unfold bar2Bytes
    dsimp only
    split
    · rfl
    · refine (ih ..).trans ?_
      split <;> simp

@[simp] theorem genRegs_bar2Fault (s : State) (o : Nat) (fault : MemFault) : genRegs (bar2Fault s o fault).1 = genRegs s := by
  unfold bar2Fault
  split <;> simp

@[simp] theorem execBar2Read_keepsRegs (m : Fin 2) (off : BitVec 30) (n : Nat) (fault : MemFault) (s : State) :
    answerKeepsRegs s (execBar2Read m off n fault s) := by simp [execBar2Read]

@[simp] theorem genRegs_ctlWrite (s : State) (o : Nat) (bs : List Byte) : genRegs (ctlWrite s o bs) = genRegs s := by
  induction bs generalizing s o with
  | nil => rfl
  | cons b bs ih => simp [ctlWrite, ih]

@[simp] theorem genRegs_storeWrite (s : State) (o : Nat) (bs : List Byte) (k : Nat) : genRegs (storeWrite s o bs k) = genRegs s := by
  induction k generalizing s o bs with
  | zero => rfl
  | succ k ih => simp [storeWrite, ih]

@[simp] theorem genRegs_firnHostWrite (s : State) (a : Nat) (bs : List Byte) (req k : Nat) : genRegs (firnHostWrite s a bs req k) = genRegs s := by
  induction k generalizing s a bs with
  | zero => rfl
  | succ k ih => simp [firnHostWrite, ih]

@[simp] theorem genRegs_bar2Put (s : State) (m : Fin 2) (o : Nat) (bs : List Byte) (words : Bool) (k : Nat) :
    genRegs (bar2Put s m o bs words k) = genRegs s := by
  induction k generalizing s o bs with
  | zero => rfl
  | succ k ih =>
    unfold bar2Put
    dsimp only
    split
    · rfl
    · refine (ih ..).trans ?_
      split <;> simp

@[simp] theorem execBar2Write_keepsRegs (m : Fin 2) (off : BitVec 30) (bytes : List Byte) (s : State) :
    answerKeepsRegs s (execBar2Write m off bytes s) := by simp [execBar2Write]

/-! ### Vector commands -/

@[simp] theorem genRegs_closeRun (s : State) (sl : SliceNo) (st : RecStatus) : genRegs (closeRun s sl st) = genRegs s := by simp [closeRun]

@[simp] theorem genRegs_vexecF (s : State) (sl : SliceNo) (o : VOp) (fault : MemFault) : genRegs (vexecF s sl o fault) = genRegs s := by
  unfold vexecF
  split <;> simp

@[simp] theorem genRegs_enterVec (s : State) (sl : SliceNo) (o : VOp) : genRegs (enterVec s sl o) = genRegs s := by
  unfold enterVec
  split <;> simp

@[simp] theorem vecCmd_keepsRegs (s : State) (sl : SliceNo) (name : String) (o : VOp) (fault : MemFault) :
    answerKeepsRegs s (vecCmd s sl name o fault) := by simp [vecCmd]

@[simp] theorem execVadd_keepsRegs (sl : SliceNo) (g : Fin 8) (t : VTy) (d : Fin 32) (a b : VSrc) (r : VRnd) (s : State) :
    answerKeepsRegs s (execVadd sl g t d a b r s) := by simp [execVadd]

@[simp] theorem execVsub_keepsRegs (sl : SliceNo) (g : Fin 8) (t : VTy) (d : Fin 32) (a b : VSrc) (r : VRnd) (s : State) :
    answerKeepsRegs s (execVsub sl g t d a b r s) := by simp [execVsub]

@[simp] theorem execVmul_keepsRegs (sl : SliceNo) (g : Fin 8) (t : VTy) (d : Fin 32) (a b : VSrc) (r : VRnd) (s : State) :
    answerKeepsRegs s (execVmul sl g t d a b r s) := by simp [execVmul]

@[simp] theorem execVfma_keepsRegs (sl : SliceNo) (g : Fin 8) (t : VTy) (d : Fin 32) (a b : VSrc) (r : VRnd) (s : State) :
    answerKeepsRegs s (execVfma sl g t d a b r s) := by simp [execVfma]

@[simp] theorem execVdiv_keepsRegs (sl : SliceNo) (g : Fin 8) (t : VTy) (d : Fin 32) (a b : VSrc) (r : VRnd) (s : State) :
    answerKeepsRegs s (execVdiv sl g t d a b r s) := by simp [execVdiv]

@[simp] theorem execVsqrt_keepsRegs (sl : SliceNo) (g : Fin 8) (t : VTy) (d : Fin 32) (a : VSrc) (r : VRnd) (s : State) :
    answerKeepsRegs s (execVsqrt sl g t d a r s) := by simp [execVsqrt]

@[simp] theorem execVmax_keepsRegs (sl : SliceNo) (g : Fin 8) (t : VTy) (d : Fin 32) (a b : VSrc) (s : State) :
    answerKeepsRegs s (execVmax sl g t d a b s) := by simp [execVmax]

@[simp] theorem execVmin_keepsRegs (sl : SliceNo) (g : Fin 8) (t : VTy) (d : Fin 32) (a b : VSrc) (s : State) :
    answerKeepsRegs s (execVmin sl g t d a b s) := by simp [execVmin]

@[simp] theorem execVcmp_keepsRegs (sl : SliceNo) (g : Fin 8) (t : VTy) (d : Fin 8) (a b : VSrc) (c : VCond) (s : State) :
    answerKeepsRegs s (execVcmp sl g t d a b c s) := by simp [execVcmp]

@[simp] theorem execVsel_keepsRegs (sl : SliceNo) (g : Fin 8) (t : VTy) (d : Fin 32) (a : VSrc) (p : Fin 8) (imm : BitVec 32) (s : State) :
    answerKeepsRegs s (execVsel sl g t d a p imm s) := by simp [execVsel]

@[simp] theorem execVcvt_keepsRegs (sl : SliceNo) (g : Fin 8) (t t' : VTy) (d : Fin 32) (a : VSrc) (r : VRnd) (s : State) :
    answerKeepsRegs s (execVcvt sl g t t' d a r s) := by simp [execVcvt]

@[simp] theorem execVqnt_keepsRegs (sl : SliceNo) (g : Fin 8) (t : VTy) (d : Fin 32) (a : VSrc) (f : VFmt) (r : VRnd) (s : State) :
    answerKeepsRegs s (execVqnt sl g t d a f r s) := by simp [execVqnt]

@[simp] theorem execVdqt_keepsRegs (sl : SliceNo) (g : Fin 8) (t : VTy) (d : Fin 32) (a : VSrc) (f : VFmt) (s : State) :
    answerKeepsRegs s (execVdqt sl g t d a f s) := by simp [execVdqt]

@[simp] theorem execVldS_keepsRegs (sl : SliceNo) (g : Fin 8) (m : VMode) (d : Fin 32) (h : Hint) (at_ : ArenaRead) (s : State) :
    answerKeepsRegs s (execVldS sl g m d h at_ s) := by simp [execVldS]

@[simp] theorem execVstS_keepsRegs (sl : SliceNo) (g : Fin 8) (m : VMode) (a : VSrc) (h : Hint) (off : BitVec 30) (s : State) :
    answerKeepsRegs s (execVstS sl g m a h off s) := by simp [execVstS]

@[simp] theorem execVemit_keepsRegs (sl : SliceNo) (g : Fin 8) (t : VTy) (a : VSrc) (st : VStream) (s : State) :
    answerKeepsRegs s (execVemit sl g t a st s) := by simp [execVemit]

/-! ### Cores that execute nothing -/

theorem regs_of_genRegs {s t : State} (h : genRegs t = genRegs s) (c : CoreNo) : (getCore t c).regs = (getCore s c).regs := by
  have hc := congrArg (fun v => v[c]) h
  simpa [getCore] using hc

theorem coresReset.getCore {t : State} (h : coresReset t) (c : CoreNo) : getCore t c = {} := by
  unfold coresReset at h
  simp [Machine.getCore, h]

/-- A core that executes nothing, as its program has stopped (R323). -/
def idleCore (k : Core) : Prop := k.st = .halted ∨ k.st = .stopped

/-- A command that answers keeps the general registers of every core that executes nothing, or resets the cores. -/
def idleRegsKept (s : State) (r : Res) : Prop :=
  ∀ t c, r = .next t → idleCore (getCore s c) → (getCore t c).regs = (getCore s c).regs ∨ coresReset t

theorem idleRegsKept_of_keepsRegs {s : State} {r : Res} (h : answerKeepsRegs s r) : idleRegsKept s r :=
  fun t c e _ => .inl (regs_of_genRegs (h t e) c)

theorem idleRegsKept_next {s t : State} (h : regsKeptOrReset s t) : idleRegsKept s (.next t) := by
  rintro _ c ⟨⟩ -
  exact h.imp_left (regs_of_genRegs · c)

theorem idleRegsKept_act {s t : State} (ok : Bool) (h : regsKeptOrReset s t) : idleRegsKept s (act ok s t) := by
  cases ok
  · exact idleRegsKept_next (.inl rfl)
  · exact idleRegsKept_next h

/-! ### Instructions of a core -/

/-- The general registers of every core but one are as they were. -/
def othersKeepRegs (c : CoreNo) (s t : State) : Prop := ∀ c', c' ≠ c → (getCore t c').regs = (getCore s c').regs

theorem othersKeepRegs_of_eq {c : CoreNo} {s t : State} (h : genRegs t = genRegs s) : othersKeepRegs c s t := fun c' _ => regs_of_genRegs h c'

theorem othersKeepRegs_setCore {c : CoreNo} {s t : State} {k : Core} (h : genRegs t = genRegs s) : othersKeepRegs c s (setCore t c k) := by
  intro c' hne
  rw [getCore_setCore_ne _ _ _ _ hne]
  exact regs_of_genRegs h c'

theorem othersKeepRegs_retire {c : CoreNo} {s t : State} {d : BitVec 6} {v : Word} (h : genRegs t = genRegs s) :
    othersKeepRegs c s (retire t c d v) := othersKeepRegs_setCore h

/-- A core that executes nothing is not the one that an instruction runs on. -/
theorem idleRegsKept_coreInstr {s : State} {c : CoreNo} {legal : Bool} {k : State → State}
    (h : othersKeepRegs c s (k s) ∨ regsKeptOrReset s (k s)) : idleRegsKept s (coreInstr s c legal k) := by
  obtain e | ⟨x, e⟩ | ⟨hrun, -, -, e⟩ := coreInstr_cases s c legal k
  · rw [e]; exact idleRegsKept_next (.inl rfl)
  · rw [e]; exact idleRegsKept_next (.inl (genRegs_takeExc ..))
  · rw [e]
    obtain h | h := h
    · rintro _ c' ⟨⟩ hidle
      refine .inl (h c' ?_)
      rintro rfl
      rcases hidle with hst | hst <;> simp [hrun] at hst
    · exact idleRegsKept_next h

theorem idleRegsKept_alu3 {s : State} {c : CoreNo} {d a b : BitVec 6} {f : Word → Word → Word} : idleRegsKept s (alu3 s c d a b f) :=
  idleRegsKept_coreInstr (.inl (othersKeepRegs_retire rfl))

theorem idleRegsKept_aluImm {s : State} {c : CoreNo} {d a : BitVec 6} {v : Word} {f : Word → Word → Word} :
    idleRegsKept s (aluImm s c d a v f) :=
  idleRegsKept_coreInstr (.inl (othersKeepRegs_retire rfl))

theorem idleRegsKept_shiftImm {s : State} {c : CoreNo} {d a : BitVec 6} {imm : BitVec 32} {f : Word → Nat → Word} :
    idleRegsKept s (shiftImm s c d a imm f) :=
  idleRegsKept_coreInstr (.inl (othersKeepRegs_retire rfl))

theorem idleRegsKept_branchOn {s : State} {c : CoreNo} {a b : BitVec 6} {imm : BitVec 32} {p : Word → Word → Bool} :
    idleRegsKept s (branchOn s c a b imm p) := by
  refine idleRegsKept_coreInstr (.inl ?_)
  dsimp only
  split
  · exact othersKeepRegs_setCore rfl
  · exact othersKeepRegs_setCore rfl

theorem idleRegsKept_jal {c : CoreNo} {d : BitVec 6} {imm : BitVec 32} {s : State} : idleRegsKept s (execJal c d imm s) :=
  idleRegsKept_coreInstr (.inl (othersKeepRegs_setCore rfl))

theorem idleRegsKept_jalr {c : CoreNo} {d a : BitVec 6} {imm : BitVec 32} {s : State} : idleRegsKept s (execJalr c d a imm s) :=
  idleRegsKept_coreInstr (.inl (othersKeepRegs_setCore rfl))

/-- The general registers as a load leaves them, where it leaves a state. -/
def LoadRes.keepsRegs (s : State) : LoadRes → Prop
  | .exc _ t => genRegs t = genRegs s
  | .waits => True
  | .val _ t => genRegs t = genRegs s

theorem loadValue_keepsRegs (s : State) (c : CoreNo) (a n : Nat) (fault : MemFault) : (loadValue s c a n fault).keepsRegs s := by
  unfold loadValue
  dsimp only
  split
  case h_4 =>
    split
    · rfl
    · cases fault with
      | uncorrectable => simp [LoadRes.keepsRegs]
      | _ => dsimp only; split <;> simp [LoadRes.keepsRegs]
  case h_5 =>
    split
    · rfl
    · split
      · trivial
      · exact genRegs_firnReadF ..
  case h_6 => rfl
  all_goals cases fault <;> simp [LoadRes.keepsRegs]

theorem idleRegsKept_ld {c : CoreNo} {d a func : BitVec 6} {imm : BitVec 32} {fault : MemFault} {s : State} :
    idleRegsKept s (execLd c d a func imm fault s) := by
  refine idleRegsKept_coreInstr (.inl ?_)
  dsimp only
  have hload := loadValue_keepsRegs (atPlace (placeRead + 2 + c) s) c
    (readReg (getCore (atPlace (placeRead + 2 + c) s) c) a + immS imm).toNat (2 ^ (func.toNat % 4)) fault
  split
  · exact othersKeepRegs_of_eq (by simp)
  · split
    · next hl =>
      rw [hl] at hload
      exact othersKeepRegs_of_eq ((genRegs_takeExc ..).trans (hload.trans (genRegs_atPlace ..)))
    · exact othersKeepRegs_of_eq (genRegs_atPlace ..)
    · next hl =>
      rw [hl] at hload
      exact othersKeepRegs_retire (hload.trans (genRegs_atPlace ..))

theorem genRegs_storeValue {s t : State} {c : CoreNo} {a n : Nat} {v : Word} (h : storeValue s c a n v = .done t) :
    genRegs t = genRegs s := by
  unfold storeValue at h
  dsimp only at h
  split at h
  · cases h; exact genRegs_setCore _ _ _ rfl
  · split at h <;> cases h; rfl
  · split at h <;> cases h; rfl
  · split at h
    · cases h
    · split at h <;> cases h; exact genRegs_firnWrite ..
  · cases h

theorem idleRegsKept_st {c : CoreNo} {a b func : BitVec 6} {imm : BitVec 32} {s : State} : idleRegsKept s (execSt c a b func imm s) := by
  refine idleRegsKept_coreInstr (.inl ?_)
  dsimp only
  split
  · exact othersKeepRegs_of_eq (by simp)
  · split
    · exact othersKeepRegs_of_eq (by simp)
    · exact othersKeepRegs_of_eq (by simp)
    · next h => exact othersKeepRegs_setCore (by simpa using genRegs_storeValue h)

theorem idleRegsKept_dregR {c : CoreNo} {d a : BitVec 6} {imm : BitVec 32} {s : State} : idleRegsKept s (execDregR c d a imm s) := by
  refine idleRegsKept_coreInstr (.inl ?_)
  dsimp only
  split
  · exact othersKeepRegs_of_eq (by simp)
  · exact othersKeepRegs_retire (by simp)

theorem idleRegsKept_dregW {c : CoreNo} {a b : BitVec 6} {imm : BitVec 32} {s : State} : idleRegsKept s (execDregW c a b imm s) := by
  refine idleRegsKept_coreInstr (.inr ?_)
  dsimp only
  split
  · exact .inl (genRegs_takeExc ..)
  · exact (writeReg64_regsKeptOrReset ..).after ((genRegs_enterWrite ..).trans (genRegs_setCore _ _ _ rfl))

theorem idleRegsKept_tblW {c : CoreNo} {a b func : BitVec 6} {imm : BitVec 32} {s : State} : idleRegsKept s (execTblW c a b func imm s) := by
  refine idleRegsKept_coreInstr (.inl ?_)
  dsimp only
  split
  · exact othersKeepRegs_of_eq (by simp)
  · split
    · exact othersKeepRegs_setCore rfl
    · split
      · exact othersKeepRegs_of_eq (by simp)
      · exact othersKeepRegs_setCore rfl

theorem idleRegsKept_tblR {c : CoreNo} {d a func : BitVec 6} {imm : BitVec 32} {fault : MemFault} {s : State} :
    idleRegsKept s (execTblR c d a func imm fault s) := by
  refine idleRegsKept_coreInstr (.inl ?_)
  dsimp only
  split
  · exact othersKeepRegs_of_eq (by simp)
  · next id i w _ =>
    have hf := genRegs_tblFault (atPlace (placeRead + 2 + c) s) c id i fault
    split
    · next he =>
      rw [he] at hf
      exact othersKeepRegs_of_eq (by simpa using hf)
    · next he =>
      rw [he] at hf
      exact othersKeepRegs_retire (by simpa using hf)

theorem idleRegsKept_tblCommit {c : CoreNo} {d : BitVec 6} {s : State} : idleRegsKept s (execTblCommit c d s) :=
  idleRegsKept_coreInstr (.inl (othersKeepRegs_setCore (genRegs_atPlace ..)))

theorem idleRegsKept_mbxRecv {c : CoreNo} {d : BitVec 6} {s : State} : idleRegsKept s (execMbxRecv c d s) := by
  refine idleRegsKept_coreInstr (.inl ?_)
  dsimp only
  split
  · exact othersKeepRegs_setCore rfl
  · exact othersKeepRegs_setCore rfl

theorem idleRegsKept_mbxSend {c : CoreNo} {d a b : BitVec 6} {s : State} : idleRegsKept s (execMbxSend c d a b s) := by
  refine idleRegsKept_coreInstr (.inl ?_)
  dsimp only
  split
  · exact othersKeepRegs_of_eq (by simp)
  · split
    · next hs =>
      split at hs
      · exact othersKeepRegs_retire (by simpa using genRegs_mbxPut hs)
      · exact othersKeepRegs_retire (by simpa using genRegs_outPut hs)
    · exact othersKeepRegs_retire (by simp)

theorem idleRegsKept_mbxRelease {c : CoreNo} {a : BitVec 6} {s : State} : idleRegsKept s (execMbxRelease c a s) := by
  refine idleRegsKept_coreInstr (.inl (othersKeepRegs_of_eq ?_))
  dsimp only
  split
  · simp
  · exact (genRegs_dropRef ..).trans (genRegs_setCore _ _ _ rfl)

theorem idleRegsKept_mbxCount {c : CoreNo} {d : BitVec 6} {s : State} : idleRegsKept s (execMbxCount c d s) :=
  idleRegsKept_coreInstr (.inl (othersKeepRegs_retire rfl))

theorem idleRegsKept_wait {c : CoreNo} {d : BitVec 6} {imm : BitVec 32} {s : State} : idleRegsKept s (execWait c d imm s) := by
  refine idleRegsKept_coreInstr (.inl ?_)
  dsimp only
  split
  · exact othersKeepRegs_setCore rfl
  · split
    · exact othersKeepRegs_setCore rfl
    · exact othersKeepRegs_setCore rfl

theorem idleRegsKept_timeRead {c : CoreNo} {d : BitVec 6} {s : State} : idleRegsKept s (execTimeRead c d s) :=
  idleRegsKept_coreInstr (.inl (othersKeepRegs_retire rfl))

theorem idleRegsKept_timeArm {c : CoreNo} {a : BitVec 6} {s : State} : idleRegsKept s (execTimeArm c a s) :=
  idleRegsKept_coreInstr (.inl (othersKeepRegs_setCore rfl))

theorem idleRegsKept_timeDisarm {c : CoreNo} {s : State} : idleRegsKept s (execTimeDisarm c s) :=
  idleRegsKept_coreInstr (.inl (othersKeepRegs_setCore rfl))

theorem idleRegsKept_fencePass {s : State} {c : CoreNo} : idleRegsKept s (fencePass s c) :=
  idleRegsKept_coreInstr (.inl (othersKeepRegs_setCore rfl))

theorem idleRegsKept_illegalOpcode {c : CoreNo} {word : Word} {s : State} : idleRegsKept s (execIllegalOpcode c word s) := by
  unfold execIllegalOpcode
  split
  · exact idleRegsKept_next (.inl rfl)
  · exact idleRegsKept_coreInstr (.inr (.inl rfl))

theorem idleRegsKept_fetchFault {c : CoreNo} {fault : MemFault} {s : State} : idleRegsKept s (execFetchFault c fault s) := by
  refine idleRegsKept_coreInstr (.inr (.inl ?_))
  cases fault <;> simp

/-! ### A core that waits or commits is not idle -/

/-- A command that writes a register of a core which executes, and of no other core. -/
theorem idleRegsKept_act_setCore {s t : State} {c : CoreNo} {ok : Bool} (hok : ok = true → ¬ idleCore (getCore s c))
    (h : genRegs t = genRegs s) (k : Core) : idleRegsKept s (act ok s (setCore t c k)) := by
  cases ok
  · exact idleRegsKept_next (.inl rfl)
  · rintro _ c' ⟨⟩ hidle
    refine .inl (othersKeepRegs_setCore h c' ?_)
    rintro rfl
    exact hok rfl hidle

theorem idleRegsKept_waitResume {c : CoreNo} {s : State} : idleRegsKept s (execWaitResume c s) := by
  unfold execWaitResume
  dsimp only
  split
  · exact idleRegsKept_next (.inl rfl)
  · refine idleRegsKept_act_setCore (fun hok => ?_) rfl _
    simp only [Bool.and_eq_true, beq_iff_eq] at hok
    simp [idleCore, hok.1.2]

theorem idleRegsKept_tableCommitCycle {c : CoreNo} {s : State} (hw : s.coresWf) : idleRegsKept s (execTableCommitCycle c s) := by
  unfold execTableCommitCycle
  dsimp only
  split
  · exact idleRegsKept_next (.inl rfl)
  · next hc => exact idleRegsKept_act_setCore (fun _ => by simp [idleCore, hw c (by simp [hc])]) (by simp) _

/-! ### Resets and register writes -/

theorem idleRegsKept_powerOnReset {e : PwrOk} {s : State} : idleRegsKept s (execPowerOnReset e s) := by
  cases e with
  | falls => exact idleRegsKept_next (.inr rfl)
  | rises g => exact idleRegsKept_act _ (.inr rfl)

theorem idleRegsKept_warmReset {by_ : Party} {s : State} : idleRegsKept s (execWarmReset by_ s) :=
  idleRegsKept_act _ (.inr (coresReset_doWarm ..))

theorem idleRegsKept_pwrCtlWrite {by_ : Party} {v : Word} {s : State} : idleRegsKept s (execPwrCtlWrite by_ v s) :=
  idleRegsKept_act _ ((writePwrCtl_regsKeptOrReset ..).after (by simp))

theorem idleRegsKept_registerWrite {by_ : Party} {off : BitVec 26} {w : Width} {v : Word} {s : State} :
    idleRegsKept s (execRegisterWrite by_ off w v s) := by
  refine idleRegsKept_act _ ?_
  split
  · exact hostWrite_regsKeptOrReset ..
  · split
    · split
      · exact (writeReg64_regsKeptOrReset ..).after (genRegs_enterWrite ..)
      · exact .inl rfl
    · exact .inl rfl

theorem idleRegsKept_hostReg {s t : State} {by_ : Party} {r : Reg} {v : Word} (h : genRegs t = genRegs s) :
    idleRegsKept s (hostReg s t by_ r v) := by
  refine idleRegsKept_act _ ?_
  split
  · exact .inl ((genRegs_turnAway _).trans h)
  · exact (writeReg64_regsKeptOrReset ..).after h

/-! ### Every command -/

/-- A command answers a state with the general registers of every idle core as they were, or with every core reset. -/
theorem exec_idleRegsKept (i : Instr) (s : State) (hw : s.coresWf) : idleRegsKept s (exec i s) := by
  cases i
  all_goals dsimp only [exec]
  case add | sub | mul | mulhu | divu | remu | and | or | xor | shl | shr | sar | slt | sltu => exact idleRegsKept_alu3
  case addi | andi | ori | xori | slti | sltiu | movhi => exact idleRegsKept_aluImm
  case shli | shri | sari => exact idleRegsKept_shiftImm
  case beq | bne | blt | bge | bltu | bgeu => exact idleRegsKept_branchOn
  case jal => exact idleRegsKept_jal
  case jalr => exact idleRegsKept_jalr
  case ld => exact idleRegsKept_ld
  case st => exact idleRegsKept_st
  case dregR => exact idleRegsKept_dregR
  case dregW => exact idleRegsKept_dregW
  case tblW => exact idleRegsKept_tblW
  case tblR => exact idleRegsKept_tblR
  case tblCommit => exact idleRegsKept_tblCommit
  case mbxRecv => exact idleRegsKept_mbxRecv
  case mbxSend => exact idleRegsKept_mbxSend
  case mbxRelease => exact idleRegsKept_mbxRelease
  case mbxCount => exact idleRegsKept_mbxCount
  case wait => exact idleRegsKept_wait
  case timeRead => exact idleRegsKept_timeRead
  case timeArm => exact idleRegsKept_timeArm
  case timeDisarm => exact idleRegsKept_timeDisarm
  case fenceSt | fenceAll | fenceDev => exact idleRegsKept_fencePass
  case illegalOpcode => exact idleRegsKept_illegalOpcode
  case fetchFault => exact idleRegsKept_fetchFault
  case waitResume => exact idleRegsKept_waitResume
  case tableCommitCycle => exact idleRegsKept_tableCommitCycle hw
  case powerOnReset => exact idleRegsKept_powerOnReset
  case perst0Assert => exact idleRegsKept_next (perstAssert_regsKeptOrReset ..)
  case perst1Assert => exact idleRegsKept_next (perstAssert_regsKeptOrReset ..)
  case warmReset => exact idleRegsKept_warmReset
  case pwrCtlWrite => exact idleRegsKept_pwrCtlWrite
  case registerWrite => exact idleRegsKept_registerWrite
  case errStatusClear | errMaskWrite => exact idleRegsKept_hostReg (genRegs_atPlace ..)
  case hmbxInGo => exact idleRegsKept_hostReg (by simp)
  case hmbxOutPop => exact idleRegsKept_hostReg (by simp)
  all_goals exact idleRegsKept_of_keepsRegs (by simp)

/-! ### O11 -/

theorem readReg_default (r : BitVec 6) : readReg {} r = 0 := by
  unfold readReg
  split
  · rfl
  · simp [Vector.getD, Array.getD]

theorem readReg_of_coresReset {t : State} (h : coresReset t) (c : CoreNo) (r : BitVec 6) : readReg (getCore t c) r = 0 := by
  rw [h.getCore, readReg_default]

theorem answers_act {s t : State} {ok : Bool} {P : State → Prop} (hs : P s) (ht : P t) : answers (act ok s t) P := by
  cases ok
  · exact ⟨s, rfl, hs⟩
  · exact ⟨t, rfl, ht⟩

theorem exec_wait_zero {s : State} {c : CoreNo} (h : coreReady s c) :
    exec (.wait c 0 0) s = .next (setCore s c { nextPc (getCore s c) with st := .halted }) := by
  dsimp only [exec, execWait]
  exact coreInstr_ready h _

theorem coresReset_powerOnAssert (s : State) : coresReset (powerOnAssert s) := rfl

theorem coresReset_powerOnRelease (s : State) (g : BitVec 3) : coresReset (powerOnRelease s g) := rfl

theorem coresReset_reset : coresReset State.reset := rfl

/-- A reset command whose condition holds leaves every general register at zero. -/
theorem answers_reset {s t : State} {ok : Bool} (hok : ok = true) (h : coresReset t) :
    answers (act ok s t) fun u => ∀ (c : CoreNo) (r : BitVec 6), readReg (getCore u c) r = 0 := by
  subst hok
  exact ⟨t, rfl, readReg_of_coresReset h⟩

theorem perstAssert_coresReset {s : State} {m : Fin 2} (hp : (getMgmt s m).perst = false) (hpwr : s.clk.pwrOk = true)
    (hsw : perstSw s m = true) : coresReset (perstAssert s m) := by
  simp [perstAssert, hp, hpwr, hsw, coresReset_fundamentalReset]

theorem readReg_writeReg_of_ne_zero (k : Core) (v : Word) {d r : BitVec 6} (hd : okReg d = true) (hr : okReg r = true) (h0 : d ≠ 0) :
    readReg (writeReg k d v) r = if r = d then v else readReg k r := by
  simp only [readReg_writeReg k d r v hd hr, and_iff_left h0]

/-- Settles O11: a command that answers moves the general registers of the core that executes it, or resets every core. -/
theorem generalRegisters : Obligations.GeneralRegisters := by
  unfold Obligations.GeneralRegisters
  refine ⟨fun k v => ⟨readReg_zero k, writeReg_zero k v, fun d r hd hr h0 => readReg_writeReg_of_ne_zero k v hd hr h0⟩,
    fun s c v addr x => ⟨?_, ?_, ?_, fun hr => ?_⟩, fun i s t c hw hidle he => ?_, fun s i by_ g hi => ?_, fun c r => ?_⟩
  · exact answers_act rfl (regs_of_genRegs (by simp) c)
  · exact answers_act rfl (regs_of_genRegs (by simp) c)
  · exact regs_of_genRegs (genRegs_takeExc ..) c
  · exact ⟨_, exec_wait_zero hr, by simp, by simp [nextPc]⟩
  · refine (exec_idleRegsKept i s hw t c he hidle).imp_right fun h => ⟨?_, readReg_of_coresReset h c⟩
    rw [h.getCore]
  · rcases hi with rfl | ⟨rfl, hp⟩ | ⟨rfl, hp, hpwr, hsw⟩ | ⟨rfl, hp, hpwr, hsw⟩ | ⟨rfl, ha⟩
    · exact ⟨_, rfl, readReg_of_coresReset (coresReset_powerOnAssert s)⟩
    · exact answers_reset (by simp [hp]) (coresReset_powerOnRelease s g)
    · exact ⟨_, rfl, readReg_of_coresReset (perstAssert_coresReset hp hpwr hsw)⟩
    · exact ⟨_, rfl, readReg_of_coresReset (perstAssert_coresReset hp hpwr hsw)⟩
    · exact answers_reset ha (coresReset_doWarm ..)
  · exact readReg_of_coresReset coresReset_reset c r

end Sys2Proof.Machine
end

section
/-! PROOFS. VCMP (R336): the order of two numbers that the model computes is that of their values, each governed lane of the predicate
takes the condition, and the flags of the lanes governed and in P1 join those of the chunk. -/

namespace Sys2Proof.Machine

/-! ### The order of values -/

/-- A finite value in units of `2 ^ lo`, as `cmpFV` aligns its operands. -/
def unitsOf (neg : Bool) (m : Nat) (e lo : Int) : Int :=
  let x : Int := (m <<< (e - lo).toNat : Nat)
  if neg then -x else x

theorem value_fin_eq_units (neg : Bool) (m : Nat) {e lo : Int} (h : lo ≤ e) :
    (FV.fin neg m e).value = (((((unitsOf neg m e lo : ℤ) : ℚ) * (2 : ℚ) ^ lo : ℚ) : WithTop ℚ) : WithBot (WithTop ℚ)) := by
  have hpow : (2 : ℚ) ^ e = 2 ^ (e - lo).toNat * 2 ^ lo := by
    rw [← zpow_natCast, Int.toNat_of_nonneg (by omega), ← zpow_add₀ two_ne_zero, sub_add_cancel]
  have hval : (if neg then -1 else 1) * (m : ℚ) * 2 ^ e = (unitsOf neg m e lo : ℤ) * 2 ^ lo := by
    cases neg <;> simp [unitsOf, Nat.shiftLeft_eq, hpow] <;> ring
  exact congrArg (fun q : ℚ => ((q : WithTop ℚ) : WithBot (WithTop ℚ))) hval

theorem cmpFV_fin (s t : Bool) (m n : Nat) (e g : Int) :
    cmpFV (.fin s m e) (.fin t n g) =
      if unitsOf s m e (min e g) < unitsOf t n g (min e g) then -1
      else if unitsOf s m e (min e g) = unitsOf t n g (min e g) then 0 else 1 := by
  simp only [cmpFV, unitsOf, sub_neg, beq_iff_eq, sub_eq_zero]
  rfl

/-- An infinity lies beyond every finite value. -/
theorem value_fin_between (s : Bool) (m : Nat) (e : Int) :
    (FV.inf true).value < (FV.fin s m e).value ∧ (FV.fin s m e).value < (FV.inf false).value :=
  ⟨WithBot.bot_lt_coe _, WithBot.coe_lt_coe.2 (WithTop.coe_lt_top _)⟩

/-- The order that the model computes is that of the values (R336). -/
theorem cmpFV_trichotomy {a b : FV} (h : (a.isNan || b.isNan) = false) :
    (a.value < b.value ∧ cmpFV a b = -1) ∨ (a.value = b.value ∧ cmpFV a b = 0) ∨ (b.value < a.value ∧ cmpFV a b = 1) := by
  match a, b, h with
  | .fin s m e, .fin t n g, _ =>
    have hpos : (0 : ℚ) < 2 ^ min e g := zpow_pos two_pos _
    rw [value_fin_eq_units s m (min_le_left e g), value_fin_eq_units t n (min_le_right e g), cmpFV_fin]
    simp only [WithBot.coe_lt_coe, WithTop.coe_lt_coe, WithBot.coe_inj, WithTop.coe_inj, mul_lt_mul_iff_left₀ hpos,
      mul_left_inj' hpos.ne', Int.cast_lt, Int.cast_inj]
    split_ifs <;> omega
  | .inf true, .inf true, _ | .inf false, .inf false, _ => exact .inr (.inl ⟨rfl, rfl⟩)
  | .inf true, .inf false, _ => exact .inl ⟨WithBot.bot_lt_coe _, rfl⟩
  | .inf false, .inf true, _ => exact .inr (.inr ⟨WithBot.bot_lt_coe _, rfl⟩)
  | .inf true, .fin t n g, _ => exact .inl ⟨(value_fin_between t n g).1, rfl⟩
  | .inf false, .fin t n g, _ => exact .inr (.inr ⟨(value_fin_between t n g).2, rfl⟩)
  | .fin s m e, .inf true, _ => exact .inr (.inr ⟨(value_fin_between s m e).1, rfl⟩)
  | .fin s m e, .inf false, _ => exact .inl ⟨(value_fin_between s m e).2, rfl⟩

theorem cmpFV_neg_iff {a b : FV} (h : (a.isNan || b.isNan) = false) : cmpFV a b < 0 ↔ a.value < b.value := by
  obtain ⟨hv, hc⟩ | ⟨hv, hc⟩ | ⟨hv, hc⟩ := cmpFV_trichotomy h
  · simp [hv, hc]
  · simp [hv, hc]
  · simp [hv.not_gt, hc]

theorem cmpFV_pos_iff {a b : FV} (h : (a.isNan || b.isNan) = false) : 0 < cmpFV a b ↔ b.value < a.value := by
  obtain ⟨hv, hc⟩ | ⟨hv, hc⟩ | ⟨hv, hc⟩ := cmpFV_trichotomy h
  · simp [hv.not_gt, hc]
  · simp [hv, hc]
  · simp [hv, hc]

theorem cmpFV_eq_zero_iff {a b : FV} (h : (a.isNan || b.isNan) = false) : cmpFV a b = 0 ↔ a.value = b.value := by
  obtain ⟨hv, hc⟩ | ⟨hv, hc⟩ | ⟨hv, hc⟩ := cmpFV_trichotomy h
  · simp [hv.ne, hc]
  · simp [hv, hc]
  · simp [hv.ne', hc]

/-! ### Bits of flags and predicates -/

theorem bitOf_zero {n : Nat} (j : Nat) : bitOf (0#n) j = false := by simp [bitOf_eq_getLsbD]

theorem bitOf_and {n : Nat} (v w : BitVec n) (j : Nat) : bitOf (v &&& w) j = (bitOf v j && bitOf w j) := by
  simp [bitOf_eq_getLsbD]

theorem bitOf_or {n : Nat} (v w : BitVec n) (j : Nat) : bitOf (v ||| w) j = (bitOf v j || bitOf w j) := by
  simp [bitOf_eq_getLsbD]

theorem bitOf_flagIf_ieInvalid (p : Bool) (j : Nat) : bitOf (flagIf p ieInvalid) j = (j == 10 && p) := by
  cases p with
  | true =>
    have h : ieInvalid = BitVec.twoPow 11 10 := rfl
    rw [flagIf, if_pos rfl, bitOf_eq_getLsbD, h, BitVec.getLsbD_twoPow]
    obtain rfl | hj := eq_or_ne j 10
    · rfl
    · simp [hj, hj.symm]
  | false => simp [flagIf, bitOf_zero]

theorem bitOf_flagsOr (fs : List Flags) (j : Nat) : bitOf (flagsOr fs) j = fs.any (bitOf · j) := by
  have hfold : ∀ acc : Flags, bitOf (fs.foldl (· ||| ·) acc) j = (bitOf acc j || fs.any (bitOf · j)) := by
    induction fs with
    | nil => simp
    | cons f fs ih => intro acc; simp [ih, bitOf_or, Bool.or_assoc]
  simpa [bitOf_zero, flagsOr] using hfold 0

/-- The lanes of a predicate: those in the mask are new, the others old. -/
theorem bitOf_masked {n : Nat} (old new m : BitVec n) {i : Nat} (hi : i < n) :
    bitOf ((old &&& ~~~m) ||| (new &&& m)) i = if bitOf m i then bitOf new i else bitOf old i := by
  have hnot : bitOf (~~~m) i = !bitOf m i := by simp [bitOf_eq_getLsbD, hi]
  cases h : bitOf m i <;> simp [bitOf_or, bitOf_and, hnot, h]

/-! ### A lane compared -/

/-- What VCMP finds in a lane: whether the condition holds, and the flags it raises. -/
def cmpLane (t : VTy) (c : VCond) (u v : Nat) : Bool × Flags :=
  if vtyF t then cmpF c (decodeElt (vtyFmt t) u) (decodeElt (vtyFmt t) v)
  else (cmpI c (sintOf (vtyBits t) u) (sintOf (vtyBits t) v), 0)

/-- The condition on two numbers, by their values: R336's table, column F32 and F64. -/
def floatHolds (c : VCond) (a b : FV) : Prop :=
  let nan := a.isNan || b.isNan
  match c with
  | .eq => nan = false ∧ a.value = b.value
  | .ne => nan = true ∨ a.value ≠ b.value
  | .lt => nan = false ∧ a.value < b.value
  | .le => nan = false ∧ a.value ≤ b.value
  | .gt => nan = false ∧ b.value < a.value
  | .ge => nan = false ∧ b.value ≤ a.value
  | .un => nan = true

theorem cmpF_iff_floatHolds (c : VCond) (a b : FV) : (cmpF c a b).1 = true ↔ floatHolds c a b := by
  cases hn : a.isNan || b.isNan with
  | true => cases c <;> simp [cmpF, floatHolds, hn]
  | false =>
    cases c
    case eq => simp [cmpF, floatHolds, hn, cmpFV_eq_zero_iff hn]
    case ne => simp [cmpF, floatHolds, hn, cmpFV_eq_zero_iff hn]
    case lt => simp [cmpF, floatHolds, hn, cmpFV_neg_iff hn]
    case le => simp [cmpF, floatHolds, hn, ← not_lt, cmpFV_pos_iff hn]
    case gt => simp [cmpF, floatHolds, hn, cmpFV_pos_iff hn]
    case ge => simp [cmpF, floatHolds, hn, ← not_lt, cmpFV_neg_iff hn]
    case un => simp [cmpF, floatHolds, hn]

/-- When VCMP raises IE_INVALID on two numbers: for any NaN, or only for a signalling one (R336). -/
def raisesInvalid (c : VCond) (a b : FV) : Bool :=
  match c with
  | .lt | .le | .gt | .ge => a.isNan || b.isNan
  | .eq | .ne | .un => a.isSnan || b.isSnan

theorem cmpF_flags (c : VCond) (a b : FV) : (cmpF c a b).2 = flagIf (raisesInvalid c a b) ieInvalid := by cases c <;> rfl

theorem cmpLane_holds_iff (t : VTy) (c : VCond) (u v : Nat) :
    (cmpLane t c u v).1 = true ↔ if vtyF t then floatHolds c (decodeElt (vtyFmt t) u) (decodeElt (vtyFmt t) v)
      else cmpI c (sintOf (vtyBits t) u) (sintOf (vtyBits t) v) = true := by
  unfold cmpLane
  split
  · exact cmpF_iff_floatHolds ..
  · rfl

theorem bitOf_cmpLane_flags (t : VTy) (c : VCond) (u v j : Nat) :
    bitOf (cmpLane t c u v).2 j =
      (j == 10 && (vtyF t && raisesInvalid c (decodeElt (vtyFmt t) u) (decodeElt (vtyFmt t) v))) := by
  cases hf : vtyF t with
  | true => simp [cmpLane, hf, cmpF_flags, bitOf_flagIf_ieInvalid]
  | false => simp [cmpLane, hf, bitOf_zero]

/-! ### The lanes of a slice -/

theorem srcLanes_length (x : Slice) (t : VTy) (a : VSrc) : (srcLanes x t a).length = 256 := by
  cases a with
  | v n => simp only [srcLanes, typedLanes, lanesOf]; split <;> simp
  | ctx c => simp [srcLanes]

theorem srcLanes_eq_map (x : Slice) (t : VTy) (a : VSrc) : srcLanes x t a = (List.range 256).map (srcLane x t a) := by
  refine List.ext_getElem (by simp [srcLanes_length]) fun i h _ => ?_
  simp [srcLane, List.getElem?_eq_getElem h]

/-- The flags of the lanes that are governed and in P1 count (R281). -/
theorem bitOf_laneFlags_map (x : Slice) (g : Nat) (f : Nat → Flags) (j : Nat) :
    bitOf (laneFlags x g ((List.range 256).map f)) j =
      (List.range 256).any fun i => bitOf (pget x g) i && bitOf (pget x 1) i && bitOf (f i) j := by
  have hzip : ((List.range 256).map f).zipIdx = (List.range 256).map fun i => (f i, i) :=
    List.ext_getElem (by simp) (by simp)
  simp only [laneFlags, hzip, List.filter_map, List.map_map, bitOf_flagsOr, List.any_map, List.any_filter, Function.comp_def, bitOf_and]

/-- The number of which bit `i` says whether the condition holds in lane `i`. -/
def packHolds (bs : List (Bool × Flags)) : Nat := bs.foldr (fun q acc => acc * 2 + b2n q.1) 0

theorem testBit_packHolds (bs : List (Bool × Flags)) (i : Nat) : (packHolds bs).testBit i = (bs.map Prod.fst).getD i false := by
  induction bs generalizing i with
  | nil => simp [packHolds]
  | cons q bs ih =>
    have hcons : packHolds (q :: bs) = packHolds bs * 2 + b2n q.1 := rfl
    cases i with
    | zero => cases hq : q.1 <;> simp [hcons, hq, Nat.testBit_zero, b2n]
    | succ i =>
      have hhalf : packHolds (q :: bs) / 2 = packHolds bs := by
        rw [hcons, b2n]; split <;> omega
      simp [Nat.testBit_succ, hhalf, ih]

/-! ### The slice after a VCMP -/

section
variable (x : Slice) (g : Nat) (t : VTy) (d : Nat) (a b : VSrc) (c : VCond)

/-- What VCMP finds in the lanes of a slice. -/
def cmpLanes : List (Bool × Flags) := (List.range 256).map fun i => cmpLane t c (srcLane x t a i) (srcLane x t b i)

/-- The predicate that VCMP writes: the conditions in the governed lanes, the old lanes elsewhere. -/
def cmpPred : BitVec 256 := (pget x d &&& ~~~pget x g) ||| (BitVec.ofNat 256 (packHolds (cmpLanes x t a b c)) &&& pget x g)

theorem vCmp_eq : vCmp x g t d a b c =
    addFlags { x with p := tput 0 x.p d (cmpPred x g t d a b c) } (laneFlags x g ((cmpLanes x t a b c).map (·.2))) := by
  have hlanes : ((srcLanes x t a).zip (srcLanes x t b)).map (fun p => cmpLane t c p.1 p.2) = cmpLanes x t a b c := by
    simp [srcLanes_eq_map, List.zip_map', cmpLanes]
  rw [cmpPred, ← hlanes]
  rfl

theorem bitOf_cmpPred {i : Nat} (hi : i < 256) : bitOf (cmpPred x g t d a b c) i =
    if bitOf (pget x g) i then (cmpLane t c (srcLane x t a i) (srcLane x t b i)).1 else bitOf (pget x d) i := by
  have hnew : bitOf (BitVec.ofNat 256 (packHolds (cmpLanes x t a b c))) i =
      (cmpLane t c (srcLane x t a i) (srcLane x t b i)).1 := by
    simp only [bitOf_eq_getLsbD, BitVec.getLsbD_ofNat, testBit_packHolds]
    simp [cmpLanes, hi]
  rw [cmpPred, bitOf_masked _ _ _ hi, hnew]

theorem runStopped_vCmp : runStopped (vCmp x g t d a b c) = runStopped x := rfl

theorem pget_vCmp (hp : sparse 0 x.p) (hd : d ≠ 0) (n : Nat) :
    pget (vCmp x g t d a b c) n = if n = d then cmpPred x g t d a b c else pget x n := by
  simp only [vCmp_eq, pget, addFlags, tget_tput _ _ _ _ _ hp, beq_iff_eq]
  obtain rfl | hn := eq_or_ne n d
  · simp only [hd, if_false, if_true]
  · simp only [hn, if_false]

theorem bitOf_vCmp_flags (j : Nat) : bitOf (vCmp x g t d a b c).run.flags j = (bitOf x.run.flags j || (j == 10 &&
    (List.range 256).any fun i => bitOf (pget x g) i && bitOf (pget x 1) i && (vtyF t &&
      raisesInvalid c (decodeElt (vtyFmt t) (srcLane x t a i)) (decodeElt (vtyFmt t) (srcLane x t b i))))) := by
  simp only [vCmp_eq, addFlags, bitOf_or, cmpLanes, List.map_map, Function.comp_def, bitOf_laneFlags_map, bitOf_cmpLane_flags]
  cases j == 10 <;> simp

end

/-! ### The command -/

/-- A vector instruction whose operands R298 rejects is refused. -/
theorem vecCmd_of_not_legal {o : VOp} (h : vLegal o = false) (s : State) (sl : SliceNo) (name : String) (f : MemFault) :
    vecCmd s sl name o f = .refused (.rejectedAtLoad name) := by simp [vecCmd, h]

theorem setSlice_setSlice (s : State) (sl : SliceNo) (x y : Slice) : setSlice (setSlice s sl x) sl y = setSlice s sl y := by
  simp [setSlice]

/-- A vector instruction that works on the registers of its slice, and does not stop the run, goes on to the next one. -/
theorem vecCmd_onSlice {s : State} {sl : SliceNo} {o : VOp} {fault : MemFault} {f : Slice → Slice} (hs : sliceReady s sl)
    (hlegal : vLegal o = true) (hemit : isEmit o = false) (hop : vexecF (enterVec s sl o) sl o fault = onSlice s sl f)
    (hgo : runStopped (f (getSlice s sl)) = false) (name : String) :
    vecCmd s sl name o fault = .next (setSlice s sl (nextInstr (f (getSlice s sl)))) := by
  obtain ⟨hrun, hlive, hstop⟩ := hs
  simp only [runStopped, Bool.or_eq_false_iff] at hgo
  obtain ⟨⟨hexc, hpoisoned⟩, hstalled⟩ := hgo
  have hget : getSlice (onSlice s sl f) sl = f (getSlice s sl) := getSlice_setSlice ..
  have hnext : onSlice (onSlice s sl f) sl nextInstr = setSlice s sl (nextInstr (f (getSlice s sl))) := by
    rw [onSlice, hget, onSlice, setSlice_setSlice]
  simp only [vecCmd, hlegal, hemit, hrun, hlive, hstop, hop, hget, hexc, hpoisoned, hstalled, hnext, Bool.not_true, Bool.false_and,
    Bool.or_self, Bool.and_self, Bool.false_eq_true, if_false]

theorem exec_vcmp {s : State} {sl : SliceNo} {d : Fin 8} {t : VTy} {a b : VSrc} (hs : sliceReady s sl) (hd : d ≠ 0)
    (ha : srcOk t a = true) (hb : srcOk t b = true) (g : Fin 8) (c : VCond) :
    exec (.vcmp sl g t d a b c) s = .next (setSlice s sl (nextInstr (vCmp (getSlice s sl) g.val t d.val a b c))) := by
  have hlegal : vLegal (.cmp g t d a b c) = true := by simp [vLegal, hd, ha, hb]
  have ⟨_, _, hstop⟩ := hs
  exact vecCmd_onSlice (fault := .none) (f := fun x => vCmp x g.val t d.val a b c) hs hlegal rfl rfl
    ((runStopped_vCmp ..).trans hstop) "VCMP"

theorem onlySlice_setSlice (s : State) (sl : SliceNo) (x : Slice) : onlySlice s (setSlice s sl x) sl :=
  ⟨rfl, fun k h => getSlice_setSlice_ne s sl k x h⟩

/-- The condition 7 is reserved: no word that names it decodes. -/
theorem decodeVec_reserved_condition (w : Word) (hop : fld w 56 8 = 0x88) (hc : fld w 0 3 = 7) : decodeVec w = none := by
  have himm : fld (w.setWidth 32) 0 3 = 7 := by
    rw [← hc]
    simp only [fld, BitVec.toNat_setWidth]
    omega
  simp [decodeVec, hop, himm, vcondOf]

/-- Settles O38: the condition of every governed lane is that of the values, by `cmpFV_trichotomy`. -/
theorem vectorCompare : Obligations.VectorCompare := by
  unfold Obligations.VectorCompare
  refine ⟨fun s sl g pd t a b c hs hw ha hb => ?_, decodeVec_reserved_condition⟩
  intro x A B nan P Q cond invalid
  have hcond : ∀ i, (cmpLane t c (srcLane x t a i) (srcLane x t b i)).1 = true ↔ cond i := fun i => by
    rw [cmpLane_holds_iff]
    cases c <;> simp [cond, floatHolds, cmpI, nan, A, B, P, Q]
  have hinvalid : ∀ i, invalid i = (vtyF t && raisesInvalid c (A i) (B i)) := fun i => by cases c <;> rfl
  refine ⟨fun h0 => vecCmd_of_not_legal (by simp [vLegal, h0]) .., fun h0 => ⟨_, exec_vcmp hs h0 ha hb g c, ?_⟩⟩
  have hd : pd.val ≠ 0 := fun h => h0 (Fin.ext h)
  obtain ⟨-, hp, -, -⟩ := hw
  have hpred : ∀ n, pget (vCmp x g.val t pd.val a b c) n = if n = pd.val then cmpPred x g.val t pd.val a b c else pget x n :=
    pget_vCmp x g.val t pd.val a b c hp hd
  have hlane : ∀ i, i < 256 → bitOf (pget (vCmp x g.val t pd.val a b c) pd.val) i =
      if bitOf (pget x g.val) i then (cmpLane t c (srcLane x t a i) (srcLane x t b i)).1 else bitOf (pget x pd.val) i :=
    fun i hi => by rw [hpred, if_pos rfl, bitOf_cmpPred x g.val t pd.val a b c hi]
  simp only [getSlice_setSlice, hinvalid]
  refine ⟨onlySlice_setSlice .., rfl, fun n hn => ?_, fun i hi hg => ?_, fun i hi hg => ?_, fun hzero i hi => ?_, fun j => ?_⟩
  · exact (hpred n).trans (if_neg hn)
  · exact (hlane i hi).trans (by simp [hg])
  · exact (Bool.eq_iff_iff.1 (hlane i hi)).trans (by simp [hg, hcond])
  · exact (Bool.eq_iff_iff.1 (hlane i hi)).trans (by simp [hzero, bitOf_zero, hcond])
  · exact bitOf_vCmp_flags x g.val t pd.val a b c j

end Sys2Proof.Machine
end
